-- ==== Sys2Proof/Word.lean ====
section
/-! DEFINITION. The word types of L3RB: the byte of BITBUF (R40) and the 32-bit word of the host bus,
of the command word and of every non-integer memory cell in the REF32 carrier (R12). -/

namespace Sys2Proof

/-- One byte of BITBUF (R40). -/
abbrev Byte := BitVec 8

/-- One 32-bit word: a host bus word (R8), a command word (R140), or a REF32 carrier element (R12). -/
abbrev Word := BitVec 32

end Sys2Proof
end

