-- ==== Sys2Proof/Config.lean ====
section
/-! DEFINITION. The constants that L3RB's spec leaves open (R7) and the free values of the model. Each is
opaque with no body, so that no proof can see a value: a claim is true whatever they are. -/

namespace Sys2Proof

/-- A complete prefix code over values of `α`, as its binary tree: reading 0 goes to `zero`, reading 1 to
`one`, and a leaf ends a codeword. Every tree is prefix-free with Kraft sum 1 (R204). -/
inductive Code (α : Type) where
  | leaf (value : α)
  | node (zero one : Code α)
  deriving DecidableEq, Repr, Inhabited

/-- The value pair of one big-values codeword: "4-bit nibbles" x and y (R203). -/
abbrev Nibbles := BitVec 4 × BitVec 4

/-- `HUFF_ROM_13` (R7, R204): the open codebook of Huffman table 13. -/
opaque Config.huffRom13 : Code Nibbles

/-- `HUFF_ROM_15` (R7, R204): the open codebook of Huffman table 15. -/
opaque Config.huffRom15 : Code Nibbles

/-- `HUFF_ROM_16` (R7, R204): the open codebook shared by Huffman tables 16 to 23. -/
opaque Config.huffRom16 : Code Nibbles

/-- `HUFF_ROM_24` (R7, R204): the open codebook shared by Huffman tables 24 to 31. -/
opaque Config.huffRom24 : Code Nibbles

/-- `SYNTH_D` (R7, R352): the open synthesis window, `D[i] = (synthD i).toInt / 2^16` for i = 0…511. The
18-bit two's complement form takes two of R352's hypotheses into the type: every `D[i]` is an integer
multiple of 2^-16, and it lies in [-2, 2) (PRESUMED, log entry 11). -/
opaque Config.synthD : Nat → BitVec 18

/-! ### `NUM_IMPL` (R7, R14) -/

/-- The operations of a numeric implementation over a carrier of `bits`-bit patterns (R14). An output `none` is a value
that the instance leaves open (R13, U1). An output is indexed by its place in the list of the rule that names it, and a
list of inputs is in the order of that rule. -/
structure NumOps (bits : Nat) where
  /-- the carrier element ZERO, whose reference value is 0 (R402) -/
  zero : BitVec bits
  /-- R12: the word that the host sees of a carrier element -/
  enc : BitVec bits → Word
  /-- R12: the carrier element that a host write of a word stores -/
  dec : Word → BitVec bits
  /-- R14: the real value of a finite carrier element, `none` for one that is not finite. DESIGN CHOICE (log entry
  22): it is rational. -/
  val : BitVec bits → Option ℚ
  /-- R256: v and the quarter-step exponent E -/
  deq : Int → Int → BitVec bits
  /-- R305: u, d and the butterfly number i -/
  aa : BitVec bits → BitVec bits → Nat → Option (BitVec bits) × Option (BitVec bits)
  /-- R313: X[0…17], O[0…17], the window type and the subband; Y[t] and O2[t], t = 0…17 -/
  imdct : List (BitVec bits) → List (BitVec bits) → BitVec 2 → Nat →
    (Nat → Option (BitVec bits)) × (Nat → Option (BitVec bits))
  /-- R356: S[0…31] and Vo[0…959]; Vn[i], i = 0…63, and y[j], j = 0…31 -/
  synth : List (BitVec bits) → List (BitVec bits) → (Nat → Option (BitVec bits)) × (Nat → Option (BitVec bits))
  deriving Inhabited

/-- An instance of `NUM_IMPL` (R14): its carrier and its operations. DESIGN CHOICE (log entry 22): the carrier is that
of the patterns of some number of bits. -/
structure NumImpl where
  bits : Nat
  ops : NumOps bits
  deriving Inhabited

/-- The carrier `NUM_IMPL.R` (R12, R14). -/
abbrev NumImpl.R (N : NumImpl) : Type := BitVec N.bits

/-- `NUM_IMPL` (R7): open. The machine is L3RB at this instance, and each of its parts is defined at every instance. -/
opaque Config.numImpl : NumImpl

/-! ### `BASE` (R7) -/

/-- `BASE` in units of 64 KiB. -/
opaque Config.baseIndex : Nat

/-- `BASE` (R7): the host physical address of the window, open but for being 64 KiB aligned (R102). -/
def Config.base : Nat := 0x10000 * Config.baseIndex

/-! ### Free values -/

/-- FREE VALUE: the carrier element that an output cell holds when NUM_IMPL leaves its value open, as REF32 does where
the output's formula reads a NaN or an infinity (R13, U1). The arguments are the carrier's width and a slot number that
no two outputs of a run share. -/
opaque Config.freeCell : (bits : Nat) → Nat → BitVec bits

/-- FREE VALUE: the clipped sample stored for a NaN or infinite y (R357, U2). -/
opaque Config.freeSample : Nat → BitVec 16

/-- FREE VALUE: whether the clipped sample of a NaN or infinite y counts as clipped (R357, U2). -/
opaque Config.freeClip : Nat → Bool

end Sys2Proof
end

