-- ==== Sys2Proof/Syntax.lean ====
section
/-! DEFINITION. The abstract syntax of L3RB's commands: one constructor per row of
spec/opcode_table.json (R143). Operands are the command word's own fields (R140, R142); every other
operand of a command comes from the parameter snapshot (R54). -/

namespace Sys2Proof

/-- The eight commands of R143. `ch` is field CH, `t` field T and `mask` field MASK of R140. -/
inductive Instr where
  /-- NOP (format N, R400). -/
  | nop
  /-- HUFF (format N, R200). -/
  | huff
  /-- DEQ ch (format C, R250). -/
  | deq (ch : BitVec 1)
  /-- AA ch (format C, R300). -/
  | aa (ch : BitVec 1)
  /-- IMDCT ch (format C, R310). -/
  | imdct (ch : BitVec 1)
  /-- SYNTH ch, t (format S, R350). -/
  | synth (ch : BitVec 1) (t : BitVec 5)
  /-- SYNTHG ch (format C, R360). -/
  | synthg (ch : BitVec 1)
  /-- CLRH mask (format M, R402). -/
  | clrh (mask : BitVec 2)
  deriving DecidableEq, Repr

end Sys2Proof
end

