-- ==== Sys2Proof/WellFormed.lean ====
section
/-! DEFINITION. Which terms of `Instr` are commands of L3RB. The field widths of R140 are in the types;
the one check left is SYNTH's time slot, 0…17 (R145 (c)). -/

namespace Sys2Proof

/-- SYNTH's time slot is one of the 18 of a granule (R350: T = t ∈ 0…17). -/
def Instr.slotOk (t : BitVec 5) : Bool := decide (t.toNat ≤ 17)

/-- The well-formed commands: exactly those that some accepted command word encodes (R144, R145). -/
def Instr.wellFormed : Instr → Bool
  | .nop => true
  | .huff => true
  | .deq _ => true
  | .aa _ => true
  | .imdct _ => true
  | .synth _ t => Instr.slotOk t
  | .synthg _ => true
  | .clrh _ => true

end Sys2Proof
end

