-- ==== Sys2Proof/Decode.lean ====
section
/-! DEFINITION. The command decoder of R144, total on every 32-bit word and rejecting by name, and the
encoder of R147 written from the field layout of R140, R141 and R143. -/

namespace Sys2Proof

/-- Why a command word is illegal (R145): each is refused at issue with BADCMD. -/
inductive DecodeError where
  /-- (a) OP = 0x08…0xFF. -/
  | reservedOpcode
  /-- (b) a bit set outside the field mask of the opcode's format. -/
  | reservedBit
  /-- (c) SYNTH with T = 18…31. -/
  | slotRange
  deriving DecidableEq, Repr

/-- The four command formats of R141. -/
inductive Format where
  | n
  | c
  | s
  | m
  deriving DecidableEq, Repr

/-- The opcodes of R143, by mnemonic. -/
inductive Opcode where
  | nop
  | huff
  | deq
  | aa
  | imdct
  | synth
  | synthg
  | clrh
  deriving DecidableEq, Repr

/-- Field OP, bits 7:0 of the command word (R140). -/
def Word.op (w : Word) : BitVec 8 := w.extractLsb' 0 8

/-- Field CH, bit 8 (R140). -/
def Word.ch (w : Word) : BitVec 1 := w.extractLsb' 8 1

/-- Field MASK, bits 9:8 (R140). -/
def Word.mask (w : Word) : BitVec 2 := w.extractLsb' 8 2

/-- Field T, bits 16:12 (R140). -/
def Word.slot (w : Word) : BitVec 5 := w.extractLsb' 12 5

/-- The opcode map of R143; 0x08…0xFF are reserved. -/
def Opcode.ofByte (b : BitVec 8) : Option Opcode :=
  if b = 0x00#8 then some .nop
  else if b = 0x01#8 then some .huff
  else if b = 0x02#8 then some .deq
  else if b = 0x03#8 then some .aa
  else if b = 0x04#8 then some .imdct
  else if b = 0x05#8 then some .synth
  else if b = 0x06#8 then some .synthg
  else if b = 0x07#8 then some .clrh
  else none

/-- Each mnemonic's opcode byte, the column OP of R143. -/
def Opcode.byte : Opcode → BitVec 8
  | .nop => 0x00#8
  | .huff => 0x01#8
  | .deq => 0x02#8
  | .aa => 0x03#8
  | .imdct => 0x04#8
  | .synth => 0x05#8
  | .synthg => 0x06#8
  | .clrh => 0x07#8

/-- Each mnemonic's format, the column "format" of R143. -/
def Opcode.format : Opcode → Format
  | .nop => .n
  | .huff => .n
  | .deq => .c
  | .aa => .c
  | .imdct => .c
  | .synth => .s
  | .synthg => .c
  | .clrh => .m

/-- The field masks of R141: the bits of a word that are fields of the format. -/
def Format.fieldMask : Format → Word
  | .n => 0x000000FF#32
  | .c => 0x000001FF#32
  | .s => 0x0001F1FF#32
  | .m => 0x000003FF#32

/-- The command of an accepted word with opcode `op`: its operands taken as written (R142). -/
def Opcode.command (op : Opcode) (w : Word) : Instr :=
  match op with
  | .nop => .nop
  | .huff => .huff
  | .deq => .deq (Word.ch w)
  | .aa => .aa (Word.ch w)
  | .imdct => .imdct (Word.ch w)
  | .synth => .synth (Word.ch w) (Word.slot w)
  | .synthg => .synthg (Word.ch w)
  | .clrh => .clrh (Word.mask w)

/-- R144: decode a command word, in the rule's own order of tests. -/
def decode (w : Word) : Except DecodeError Instr :=
  match Opcode.ofByte (Word.op w) with
  | none => .error .reservedOpcode
  | some op =>
    if w &&& ~~~(op.format.fieldMask) ≠ 0#32 then .error .reservedBit
    else if op = .synth ∧ 17 < (Word.slot w).toNat then .error .slotRange
    else .ok (op.command w)

/-- The opcode of a command. -/
def Instr.opcode : Instr → Opcode
  | .nop => .nop
  | .huff => .huff
  | .deq _ => .deq
  | .aa _ => .aa
  | .imdct _ => .imdct
  | .synth _ _ => .synth
  | .synthg _ => .synthg
  | .clrh _ => .clrh

/-- The operand bits of a command in place: `ch << 8`, `ch << 8 | t << 12` or `mask << 8` (R147). -/
def Instr.operandBits : Instr → Word
  | .nop => 0#32
  | .huff => 0#32
  | .deq ch => ch.setWidth 32 <<< 8
  | .aa ch => ch.setWidth 32 <<< 8
  | .imdct ch => ch.setWidth 32 <<< 8
  | .synth ch t => (ch.setWidth 32 <<< 8) ||| (t.setWidth 32 <<< 12)
  | .synthg ch => ch.setWidth 32 <<< 8
  | .clrh mask => mask.setWidth 32 <<< 8

/-- R147: the encoding of a command, OP with its operand fields. -/
def encode (i : Instr) : Word := i.opcode.byte.setWidth 32 ||| i.operandBits

/-- The decoder on a row of spec/opcode_table.json: the row's `nbits` bits are the number `w`, bit 0
least significant, and every bit above them is 0. A number that does not fit `nbits` bits, or 32 bits,
is no command word. -/
def decodeTableWord (nbits w : Nat) : Option Instr :=
  if w < 2 ^ nbits ∧ w < 2 ^ 32 then
    match decode (BitVec.ofNat 32 w) with
    | .ok i => some i
    | .error _ => none
  else none

end Sys2Proof
end

