-- ==== Sys2Proof/Machine/State.lean ====
section
/-! DEFINITION. The state of L3RB as plain data: every register of R31 by its fields, the command latch of
R54, every memory of R40–R48, and the host's pending accesses. Fields that R31 says read 0 and ignore
writes are not stored. -/

namespace Sys2Proof.Machine

/-- CFG (R36). -/
structure Cfg where
  sfreq : BitVec 4
  stereo : Bool
  unclip : Bool
  deriving DecidableEq, Repr

/-- GAIN (R38). -/
structure Gain where
  gg : BitVec 8
  ss : Bool
  pre : Bool
  c1sel : Bool
  deriving DecidableEq, Repr

/-- TSEL (R37). -/
structure Tsel where
  t0 : BitVec 5
  t1 : BitVec 5
  t2 : BitVec 5
  deriving DecidableEq, Repr

/-- REGION (R37). -/
structure Region where
  r1 : BitVec 10
  r2 : BitVec 10
  deriving DecidableEq, Repr

/-- BLOCK (R39). -/
structure Block where
  bt : BitVec 2
  mix : Bool
  sbg0 : BitVec 3
  sbg1 : BitVec 3
  sbg2 : BitVec 3
  deriving DecidableEq, Repr

/-- The ten registers of which the command latch holds a snapshot (R54). -/
structure Params where
  cfg : Cfg
  /-- P23LEN.LEN (R37) -/
  len : BitVec 12
  /-- P2BITS.P2 (R37) -/
  p2 : BitVec 12
  /-- BIGVAL.BV (R37) -/
  bv : BitVec 10
  gain : Gain
  tsel : Tsel
  region : Region
  block : Block
  /-- BITPOS.POS (R50) -/
  pos : BitVec 16
  /-- BITEND.END (R50) -/
  bitEnd : BitVec 16
  deriving DecidableEq, Repr

/-- CTRL (R33): the three interrupt enables; SRST is write-only and stores nothing. -/
structure Ctrl where
  ieDone : Bool
  ieErr : Bool
  ieWarn : Bool
  deriving DecidableEq, Repr

/-- STATUS (R35) but for BUSY, which is the latch being held (R54; DEDUCED, log entry 2). Bit k of `warns` is STATUS
bit 16 + k. -/
structure Status where
  done : Bool
  err : Bool
  errcode : BitVec 4
  warns : BitVec 8
  deriving DecidableEq, Repr

/-- The command latch (R54): the accepted word and the parameter registers at the same instant. -/
structure Latch where
  word : Word
  snap : Params
  deriving DecidableEq, Repr

/-- One memory: its cells by index, strictly rising, no entry equal to what an unlisted cell holds. For
8-bit cells this is the list of `Host.Cell`. DESIGN CHOICE (log entry 1): a list per memory, in cells of R40–R48. -/
abbrev Store (w : Nat) := List (Nat × BitVec w)

/-- The memories and the offset that each channel has of its own (R44–R47, R53), over the carrier of an instance of
NUM_IMPL (R12). -/
structure Channel (N : NumImpl) where
  /-- XR[c][i] at key i (R44) -/
  xr : Store N.bits
  /-- OVL[c][18·sb + k] at key 18·sb + k (R45) -/
  ovl : Store N.bits
  /-- SBS[c][t][sb] at key 32·t + sb (R46, R100) -/
  sbs : Store N.bits
  /-- VR[c][j] at key j (R47) -/
  vr : Store N.bits
  /-- SYNBO.BOc (R53) -/
  bo : BitVec 4
  deriving DecidableEq, Repr

/-- The size of a host bus access (R105); only 8-bit and 32-bit accesses are ever accepted. -/
inductive Width where
  | w8
  | w16
  | w32
  | w64
  deriving DecidableEq, Repr

/-- A host bus access at a byte offset of the window (R9, R100). A byte write carries its byte in bits 7:0
(DESIGN CHOICE, log entry 21). -/
inductive HostOp where
  | read (width : Width) (offset : BitVec 16)
  | write (width : Width) (offset : BitVec 16) (data : Word)
  deriving DecidableEq, Repr

/-- A host bus access at a physical address: L3RB's window begins at BASE (R7, R100). -/
inductive BusOp where
  | read (width : Width) (address : Nat)
  | write (width : Width) (address : Nat) (data : Word)
  deriving DecidableEq, Repr

/-- What happens next at L3RB's boundary: a host access to the window or at a physical address, the host's WAIT
(R148), the sequencer's step, or a power-on reset (DESIGN CHOICE, log entry 4). -/
inductive Event where
  | host (op : HostOp)
  | bus (op : BusOp)
  | wait
  | sequencer
  | powerOn
  deriving DecidableEq, Repr

/-- Why the machine stops with a fault: the three model faults of R467. All are safe: hardware goes on,
setting no STATUS bit, with a result the spec does not define. -/
inductive Fault where
  /-- HOST_BUSERR (R106): raised by a host access of a width or alignment the window refuses. Safe. -/
  | hostBusErr
  /-- HOST_RACE (R511): raised by a host access to a memory while BUSY = 1. Safe. -/
  | hostRace
  /-- UNWRITTEN (R57): raised by a command or a host access that reads a cell of unspecified content. Safe. -/
  | unwritten
  deriving DecidableEq, Repr

/-- Why the machine gives a step no meaning. -/
inductive Refusal where
  /-- Raised by an arm of `exec` whose instruction has no meaning yet. Safe. -/
  | notModelled (mnemonic : String)
  /-- Raised by HUFF when a pair selects an open table whose configured codebook is no complete prefix code
  over the 256 pairs (R204: "A model must refuse a configuration whose codebook is not a complete prefix
  code"; DEDUCED, log entry 15). Safe. -/
  | badCodebook
  /-- Raised by the sequencer's step when the latched word does not decode. No run reaches it: R450 latches
  only words that decode (DESIGN CHOICE, log entry 16). Safe. -/
  | undecodable
  deriving DecidableEq, Repr

/-- The whole state of L3RB and of its surroundings. `State` alone is the state at the machine's NUM_IMPL (R7); at
another instance N it is `State N`. -/
structure State (N : NumImpl := Config.numImpl) where
  ctrl : Ctrl
  status : Status
  /-- the live parameter registers CFG … BITEND (R36–R39, R50) -/
  par : Params
  /-- HUFFUSED (R51) -/
  huffused : BitVec 16
  /-- OVERRUN (R51) -/
  overrun : BitVec 16
  /-- C1END (R51) -/
  c1end : BitVec 10
  /-- CLIPCNT (R52) -/
  clipcnt : BitVec 32
  /-- the command latch (R54); BUSY is its being held -/
  latch : Option Latch
  /-- BITBUF[k] at key k (R40) -/
  bitbuf : Store 8
  /-- SFL[b] at key b (R41) -/
  sfl : Store 6
  /-- SFS[b][w] at key 3·b + w (R42, R100) -/
  sfs : Store 6
  /-- IS[i] at key i (R43) -/
  isq : Store 16
  /-- PCM[n] at key n (R48) -/
  pcm : Store 32
  /-- channel 0's XR, OVL, SBS, VR and BO -/
  ch0 : Channel N
  /-- channel 1's XR, OVL, SBS, VR and BO -/
  ch1 : Channel N
  /-- the model's own: the events to come, oldest first (DESIGN CHOICE, log entries 4 and 5) -/
  pending : List Event
  /-- the model's own: the data of the last host read that was answered (DESIGN CHOICE, log entry 5) -/
  rdata : Option Word
  /-- the model's own: the next unused slot of the free values (DESIGN CHOICE, log entries 5 and 7) -/
  free : Nat
  deriving DecidableEq, Repr

/-- Every parameter register at its reset value 0 (R31, R500). -/
def Params.reset : Params where
  cfg := ⟨0#4, false, false⟩
  len := 0#12
  p2 := 0#12
  bv := 0#10
  gain := ⟨0#8, false, false, false⟩
  tsel := ⟨0#5, 0#5, 0#5⟩
  region := ⟨0#10, 0#10⟩
  block := ⟨0#2, false, 0#3, 0#3, 0#3⟩
  pos := 0#16
  bitEnd := 0#16

/-- A channel after power-on reset (R500): OVL and VR all ZERO, BO 0, XR and SBS unspecified. Nothing is
listed: an unlisted OVL or VR cell holds ZERO, an unlisted cell of any other memory holds no value. -/
def Channel.reset {N : NumImpl} : Channel N where
  xr := []
  ovl := []
  sbs := []
  vr := []
  bo := 0#4

/-- The state after power-on reset (R500), at any instance of NUM_IMPL. -/
def State.initial (N : NumImpl) : State N where
  ctrl := ⟨false, false, false⟩
  status := ⟨false, false, 0#4, 0#8⟩
  par := Params.reset
  huffused := 0#16
  overrun := 0#16
  c1end := 0#10
  clipcnt := 0#32
  latch := none
  bitbuf := []
  sfl := []
  sfs := []
  isq := []
  pcm := []
  ch0 := Channel.reset
  ch1 := Channel.reset
  pending := []
  rdata := none
  free := 0

/-- The machine right after reset (R500). -/
def State.reset : State := State.initial Config.numImpl

end Sys2Proof.Machine
end

