-- ==== Sys2Proof/Machine/Memory.lean ====
section
/-! DEFINITION. The operations on one memory of L3RB (a `Store`, R40–R48). Each takes `d`, what an unlisted
cell holds: `none` for a memory that power-on reset leaves unspecified (R57), ZERO for OVL and VR, which it
zeroes (R500). -/

namespace Sys2Proof

/-- What an unlisted cell of OVL or VR holds: ZERO (R500, R402). -/
def NumImpl.zeroed (N : NumImpl) : Option N.R := some N.ops.zero

namespace Machine

variable {w : Nat}

/-- What an unlisted cell of BITBUF, SFL, SFS, IS, XR, SBS or PCM holds: no value (R57, R500; log entry 3). -/
def unspecified : Option (BitVec w) := none

/-- The content of cell `a`, `none` when it is unspecified. -/
def Store.get (d : Option (BitVec w)) : Store w → Nat → Option (BitVec w)
  | [], _ => d
  | (k, v) :: m, a => if k = a then some v else Store.get d m a

/-- The content of the first cell of `m` if it is cell `a`, else of an unlisted cell. -/
def Store.first (d : Option (BitVec w)) (m : Store w) (a : Nat) : Option (BitVec w) :=
  match m with
  | [] => d
  | (k, v) :: _ => if k = a then some v else d

/-- The contents of the cells `as`, which rise, in one pass over the memory; `none` when one of them is
unspecified. -/
def Store.reads (d : Option (BitVec w)) : Store w → List Nat → Option (List (BitVec w))
  | _, [] => some []
  | m, a :: as =>
    match Store.first d (m.dropWhile (fun e => decide (e.1 < a))) a,
      Store.reads d (m.dropWhile (fun e => decide (e.1 < a))) as with
    | some v, some vs => some (v :: vs)
    | _, _ => none

/-- The contents of the `n` cells from `base` on. -/
def Store.block (d : Option (BitVec w)) (m : Store w) (base n : Nat) : Option (List (BitVec w)) :=
  Store.reads d m (List.range' base n)

/-- The entry that cell `a` holding `v` takes in the canonical form: none when an unlisted cell holds `v`. -/
def Store.entry (d : Option (BitVec w)) (a : Nat) (v : BitVec w) : Store w :=
  if some v = d then [] else [(a, v)]

/-- Write the cells listed, whose indices rise, in one pass over the memory. -/
def Store.writes (d : Option (BitVec w)) : Store w → List (Nat × BitVec w) → Store w
  | m, [] => m
  | m, (a, v) :: l =>
    m.takeWhile (fun e => decide (e.1 < a)) ++ (Store.entry d a v ++
      Store.writes d (m.dropWhile (fun e => decide (e.1 ≤ a))) l)

/-- Write one cell. -/
def Store.set (d : Option (BitVec w)) (m : Store w) (a : Nat) (v : BitVec w) : Store w :=
  Store.writes d m [(a, v)]

/-- Pair the values `vs` with the cells from `base` on. -/
def cellsFrom (base : Nat) : List (BitVec w) → List (Nat × BitVec w)
  | [] => []
  | v :: vs => (base, v) :: cellsFrom (base + 1) vs

/-- Write the values `vs` to the cells from `base` on. -/
def Store.fill (d : Option (BitVec w)) (m : Store w) (base : Nat) (vs : List (BitVec w)) : Store w :=
  Store.writes d m (cellsFrom base vs)

/-- Make the cells that `p` picks unspecified (R57, R501), in a memory whose unlisted cells hold no value. -/
def Store.forget (m : Store w) (p : Nat → Bool) : Store w := m.filter (fun e => !p e.1)

/-- The canonical form: indices strictly rising and below `n`, and no entry equal to an unlisted cell. -/
def Store.wf (d : Option (BitVec w)) (n : Nat) (m : Store w) : Bool :=
  decide (m.Pairwise (fun e f => e.1 < f.1)) && m.all (fun e => decide (e.1 < n) && decide (some e.2 ≠ d))

end Machine

end Sys2Proof
end

