-- ==== Sys2Proof/Machine/Operands.lean ====
section
/-! DEFINITION. The operands of commands and host accesses: the parameter snapshot, the channels, the packing of
register fields into host words (R31, R36–R39, R50–R53), and the free values that unspecified outputs take. -/

namespace Sys2Proof.Machine

variable {N : NumImpl}

/-! ### The snapshot and the channels -/

/-- BUSY (R35): a command is latched and not complete (R54). -/
def State.busy (s : State N) : Bool := s.latch.isSome

/-- The parameter registers a command reads: the latch's snapshot, never the live registers (R54). With an
empty latch, which no step gives a command, they are the live registers, as an issue would take them now (DESIGN
CHOICE, log entry 16). -/
def State.snap (s : State N) : Params :=
  match s.latch with
  | some l => l.snap
  | none => s.par

/-- Channel `c`'s memories and offset. -/
def State.chan (s : State N) (c : BitVec 1) : Channel N := if c = 0#1 then s.ch0 else s.ch1

/-- Replace channel `c`'s memories and offset. -/
def State.setChan (s : State N) (c : BitVec 1) (x : Channel N) : State N :=
  if c = 0#1 then { s with ch0 := x } else { s with ch1 := x }

/-! ### Register words -/

/-- A register field's value placed at its low bit. -/
def atBit {n : Nat} (lo : Nat) (v : BitVec n) : Word := v.setWidth 32 <<< lo

/-- A one-bit field placed at its bit. -/
def flagAt (bit : Nat) (b : Bool) : Word := if b then 1#32 <<< bit else 0#32

/-- A field of a word: `n` bits from bit `lo` on (R8). -/
def fieldOf (w : Word) (lo n : Nat) : BitVec n := w.extractLsb' lo n

/-- CFG as the host reads it (R36). -/
def Cfg.word (r : Cfg) : Word := atBit 0 r.sfreq ||| flagAt 4 r.stereo ||| flagAt 5 r.unclip

/-- CFG as a host write stores it (R36). -/
def Cfg.ofWord (w : Word) : Cfg := ⟨fieldOf w 0 4, w.getLsbD 4, w.getLsbD 5⟩

/-- GAIN as the host reads it (R38). -/
def Gain.word (r : Gain) : Word := atBit 0 r.gg ||| flagAt 8 r.ss ||| flagAt 9 r.pre ||| flagAt 10 r.c1sel

/-- GAIN as a host write stores it (R38). -/
def Gain.ofWord (w : Word) : Gain := ⟨fieldOf w 0 8, w.getLsbD 8, w.getLsbD 9, w.getLsbD 10⟩

/-- TSEL as the host reads it (R37). -/
def Tsel.word (r : Tsel) : Word := atBit 0 r.t0 ||| atBit 8 r.t1 ||| atBit 16 r.t2

/-- TSEL as a host write stores it (R37). -/
def Tsel.ofWord (w : Word) : Tsel := ⟨fieldOf w 0 5, fieldOf w 8 5, fieldOf w 16 5⟩

/-- REGION as the host reads it (R37). -/
def Region.word (r : Region) : Word := atBit 0 r.r1 ||| atBit 16 r.r2

/-- REGION as a host write stores it (R37). -/
def Region.ofWord (w : Word) : Region := ⟨fieldOf w 0 10, fieldOf w 16 10⟩

/-- BLOCK as the host reads it (R39). -/
def Block.word (r : Block) : Word :=
  atBit 0 r.bt ||| flagAt 2 r.mix ||| atBit 4 r.sbg0 ||| atBit 8 r.sbg1 ||| atBit 12 r.sbg2

/-- BLOCK as a host write stores it (R39). -/
def Block.ofWord (w : Word) : Block := ⟨fieldOf w 0 2, w.getLsbD 2, fieldOf w 4 3, fieldOf w 8 3, fieldOf w 12 3⟩

/-- CTRL as the host reads it: SRST reads 0 (R33). -/
def Ctrl.word (r : Ctrl) : Word := flagAt 1 r.ieDone ||| flagAt 2 r.ieErr ||| flagAt 3 r.ieWarn

/-- CTRL's enables as a host write stores them (R33). -/
def Ctrl.ofWord (w : Word) : Ctrl := ⟨w.getLsbD 1, w.getLsbD 2, w.getLsbD 3⟩

/-- SYNBO as the host reads it: BO0 in bits 3:0, BO1 in bits 11:8 (R53). -/
def State.synboWord (s : State N) : Word := atBit 0 s.ch0.bo ||| atBit 8 s.ch1.bo

/-! ### Free values -/

/-- The carrier element an output cell takes: its result, or the free value of its slot where NUM_IMPL leaves the
result open (R13, U1; log entry 7). -/
def settled (slot : Nat) (o : Option N.R) : N.R :=
  match o with
  | some v => v
  | none => Config.freeCell N.bits slot

/-- The carrier elements that the first `n` outputs of `f` take, from free slot `slot` on. -/
def settledAll (slot n : Nat) (f : Nat → Option N.R) : List N.R :=
  (List.range n).map (fun k => settled (slot + k) (f k))

/-- Pass over `n` slots of the free values, so that no later output shares them. -/
def State.skipFree (s : State N) (n : Nat) : State N := { s with free := s.free + n }

end Sys2Proof.Machine
end

