-- ==== Sys2Proof/Machine/Flags.lean ====
section
/-! DEFINITION. STATUS (R35): its warning bits, its error code, how the host reads it and clears it, and the
interrupt level computed from it (R460). -/

namespace Sys2Proof.Machine

variable {N : NumImpl}

/-- The warning flags of R454. -/
inductive Warn where
  | bvClamp
  | region
  | overrun
  | table
  | budget
  | leftover
  | trunc
  | clip
  deriving DecidableEq, Repr

/-- The bit of `Status.warns` that holds a flag: its STATUS bit less 16 (R35). -/
def Warn.bit : Warn → Nat
  | .bvClamp => 0
  | .region => 1
  | .overrun => 2
  | .table => 3
  | .budget => 4
  | .leftover => 5
  | .trunc => 6
  | .clip => 7

/-- A flag as a mask of the warning bits. -/
def Warn.mask (f : Warn) : BitVec 8 := 1#8 <<< f.bit

/-- The mask of a flag if `cond`, else no flag. -/
def Warn.maskIf (f : Warn) (cond : Bool) : BitVec 8 := if cond then f.mask else 0#8

/-- Set sticky warning bits: a command sets them and never clears them (R35). -/
def State.setWarns (s : State N) (m : BitVec 8) : State N :=
  { s with status := { s.status with warns := s.status.warns ||| m } }

/-- The error codes of R452. -/
inductive ErrorCode where
  | badCmd
  | cmdBusy
  | underflow
  | badParam
  deriving DecidableEq, Repr

/-- The value ERRCODE takes (R452). -/
def ErrorCode.value : ErrorCode → BitVec 4
  | .badCmd => 1#4
  | .cmdBusy => 2#4
  | .underflow => 3#4
  | .badParam => 4#4

/-- `record_error(code)` of R450: ERRCODE keeps the first error's code. -/
def State.recordError (s : State N) (code : ErrorCode) : State N :=
  { s with status := { s.status with
      err := true
      errcode := if s.status.err then s.status.errcode else code.value } }

/-- STATUS as the host reads it (R35). -/
def State.statusWord (s : State N) : Word :=
  flagAt 0 s.busy ||| flagAt 1 s.status.done ||| flagAt 2 s.status.err ||| atBit 8 s.status.errcode |||
    atBit 16 s.status.warns

/-- A host write to STATUS (R35, R404): each W1C bit written with 1 is cleared, and clearing ERR clears ERRCODE. -/
def Status.clear (r : Status) (w : Word) : Status where
  done := r.done && !w.getLsbD 1
  err := r.err && !w.getLsbD 2
  errcode := if w.getLsbD 2 then 0#4 else r.errcode
  warns := r.warns &&& ~~~(fieldOf w 16 8)

/-- The interrupt output IRQ, a level (R460). -/
def State.irq (s : State N) : Bool :=
  (s.ctrl.ieDone && s.status.done) || (s.ctrl.ieErr && s.status.err) ||
    (s.ctrl.ieWarn && decide (s.status.warns ≠ 0#8))

end Sys2Proof.Machine
end

