-- ==== Sys2Proof/Machine/Ops.lean ====
section
/-! DEFINITION. The operations that commands and host accesses share: completing a command, raising an error
(L3RB's only kind of exception, R451, R455) and the return from it (R456), issuing a command (R450) and the two
resets (R500, R501). -/

namespace Sys2Proof.Machine

variable {N : NumImpl}

/-! ### The end of a command -/

/-- The end of a command without error: DONE is set, BUSY becomes 0 and the latch is emptied (R35, R450). -/
def State.complete (s : State N) : State N :=
  { s with latch := none, status := { s.status with done := true } }

/-- `raise Error(code)` (R451): the error is recorded, DONE is as the issue left it, BUSY becomes 0 and the latch
is emptied. Nothing is rolled back, no other state is saved and control goes nowhere (R455). -/
def State.raiseError (s : State N) (code : ErrorCode) : State N :=
  { s.recordError code with latch := none }

/-- The return from an error (R456): the host writes 1 to STATUS bit 2, which clears ERR and ERRCODE. -/
def State.returnFromError (s : State N) : State N := { s with status := s.status.clear 0x00000004#32 }

/-! ### Issue -/

/-- A host write of word `w` to CMD, in the order of R450: BUSY first, then ERR, then the decode. -/
def State.issue (s : State N) (w : Word) : State N :=
  if s.busy then s.recordError .cmdBusy
  else if s.status.err then s
  else
    match decode w with
    | .error _ => s.recordError .badCmd
    | .ok _ => { s with status := { s.status with done := false }, latch := some ⟨w, s.par⟩ }

/-! ### Reset -/

/-- The PCM cells of channel `ch` (R358): every other cell in stereo, the first 576 in mono, where only channel 0
has any. -/
def pcmOfChannel (stereo : Bool) (ch : BitVec 1) (n : Nat) : Bool :=
  if stereo then decide (n % 2 = ch.toNat) else decide (ch = 0#1) && decide (n < 576)

/-- The cells a discarded command would have written become unspecified (R501): IS for HUFF; XR[ch] for DEQ and
AA; SBS[ch] for IMDCT; the PCM cells of its channel for SYNTH and SYNTHG. OVL and VR are N.zeroed by the same reset.
DEDUCED (log entry 8): the rule's list is taken as it stands, whatever the command would have done. -/
def State.discard (s : State N) (i : Instr) : State N :=
  match i with
  | .nop => s
  | .huff => { s with isq := s.isq.forget (fun _ => true) }
  | .deq ch => s.setChan ch { s.chan ch with xr := (s.chan ch).xr.forget (fun _ => true) }
  | .aa ch => s.setChan ch { s.chan ch with xr := (s.chan ch).xr.forget (fun _ => true) }
  | .imdct ch => s.setChan ch { s.chan ch with sbs := (s.chan ch).sbs.forget (fun _ => true) }
  | .synth ch _ => { s with pcm := s.pcm.forget (pcmOfChannel s.snap.cfg.stereo ch) }
  | .synthg ch => { s with pcm := s.pcm.forget (pcmOfChannel s.snap.cfg.stereo ch) }
  | .clrh _ => s

/-- The latched command is discarded, if there is one. -/
def State.discardLatched (s : State N) : State N :=
  match s.latch with
  | none => s
  | some l =>
    match decode l.word with
    | .ok i => s.discard i
    | .error _ => s

/-- A channel after a soft reset: OVL and VR zero, BO 0; XR and SBS keep their contents (R501). -/
def Channel.softReset (c : Channel N) : Channel N := { c with ovl := [], vr := [], bo := 0#4 }

/-- Soft reset (R501): every register, SYNBO, the latch, OVL and VR as after power-on reset; BITBUF, SFL, SFS, IS,
XR, SBS and PCM keep their contents but for the cells of a discarded command. -/
def State.softReset (s : State N) : State N :=
  let t := s.discardLatched
  { t with
    ctrl := (State.initial N).ctrl
    status := (State.initial N).status
    par := (State.initial N).par
    huffused := (State.initial N).huffused
    overrun := (State.initial N).overrun
    c1end := (State.initial N).c1end
    clipcnt := (State.initial N).clipcnt
    latch := none
    ch0 := t.ch0.softReset
    ch1 := t.ch1.softReset }

/-- Power-on reset (R500). The model's own record of the outside (events to come, data read, free slots used) goes
on (DESIGN CHOICE, log entry 9). -/
def State.powerOn (s : State N) : State N :=
  { State.initial N with pending := s.pending, rdata := s.rdata, free := s.free }

end Sys2Proof.Machine
end

