-- ==== Sys2Proof/Machine/Bus.lean ====
section
/-! DEFINITION. The host's side of L3RB: the window's map (R100, R101), the accesses it accepts (R105, R106), what a
read returns and what a write does (R31–R53, R103, R404, R405, R407), and the host operations and
pseudo-instructions of R148 and R149. -/

namespace Sys2Proof.Machine

variable {N : NumImpl}

/-! ### The window (R100) -/

/-- What a cell of the window belongs to. -/
inductive Place where
  | register
  | sfl
  | sfs
  | bitbuf
  | isq
  | xr (ch : BitVec 1)
  | ovl (ch : BitVec 1)
  | sbs (ch : BitVec 1)
  | vr (ch : BitVec 1)
  | pcm
  deriving DecidableEq, Repr

/-- One row of R100: a region, its first offset and its size in words. -/
structure MapRow where
  place : Place
  base : Nat
  words : Nat
  deriving DecidableEq, Repr

/-- The layout of the window (R100). -/
def windowMap : List MapRow :=
  [⟨.register, 0x0000, 64⟩,
   ⟨.sfl, 0x0100, 21⟩,
   ⟨.sfs, 0x0160, 36⟩,
   ⟨.bitbuf, 0x1000, 1024⟩,
   ⟨.isq, 0x2000, 576⟩,
   ⟨.xr 0#1, 0x4000, 576⟩,
   ⟨.xr 1#1, 0x5000, 576⟩,
   ⟨.ovl 0#1, 0x6000, 576⟩,
   ⟨.ovl 1#1, 0x7000, 576⟩,
   ⟨.sbs 0#1, 0x8000, 576⟩,
   ⟨.sbs 1#1, 0x9000, 576⟩,
   ⟨.vr 0#1, 0xA000, 1024⟩,
   ⟨.vr 1#1, 0xB000, 1024⟩,
   ⟨.pcm, 0xC000, 1152⟩]

/-- The offset lies in the row's region. -/
def MapRow.holds (r : MapRow) (off : Nat) : Bool := decide (r.base ≤ off) && decide (off < r.base + 4 * r.words)

/-- The region of an offset and the index of its word there; `none` for an unmapped offset (R101). -/
def locate (off : Nat) : Option (Place × Nat) :=
  (windowMap.find? (fun r => r.holds off)).map (fun r => (r.place, (off - r.base) / 4))

/-- The accesses the window accepts (R105): 32-bit at a multiple of 4, and 8-bit in BITBUF. -/
def accepts (width : Width) (off : Nat) : Bool :=
  match width with
  | .w32 => decide (off % 4 = 0)
  | .w8 => decide (0x1000 ≤ off) && decide (off < 0x2000)
  | .w16 => false
  | .w64 => false

/-! ### Registers (R31) -/

/-- A host read of the register word at index `n` (offset 4·n): R31–R53. Unlisted registers and CMD read 0. -/
def State.readRegister (s : State N) (n : Nat) : Word :=
  match n with
  | 0 => 0x4C330100#32
  | 1 => s.ctrl.word
  | 2 => s.statusWord
  | 3 => 0#32
  | 4 => s.par.cfg.word
  | 5 => s.par.len.setWidth 32
  | 6 => s.par.p2.setWidth 32
  | 7 => s.par.bv.setWidth 32
  | 8 => s.par.gain.word
  | 9 => s.par.tsel.word
  | 10 => s.par.region.word
  | 11 => s.par.block.word
  | 12 => s.par.pos.setWidth 32
  | 13 => s.par.bitEnd.setWidth 32
  | 14 => s.huffused.setWidth 32
  | 15 => s.overrun.setWidth 32
  | 16 => s.c1end.setWidth 32
  | 17 => s.clipcnt
  | 18 => s.synboWord
  | _ => 0#32

/-- A host write to CTRL: bit 0 performs the soft reset, whatever bits 3:1 carry; else bits 3:1 are stored (R33). -/
def State.writeCtrl (s : State N) (w : Word) : State N :=
  if w.getLsbD 0 then s.softReset else { s with ctrl := Ctrl.ofWord w }

/-- A host write of `w` to the register word at index `n` (R404). Read-only and unlisted registers ignore it. -/
def State.writeRegister (s : State N) (n : Nat) (w : Word) : State N :=
  match n with
  | 1 => s.writeCtrl w
  | 2 => { s with status := s.status.clear w }
  | 3 => s.issue w
  | 4 => { s with par := { s.par with cfg := Cfg.ofWord w } }
  | 5 => { s with par := { s.par with len := fieldOf w 0 12 } }
  | 6 => { s with par := { s.par with p2 := fieldOf w 0 12 } }
  | 7 => { s with par := { s.par with bv := fieldOf w 0 10 } }
  | 8 => { s with par := { s.par with gain := Gain.ofWord w } }
  | 9 => { s with par := { s.par with tsel := Tsel.ofWord w } }
  | 10 => { s with par := { s.par with region := Region.ofWord w } }
  | 11 => { s with par := { s.par with block := Block.ofWord w } }
  | 12 => { s with par := { s.par with pos := fieldOf w 0 16 } }
  | 13 => { s with par := { s.par with bitEnd := fieldOf w 0 16 } }
  | 17 => { s with clipcnt := 0#32 }
  | _ => s

/-! ### Memories (R40–R48, R103) -/

/-- Four bytes as a little-endian word (R103). -/
def wordOfBytes (b0 b1 b2 b3 : Byte) : Word := atBit 0 b0 ||| atBit 8 b1 ||| atBit 16 b2 ||| atBit 24 b3

/-- The four bytes of a word, little-endian (R103). -/
def bytesOfWord (w : Word) : List Byte := [fieldOf w 0 8, fieldOf w 8 8, fieldOf w 16 8, fieldOf w 24 8]

/-- The word of BITBUF bytes 4n … 4n + 3; `none` when one of them is unspecified. -/
def State.bitbufWord (s : State N) (n : Nat) : Option Word :=
  match Store.block unspecified s.bitbuf (4 * n) 4 with
  | some [b0, b1, b2, b3] => some (wordOfBytes b0 b1 b2 b3)
  | _ => none

/-- A host read of word `n` of a region (R41–R48, R103): a narrow cell is extended, SFL by zeros (R41), SFS likewise
(R42 is silent: DEDUCED, log entry 23), IS by its sign (R43), and a carrier element is seen by its `enc` (R12); `none`
when the content is unspecified. -/
def State.readPlace (s : State N) (place : Place) (n : Nat) : Option Word :=
  match place with
  | .register => some (s.readRegister n)
  | .sfl => (Store.get unspecified s.sfl n).map (fun v => v.setWidth 32)
  | .sfs => (Store.get unspecified s.sfs n).map (fun v => v.setWidth 32)
  | .bitbuf => s.bitbufWord n
  | .isq => (Store.get unspecified s.isq n).map (fun v => v.signExtend 32)
  | .xr ch => (Store.get unspecified (s.chan ch).xr n).map N.ops.enc
  | .ovl ch => (Store.get N.zeroed (s.chan ch).ovl n).map N.ops.enc
  | .sbs ch => (Store.get unspecified (s.chan ch).sbs n).map N.ops.enc
  | .vr ch => (Store.get N.zeroed (s.chan ch).vr n).map N.ops.enc
  | .pcm => Store.get unspecified s.pcm n

/-- A host write of `w` to word `n` of a region (R41–R48, R103, R404): a narrow cell takes the low bits, which for SFS
R42 leaves unsaid (DEDUCED, log entry 23), and a carrier element is `dec` of the word (R12). -/
def State.writePlace (s : State N) (place : Place) (n : Nat) (w : Word) : State N :=
  match place with
  | .register => s.writeRegister n w
  | .sfl => { s with sfl := Store.set unspecified s.sfl n (fieldOf w 0 6) }
  | .sfs => { s with sfs := Store.set unspecified s.sfs n (fieldOf w 0 6) }
  | .bitbuf => { s with bitbuf := Store.fill unspecified s.bitbuf (4 * n) (bytesOfWord w) }
  | .isq => { s with isq := Store.set unspecified s.isq n (fieldOf w 0 16) }
  | .xr ch => s.setChan ch { s.chan ch with xr := Store.set unspecified (s.chan ch).xr n (N.ops.dec w) }
  | .ovl ch => s.setChan ch { s.chan ch with ovl := Store.set N.zeroed (s.chan ch).ovl n (N.ops.dec w) }
  | .sbs ch => s.setChan ch { s.chan ch with sbs := Store.set unspecified (s.chan ch).sbs n (N.ops.dec w) }
  | .vr ch => s.setChan ch { s.chan ch with vr := Store.set N.zeroed (s.chan ch).vr n (N.ops.dec w) }
  | .pcm => { s with pcm := Store.set unspecified s.pcm n w }

/-! ### Accesses -/

/-- The bus answers a read with `v`, or the read met unspecified content (R57). -/
def State.answer (s : State N) (v : Option Word) : Host.Outcome (State N) Fault Refusal :=
  match v with
  | some w => .next { s with rdata := some w }
  | none => .fault .unwritten

/-- An accepted 32-bit read at an offset: unmapped offsets read 0 (R101); a memory may not be accessed while BUSY
(R511). -/
def State.readWord (s : State N) (off : Nat) : Host.Outcome (State N) Fault Refusal :=
  match locate off with
  | none => s.answer (some 0#32)
  | some (place, n) =>
    if place ≠ .register ∧ s.busy then .fault .hostRace else s.answer (s.readPlace place n)

/-- An accepted 32-bit write at an offset: unmapped offsets ignore it (R101); a memory may not be accessed while
BUSY (R511). -/
def State.writeWord (s : State N) (off : Nat) (w : Word) : Host.Outcome (State N) Fault Refusal :=
  match locate off with
  | none => .next s
  | some (place, n) =>
    if place ≠ .register ∧ s.busy then .fault .hostRace else .next (s.writePlace place n w)

/-- An accepted byte read: BITBUF only (R105); the byte answers in bits 7:0 (DESIGN CHOICE, log entry 21). -/
def State.readByte (s : State N) (off : Nat) : Host.Outcome (State N) Fault Refusal :=
  if s.busy then .fault .hostRace
  else s.answer ((Store.get unspecified s.bitbuf (off - 0x1000)).map (fun b => b.setWidth 32))

/-- An accepted byte write: BITBUF only (R105); it changes only that byte (R107). -/
def State.writeByte (s : State N) (off : Nat) (w : Word) : Host.Outcome (State N) Fault Refusal :=
  if s.busy then .fault .hostRace
  else .next { s with bitbuf := Store.set unspecified s.bitbuf (off - 0x1000) (fieldOf w 0 8) }

/-- A host bus access (R9): refused with HOST_BUSERR unless the window accepts its width and alignment (R106),
tested before HOST_RACE (DESIGN CHOICE, log entry 18). -/
def hostAccess (op : HostOp) (s : State N) : Host.Outcome (State N) Fault Refusal :=
  match op with
  | .read width off =>
    if accepts width off.toNat then
      if width = .w8 then s.readByte off.toNat else s.readWord off.toNat
    else .fault .hostBusErr
  | .write width off data =>
    if accepts width off.toNat then
      if width = .w8 then s.writeByte off.toNat data else s.writeWord off.toNat data
    else .fault .hostBusErr

/-! ### Physical addresses (R7, R100) -/

/-- The offset in the window that begins at `base` of a physical address; `none` outside it. -/
def windowOffset (base address : Nat) : Option (BitVec 16) :=
  if base ≤ address ∧ address < base + 0x10000 then some (BitVec.ofNat 16 (address - base)) else none

/-- The window access that a bus access at a physical address is; `none` when its address lies outside the window. -/
def BusOp.inWindow (base : Nat) (op : BusOp) : Option HostOp :=
  match op with
  | .read width address => (windowOffset base address).map (fun off => .read width off)
  | .write width address data => (windowOffset base address).map (fun off => .write width off data)

/-- A host bus access at a physical address: an access to the window at BASE, or one that does not address L3RB, which
sees nothing of it (DESIGN CHOICE, log entry 17). -/
def busAccess (op : BusOp) (s : State N) : Host.Outcome (State N) Fault Refusal :=
  match op.inWindow Config.base with
  | some access => hostAccess access s
  | none => .next s

/-! ### WAIT (R148) -/

/-- The access of `RD 0x008`. -/
def statusRead : HostOp := .read .w32 0x0008#16

/-- `WAIT` (R148): `RD 0x008`, repeated until BUSY = 0. After a poll that finds BUSY = 1 the sequencer takes its step
before the next one (DESIGN CHOICE, log entry 4). -/
def waitAccess (s : State N) : Host.Outcome (State N) Fault Refusal :=
  match hostAccess statusRead s with
  | .next t => .next (if s.busy then { t with pending := .sequencer :: .wait :: t.pending } else t)
  | .fault f => .fault f
  | .refused r => .refused r

/-! ### Host operations and pseudo-instructions (R148, R149), as events -/

/-- `WR off, value`. -/
def hostWR (off : BitVec 16) (value : Word) : Event := .host (.write .w32 off value)

/-- `WRB off, byte`. -/
def hostWRB (off : BitVec 16) (byte : Byte) : Event := .host (.write .w8 off (byte.setWidth 32))

/-- `RD off`. -/
def hostRD (off : BitVec 16) : Event := .host (.read .w32 off)

/-- `ISSUE cmd`: WR 0x00C, encoding(cmd). -/
def hostISSUE (i : Instr) : Event := hostWR 0x000C#16 (encode i)

/-- `WAIT`. -/
def hostWAIT : Event := .wait

/-- `RUN cmd`: ISSUE cmd, then WAIT. -/
def hostRUN (i : Instr) : List Event := [hostISSUE i, hostWAIT]

/-- `CLRALL`. -/
def hostCLRALL : List Event := hostRUN (.clrh 3#2)

/-- `GRANULE ch`. -/
def hostGRANULE (ch : BitVec 1) : List Event :=
  hostRUN (.deq ch) ++ hostRUN (.aa ch) ++ hostRUN (.imdct ch) ++ hostRUN (.synthg ch)

/-- `ACK`: clear DONE, ERR and every warning bit. -/
def hostACK : Event := hostWR 0x0008#16 0x00FF0006#32

end Sys2Proof.Machine
end

