-- ==== Sys2Proof/Machine/Control.lean ====
section
/-! DEFINITION. The control commands NOP (R400) and CLRH (R402). -/

namespace Sys2Proof.Machine

variable {N : NumImpl}

/-- NOP (R400): STATUS.DONE <- 1 and nothing else. -/
def execNop (s : State N) : Host.Outcome (State N) Fault Refusal := .next s.complete

/-- Zero a channel's OVL and VR and set its BO to 0: with nothing listed every cell is ZERO (R402). -/
def Channel.clear (c : Channel N) : Channel N := { c with ovl := [], vr := [], bo := 0#4 }

/-- CLRH mask (R402): clear the persistent filter state of the channels whose mask bit is 1. -/
def execClrh (mask : BitVec 2) (s : State N) : Host.Outcome (State N) Fault Refusal :=
  .next (State.complete { s with
    ch0 := if mask.getLsbD 0 then s.ch0.clear else s.ch0
    ch1 := if mask.getLsbD 1 then s.ch1.clear else s.ch1 })

end Sys2Proof.Machine
end

