-- ==== Sys2Proof/Machine/BandRom.lean ====
section
/-! DEFINITION. The scalefactor-band ROMs of DEQ (R49): the band tables of R251 and the pretab of R252. -/

namespace Sys2Proof.Machine

/-- LONG[f][0…22] (R251): the first lines of the 22 long bands and the end 576; row f. -/
def longBands : List (List Nat) :=
  [[0, 4, 8, 12, 16, 20, 24, 30, 36, 44, 52, 62, 74, 90, 110, 134, 162, 196, 238, 288, 342, 418, 576],
   [0, 4, 8, 12, 16, 20, 24, 30, 36, 42, 50, 60, 72, 88, 106, 128, 156, 190, 230, 276, 330, 384, 576],
   [0, 4, 8, 12, 16, 20, 24, 30, 36, 44, 54, 66, 82, 102, 126, 156, 194, 240, 296, 364, 448, 550, 576],
   [0, 6, 12, 18, 24, 30, 36, 44, 54, 66, 80, 96, 116, 140, 168, 200, 238, 284, 336, 396, 464, 522, 576],
   [0, 6, 12, 18, 24, 30, 36, 44, 54, 66, 80, 96, 114, 136, 162, 194, 232, 278, 332, 394, 464, 540, 576],
   [0, 6, 12, 18, 24, 30, 36, 44, 54, 66, 80, 96, 116, 140, 168, 200, 238, 284, 336, 396, 464, 522, 576],
   [0, 6, 12, 18, 24, 30, 36, 44, 54, 66, 80, 96, 116, 140, 168, 200, 238, 284, 336, 396, 464, 522, 576],
   [0, 6, 12, 18, 24, 30, 36, 44, 54, 66, 80, 96, 116, 140, 168, 200, 238, 284, 336, 396, 464, 522, 576],
   [0, 12, 24, 36, 48, 60, 72, 88, 108, 132, 160, 192, 232, 280, 336, 400, 476, 566, 568, 570, 572, 574, 576]]

/-- SHORT[f][0…13] (R251): the first lines, in one window, of the 13 short bands and the end 192; row f. -/
def shortBands : List (List Nat) :=
  [[0, 4, 8, 12, 16, 22, 30, 40, 52, 66, 84, 106, 136, 192],
   [0, 4, 8, 12, 16, 22, 28, 38, 50, 64, 80, 100, 126, 192],
   [0, 4, 8, 12, 16, 22, 30, 42, 58, 78, 104, 138, 180, 192],
   [0, 4, 8, 12, 18, 24, 32, 42, 56, 74, 100, 132, 174, 192],
   [0, 4, 8, 12, 18, 26, 36, 48, 62, 80, 104, 136, 180, 192],
   [0, 4, 8, 12, 18, 26, 36, 48, 62, 80, 104, 134, 174, 192],
   [0, 4, 8, 12, 18, 26, 36, 48, 62, 80, 104, 134, 174, 192],
   [0, 4, 8, 12, 18, 26, 36, 48, 62, 80, 104, 134, 174, 192],
   [0, 8, 16, 24, 36, 52, 72, 96, 124, 160, 162, 164, 166, 192]]

/-- PRETAB[0…20] (R252). DEDUCED (log entry 19): vectors Q5 and Q5b give line 52 another band than R251 does; the
rules are followed. -/
def pretab : List Nat := [0, 0, 0, 0, 0, 0, 0, 0, 0, 0, 0, 1, 1, 1, 1, 2, 2, 3, 3, 3, 2]

/-- LONG[f] (R251). -/
def longRowOf (f : Nat) : List Nat := longBands.getD f []

/-- SHORT[f] (R251). -/
def shortRowOf (f : Nat) : List Nat := shortBands.getD f []

/-- The b with bounds[b] ≤ i < bounds[b+1], for rising bounds that start at or below i. -/
def bandOf : List Nat → Nat → Nat
  | _ :: next :: rest, i => if i < next then 0 else bandOf (next :: rest) i + 1
  | _, _ => 0

end Sys2Proof.Machine
end

