-- ==== Sys2Proof/Machine/Binary32.lean ====
section
/-! DEFINITION. IEEE 754 binary32, the carrier of REF32 (R12, R13): the exact value of a finite word as an
integer multiple of 2^-149, and rounding to nearest, ties to even, of an exactly known magnitude. -/

namespace Sys2Proof.Machine

/-- The biased exponent field, bits 30:23. -/
def expField (w : Word) : Nat := (w.extractLsb' 23 8).toNat

/-- The fraction field, bits 22:0. -/
def fracField (w : Word) : Nat := (w.extractLsb' 0 23).toNat

/-- The word is neither a NaN nor an infinity. -/
def isFinite (w : Word) : Bool := decide (expField w ≠ 255)

/-- Bit 31 is the sign (R12). -/
def isNeg (w : Word) : Bool := w.getLsbD 31

/-- The magnitude of a finite word in units of 2^-149. -/
def fixMag (w : Word) : Nat :=
  if expField w = 0 then fracField w else (2 ^ 23 + fracField w) * 2 ^ (expField w - 1)

/-- The exact value of a finite word in units of 2^-149. -/
def fix (w : Word) : Int := if isNeg w then -(fixMag w : Int) else fixMag w

/-- How many low bits of a magnitude `n` in units of 2^-(149 + k) lie below binary32's last place: the
last place is 2^-149, or 23 bits below the leading bit where that is higher. -/
def dropBits (n k : Nat) : Nat := max k (Nat.log2 n - 23)

/-- Whether the `s` low bits dropped from `n` round the rest up: to nearest, ties to even, with `sticky`
when the exact value lies strictly between `n` and `n + 1` (R13). -/
def roundsUp (n s : Nat) (sticky : Bool) : Bool :=
  let low := n % 2 ^ s
  let half := 2 ^ (s - 1)
  decide (half < low) || (decide (low = half) && (sticky || decide (n / 2 ^ s % 2 = 1)))

/-- The largest finite magnitude, in units of 2^-149: 24 bits of 1 below 2^128. -/
def maxFinite : Nat := (2 ^ 24 - 1) * 2 ^ 253

/-- Whether the magnitude n · 2^-(149 + k), or one strictly between n and n + 1 of these units when `sticky`, lies
outside the finite range. -/
def beyondFinite (k n : Nat) (sticky : Bool) : Bool :=
  decide (maxFinite * 2 ^ k < n) || (decide (n = maxFinite * 2 ^ k) && sticky)

/-- Bits 30:0 of the binary32 nearest, ties to even, to the magnitude n · 2^-(149 + k), or to one strictly
between n and n + 1 of these units when `sticky`, for k ≥ 1. A magnitude outside the finite range is infinity, however
near to it (R13). -/
def roundMag (k n : Nat) (sticky : Bool) : Nat :=
  if beyondFinite k n sticky then 255 * 2 ^ 23
  else
    let s := dropBits n k
    (s - k) * 2 ^ 23 + (n / 2 ^ s + if roundsUp n s sticky then 1 else 0)

/-- Put a sign on magnitude bits. -/
def signed32 (neg : Bool) (bits : Nat) : Word := BitVec.ofNat 32 (bits + if neg then 2 ^ 31 else 0)

/-- Round a magnitude with its sign; an exact zero is +0.0 whatever the sign (R13). DEDUCED (log entry 13): a value
that is not 0 keeps its sign when it rounds to a zero. -/
def round32 (k : Nat) (neg : Bool) (n : Nat) (sticky : Bool) : Word :=
  if n = 0 ∧ sticky = false then 0#32 else signed32 neg (roundMag k n sticky)

/-- Round the exact value v · 2^-(149 + k), for k ≥ 1. -/
def roundFix (k : Nat) (v : Int) : Word := round32 k (decide (v < 0)) v.natAbs false

/-- The search for an integer root, one bit at a time from the top: the largest r' ≥ r that differs from r in
the low `bits` bits only and has r'^k ≤ n. -/
def irootFrom (k n : Nat) : Nat → Nat → Nat
  | 0, r => r
  | b + 1, r => if (r + 2 ^ b) ^ k ≤ n then irootFrom k n b (r + 2 ^ b) else irootFrom k n b r

/-- The integer k-th root of n, rounded down. -/
def iroot (k n : Nat) : Nat := irootFrom k n (Nat.log2 n / k + 1) 0

/-- Round (num / den)^(1/k) · 2^-150 with a sign: the root's integer part, and sticky unless it is exact. -/
def roundRoot (k : Nat) (neg : Bool) (num den : Nat) : Word :=
  round32 1 neg (iroot k (num / den)) (decide (iroot k (num / den) ^ k * den ≠ num))

end Sys2Proof.Machine
end

