-- ==== Sys2Proof/Machine/Cosines.lean ====
section
/-! DEFINITION. Exact sums of cosines, the reference values of IMDCT (R310) and SYNTH (R350). Every
coefficient of those formulas is an integer combination of cosines of multiples of π/72 or π/64, so an output
is such a combination with integer coefficients, in units of a power of two. It is held exactly, recognised
exactly when it is rational, and otherwise enclosed between two integers ever more tightly until both ends
round to one binary32 word: the value is rounded once (R13). -/

namespace Sys2Proof.Machine

/-- The unit angle: π/72 for the 36-point and 12-point transforms, π/64 for the synthesis matrixing. -/
inductive Unit where
  | pi72
  | pi64
  deriving DecidableEq, Repr

/-- How many units make a right angle. -/
def Unit.right : Unit → Nat
  | .pi72 => 36
  | .pi64 => 32

/-- A linear term: an integer multiple of cos(angle · unit). -/
abbrev CosTerm := Int × Nat

/-- cos(m · unit) as ± cos(j · unit) with j at most a right angle: (the sign, j). -/
def foldAngle (h m : Nat) : Int × Nat :=
  let r := m % (4 * h)
  if r ≤ h then (1, r)
  else if r ≤ 2 * h then (-1, 2 * h - r)
  else if r ≤ 3 * h then (-1, r - 2 * h)
  else (1, 4 * h - r)

/-- Add `x` to entry `j` of a vector; beyond its end (a right angle, whose cosine is 0) nothing is added. -/
def addAt : List Int → Nat → Int → List Int
  | [], _, _ => []
  | v :: vs, 0, x => (v + x) :: vs
  | v :: vs, j + 1, x => v :: addAt vs j x

/-- Add x · Σ (c · cos(angle)) to the coefficient vector. -/
def addRow (h : Nat) (x : Int) : List CosTerm → List Int → List Int
  | [], v => v
  | (c, m) :: row, v => addRow h x row (addAt v (foldAngle h m).2 (x * c * (foldAngle h m).1))

/-- The coefficient of each cos(j · unit), j = 0 … right − 1, of Σ fix(word) · row. A zero input adds nothing. -/
def coefficients (h : Nat) : List (Word × List CosTerm) → List Int → List Int
  | [], v => v
  | (w, row) :: ts, v => coefficients h ts (if fix w = 0 then v else addRow h (fix w) row v)

/-- Twice the combination, over a basis of the rationals' extension by the cosines. For π/64 the 32 cosines
are a basis. For π/72 the cosines 24…35 are eliminated by cos(j) = cos(j − 24) − cos(48 − j), with
cos(24) = 1/2. Entry 0 is the rational part. -/
def doubled (u : Unit) (v : List Int) : List Int :=
  match u with
  | .pi64 => v.map (fun a => 2 * a)
  | .pi72 => (2 * v.getD 0 0 + v.getD 24 0) :: (List.range' 1 23).map (fun j =>
      2 * (v.getD j 0 + (if j ≤ 11 then v.getD (j + 24) 0 else 0)
        - (if 13 ≤ j then v.getD (48 - j) 0 else 0)))

/-- The largest r' ≥ r, differing in the low `bits` bits, with 8·r'³ − 6·r'·4^q ≤ 8^q: cos(π/9) · 2^q, the
positive root of 8x³ − 6x − 1, rounded down. -/
def cosNinth (q : Nat) : Nat → Nat → Nat
  | 0, r => r
  | b + 1, r =>
    if 8 * (r + 2 ^ b) ^ 3 ≤ 6 * (r + 2 ^ b) * 4 ^ q + 8 ^ q then cosNinth q b (r + 2 ^ b)
    else cosNinth q b r

/-- cos(θ/2) · 2^q from cos θ · 2^q, rounded down: cos(θ/2) = √((1 + cos θ)/2). -/
def halfAngle (q c : Nat) : Nat := iroot 2 ((2 ^ q + c) * 2 ^ (q - 1))

/-- cos(unit) · 2^q, within two: from cos(π/9) by three halvings, or from cos(π/2) by five. -/
def unitCos (q : Nat) : Unit → Nat
  | .pi72 => halfAngle q (halfAngle q (halfAngle q (cosNinth q q 0)))
  | .pi64 => halfAngle q (halfAngle q (halfAngle q (halfAngle q (halfAngle q 0))))

/-- `n` more cosines of the series cos(jθ), from cos((j−1)θ) = `a`, cos(jθ) = `b` and cos θ = `c`, all scaled
by 2^q: cos((j+1)θ) = 2·cos θ·cos(jθ) − cos((j−1)θ). -/
def cosSeries (q : Nat) (c : Int) : Nat → Int → Int → List Int
  | 0, _, _ => []
  | n + 1, a, b => b :: cosSeries q c n b (2 * c * b / 2 ^ q - a)

/-- The bits by which the series is computed finer than it is used. -/
def guardBits : Nat := 32

/-- cos(j · unit) · 2^p for j = 0 … right − 1, each within 2. -/
def cosTable (u : Unit) (p : Nat) : List Int :=
  let q := p + guardBits
  let c : Int := unitCos q u
  2 ^ p :: (cosSeries q c (u.right - 1) (2 ^ q) c).map (fun x => x / 2 ^ guardBits)

/-- Σ coefficient · cosine over the table's precision. -/
def dot : List Int → List Int → Int
  | b :: bs, c :: cs => b * c + dot bs cs
  | _, _ => 0

/-- The error bound of `dot`: each table entry but the first, which is exact, is within 2. -/
def slack : List Int → Int
  | [] => 0
  | _ :: bs => 2 * (bs.map (fun b => (b.natAbs : Int))).sum

/-- Round the irrational value Σ (entry · cosine) · 2^-151 at precision `p`: the word both ends of the
enclosure round to, if it is one word. -/
def roundAt (u : Unit) (v : List Int) (p : Nat) : Option Word :=
  let mid := dot v (cosTable u p)
  let lo := roundFix (p + 2) (mid - slack v)
  if lo = roundFix (p + 2) (mid + slack v) then some lo else none

/-- The precisions tried, in bits. The last one always suffices for the forms of R310 and R350: an irrational
value of them is, up to a power of two, an algebraic integer of degree at most 32 whose conjugates are below
2^310, and so is its distance to a rounding boundary, which therefore exceeds 2^-9700. -/
def precisions : List Nat := [64, 512, 2048, 10240]

/-- The binary32 nearest to Σ (entry · cosine) · 2^-151, entries from `doubled`; `none` is a value left open
(no precision of the list decides, which the norm bound at `precisions` excludes; DESIGN CHOICE, log entry 12). -/
def roundCos (u : Unit) (v : List Int) : Option Word :=
  if v.tail.all (fun b => decide (b = 0)) then some (roundFix 2 (v.headD 0))
  else precisions.findSome? (roundAt u v)

/-- An output of a linear formula: Σ fix(input) · row, in units of 2^-150, rounded once to binary32. An input
that is a NaN or an infinity leaves the output open (`none`, R13), also where its coefficient is 0 (DEDUCED, log
entry 14). -/
def roundForm (u : Unit) (ts : List (Word × List CosTerm)) : Option Word :=
  if ts.all (fun t => isFinite t.1) then
    roundCos u (doubled u (coefficients u.right ts (List.replicate u.right 0)))
  else none

end Sys2Proof.Machine
end

