-- ==== Sys2Proof/Machine/Numeric.lean ====
section
/-! DEFINITION. `REF32` (R13), the default instance of `NUM_IMPL`: every output is the exact real reference value rounded
once to binary32. And `pcm16` (R357), which is exact at every instance. -/

namespace Sys2Proof.Machine

/-! ### deq (R256) -/

/-- sign(v) · |v|^(4/3) · 2^(E/4) = ± (|v|^16 · 2^(3E))^(1/12), here in units of 2^-150: the radicand takes
2^(12·150). -/
def ref32Deq (v e : Int) : Word :=
  roundRoot 12 (decide (v < 0)) (v.natAbs ^ 16 * 2 ^ (3 * e + 1800).toNat) (2 ^ (-(3 * e + 1800)).toNat)

/-! ### aa (R302, R305) -/

/-- −Ci · 10000 for i = 0…7 (R302). -/
def aaCoeff (i : Nat) : Int := [6000, 5350, 3300, 1850, 950, 410, 142, 37].getD i 0

/-- p / √q in units of 2^-149, rounded once: √(4p²/q) in units of 2^-150, with p's sign. -/
def roundOverSqrt (p : Int) (q : Nat) : Word := roundRoot 2 (decide (p < 0)) (4 * p.natAbs ^ 2) q

/-- (u·CS[i] − d·CA[i], d·CS[i] + u·CA[i]) with CS = 1/√(1 + C²), CA = C/√(1 + C²), C = −aaCoeff/10000 (R302,
R303): numerators (10000·u + c·d, 10000·d − c·u) over √(10^8 + c²). -/
def ref32Aa (u d : Word) (i : Nat) : Option Word × Option Word :=
  if isFinite u && isFinite d then
    let c := aaCoeff i
    let q := 10 ^ 8 + c.natAbs ^ 2
    (some (roundOverSqrt (10000 * fix u + c * fix d) q), some (roundOverSqrt (10000 * fix d - c * fix u) q))
  else (none, none)

/-! ### imdct (R310–R316) -/

/-- A window coefficient: 0, 1 or sin(b · π/72). -/
inductive WinCoeff where
  | zero
  | one
  | sin (b : Nat)
  deriving DecidableEq, Repr

/-- WIN[wt][i], i = 0…35, of the long window types 0, 1 and 3 (R311), by its angle in units of π/72. Type 2
has no long window; its row is not used (R310 takes the short transform). -/
def longWindow (wt : BitVec 2) (i : Nat) : WinCoeff :=
  if wt = 1#2 then
    if i < 18 then .sin (2 * i + 1)
    else if i < 24 then .one
    else if i < 30 then .sin (3 * (2 * (i - 18) + 1))
    else .zero
  else if wt = 3#2 then
    if i < 6 then .zero
    else if i < 12 then .sin (3 * (2 * (i - 6) + 1))
    else if i < 18 then .one
    else .sin (2 * i + 1)
  else .sin (2 * i + 1)

/-- WIN2[i] = sin(π/12 · (i + ½)), i = 0…11 (R311). -/
def shortWindow (i : Nat) : WinCoeff := .sin (3 * (2 * i + 1))

/-- 2 · cos(a·π/72) · window as cosines: 2·cos A·sin B = sin(A + B) − sin(A − B), and in units of π/72
sin θ = cos(θ + 108) and −sin θ = cos(θ + 36); the second angle has a turn of 144 added. -/
def windowed (a : Nat) : WinCoeff → List CosTerm
  | .zero => []
  | .one => [(2, a)]
  | .sin b => [(1, a + b + 108), (1, a + 180 - b)]

/-- The row of input X[k] in 2·z[i] of a long block: 2·cos(π/72·(2i + 19)·(2k + 1))·WIN[wt][i] (R314). -/
def longRow (wt : BitVec 2) (i k : Nat) : List CosTerm :=
  windowed ((2 * i + 19) * (2 * k + 1)) (longWindow wt i)

/-- The row of input X[3k + w] in 2·y_w[j]·WIN2[j], 2·cos(π/24·(2j + 7)·(2k + 1))·WIN2[j] (R315). -/
def shortRow (j k : Nat) : List CosTerm := windowed (3 * (2 * j + 7) * (2 * k + 1)) (shortWindow j)

/-- The terms of 2·z[i] of a long block: all 18 inputs (R314). -/
def longTerms (x : List Word) (wt : BitVec 2) (i : Nat) : List (Word × List CosTerm) :=
  (List.range 18).map (fun k => (x.getD k 0#32, longRow wt i k))

/-- The terms of 2·z[i] of a short block: the windows w = 0, 1, 2 with 6 + 6w ≤ i < 18 + 6w (R315). -/
def shortTerms (x : List Word) (i : Nat) : List (Word × List CosTerm) :=
  (List.range 3).flatMap (fun w =>
    if 6 + 6 * w ≤ i ∧ i < 18 + 6 * w then
      (List.range 6).map (fun k => (x.getD (3 * k + w) 0#32, shortRow (i - 6 - 6 * w) k))
    else [])

/-- The terms of 2·z[i] (R310). -/
def blockTerms (x : List Word) (wt : BitVec 2) (i : Nat) : List (Word × List CosTerm) :=
  if wt = 2#2 then shortTerms x i else longTerms x wt i

/-- Frequency inversion (R316): odd samples of odd subbands are negated. -/
def inverted (sb t : Nat) : Bool := decide (sb % 2 = 1) && decide (t % 2 = 1)

/-- Multiply the rows of a sum by −1 if `neg`. -/
def negateTerms (neg : Bool) (ts : List (Word × List CosTerm)) : List (Word × List CosTerm) :=
  if neg then ts.map (fun t => (t.1, t.2.map (fun c => (-c.1, c.2)))) else ts

/-- The terms of 2·Y[t] = ±2·(z[t] + O[t]) (R316). -/
def outputTerms (x o : List Word) (wt : BitVec 2) (sb t : Nat) : List (Word × List CosTerm) :=
  negateTerms (inverted sb t) ((o.getD t 0#32, [(2, 0)]) :: blockTerms x wt t)

/-- R313 in REF32: Y[t] and O2[t], t = 0…17, each rounded once. -/
def ref32Imdct (x o : List Word) (wt : BitVec 2) (sb : Nat) : (Nat → Option Word) × (Nat → Option Word) :=
  (fun t => roundForm .pi72 (outputTerms x o wt sb t), fun t => roundForm .pi72 (blockTerms x wt (18 + t)))

/-! ### synth (R350, R352, R355, R356) -/

/-- D[i] · 2^16 (R352). -/
def synthD (i : Nat) : Int := (Config.synthD i).toInt

/-- The terms of 2·Vn[i]: N[i][k] = cos((16 + i)·(2k + 1)·π/64) (R352). -/
def matrixTerms (s : List Word) (i : Nat) : List (Word × List CosTerm) :=
  (List.range 32).map (fun k => (s.getD k 0#32, [((2 : Int), (16 + i) * (2 * k + 1))]))

/-- The terms of y[j]·2^150 over words in units of 2^-149 (R355: the scale 32768 times D = synthD/2^16 and the
unit 2^-150 leave synthD). V(m) is Vn[m] for m < 64, as its exact sum over S (R356), and Vo[m − 64] above. -/
def windowTerms (s vo : List Word) (j : Nat) : List (Word × List CosTerm) :=
  (List.range 32).map (fun k => (s.getD k 0#32, [(synthD j, (16 + j) * (2 * k + 1))])) ++
  ((List.range' 1 7).map (fun i => (vo.getD (128 * i + j - 64) 0#32, [(synthD (64 * i + j), 0)])) ++
   (List.range 8).map (fun i => (vo.getD (128 * i + 32 + j) 0#32, [(synthD (64 * i + 32 + j), 0)])))

/-- R356 in REF32: Vn[i], i = 0…63, and y[j], j = 0…31, each rounded once from the exact inputs. -/
def ref32Synth (s vo : List Word) : (Nat → Option Word) × (Nat → Option Word) :=
  (fun i => roundForm .pi64 (matrixTerms s i), fun j => roundForm .pi64 (windowTerms s vo j))

/-! ### The instance -/

/-- The default instance REF32 (R13): its carrier is binary32, and `enc` and `dec` are the identity (R12). -/
@[reducible] def ref32 : NumImpl where
  bits := 32
  ops := {
    zero := 0x00000000#32
    enc := fun w => w
    dec := fun w => w
    val := fun w => if isFinite w then some (mkRat (fix w) (2 ^ 149)) else none
    deq := ref32Deq
    aa := ref32Aa
    imdct := ref32Imdct
    synth := ref32Synth }

/-! ### pcm16 (R357) -/

/-- `pcm16` of R357 on a real value r: the sample and whether it clips. Rounding is half away from zero:
sign(r)·floor(|r| + ½), here on r's numerator and denominator. -/
def pcm16 (r : ℚ) : BitVec 16 × Bool :=
  if 32767 * (r.den : Int) < r.num then (32767#16, true)
  else if r.num < -32768 * (r.den : Int) then (BitVec.ofInt 16 (-32768), true)
  else (BitVec.ofInt 16 (r.num.sign * ((2 * r.num.natAbs + r.den) / (2 * r.den) : Nat)), false)

end Sys2Proof.Machine
end

