-- ==== Sys2Proof/Machine/Dequant.lean ====
section
/-! DEFINITION. DEQ (R250–R261): the classification of lines, their bands, scalefactors and exponents, and the
placement in hybrid order. -/

namespace Sys2Proof.Machine

variable {N : NumImpl}

/-- R259: DEQ refuses SFREQ 9…15, and the mixed block at 8 kHz. -/
def deqRefuses (p : Params) : Bool :=
  decide (8 < p.cfg.sfreq.toNat) ||
    (decide (p.cfg.sfreq.toNat = 8) && decide (p.block.bt = 2#2) && p.block.mix)

/-- R253: line i is long unless the block is short, where a mixed block's first 36 lines are long too. -/
def isLongLine (p : Params) (i : Nat) : Bool :=
  decide (p.block.bt ≠ 2#2) || (p.block.mix && decide (i < 36))

/-- LONG[f] of the snapshot's SFREQ (R251). -/
def longOf (p : Params) : List Nat := longRowOf p.cfg.sfreq.toNat

/-- SHORT[f] of the snapshot's SFREQ (R251). -/
def shortOf (p : Params) : List Nat := shortRowOf p.cfg.sfreq.toNat

/-- The first line, in one window, of short band b. -/
def shortStart (p : Params) (b : Nat) : Nat := (shortOf p).getD b 0

/-- The lines that short band b has in one window: S[b+1] − S[b]. -/
def shortWidth (p : Params) (b : Nat) : Nat := shortStart p (b + 1) - shortStart p b

/-- The long band of line i. -/
def longBand (p : Params) (i : Nat) : Nat := bandOf (longOf p) i

/-- The short band of line i of IS: 3·S[b] ≤ i < 3·S[b+1]. -/
def shortBand (p : Params) (i : Nat) : Nat := bandOf (shortOf p) (i / 3)

/-- The window of a short line i: (i − 3·S[b]) div (S[b+1] − S[b]). -/
def shortWin (p : Params) (i : Nat) : Nat :=
  (i - 3 * shortStart p (shortBand p i)) / shortWidth p (shortBand p i)

/-- The number of a short line i within its band and window: (i − 3·S[b]) mod (S[b+1] − S[b]). -/
def shortLine (p : Params) (i : Nat) : Nat :=
  (i - 3 * shortStart p (shortBand p i)) % shortWidth p (shortBand p i)

/-- The XR cell of line i of IS (R257): a long line stays; line k of band b in window w goes to
3·(S[b] + k) + w. -/
def deqDest (p : Params) (i : Nat) : Nat :=
  if isLongLine p i then i
  else 3 * (shortStart p (shortBand p i) + shortLine p i) + shortWin p i

/-- The line of IS whose value goes to XR cell j: the inverse of `deqDest` (R257: the placement is a bijection). A
short cell j holds frequency line f = j div 3 of window w = j mod 3; f lies in band b, as line f − S[b] of window
w, at 3·S[b] + w·(S[b+1] − S[b]) + f − S[b]. -/
def deqSource (p : Params) (j : Nat) : Nat :=
  if isLongLine p j then j
  else
    let b := bandOf (shortOf p) (j / 3)
    3 * shortStart p b + (j % 3) * shortWidth p b + (j / 3 - shortStart p b)

/-- The scalefactor multiplier 2·(1 + SS) (R255). -/
def sfStep (p : Params) : Int := if p.gain.ss then 4 else 2

/-- SBG[w] (R255). -/
def subblockGain (p : Params) (w : Nat) : Nat :=
  match w with
  | 0 => p.block.sbg0.toNat
  | 1 => p.block.sbg1.toNat
  | _ => p.block.sbg2.toNat

/-- The scalefactors a command reads: the SFL cells from band 0 on and the SFS cells from `sfsBase` on. -/
structure Scales where
  long : List (BitVec 6)
  sfsBase : Nat
  short : List (BitVec 6)
  deriving DecidableEq, Repr

/-- The scalefactor of long band b; band 21 has none and uses 0 (R254). -/
def Scales.ofLong (c : Scales) (b : Nat) : Nat := if b ≤ 20 then (c.long.getD b 0#6).toNat else 0

/-- The scalefactor of short band b in window w; band 12 has none and uses 0 (R254). -/
def Scales.ofShort (c : Scales) (b w : Nat) : Nat :=
  if b ≤ 11 then (c.short.getD (3 * b + w - c.sfsBase) 0#6).toNat else 0

/-- PRETAB[b], where GAIN.PRE adds it: never to band 21 (R252). -/
def preTerm (p : Params) (b : Nat) : Nat := if p.gain.pre && decide (b ≤ 20) then pretab.getD b 0 else 0

/-- The quarter-step exponent E of line i (R255). -/
def exponent (p : Params) (c : Scales) (i : Nat) : Int :=
  if isLongLine p i then
    (p.gain.gg.toNat : Int) - 210 - sfStep p * (c.ofLong (longBand p i) + preTerm p (longBand p i))
  else
    (p.gain.gg.toNat : Int) - 210 - 8 * subblockGain p (shortWin p i)
      - sfStep p * c.ofShort (shortBand p i) (shortWin p i)

/-- How many SFL cells DEQ reads (R254): those of every long band b ≤ 20 that holds a long line. -/
def longScaleCount (p : Params) : Nat :=
  if p.block.bt ≠ 2#2 then 21
  else if p.block.mix then ((longOf p).filter (fun l => decide (l < 36))).length
  else 0

/-- The first SFS cell DEQ reads (R254, R253): that of short band 0, or of band 3 in a mixed block. -/
def shortScaleBase (p : Params) : Nat := if p.block.mix then 9 else 0

/-- How many SFS cells DEQ reads (R254): to band 11's last, and none unless the block is short. -/
def shortScaleCount (p : Params) : Nat := if p.block.bt ≠ 2#2 then 0 else 36 - shortScaleBase p

/-- The scalefactor cells of R254; `none` when one of them is unspecified. -/
def State.readScales (s : State N) (p : Params) : Option Scales :=
  match Store.block unspecified s.sfl 0 (longScaleCount p),
    Store.block unspecified s.sfs (shortScaleBase p) (shortScaleCount p) with
  | some l, some h => some ⟨l, shortScaleBase p, h⟩
  | _, _ => none

/-- The value that XR cell j takes from the IS cells `is` (R256). -/
def dequantized (p : Params) (c : Scales) (is : List (BitVec 16)) (j : Nat) : N.R :=
  N.ops.deq (is.getD (deqSource p j) 0#16).toInt (exponent p c (deqSource p j))

/-- DEQ ch (R250): the parameter check before anything else (R453), then every XR[ch] cell. -/
def execDeq (ch : BitVec 1) (s : State N) : Host.Outcome (State N) Fault Refusal :=
  if deqRefuses s.snap then .next (s.raiseError .badParam)
  else
    match Store.block unspecified s.isq 0 576, s.readScales s.snap with
    | some is, some c =>
      let cells := (List.range 576).map (dequantized (N := N) s.snap c is)
      .next (State.complete
        (s.setChan ch { s.chan ch with xr := Store.fill unspecified (s.chan ch).xr 0 cells }))
    | _, _ => .fault .unwritten

end Sys2Proof.Machine
end

