-- ==== Sys2Proof/Machine/HuffmanRom.lean ====
section
/-! DEFINITION. The Huffman codebook ROMs (R49): the listings of 40_huffman.md section 7, as trees. A codeword is
written as a binary numeral whose first 1 is a mark and whose further digits are the codeword, first bit
leftmost. -/

namespace Sys2Proof.Machine

/-- The bits of a marked codeword, first bit first. -/
def codeBits (c : Nat) : List Bool := (List.range (Nat.log2 c)).reverse.map (fun i => c.testBit i)

/-- The entries of a codebook whose first bit is `b`, without that bit. -/
def branch {α : Type} (b : Bool) : List (List Bool × α) → List (List Bool × α)
  | [] => []
  | ([], _) :: es => branch b es
  | (c :: cs, a) :: es => if c = b then (cs, a) :: branch b es else branch b es

/-- The tree of a codebook: the entries that begin with 0 below `zero`, those that begin with 1 below `one`.
`fuel` is at least the longest codeword. -/
def buildCode {α : Type} [Inhabited α] : Nat → List (List Bool × α) → Code α
  | _, [([], a)] => .leaf a
  | 0, _ => .leaf default
  | n + 1, es => .node (buildCode n (branch false es)) (buildCode n (branch true es))

/-- The entries of row x of a big-values listing. -/
def rowEntries (x : Nat) (row : List Nat) : List (List Bool × Nibbles) :=
  row.zipIdx.map (fun e => (codeBits e.1, (BitVec.ofNat 4 x, BitVec.ofNat 4 e.2)))

/-- The entries of a big-values listing: row x and column y hold the codeword of (x, y). -/
def pairEntries (rows : List (List Nat)) : List (List Bool × Nibbles) :=
  rows.zipIdx.flatMap (fun r => rowEntries r.2 r.1)

/-- The codebook of a big-values listing; its longest codeword has at most 11 bits. -/
def pairCode (rows : List (List Nat)) : Code Nibbles := buildCode 11 (pairEntries rows)

/-- The codebook of a count1 listing, over the four bits v w x y; its longest codeword has 6 bits. -/
def quadCode (row : List Nat) : Code (BitVec 4) :=
  buildCode 6 (row.zipIdx.map (fun e => (codeBits e.1, BitVec.ofNat 4 e.2)))

/-- Table 1 (section 7 of 40_huffman.md): row x, column y. -/
def listing1 : List (List Nat) :=
  [[0b1_1, 0b1_001],
   [0b1_01, 0b1_000]]

/-- Table 2 (section 7 of 40_huffman.md): row x, column y. -/
def listing2 : List (List Nat) :=
  [[0b1_1, 0b1_010, 0b1_000001],
   [0b1_011, 0b1_001, 0b1_00001],
   [0b1_00011, 0b1_00010, 0b1_000000]]

/-- Table 3 (section 7 of 40_huffman.md): row x, column y. -/
def listing3 : List (List Nat) :=
  [[0b1_11, 0b1_10, 0b1_000001],
   [0b1_001, 0b1_01, 0b1_00001],
   [0b1_00011, 0b1_00010, 0b1_000000]]

/-- Table 5 (section 7 of 40_huffman.md): row x, column y. -/
def listing5 : List (List Nat) :=
  [[0b1_1, 0b1_010, 0b1_000110, 0b1_0000101],
   [0b1_011, 0b1_001, 0b1_000100, 0b1_0000100],
   [0b1_000111, 0b1_000101, 0b1_0000111, 0b1_00000001],
   [0b1_0000110, 0b1_000001, 0b1_0000001, 0b1_00000000]]

/-- Table 6 (section 7 of 40_huffman.md): row x, column y. -/
def listing6 : List (List Nat) :=
  [[0b1_111, 0b1_011, 0b1_00101, 0b1_0000001],
   [0b1_110, 0b1_10, 0b1_0011, 0b1_00010],
   [0b1_0101, 0b1_0100, 0b1_00100, 0b1_000001],
   [0b1_000011, 0b1_00011, 0b1_000010, 0b1_0000000]]

/-- Table 7 (section 7 of 40_huffman.md): row x, column y. -/
def listing7 : List (List Nat) :=
  [[0b1_1, 0b1_010, 0b1_001010, 0b1_00010011, 0b1_00010000, 0b1_000001010],
   [0b1_011, 0b1_0011, 0b1_000111, 0b1_0001010, 0b1_0000101, 0b1_00000011],
   [0b1_001011, 0b1_00100, 0b1_0001101, 0b1_00010001, 0b1_00001000, 0b1_000000100],
   [0b1_0001100, 0b1_0001011, 0b1_00010010, 0b1_000001111, 0b1_000001011, 0b1_000000010],
   [0b1_0000111, 0b1_0000110, 0b1_00001001, 0b1_000001110, 0b1_000000011, 0b1_0000000001],
   [0b1_00000110, 0b1_00000100, 0b1_000000101, 0b1_0000000011, 0b1_0000000010, 0b1_0000000000]]

/-- Table 8 (section 7 of 40_huffman.md): row x, column y. -/
def listing8 : List (List Nat) :=
  [[0b1_11, 0b1_100, 0b1_000110, 0b1_00010010, 0b1_00001100, 0b1_000000101],
   [0b1_101, 0b1_01, 0b1_0010, 0b1_00010000, 0b1_00001001, 0b1_00000011],
   [0b1_000111, 0b1_0011, 0b1_000101, 0b1_00001110, 0b1_00000111, 0b1_000000011],
   [0b1_00010011, 0b1_00010001, 0b1_00001111, 0b1_000001101, 0b1_000001010, 0b1_0000000100],
   [0b1_00001101, 0b1_0000101, 0b1_00001000, 0b1_000001011, 0b1_0000000101, 0b1_0000000001],
   [0b1_000001100, 0b1_00000100, 0b1_000000100, 0b1_000000001, 0b1_00000000001, 0b1_00000000000]]

/-- Table 9 (section 7 of 40_huffman.md): row x, column y. -/
def listing9 : List (List Nat) :=
  [[0b1_111, 0b1_101, 0b1_01001, 0b1_001110, 0b1_00001111, 0b1_000000111],
   [0b1_110, 0b1_100, 0b1_0101, 0b1_00101, 0b1_000110, 0b1_00000111],
   [0b1_0111, 0b1_0110, 0b1_01000, 0b1_001000, 0b1_0001000, 0b1_00000101],
   [0b1_001111, 0b1_00110, 0b1_001001, 0b1_0001010, 0b1_0000101, 0b1_00000001],
   [0b1_0001011, 0b1_000111, 0b1_0001001, 0b1_0000110, 0b1_00000100, 0b1_000000001],
   [0b1_00001110, 0b1_0000100, 0b1_00000110, 0b1_00000010, 0b1_000000110, 0b1_000000000]]

/-- Table 10 (section 7 of 40_huffman.md): row x, column y. -/
def listing10 : List (List Nat) :=
  [[0b1_1, 0b1_010, 0b1_001010, 0b1_00010111, 0b1_000100011, 0b1_000011110, 0b1_000001100, 0b1_0000010001],
   [0b1_011, 0b1_0011, 0b1_001000, 0b1_0001100, 0b1_00010010, 0b1_000010101, 0b1_00001100, 0b1_00000111],
   [0b1_001011, 0b1_001001, 0b1_0001111, 0b1_00010101, 0b1_000100000, 0b1_0000101000, 0b1_000010011, 0b1_000000110],
   [0b1_0001110, 0b1_0001101, 0b1_00010110, 0b1_000100010, 0b1_0000101110, 0b1_0000010111, 0b1_000010010, 0b1_0000000111],
   [0b1_00010100, 0b1_00010011, 0b1_000100001, 0b1_0000101111, 0b1_0000011011, 0b1_0000010110, 0b1_0000001001, 0b1_0000000011],
   [0b1_000011111, 0b1_000010110, 0b1_0000101001, 0b1_0000011010, 0b1_00000010101, 0b1_00000010100, 0b1_0000000101, 0b1_00000000011],
   [0b1_00001110, 0b1_00001101, 0b1_000001010, 0b1_0000001011, 0b1_0000010000, 0b1_0000000110, 0b1_00000000101, 0b1_00000000001],
   [0b1_000001001, 0b1_00001000, 0b1_000000111, 0b1_0000001000, 0b1_0000000100, 0b1_00000000100, 0b1_00000000010, 0b1_00000000000]]

/-- Table 11 (section 7 of 40_huffman.md): row x, column y. -/
def listing11 : List (List Nat) :=
  [[0b1_11, 0b1_100, 0b1_01010, 0b1_0011000, 0b1_00100010, 0b1_000100001, 0b1_00010101, 0b1_000001111],
   [0b1_101, 0b1_011, 0b1_0100, 0b1_001010, 0b1_00100000, 0b1_00010001, 0b1_0001011, 0b1_00001010],
   [0b1_01011, 0b1_00111, 0b1_001101, 0b1_0010010, 0b1_00011110, 0b1_000011111, 0b1_00010100, 0b1_00000101],
   [0b1_0011001, 0b1_001011, 0b1_0010011, 0b1_000111011, 0b1_00011011, 0b1_0000010010, 0b1_00001100, 0b1_000000101],
   [0b1_00100011, 0b1_00100001, 0b1_00011111, 0b1_000111010, 0b1_000011110, 0b1_0000010000, 0b1_000000111, 0b1_0000000101],
   [0b1_00011100, 0b1_00011010, 0b1_000100000, 0b1_0000010011, 0b1_0000010001, 0b1_00000001111, 0b1_0000001000, 0b1_00000001110],
   [0b1_00001110, 0b1_0001100, 0b1_0001001, 0b1_00001101, 0b1_000001110, 0b1_0000001001, 0b1_0000000100, 0b1_0000000001],
   [0b1_00001011, 0b1_0000100, 0b1_00000110, 0b1_000000110, 0b1_0000000110, 0b1_0000000011, 0b1_0000000010, 0b1_0000000000]]

/-- Table 12 (section 7 of 40_huffman.md): row x, column y. -/
def listing12 : List (List Nat) :=
  [[0b1_1001, 0b1_110, 0b1_10000, 0b1_0100001, 0b1_00101001, 0b1_000100111, 0b1_000100110, 0b1_000011010],
   [0b1_111, 0b1_101, 0b1_0110, 0b1_01001, 0b1_0010111, 0b1_0010000, 0b1_00011010, 0b1_00001011],
   [0b1_10001, 0b1_0111, 0b1_01011, 0b1_001110, 0b1_0010101, 0b1_00011110, 0b1_0001010, 0b1_00000111],
   [0b1_010001, 0b1_01010, 0b1_001111, 0b1_001100, 0b1_0010010, 0b1_00011100, 0b1_00001110, 0b1_00000101],
   [0b1_0100000, 0b1_001101, 0b1_0010110, 0b1_0010011, 0b1_00010010, 0b1_00010000, 0b1_00001001, 0b1_000000101],
   [0b1_00101000, 0b1_0010001, 0b1_00011111, 0b1_00011101, 0b1_00010001, 0b1_000001101, 0b1_00000100, 0b1_000000010],
   [0b1_00011011, 0b1_0001100, 0b1_0001011, 0b1_00001111, 0b1_00001010, 0b1_000000111, 0b1_000000100, 0b1_0000000001],
   [0b1_000011011, 0b1_00001100, 0b1_00001000, 0b1_000001100, 0b1_000000110, 0b1_000000011, 0b1_000000001, 0b1_0000000000]]

/-- Count1 table A (table 32): entry 8v + 4w + 2x + y. -/
def listingA : List Nat :=
  [0b1_1, 0b1_0101, 0b1_0100, 0b1_00101, 0b1_0110, 0b1_000101, 0b1_00100, 0b1_000100,
   0b1_0111, 0b1_00011, 0b1_00110, 0b1_000000, 0b1_00111, 0b1_000010, 0b1_000011, 0b1_000001]

/-- Count1 table B (table 33): entry 8v + 4w + 2x + y. -/
def listingB : List Nat :=
  [0b1_1111, 0b1_1110, 0b1_1101, 0b1_1100, 0b1_1011, 0b1_1010, 0b1_1001, 0b1_1000,
   0b1_0111, 0b1_0110, 0b1_0101, 0b1_0100, 0b1_0011, 0b1_0010, 0b1_0001, 0b1_0000]

/-- The codebook of big-values table t (R203, R204). Table 0 has none: its one pair (0, 0) takes no bits
(R202). Tables 4 and 14 are decoded as table 0 (R205). -/
def codebook (t : BitVec 5) : Code Nibbles :=
  match t.toNat with
  | 0 => .leaf (0#4, 0#4)
  | 1 => pairCode listing1
  | 2 => pairCode listing2
  | 3 => pairCode listing3
  | 4 => .leaf (0#4, 0#4)
  | 5 => pairCode listing5
  | 6 => pairCode listing6
  | 7 => pairCode listing7
  | 8 => pairCode listing8
  | 9 => pairCode listing9
  | 10 => pairCode listing10
  | 11 => pairCode listing11
  | 12 => pairCode listing12
  | 13 => Config.huffRom13
  | 14 => .leaf (0#4, 0#4)
  | 15 => Config.huffRom15
  | n => if n < 24 then Config.huffRom16 else Config.huffRom24

/-- Tables 4 and 14 are reserved (R203, R205). -/
def isReservedTable (t : BitVec 5) : Bool := decide (t = 4#5) || decide (t = 14#5)

/-- `linbits(t)` (R203): the last column of the table. -/
def linbits (t : BitVec 5) : Nat :=
  [0, 0, 0, 0, 0, 0, 0, 0, 0, 0, 0, 0, 0, 0, 0, 0,
   1, 2, 3, 4, 6, 8, 10, 13, 4, 5, 6, 7, 8, 9, 11, 13].getD t.toNat 0

/-- The count1 codebook: C1SEL = 0 is table A, 1 is table B (R38, R206). -/
def quadBook (sel : Bool) : Code (BitVec 4) := if sel then quadCode listingB else quadCode listingA

/-- The values at the leaves of a codebook, first codeword first. -/
def leaves {α : Type} : Code α → List α
  | .leaf a => [a]
  | .node l r => leaves l ++ leaves r

/-- All 256 pairs (x, y), 0 ≤ x, y ≤ 15. -/
def allPairs : List Nibbles :=
  (List.range 16).flatMap (fun x => (List.range 16).map (fun y => (BitVec.ofNat 4 x, BitVec.ofNat 4 y)))

/-- The configured codebook is a complete prefix code over the 256 pairs (R204). A tree is a complete prefix
code; what is left to check is that its leaves are the 256 pairs, each once. -/
def coversPairs (c : Code Nibbles) : Bool :=
  decide ((leaves c).length = 256) && allPairs.all (fun p => (leaves c).contains p)

/-- Table t takes its codebook from an open parameter (R204: tables 13, 15, and 16 to 31). -/
def isOpenTable (t : BitVec 5) : Bool := decide (t = 13#5) || decide (15 ≤ t.toNat)

/-- Table t may be decoded: it is listed, or its configured codebook is one (R204; DEDUCED, log entry 15). -/
def tableUsable (t : BitVec 5) : Bool := !isOpenTable t || coversPairs (codebook t)

end Sys2Proof.Machine
end

