-- ==== Sys2Proof/Machine/Huffman.lean ====
section
/-! DEFINITION. HUFF (R200–R217): the bit reader, the codeword decoders, the big-values and count1 regions, and
the command's completion and abort. -/

namespace Sys2Proof.Machine

variable {N : NumImpl}

/-! ### The bit reader (R201) -/

/-- `pos` and `used` of the running command. -/
structure Reader where
  pos : Nat
  used : Nat
  deriving DecidableEq, Repr

/-- What the bit reader reads from: BITBUF and the snapshot's BITEND.END. -/
structure BitSource where
  bitbuf : Store 8
  bitEnd : Nat
  deriving DecidableEq, Repr

/-- The result of reading: a value with the reader after it; UNDERFLOW at a failing GetBit, with the reader before
it (R201); or a BITBUF byte of unspecified content (R57). -/
inductive Read (α : Type) where
  | ok (value : α) (r : Reader)
  | underflow (r : Reader)
  | unwritten
  deriving DecidableEq, Repr

/-- Read on with the value read so far. -/
def Read.andThen {α β : Type} (x : Read α) (f : α → Reader → Read β) : Read β :=
  match x with
  | .ok a r => f a r
  | .underflow r => .underflow r
  | .unwritten => .unwritten

/-- `GetBit()` (R201): bit 7 − (pos mod 8) of BITBUF[pos div 8] (R104). -/
def getBit (src : BitSource) (r : Reader) : Read Bool :=
  if src.bitEnd ≤ r.pos ∨ 32768 ≤ r.pos then .underflow r
  else
    match Store.get unspecified src.bitbuf (r.pos / 8) with
    | none => .unwritten
    | some b => .ok (b.getLsbD (7 - r.pos % 8)) ⟨r.pos + 1, r.used + 1⟩

/-- `GetBits(n)` (R201) after the bits of `v`: the first bit read is the most significant. -/
def getBits (src : BitSource) : Nat → Nat → Reader → Read Nat
  | 0, v, r => .ok v r
  | n + 1, v, r => (getBit src r).andThen (fun b r' => getBits src n (2 * v + b.toNat) r')

/-! ### Codewords (R202) -/

/-- `DecodePair` (R202) on a codebook: read bits until they are a codeword. -/
def readCode (src : BitSource) {α : Type} : Code α → Reader → Read α
  | .leaf a, r => .ok a r
  | .node zero one, r => (getBit src r).andThen (fun b r' => if b then readCode src one r' else readCode src zero r')

/-- `DecodeQuad` (R202): as `readCode`, but before each bit, if used ≥ budget, nothing is read and the result is
None. -/
def readCodeWithin (src : BitSource) (budget : Nat) {α : Type} : Code α → Reader → Read (Option α)
  | .leaf a, r => .ok (some a) r
  | .node zero one, r =>
    if budget ≤ r.used then .ok none r
    else (getBit src r).andThen (fun b r' =>
      if b then readCodeWithin src budget one r' else readCodeWithin src budget zero r')

/-! ### One pair of the big-values region (R207) -/

/-- `Escape(t, v)` (R211). -/
def readEscape (src : BitSource) (t : BitVec 5) (v : Nat) (r : Reader) : Read Nat :=
  if 0 < linbits t ∧ v = 15 then (getBits src (linbits t) 0 r).andThen (fun n r' => .ok (v + n) r')
  else .ok v r

/-- The sign bit of a nonzero magnitude: 1 means negative (R207). -/
def readSign (src : BitSource) (v : Nat) (r : Reader) : Read Int :=
  if v = 0 then .ok 0 r
  else (getBit src r).andThen (fun b r' => .ok (if b then -(v : Int) else v) r')

/-- The codeword, x's escape and sign, then y's escape and sign (R207). -/
def readPair (src : BitSource) (t : BitVec 5) (r : Reader) : Read (Int × Int) :=
  (readCode src (codebook t) r).andThen fun xy r =>
    (readEscape src t xy.1.toNat r).andThen fun x r =>
      (readSign src x r).andThen fun x r =>
        (readEscape src t xy.2.toNat r).andThen fun y r =>
          (readSign src y r).andThen fun y r => .ok (x, y) r

/-! ### The running command -/

/-- The command's working state: the values of `tmp` decoded so far, latest first (the rest of `tmp` is 0); the
reader; and the warnings set so far. -/
structure Progress where
  rev : List (BitVec 16)
  reader : Reader
  warns : BitVec 8
  deriving DecidableEq, Repr

/-- How a region's decoding ends: it goes on, a GetBit underflows, or a BITBUF byte is unspecified. -/
inductive Verdict where
  | goesOn
  | underflow
  | unwritten
  deriving DecidableEq, Repr

/-- The number of the table of the pair that starts at line i: TSEL.T[region(i)] (R208). -/
def pairTable (p : Params) (i : Nat) : BitVec 5 :=
  if i < p.region.r1.toNat then p.tsel.t0
  else if i < p.region.r2.toNat then p.tsel.t1
  else p.tsel.t2

/-- big_values, clamped to 288 (R210). -/
def pairCount (p : Params) : Nat := min p.bv.toNat 288

/-- The budget: LEN − P2, or 0 when that is negative (R209). -/
def spectralBudget (p : Params) : Nat := p.len.toNat - p.p2.toNat

/-- The `n` pairs of the big-values region from pair `k` on (R200, R207). -/
def bigValues (src : BitSource) (p : Params) : Nat → Nat → Progress → Progress × Verdict
  | 0, _, g => (g, .goesOn)
  | n + 1, k, g =>
    let t := pairTable p (2 * k)
    let warns := g.warns ||| Warn.table.maskIf (isReservedTable t)
    match readPair src t g.reader with
    | .ok (x, y) r =>
      bigValues src p n (k + 1) ⟨BitVec.ofInt 16 y :: BitVec.ofInt 16 x :: g.rev, r, warns⟩
    | .underflow r => (⟨g.rev, r, warns⟩, .underflow)
    | .unwritten => (⟨g.rev, g.reader, warns⟩, .unwritten)

/-- The four values of a count1 codeword, v first (R206). -/
def quadValues (q : BitVec 4) : List Bool := [q.getLsbD 3, q.getLsbD 2, q.getLsbD 1, q.getLsbD 0]

/-- The sign bits of a quadruple's nonzero values, each read only within the budget; at its end the value and the
rest of the quadruple are 0 and it is cut (R212 (b)). -/
def readQuadSigns (src : BitSource) (budget : Nat) : List Bool → Reader → Read (List Int × Bool)
  | [], r => .ok ([], false) r
  | false :: qs, r => (readQuadSigns src budget qs r).andThen (fun e r' => .ok (0 :: e.1, e.2) r')
  | true :: qs, r =>
    if budget ≤ r.used then .ok (List.replicate (qs.length + 1) 0, true) r
    else (getBit src r).andThen fun b r' =>
      (readQuadSigns src budget qs r').andThen fun e r'' => .ok ((if b then -1 else 1) :: e.1, e.2) r''

/-- One count1 quadruple: its values and whether it is cut, or None where the budget ends inside its codeword
(R212). -/
def readQuad (src : BitSource) (sel : Bool) (budget : Nat) (r : Reader) : Read (Option (List Int × Bool)) :=
  (readCodeWithin src budget (quadBook sel) r).andThen fun q r' =>
    match q with
    | none => .ok none r'
    | some q => (readQuadSigns src budget (quadValues q) r').andThen fun e r'' => .ok (some e) r''

/-- The count1 region from line `line` on, at most `fuel` quadruples (R212, R215): while line ≤ 572 and used <
budget. The result holds the line after it. -/
def count1 (src : BitSource) (sel : Bool) (budget : Nat) : Nat → Nat → Progress → (Progress × Nat) × Verdict
  | 0, line, g => ((g, line), .goesOn)
  | fuel + 1, line, g =>
    if line ≤ 572 ∧ g.reader.used < budget then
      match readQuad src sel budget g.reader with
      | .ok none r => ((⟨g.rev, r, g.warns ||| Warn.trunc.mask⟩, line), .goesOn)
      | .ok (some (vs, cut)) r =>
        let g' : Progress :=
          ⟨(vs.map (BitVec.ofInt 16)).reverse ++ g.rev, r, g.warns ||| Warn.trunc.maskIf cut⟩
        if cut then ((g', line + 4), .goesOn) else count1 src sel budget fuel (line + 4) g'
      | .underflow r => ((⟨g.rev, r, g.warns⟩, line), .underflow)
      | .unwritten => ((g, line), .unwritten)
    else ((g, line), .goesOn)

/-- The most quadruples a granule holds: 576 / 4. -/
def maxQuads : Nat := 144

/-- The 576 cells of `tmp`: the values decoded so far, the rest 0 (R213, R217). -/
def spectrum (g : Progress) : List (BitVec 16) :=
  g.rev.reverse ++ List.replicate (576 - g.rev.length) 0#16

/-- The warnings HUFF sets before it reads its first bit (R200, R458). -/
def earlyWarns (p : Params) : BitVec 8 :=
  Warn.budget.maskIf (decide (p.len.toNat < p.p2.toNat)) |||
    (Warn.bvClamp.maskIf (decide (288 < p.bv.toNat)) |||
      Warn.region.maskIf (decide (p.region.r2.toNat < p.region.r1.toNat)))

/-- The decoding of a granule and channel: big values, then count1 (R200). The result holds the first line of the
zero region. -/
def decodeSpectrum (src : BitSource) (p : Params) : (Progress × Nat) × Verdict :=
  match bigValues src p (pairCount p) 0 ⟨[], ⟨p.pos.toNat, 0⟩, earlyWarns p⟩ with
  | (g, .goesOn) => count1 src p.gain.c1sel (spectralBudget p) maxQuads (2 * pairCount p) g
  | (g, .underflow) => ((g, 0), .underflow)
  | (g, .unwritten) => ((g, 0), .unwritten)

/-- The warnings set at completion (R214, R216). -/
def lateWarns (p : Params) (used line : Nat) : BitVec 8 :=
  Warn.leftover.maskIf (decide (572 < line) && decide (used < spectralBudget p)) |||
    Warn.overrun.maskIf (decide (spectralBudget p < used))

/-- Every table that a pair of the granule selects may be decoded (R204). -/
def tablesUsable (p : Params) : Bool :=
  (List.range (pairCount p)).all (fun k => tableUsable (pairTable p (2 * k)))

/-- Where HUFF reads its bits (R201). -/
def State.bitSource (s : State N) : BitSource := ⟨s.bitbuf, s.snap.bitEnd.toNat⟩

/-- IS receives all 576 cells of `tmp` (R213, R217). -/
def State.storeSpectrum (s : State N) (g : Progress) : State N :=
  { s with isq := Store.fill unspecified s.isq 0 (spectrum g) }

/-- HUFF's completion (R216): BITPOS at the budget's end, HUFFUSED, OVERRUN and C1END, the warnings, DONE. -/
def State.huffDone (s : State N) (p : Params) (g : Progress) (line : Nat) : State N :=
  State.complete (State.setWarns
    { s.storeSpectrum g with
      par := { s.par with pos := BitVec.ofNat 16 (p.pos.toNat + spectralBudget p) }
      huffused := BitVec.ofNat 16 g.reader.used
      overrun := BitVec.ofNat 16 (g.reader.used - spectralBudget p)
      c1end := BitVec.ofNat 10 line }
    (g.warns ||| lateWarns p g.reader.used line))

/-- HUFF's abort on UNDERFLOW (R217): IS holds `tmp`, HUFFUSED the bits read before the failing read; BITPOS,
OVERRUN and C1END are unchanged; the warnings set so far stay set. -/
def State.huffAbort (s : State N) (g : Progress) : State N :=
  State.raiseError (State.setWarns
    { s.storeSpectrum g with huffused := BitVec.ofNat 16 g.reader.used } g.warns) .underflow

/-- HUFF (R200). -/
def execHuff (s : State N) : Host.Outcome (State N) Fault Refusal :=
  if tablesUsable s.snap then
    match decodeSpectrum s.bitSource s.snap with
    | ((g, line), .goesOn) => .next (s.huffDone s.snap g line)
    | ((g, _), .underflow) => .next (s.huffAbort g)
    | (_, .unwritten) => .fault .unwritten
  else .refused .badCodebook

end Sys2Proof.Machine
end

