-- ==== Sys2Proof/Machine/Hybrid.lean ====
section
/-! DEFINITION. AA (R300–R306) and IMDCT (R310–R320). -/

namespace Sys2Proof.Machine

variable {N : NumImpl}

/-! ### AA -/

/-- The boundaries AA processes, ascending (R301). -/
def aaBoundaries (p : Params) : List Nat :=
  if p.block.bt = 2#2 then (if p.block.mix then [1] else []) else List.range' 1 31

/-- The butterflies of one boundary on its 16 cells: cells 0…7 are the lines 10…17 of the upper subband, cells 8…15
the lines 0…7 of the lower one, and butterfly i takes cell 7 − i as u and cell 8 + i as d (R303). -/
def butterflies (slot : Nat) (cells : List N.R) : List N.R :=
  let out (i : Nat) := N.ops.aa (cells.getD (7 - i) N.ops.zero) (cells.getD (8 + i) N.ops.zero) i
  (List.range 8).map (fun k => settled (slot + k) (out (7 - k)).1) ++
    (List.range 8).map (fun k => settled (slot + 8 + k) (out k).2)

/-- AA on the boundaries listed, in order; `none` when a cell read is unspecified. Each boundary b owns the cells
18b − 8 … 18b + 7 and takes 16 slots of the free values. -/
def antialias : List Nat → Nat → Store N.bits → Option (Store N.bits)
  | [], _, xr => some xr
  | b :: bs, slot, xr =>
    match Store.block unspecified xr (18 * b - 8) 16 with
    | some cells => antialias bs (slot + 16) (Store.fill unspecified xr (18 * b - 8) (butterflies slot cells))
    | none => none

/-- AA ch (R300). -/
def execAa (ch : BitVec 1) (s : State N) : Host.Outcome (State N) Fault Refusal :=
  match antialias (aaBoundaries s.snap) s.free (s.chan ch).xr with
  | some xr =>
    .next (State.complete
      ((s.setChan ch { s.chan ch with xr := xr }).skipFree (16 * (aaBoundaries s.snap).length)))
  | none => .fault .unwritten

/-! ### IMDCT -/

/-- The window type of subband sb (R317). -/
def windowType (p : Params) (sb : Nat) : BitVec 2 :=
  if p.block.mix && decide (sb < 2) then 0#2 else p.block.bt

/-- The 18 cells of subband sb in a list of 576. -/
def subbandCells (cells : List N.R) (sb : Nat) : List N.R := (cells.drop (18 * sb)).take 18

/-- Y and O2 of subband sb (R310, R313). -/
def subbandOutputs (p : Params) (xs os : List N.R) (sb : Nat) : (Nat → Option N.R) × (Nat → Option N.R) :=
  N.ops.imdct (subbandCells xs sb) (subbandCells os sb) (windowType p sb) sb

/-- The 576 SBS cells, in the order 32·t + sb (R319): Y[t] of subband sb takes free slot 36·sb + t of the command's. -/
def sbsCells (p : Params) (slot : Nat) (xs os : List N.R) : List N.R :=
  (List.range 18).flatMap (fun t =>
    (List.range 32).map (fun sb => settled (slot + 36 * sb + t) ((subbandOutputs p xs os sb).1 t)))

/-- The 576 OVL cells, in the order 18·sb + t (R318): O2[t] of subband sb takes free slot 36·sb + 18 + t. -/
def ovlCells (p : Params) (slot : Nat) (xs os : List N.R) : List N.R :=
  (List.range 32).flatMap (fun sb => settledAll (slot + 36 * sb + 18) 18 (subbandOutputs p xs os sb).2)

/-- IMDCT ch (R310): every OVL cell is read before any is written (R313). -/
def execImdct (ch : BitVec 1) (s : State N) : Host.Outcome (State N) Fault Refusal :=
  match Store.block unspecified (s.chan ch).xr 0 576, Store.block N.zeroed (s.chan ch).ovl 0 576 with
  | some xs, some os =>
    .next (State.complete ((s.setChan ch { s.chan ch with
      sbs := Store.fill unspecified (s.chan ch).sbs 0 (sbsCells s.snap s.free xs os)
      ovl := Store.fill N.zeroed (s.chan ch).ovl 0 (ovlCells s.snap s.free xs os) }).skipFree 1152))
  | _, _ => .fault .unwritten

end Sys2Proof.Machine
end

