-- ==== Sys2Proof/Machine/Synthesis.lean ====
section
/-! DEFINITION. SYNTH (R350–R359) and SYNTHG (R360). -/

namespace Sys2Proof.Machine

variable {N : NumImpl}

/-- R351: synthesis on channel 1 in mono is refused. -/
def synthRefuses (p : Params) (ch : BitVec 1) : Bool := decide (ch = 1#1) && !p.cfg.stereo

/-- The logical delay line V_c(0…1023) of a ring of 1024 cells at offset `bo` (R353):
V_c(m) = VR[c][(64·BOc + m) mod 1024]. -/
def logicalLine (ring : List N.R) (bo : BitVec 4) : List N.R :=
  ring.drop (64 * bo.toNat) ++ ring.take (64 * bo.toNat)

/-- The clipped form of one sample (R357): the sample, sign-extended, and whether it counts as clipped. The sample
of an element without a real value, a NaN or an infinity in REF32, is a free value (U2). -/
def clippedSample (slot : Nat) (y : N.R) : Word × Bool :=
  match N.ops.val y with
  | some r => ((pcm16 r).1.signExtend 32, (pcm16 r).2)
  | none => ((Config.freeSample slot).signExtend 32, Config.freeClip slot)

/-- The PCM word of one sample and whether it clipped (R357). -/
def pcmSample (p : Params) (slot : Nat) (y : N.R) : Word × Bool :=
  if p.cfg.unclip then (N.ops.enc y, false) else clippedSample slot y

/-- The PCM cell of sample n of channel ch (R358). -/
def pcmIndex (p : Params) (ch : BitVec 1) (n : Nat) : Nat := if p.cfg.stereo then 2 * n + ch.toNat else n

/-- The 32 PCM words of a step, with their clip marks: sample j takes free slot `slot` + j. -/
def stepSamples (p : Params) (slot : Nat) (ys : List N.R) : List (Word × Bool) :=
  ys.zipIdx.map (fun e => pcmSample p (slot + e.2) e.1)

/-- The PCM cells that time slot t writes, rising (R358). -/
def stepCells (p : Params) (ch : BitVec 1) (t : Nat) (ws : List (Word × Bool)) : List (Nat × Word) :=
  ws.zipIdx.map (fun e => (pcmIndex p ch (32 * t + e.2), e.1.1))

/-- One synthesis step on channel ch at time slot t (the body of R350 after its parameter check, without the final
DONE); `none` when a cell it reads is unspecified. It takes 96 slots of the free values: Vn, then y, whose slots
also give the free samples of U2. -/
def synthStep (ch : BitVec 1) (p : Params) (t : Nat) (s : State N) : Option (State N) :=
  match Store.block unspecified (s.chan ch).sbs (32 * t) 32, Store.block N.zeroed (s.chan ch).vr 0 1024 with
  | some sb, some ring =>
    let r := N.ops.synth sb ((logicalLine ring (s.chan ch).bo).take 960)
    let vn := settledAll s.free 64 r.1
    let ys := settledAll (s.free + 64) 32 r.2
    let bo := (s.chan ch).bo - 1#4
    let ws := stepSamples p (s.free + 64) ys
    let clips := ws.countP (fun e => e.2)
    some (State.setWarns
      { (s.setChan ch { s.chan ch with
          bo := bo
          vr := Store.fill N.zeroed (s.chan ch).vr (64 * bo.toNat) vn }).skipFree 96 with
        pcm := Store.writes unspecified s.pcm (stepCells p ch t ws)
        clipcnt := s.clipcnt + BitVec.ofNat 32 clips }
      (Warn.clip.maskIf (decide (0 < clips))))
  | _, _ => none

/-- The steps at the time slots listed, in order. -/
def synthSteps (ch : BitVec 1) (p : Params) : List Nat → State N → Option (State N)
  | [], s => some s
  | t :: ts, s =>
    match synthStep ch p t s with
    | some s' => synthSteps ch p ts s'
    | none => none

/-- The parameter check of R351 before anything else (R453), then the steps at the time slots `ts`. -/
def synthesize (ch : BitVec 1) (ts : List Nat) (s : State N) : Host.Outcome (State N) Fault Refusal :=
  if synthRefuses s.snap ch then .next (s.raiseError .badParam)
  else
    match synthSteps ch s.snap ts s with
    | some s' => .next s'.complete
    | none => .fault .unwritten

/-- SYNTH ch, t (R350). -/
def execSynth (ch : BitVec 1) (t : BitVec 5) (s : State N) : Host.Outcome (State N) Fault Refusal :=
  synthesize ch [t.toNat] s

/-- SYNTHG ch (R360): the 18 steps of a granule. -/
def execSynthg (ch : BitVec 1) (s : State N) : Host.Outcome (State N) Fault Refusal :=
  synthesize ch (List.range 18) s

end Sys2Proof.Machine
end

