-- ==== Sys2Proof/Machine/Dispatch.lean ====
section
/-! DEFINITION. The meaning of each command on the state whose latch holds it (R143). -/

namespace Sys2Proof.Machine

def exec (i : Instr) (s : State) : Host.Outcome State Fault Refusal :=
  match i with
  | .nop => Sys2Proof.Machine.execNop s
  | .huff => Sys2Proof.Machine.execHuff s
  | .deq ch => Sys2Proof.Machine.execDeq ch s
  | .aa ch => Sys2Proof.Machine.execAa ch s
  | .imdct ch => Sys2Proof.Machine.execImdct ch s
  | .synth ch t => Sys2Proof.Machine.execSynth ch t s
  | .synthg ch => Sys2Proof.Machine.execSynthg ch s
  | .clrh mask => Sys2Proof.Machine.execClrh mask s

end Sys2Proof.Machine
end

