-- ==== Sys2Proof/Machine/Step.lean ====
section
/-! DEFINITION. One step of L3RB: the next event at its boundary, in the order `pending` gives them (R16, R406), or,
with none to come, the sequencer's step on a latched command (R520: a latched command eventually completes; DESIGN
CHOICE, log entry 4). -/

namespace Sys2Proof.Machine

/-- The sequencer's step (R16, R450): the latched command, if there is one, as one atomic step (R521); else it is
idle (R466). -/
def sequencerStep (s : State) : Host.Outcome State Fault Refusal :=
  match s.latch with
  | none => .next s
  | some l =>
    match decode l.word with
    | .ok i => exec i s
    | .error _ => .refused .undecodable

/-- One event on the state after it is taken from `pending`. -/
def takeEvent (e : Event) (s : State) : Host.Outcome State Fault Refusal :=
  match e with
  | .host op => hostAccess op s
  | .bus op => busAccess op s
  | .wait => waitAccess s
  | .sequencer => sequencerStep s
  | .powerOn => .next s.powerOn

/-- One step. -/
def step (s : State) : Host.Outcome State Fault Refusal :=
  match s.pending with
  | [] => sequencerStep s
  | e :: es => takeEvent e { s with pending := es }

/-- `s` with the command word `w` in the command latch, beside a snapshot of the registers as they stand (R54), and
the sequencer's step as the next event, so that the next step runs it: an accepted issue without its CMD write
(DESIGN CHOICE, log entry 10). -/
def State.withFetchWord (s : State) (nbits w : Nat) : State :=
  { s with
    latch := some ⟨BitVec.ofNat 32 (w % 2 ^ nbits), s.par⟩
    pending := .sequencer :: s.pending }

end Sys2Proof.Machine
end

