-- ==== Sys2Proof/Safety.lean ====
section
/-! DEFINITION. The terms that claims about L3RB are stated in: the invariant of a run, and the real reference values
(R11) with the one rounding of REF32 (R13) that the model's words are held against. -/

namespace Sys2Proof.Machine

variable {N : NumImpl}

/-! ### The invariant of a run -/

/-- A channel's memories are in canonical form, with the sizes of R44–R47. -/
def Channel.memoryWf (c : Channel N) : Bool :=
  Store.wf unspecified 576 c.xr && Store.wf N.zeroed 576 c.ovl && Store.wf unspecified 576 c.sbs &&
    Store.wf N.zeroed 1024 c.vr

/-- Every memory is in canonical form, with the sizes of R40–R48. -/
def State.memoryWf (s : State N) : Bool :=
  Store.wf unspecified 4096 s.bitbuf && Store.wf unspecified 21 s.sfl && Store.wf unspecified 36 s.sfs &&
    Store.wf unspecified 576 s.isq && Store.wf unspecified 1152 s.pcm && s.ch0.memoryWf && s.ch1.memoryWf

/-- ERRCODE is one of the codes of R452, and 0 exactly when ERR = 0 (R35, R452). -/
def Status.legal (r : Status) : Bool := decide (r.errcode.toNat ≤ 4) && decide (r.err = decide (r.errcode ≠ 0#4))

/-- A latched word decodes: R450 latches no other. -/
def State.latchLegal (s : State N) : Bool :=
  match s.latch with
  | none => true
  | some l =>
    match decode l.word with
    | .ok _ => true
    | .error _ => false

/-- The invariant of a run: canonical memories, a legal STATUS, a decodable latch, and C1END a line number or 576. -/
def State.inv (s : State N) : Bool :=
  s.memoryWf && s.status.legal && s.latchLegal && decide (s.c1end.toNat ≤ 576)

/-- A memory holds values in all of its first `n` cells. -/
def Store.written {w : Nat} (m : Store w) (n : Nat) : Prop := ∀ a, a < n → (Store.get unspecified m a).isSome

/-! ### Binary32 as reals (R12, R13) -/

/-- The real value of a finite word. -/
noncomputable def val32 (w : Word) : ℝ := (fix w : ℝ) / 2 ^ 149

/-- The magnitude of the finite word with bits 30:0 equal to `n`. -/
noncomputable def magnitude (n : ℕ) : ℝ :=
  if n < 2 ^ 23 then (n : ℝ) / 2 ^ 149
  else ((2 ^ 23 + n % 2 ^ 23 : ℕ) : ℝ) * 2 ^ (n / 2 ^ 23 - 1) / 2 ^ 149

/-- The largest finite magnitude, (2^24 − 1) · 2^104. -/
noncomputable def maxReal : ℝ := (2 ^ 24 - 1) * 2 ^ 104

/-- `n` is the magnitude that `a` rounds to (R13): infinity outside the finite range, and else the nearest finite
magnitude, ties to even. -/
def NearestMagnitude (a : ℝ) (n : ℕ) : Prop :=
  (maxReal < a → n = 255 * 2 ^ 23) ∧
  (a ≤ maxReal → n < 255 * 2 ^ 23 ∧
    (0 < n → (magnitude (n - 1) + magnitude n) / 2 ≤ a ∧ ((magnitude (n - 1) + magnitude n) / 2 = a → n % 2 = 0)) ∧
    (n + 1 < 255 * 2 ^ 23 →
      a ≤ (magnitude n + magnitude (n + 1)) / 2 ∧ (a = (magnitude n + magnitude (n + 1)) / 2 → n % 2 = 0)))

/-- `w` is the real `x` rounded once to binary32: to nearest, ties to even, an exact 0 as +0.0 (R13). DEDUCED (log
entry 13): a value that is not 0 keeps its sign when it rounds to a zero. -/
def RoundsTo (x : ℝ) (w : Word) : Prop :=
  (x = 0 → w = 0#32) ∧
  (x ≠ 0 → (isNeg w = true ↔ x < 0) ∧ NearestMagnitude |x| (w.toNat % 2 ^ 31))

/-! ### Reference values (R256, R302, R310, R350) -/

/-- R256: sign(v) · |v|^(4/3) · 2^(E/4). -/
noncomputable def deqReal (v e : ℤ) : ℝ := (v.sign : ℝ) * |(v : ℝ)| ^ ((4 : ℝ) / 3) * (2 : ℝ) ^ ((e : ℝ) / 4)

/-- Ci, i = 0…7 (R302). -/
noncomputable def aaC (i : ℕ) : ℝ :=
  match i with
  | 0 => -0.6
  | 1 => -0.535
  | 2 => -0.33
  | 3 => -0.185
  | 4 => -0.095
  | 5 => -0.041
  | 6 => -0.0142
  | _ => -0.0037

/-- CS[i] (R302). -/
noncomputable def aaCS (i : ℕ) : ℝ := 1 / Real.sqrt (1 + aaC i ^ 2)

/-- CA[i] (R302). -/
noncomputable def aaCA (i : ℕ) : ℝ := aaC i / Real.sqrt (1 + aaC i ^ 2)

/-- WIN[wt][i] of the long window types (R311). -/
noncomputable def winReal (wt : BitVec 2) (i : ℕ) : ℝ :=
  if wt = 1#2 then
    if i < 18 then Real.sin (Real.pi / 36 * (i + 1 / 2))
    else if i < 24 then 1
    else if i < 30 then Real.sin (Real.pi / 12 * ((i : ℝ) - 18 + 1 / 2))
    else 0
  else if wt = 3#2 then
    if i < 6 then 0
    else if i < 12 then Real.sin (Real.pi / 12 * ((i : ℝ) - 6 + 1 / 2))
    else if i < 18 then 1
    else Real.sin (Real.pi / 36 * (i + 1 / 2))
  else Real.sin (Real.pi / 36 * (i + 1 / 2))

/-- WIN2[i] (R311). -/
noncomputable def win2Real (i : ℕ) : ℝ := Real.sin (Real.pi / 12 * (i + 1 / 2))

/-- The real value of entry `k` of a list of cells. -/
noncomputable def cellReal (cells : List Word) (k : ℕ) : ℝ := val32 (cells.getD k 0#32)

/-- z[i] of R310 from the 18 inputs of one subband. -/
noncomputable def blockReal (x : List Word) (wt : BitVec 2) (i : ℕ) : ℝ :=
  if wt = 2#2 then
    ∑ w ∈ Finset.range 3,
      if 6 + 6 * w ≤ i ∧ i < 18 + 6 * w then
        (∑ k ∈ Finset.range 6, cellReal x (3 * k + w) *
          Real.cos (Real.pi / 24 * (2 * ((i - 6 - 6 * w : ℕ) : ℝ) + 7) * (2 * k + 1))) * win2Real (i - 6 - 6 * w)
      else 0
  else
    (∑ k ∈ Finset.range 18, cellReal x k * Real.cos (Real.pi / 72 * (2 * i + 19) * (2 * k + 1))) * winReal wt i

/-- Y[t] of R310. -/
noncomputable def outputReal (x o : List Word) (wt : BitVec 2) (sb t : ℕ) : ℝ :=
  (if sb % 2 = 1 ∧ t % 2 = 1 then -1 else 1) * (blockReal x wt t + cellReal o t)

/-- D[i] (R352). -/
noncomputable def windowD (i : ℕ) : ℝ := (synthD i : ℝ) / 2 ^ 16

/-- Vn[i] of R350 from the 32 subband samples. -/
noncomputable def matrixReal (s : List Word) (i : ℕ) : ℝ :=
  ∑ k ∈ Finset.range 32, Real.cos ((16 + i) * (2 * k + 1) * Real.pi / 64) * cellReal s k

/-- V(m) of R350 after the shift: Vn[m] for m < 64, Vo[m − 64] above. -/
noncomputable def lineReal (s vo : List Word) (m : ℕ) : ℝ :=
  if m < 64 then matrixReal s m else cellReal vo (m - 64)

/-- y[j] of R350. -/
noncomputable def sampleReal (s vo : List Word) (j : ℕ) : ℝ :=
  32768 * ∑ i ∈ Finset.range 8,
    (lineReal s vo (128 * i + j) * windowD (64 * i + j) +
      lineReal s vo (128 * i + 96 + j) * windowD (64 * i + 32 + j))

end Sys2Proof.Machine
end

