-- ==== Sys2Proof/Certificates/Slice0/Obligations.lean ====
section
/-! DEFINITION. The statements about L3RB for the provers, in the order of the spec's files. Each docstring names the
rules it formalises. `exec` and `step` are the model's; the helpers before the statements only name what the
spec's own words name. -/

namespace Sys2Proof.Machine

/-! ### Names used in the statements -/

variable {N : NumImpl}

/-- The state after a command that changed nothing but channel memories, PCM, CLIPCNT, warnings and free slots, and
completed: its latch is empty, DONE is set, and everything but the fields named keeps its value. -/
def CompletesWithin (s t : State N) : Prop :=
  t = { s with
    latch := none
    status := { s.status with done := true, warns := t.status.warns }
    clipcnt := t.clipcnt
    pcm := t.pcm
    ch0 := t.ch0
    ch1 := t.ch1
    free := t.free }

/-- Every channel but `ch` is untouched. -/
def OnlyChannel (s t : State N) (ch : BitVec 1) : Prop := ∀ c, c ≠ ch → t.chan c = s.chan c

/-- PCM, CLIPCNT and the warnings are untouched. -/
def NoOutput (s t : State N) : Prop :=
  t.pcm = s.pcm ∧ t.clipcnt = s.clipcnt ∧ t.status.warns = s.status.warns

/-- The status after `record_error(code)` (R450). -/
def errorStatus (r : Status) (code : BitVec 4) : Status :=
  { r with err := true, errcode := if r.err then r.errcode else code }

/-- LONG[f][b] of the snapshot's SFREQ (R251). -/
def longAt (p : Params) (b : Nat) : Nat := (longRowOf p.cfg.sfreq.toNat).getD b 0

/-- SHORT[f][b] of the snapshot's SFREQ (R251). -/
def shortAt (p : Params) (b : Nat) : Nat := (shortRowOf p.cfg.sfreq.toNat).getD b 0

/-- R259: DEQ has band tables for the snapshot's SFREQ, BT and MIX. -/
def DeqAccepts (p : Params) : Prop :=
  p.cfg.sfreq.toNat ≤ 8 ∧ ¬(p.cfg.sfreq.toNat = 8 ∧ p.block.bt = 2#2 ∧ p.block.mix = true)

/-- R253: line i is long. -/
def LongLine (p : Params) (i : Nat) : Prop := p.block.bt ≠ 2#2 ∨ (p.block.mix = true ∧ i < 36)

/-- R253: short band b holds short lines. -/
def ShortBandUsed (p : Params) (b : Nat) : Prop := p.block.bt = 2#2 ∧ (p.block.mix = true → 3 ≤ b)

/-- R254: the scalefactor of long band b, 0 for band 21. -/
def longScale (s : State N) (b : Nat) : Nat :=
  if b ≤ 20 then ((Store.get unspecified s.sfl b).getD 0#6).toNat else 0

/-- R254: the scalefactor of short band b in window w, 0 for band 12. -/
def shortScale (s : State N) (b w : Nat) : Nat :=
  if b ≤ 11 then ((Store.get unspecified s.sfs (3 * b + w)).getD 0#6).toNat else 0

/-- R255, R39: SBG[w] is BLOCK.SBG0, SBG1, SBG2 for w = 0, 1, 2. -/
def windowGain (p : Params) (w : Nat) : Nat := ([p.block.sbg0, p.block.sbg1, p.block.sbg2].getD w 0#3).toNat

/-- R254: every scalefactor cell that DEQ reads holds a value. -/
def ScalesWritten (s : State N) : Prop :=
  (∀ b, b ≤ 20 → LongLine s.snap (longAt s.snap b) → (Store.get unspecified s.sfl b).isSome) ∧
  (∀ b w, b ≤ 11 → w < 3 → ShortBandUsed s.snap b → (Store.get unspecified s.sfs (3 * b + w)).isSome)

/-- R255: the multiplier 2·(1 + SS). -/
def scaleStep (p : Params) : Int := 2 * (1 + p.gain.ss.toNat)

/-- R301: AA processes boundary b. -/
def AaBoundary (p : Params) (b : Nat) : Prop :=
  1 ≤ b ∧ b ≤ 31 ∧ (p.block.bt ≠ 2#2 ∨ (p.block.mix = true ∧ b = 1))

/-- R317: the window type of subband sb. -/
def subbandType (p : Params) (sb : Nat) : BitVec 2 := if p.block.mix = true ∧ sb < 2 then 0#2 else p.block.bt

/-- The cells from `base` on hold the values listed. -/
def Holds {w : Nat} (d : Option (BitVec w)) (m : Store w) (base : Nat) (vs : List (BitVec w)) : Prop :=
  ∀ k (hk : k < vs.length), Store.get d m (base + k) = some vs[k]

/-- The logical delay-line entry V_c(m) (R353). -/
def lineEntry (s : State N) (ch : BitVec 1) (m : Nat) : Option N.R :=
  Store.get N.zeroed (s.chan ch).vr ((64 * (s.chan ch).bo.toNat + m) % 1024)

/-- R351: synthesis on `ch` is accepted. -/
def SynthAccepts (p : Params) (ch : BitVec 1) : Prop := ch = 0#1 ∨ p.cfg.stereo = true

/-- R358: the PCM cell of sample n of channel ch. -/
def pcmCell (p : Params) (ch : BitVec 1) (n : Nat) : Nat := if p.cfg.stereo = true then 2 * n + ch.toNat else n

/-- The outputs y[j] of a step, settled from the free slots the step gives them. -/
def stepOutput (s : State N) (sb vo : List N.R) (j : Nat) : N.R :=
  settled (s.free + 64 + j) ((N.ops.synth sb vo).2 j)

/-- Whether the sample of a real value clips (R357). -/
def clips (r : Option ℚ) : Bool :=
  match r with
  | some r => (pcm16 r).2
  | none => false

/-- Following a codeword's bits down a codebook's tree. -/
def follow {α : Type} : Code α → List Bool → Option (Code α)
  | c, [] => some c
  | .leaf _, _ :: _ => none
  | .node zero one, b :: bs => follow (if b then one else zero) bs

/-- R201: no bit may be read at this bit address. -/
abbrev PastEnd (src : BitSource) (pos : Nat) : Prop := src.bitEnd ≤ pos ∨ 32768 ≤ pos

/-- R104: the bit at this bit address is bit 7 − (pos mod 8) of BITBUF[pos div 8], which holds a value. -/
def BitIs (src : BitSource) (pos : Nat) (bit : Bool) : Prop :=
  ∃ b, Store.get unspecified src.bitbuf (pos / 8) = some b ∧ b.getLsbD (7 - pos % 8) = bit

/-- The bits from the reader's bit address on are `bits`, and each may be read (R104, R201). -/
def BitsAt (src : BitSource) (r : Reader) (bits : List Bool) : Prop :=
  ∀ k (hk : k < bits.length), ¬PastEnd src (r.pos + k) ∧ BitIs src (r.pos + k) bits[k]

/-- The reader after `n` more bits. -/
def Reader.after (r : Reader) (n : Nat) : Reader := ⟨r.pos + n, r.used + n⟩

/-- The low `n` bits of `v`, most significant first. -/
def bitsMsb (n v : Nat) : List Bool := (List.range n).reverse.map (fun i => v.testBit i)

/-- R207, R211: the escape bits of a coordinate v whose escape field is e. -/
def escapeBits (t : BitVec 5) (v e : Nat) : List Bool := if 0 < linbits t ∧ v = 15 then bitsMsb (linbits t) e else []

/-- R211: the magnitude of a coordinate v whose escape field is e. -/
def escaped (t : BitVec 5) (v e : Nat) : Nat := if 0 < linbits t ∧ v = 15 then v + e else v

/-- R207: the sign bit of a magnitude, if it is not 0. -/
def signBits (m : Nat) (neg : Bool) : List Bool := if m = 0 then [] else [neg]

/-- The value of a magnitude and a sign. -/
def withSign (m : Nat) (neg : Bool) : Int := if neg then -(m : Int) else m

/-- R212: value j of a count1 codeword q, v first, negated where `neg` says so. -/
def quadValue (q : BitVec 4) (neg : Nat → Bool) (j : Nat) : Int :=
  if q.getLsbD (3 - j) then (if neg j then -1 else 1) else 0

/-- R204: the tables whose codebook is an open parameter, 13, 15 and 16 to 31. -/
abbrev OpenTable (t : BitVec 5) : Prop := t.toNat = 13 ∨ 15 ≤ t.toNat

/-- R204: a codebook is a complete prefix code over the 256 pairs: each pair stands at exactly one of its leaves, that
is, exactly one codeword leads to it. That a codebook is a tree, and so prefix-free and complete, is log entry 15. -/
def CompleteCode (c : Code Nibbles) : Prop := ∀ p : Nibbles, ∃! word : List Bool, follow c word = some (.leaf p)

/-- The longest codeword of a codebook. -/
def codeDepth {α : Type} : Code α → Nat
  | .leaf _ => 0
  | .node l r => max (codeDepth l) (codeDepth r) + 1

/-- The big-values listings of 40_huffman.md section 7, by table number. -/
def listings : List (Nat × List (List Nat)) :=
  [(1, listing1), (2, listing2), (3, listing3), (5, listing5), (6, listing6), (7, listing7), (8, listing8),
   (9, listing9), (10, listing10), (11, listing11), (12, listing12)]

/-- The memories but OVL and VR, on whose contents a soft reset has no effect unless it discards a command (R501). -/
def SameKeptMemories (s t : State N) : Prop :=
  t.bitbuf = s.bitbuf ∧ t.sfl = s.sfl ∧ t.sfs = s.sfs ∧ t.isq = s.isq ∧ t.pcm = s.pcm ∧
    ∀ c, (t.chan c).xr = (s.chan c).xr ∧ (t.chan c).sbs = (s.chan c).sbs

/-- What a discarded command makes unspecified, per memory of R501. -/
def Discards (i : Instr) (p : Params) (s t : State N) : Prop :=
  t.bitbuf = s.bitbuf ∧ t.sfl = s.sfl ∧ t.sfs = s.sfs ∧
  (∀ a, Store.get unspecified t.isq a = if i = .huff then none else Store.get unspecified s.isq a) ∧
  (∀ c a, Store.get unspecified (t.chan c).xr a =
    if i = .deq c ∨ i = .aa c then none else Store.get unspecified (s.chan c).xr a) ∧
  (∀ c a, Store.get unspecified (t.chan c).sbs a =
    if i = .imdct c then none else Store.get unspecified (s.chan c).sbs a) ∧
  (∀ a, (∀ ch, i = .synthg ch ∨ (∃ k, i = .synth ch k) → ¬∃ n, n < 576 ∧ SynthAccepts p ch ∧ a = pcmCell p ch n) →
    Store.get unspecified t.pcm a = Store.get unspecified s.pcm a) ∧
  (∀ ch n, i = .synthg ch ∨ (∃ k, i = .synth ch k) → SynthAccepts p ch → n < 576 →
    Store.get unspecified t.pcm (pcmCell p ch n) = none)

/-- Every register as R500 states it after reset, and no command latched. -/
def RegistersReset (t : State N) : Prop :=
  t.readRegister 0 = 0x4C330100#32 ∧ (∀ n, n ≠ 0 → t.readRegister n = 0#32) ∧ t.latch = none ∧ t.irq = false

/-- OVL and VR all ZERO and BO 0, on both channels. -/
def FilterCleared (c : Channel N) : Prop :=
  (∀ a, Store.get N.zeroed c.ovl a = some N.ops.zero) ∧ (∀ a, Store.get N.zeroed c.vr a = some N.ops.zero) ∧
    c.bo = 0#4

/-- R500: what power-on reset leaves of L3RB's own state. -/
def PoweredOn (t : State N) : Prop :=
  RegistersReset t ∧
  (∀ c, FilterCleared (t.chan c) ∧ (∀ a, Store.get unspecified (t.chan c).xr a = none) ∧
    (∀ a, Store.get unspecified (t.chan c).sbs a = none)) ∧
  (∀ a, Store.get unspecified t.bitbuf a = none) ∧
  (∀ a, Store.get unspecified t.sfl a = none) ∧
  (∀ a, Store.get unspecified t.sfs a = none) ∧
  (∀ a, Store.get unspecified t.isq a = none) ∧
  (∀ a, Store.get unspecified t.pcm a = none)

/-- The memories that the host accesses by whole words, with the offset and the number of their cells (R100). -/
def wordRegions : List (Place × Nat × Nat) :=
  [(.sfl, 0x0100, 21), (.sfs, 0x0160, 36), (.isq, 0x2000, 576), (.xr 0#1, 0x4000, 576), (.xr 1#1, 0x5000, 576),
   (.ovl 0#1, 0x6000, 576), (.ovl 1#1, 0x7000, 576), (.sbs 0#1, 0x8000, 576), (.sbs 1#1, 0x9000, 576),
   (.vr 0#1, 0xA000, 1024), (.vr 1#1, 0xB000, 1024), (.pcm, 0xC000, 1152)]

/-- Cell i of a memory of `wordRegions` holds what a written word w leaves there (R12, R41–R48; SFS as log entry 23
has it). -/
def CellHolds (t : State N) (place : Place) (i : Nat) (w : Word) : Prop :=
  match place with
  | .register => False
  | .bitbuf => False
  | .sfl => Store.get unspecified t.sfl i = some (w.extractLsb' 0 6)
  | .sfs => Store.get unspecified t.sfs i = some (w.extractLsb' 0 6)
  | .isq => Store.get unspecified t.isq i = some (w.extractLsb' 0 16)
  | .xr c => Store.get unspecified (t.chan c).xr i = some (N.ops.dec w)
  | .ovl c => Store.get N.zeroed (t.chan c).ovl i = some (N.ops.dec w)
  | .sbs c => Store.get unspecified (t.chan c).sbs i = some (N.ops.dec w)
  | .vr c => Store.get N.zeroed (t.chan c).vr i = some (N.ops.dec w)
  | .pcm => Store.get unspecified t.pcm i = some w

/-- The word that a cell of a memory of `wordRegions` reads as after w is written to it (R12, R41–R48; SFS as log
entry 23 has it). -/
def readsBack (N : NumImpl) (place : Place) (w : Word) : Word :=
  match place with
  | .register => w
  | .bitbuf => w
  | .sfl => w &&& 0x3F#32
  | .sfs => w &&& 0x3F#32
  | .isq => (w.extractLsb' 0 16).signExtend 32
  | .xr _ => N.ops.enc (N.ops.dec w)
  | .ovl _ => N.ops.enc (N.ops.dec w)
  | .sbs _ => N.ops.enc (N.ops.dec w)
  | .vr _ => N.ops.enc (N.ops.dec w)
  | .pcm => w

/-- Cell i of a memory of `wordRegions` that power-on reset leaves unspecified holds no value (R57). -/
def CellUnwritten (s : State N) (place : Place) (i : Nat) : Prop :=
  match place with
  | .register => False
  | .bitbuf => False
  | .sfl => Store.get unspecified s.sfl i = none
  | .sfs => Store.get unspecified s.sfs i = none
  | .isq => Store.get unspecified s.isq i = none
  | .xr c => Store.get unspecified (s.chan c).xr i = none
  | .ovl _ => False
  | .sbs c => Store.get unspecified (s.chan c).sbs i = none
  | .vr _ => False
  | .pcm => Store.get unspecified s.pcm i = none

/-- t is s but for the memory `place`, of which at most cell i differs: every other cell of every memory, unwritten ones
too, is as it was. -/
def OnlyCell (s t : State N) (place : Place) (i : Nat) : Prop :=
  t = { s with sfl := t.sfl, sfs := t.sfs, isq := t.isq, pcm := t.pcm, ch0 := t.ch0, ch1 := t.ch1 } ∧
  (∀ a, ¬(place = .sfl ∧ a = i) → Store.get unspecified t.sfl a = Store.get unspecified s.sfl a) ∧
  (∀ a, ¬(place = .sfs ∧ a = i) → Store.get unspecified t.sfs a = Store.get unspecified s.sfs a) ∧
  (∀ a, ¬(place = .isq ∧ a = i) → Store.get unspecified t.isq a = Store.get unspecified s.isq a) ∧
  (∀ a, ¬(place = .pcm ∧ a = i) → Store.get unspecified t.pcm a = Store.get unspecified s.pcm a) ∧
  ∀ c, (t.chan c).bo = (s.chan c).bo ∧
    (∀ a, ¬(place = .xr c ∧ a = i) → Store.get unspecified (t.chan c).xr a = Store.get unspecified (s.chan c).xr a) ∧
    (∀ a, ¬(place = .ovl c ∧ a = i) → Store.get N.zeroed (t.chan c).ovl a = Store.get N.zeroed (s.chan c).ovl a) ∧
    (∀ a, ¬(place = .sbs c ∧ a = i) →
      Store.get unspecified (t.chan c).sbs a = Store.get unspecified (s.chan c).sbs a) ∧
    (∀ a, ¬(place = .vr c ∧ a = i) → Store.get N.zeroed (t.chan c).vr a = Store.get N.zeroed (s.chan c).vr a)

/-- A one-bit field. -/
def bit (b : Bool) : BitVec 1 := BitVec.ofBool b

/-- The words of the registers from offset 0 on, four bytes each, with their fields at the places that R32–R39 and
R50–R53 give them, most significant first: ID, CTRL, STATUS, CMD, the ten parameter registers CFG to BITEND, HUFFUSED,
OVERRUN, C1END, CLIPCNT and SYNBO. -/
def registerLayout (s : State N) : List Word :=
  let p := s.par
  [0x4C33#16 ++ 0x01#8 ++ 0x00#8,
   0#28 ++ bit s.ctrl.ieWarn ++ bit s.ctrl.ieErr ++ bit s.ctrl.ieDone ++ 0#1,
   0#8 ++ s.status.warns ++ 0#4 ++ s.status.errcode ++ 0#5 ++ bit s.status.err ++ bit s.status.done ++
     bit s.latch.isSome,
   0#32,
   0#26 ++ bit p.cfg.unclip ++ bit p.cfg.stereo ++ p.cfg.sfreq,
   0#20 ++ p.len,
   0#20 ++ p.p2,
   0#22 ++ p.bv,
   0#21 ++ bit p.gain.c1sel ++ bit p.gain.pre ++ bit p.gain.ss ++ p.gain.gg,
   0#11 ++ p.tsel.t2 ++ 0#3 ++ p.tsel.t1 ++ 0#3 ++ p.tsel.t0,
   0#6 ++ p.region.r2 ++ 0#6 ++ p.region.r1,
   0#17 ++ p.block.sbg2 ++ 0#1 ++ p.block.sbg1 ++ 0#1 ++ p.block.sbg0 ++ 0#1 ++ bit p.block.mix ++ p.block.bt,
   0#16 ++ p.pos,
   0#16 ++ p.bitEnd,
   0#16 ++ s.huffused,
   0#16 ++ s.overrun,
   0#22 ++ s.c1end,
   s.clipcnt,
   0#20 ++ s.ch1.bo ++ 0#4 ++ s.ch0.bo]

/-- The next event is a host access, by its offset in the window or by its physical address. -/
def NextHost (s : State N) (op : HostOp) : Prop :=
  ∃ es, s.pending = .host op :: es ∨ ∃ bus, s.pending = .bus bus :: es ∧ bus.inWindow Config.base = some op

/-- The next step is the sequencer's, on a latched command i. -/
def NextCommand (s : State N) (i : Instr) : Prop :=
  (s.pending = [] ∨ ∃ es, s.pending = .sequencer :: es) ∧ ∃ l, s.latch = some l ∧ decode l.word = .ok i

/-- The next event is a power-on reset or a soft reset. -/
def NextReset (s : State N) : Prop :=
  (∃ es, s.pending = .powerOn :: es) ∨ ∃ w : Word, NextHost s (.write .w32 0x0004#16 w) ∧ w.getLsbD 0 = true

/-- The next event is a host write to an offset between two bounds. -/
def NextWriteBetween (s : State N) (lo hi : Nat) : Prop :=
  ∃ off w, NextHost s (.write .w32 off w) ∧ lo ≤ off.toNat ∧ off.toNat < hi

/-- R208: the table of the pair that starts at line 2k. -/
def tableOf (p : Params) (k : Nat) : BitVec 5 :=
  if 2 * k < p.region.r1.toNat then p.tsel.t0 else if 2 * k < p.region.r2.toNat then p.tsel.t1 else p.tsel.t2

/-- R210: big_values, clamped to 288. -/
def pairsOf (p : Params) : Nat := min p.bv.toNat 288

/-- R209: the budget. -/
def budgetOf (p : Params) : Nat := p.len.toNat - p.p2.toNat

/-- R204: every table that a pair of the granule selects may be decoded: it is listed, or its codebook is a complete
prefix code over the 256 pairs. -/
def TablesUsable (p : Params) : Prop :=
  ∀ k, k < pairsOf p → OpenTable (tableOf p k) → CompleteCode (codebook (tableOf p k))

/-- R207: the first n pairs decode one after the other from BITPOS on: pair k to (x k, y k), and the reader after it is
rs (k + 1). -/
def PairsDecode (s : State N) (n : Nat) (rs : Nat → Reader) (x y : Nat → Int) : Prop :=
  rs 0 = ⟨s.snap.pos.toNat, 0⟩ ∧
  ∀ k, k < n → readPair s.bitSource (tableOf s.snap k) (rs k) = .ok (x k, y k) (rs (k + 1))

/-- The count1 quadruple that the reader r stands at (R212). -/
def nextQuad (s : State N) (r : Reader) : Read (Option (List Int × Bool)) :=
  readQuad s.bitSource s.snap.gain.c1sel (budgetOf s.snap) r

/-- R212, R215: a quadruple at this line is decoded: its lines are below 576 and the budget is not used up. -/
def QuadStarts (s : State N) (line : Nat) (r : Reader) : Prop := line ≤ 572 ∧ r.used < budgetOf s.snap

/-- R212: m whole quadruples decode one after the other after the pairs: quadruple j to qs j, and the reader after it is
rs (n + j + 1), n the number of pairs. -/
def QuadsDecode (s : State N) (m : Nat) (rs : Nat → Reader) (qs : Nat → List Int) : Prop :=
  ∀ j, j < m → QuadStarts s (2 * pairsOf s.snap + 4 * j) (rs (pairsOf s.snap + j)) ∧
    nextQuad s (rs (pairsOf s.snap + j)) = .ok (some (qs j, false)) (rs (pairsOf s.snap + j + 1))

/-- R212: how the count1 region ends at a line, where the reader r stands: whole, or cut in a last quadruple, of which
the values `last` are kept (four, at a sign; none, inside the codeword). The reader after it is r'. -/
def CountOneEnds (s : State N) (line : Nat) (r : Reader) (last : List Int) (r' : Reader) (cut : Bool) : Prop :=
  (¬QuadStarts s line r ∧ last = [] ∧ r' = r ∧ cut = false) ∨
  (QuadStarts s line r ∧ cut = true ∧
    (nextQuad s r = .ok (some (last, true)) r' ∨ (nextQuad s r = .ok none r' ∧ last = [])))

/-- IS holds the pairs and the quadruples listed at their lines, and the values `last` and then 0 from line `line` on.
-/
def SpectrumIs (s t : State N) (n m : Nat) (x y : Nat → Int) (qs : Nat → List Int) (last : List Int) : Prop :=
  let line := 2 * n + 4 * m
  (∀ k, k < n → Store.get unspecified t.isq (2 * k) = some (BitVec.ofInt 16 (x k)) ∧
    Store.get unspecified t.isq (2 * k + 1) = some (BitVec.ofInt 16 (y k))) ∧
  (∀ j i, j < m → i < 4 →
    Store.get unspecified t.isq (2 * n + 4 * j + i) = some (BitVec.ofInt 16 ((qs j).getD i 0))) ∧
  (∀ i, line + i < 576 → Store.get unspecified t.isq (line + i) = some (BitVec.ofInt 16 (last.getD i 0))) ∧
  ∀ a, 576 ≤ a → Store.get unspecified t.isq a = Store.get unspecified s.isq a

/-- Each warning bit after is the bit before or its cause. -/
def WarnsAre (s t : State N) (cause : Nat → Prop) : Prop :=
  ∀ b, b < 8 → (t.status.warns.getLsbD b = true ↔ s.status.warns.getLsbD b = true ∨ cause b)

/-- R205: one of the first n pairs selects table 4 or 14. -/
def ReservedAmong (p : Params) (n : Nat) : Prop := ∃ k, k < n ∧ (tableOf p k = 4#5 ∨ tableOf p k = 14#5)

/-- The causes of the warnings that HUFF sets before its first bit (R209, R210, R200), by the bit of `warns`. -/
def earlyCause (p : Params) (b : Nat) : Prop :=
  (b = 0 ∧ 288 < p.bv.toNat) ∨ (b = 1 ∧ p.region.r2.toNat < p.region.r1.toNat) ∨ (b = 4 ∧ p.len.toNat < p.p2.toNat)

/-- The causes of a completed HUFF's warnings (R454), for the bits read and the line after the count1 region. -/
def huffCause (p : Params) (used line : Nat) (cut : Bool) (b : Nat) : Prop :=
  earlyCause p b ∨ (b = 2 ∧ budgetOf p < used) ∨ (b = 3 ∧ ReservedAmong p (pairsOf p)) ∨
    (b = 5 ∧ 572 < line ∧ used < budgetOf p) ∨ (b = 6 ∧ cut = true)

/-- No precision of the list decides how a form's value rounds (log entry 12). -/
def Undecided (u : Unit) (ts : List (Word × List CosTerm)) : Prop :=
  ∀ p ∈ precisions, roundAt u (doubled u (coefficients u.right ts (List.replicate u.right 0))) p = none

end Sys2Proof.Machine

open Sys2Proof Sys2Proof.Machine

/-! ### 30_encoding.md -/

/-- R143, R144, R145: words written out from the field layout of R140 decode to their commands, and one word of each
illegal kind is refused by its kind. -/
def Obligations.SpecWordsDecode : Prop :=
  decode 0x00000000#32 = .ok .nop ∧ decode 0x00000001#32 = .ok .huff ∧
  decode 0x00000102#32 = .ok (.deq 1#1) ∧ decode 0x00000003#32 = .ok (.aa 0#1) ∧
  decode 0x00000104#32 = .ok (.imdct 1#1) ∧ decode 0x00011105#32 = .ok (.synth 1#1 17#5) ∧
  decode 0x00000006#32 = .ok (.synthg 0#1) ∧ decode 0x00000207#32 = .ok (.clrh 2#2) ∧
  decode 0x00000008#32 = .error .reservedOpcode ∧ decode 0x00000100#32 = .error .reservedBit ∧
  decode 0x00000407#32 = .error .reservedBit ∧ decode 0x00012005#32 = .error .slotRange

/-- R147 with R144: the encoding of every well-formed command decodes to that command. -/
def Obligations.DecodeOfEncodeIsIdentity : Prop :=
  ∀ i : Instr, i.wellFormed = true → decode (encode i) = .ok i

/-- R144: a word that decodes is the encoding of exactly the one well-formed command it decodes to, so no bit of an
accepted word is dropped. -/
def Obligations.AcceptedWordsAreEncodings : Prop :=
  ∀ (w : Word) (i : Instr), decode w = .ok i → i.wellFormed = true ∧ encode i = w

/-- R145: exactly the words of its three classes are refused. -/
def Obligations.IllegalWordsAreExactlyThese : Prop :=
  ∀ w : Word, (∃ e, decode w = .error e) ↔
    (8 ≤ w.toNat % 256 ∨
     (w.toNat % 256 ≤ 1 ∧ w &&& 0xFFFFFF00#32 ≠ 0#32) ∨
     (w.toNat % 256 ∈ [2, 3, 4, 6] ∧ w &&& 0xFFFFFE00#32 ≠ 0#32) ∨
     (w.toNat % 256 = 5 ∧ (w &&& 0xFFFE0E00#32 ≠ 0#32 ∨ 18 ≤ w.toNat / 2 ^ 12 % 32)) ∨
     (w.toNat % 256 = 7 ∧ w &&& 0xFFFFFC00#32 ≠ 0#32))

/-! ### Steps, issue and the latch -/

/-- R16, R450: when the latched word decodes to i and the sequencer steps (its event is next, or no event is to come:
that the latter is its step is the model's choice, log entry 4), the step is exec of i, with the event taken. -/
def Obligations.StepRunsLatchedCommand : Prop :=
  ∀ (s : State) (l : Latch) (i : Instr), s.latch = some l → decode l.word = .ok i →
    (s.pending = [] → step s = exec i s) ∧
    (∀ es, s.pending = .sequencer :: es → step s = exec i { s with pending := es })

/-- R466: idle, L3RB keeps all its state, at a sequencer event and with no event to come (that these are the steps it is
idle in is the model's choice, log entry 4); and nothing wakes it but a CMD write: a step that latches a command is a
host write to CMD, with ERR = 0, of a word that decodes, and what it latches is that word with the registers. -/
def Obligations.IdleKeepsState : Prop :=
  ∀ s : State, s.latch = none →
    (s.pending = [] → step s = .next s) ∧
    (∀ es, s.pending = .sequencer :: es → step s = .next { s with pending := es }) ∧
    (∀ t, step s = .next t → t.latch ≠ none → ∃ w i, NextHost s (.write .w32 0x000C#16 w) ∧ decode w = .ok i ∧
      s.status.err = false ∧ t.latch = some ⟨w, s.par⟩)

/-- R9, R100, R148: what the events of the host do. An access by offset is that window access; one at a physical address
is the window access at its offset from BASE, which is 64 KiB aligned, and outside the window it changes nothing (log
entry 17). A WAIT reads STATUS: with BUSY = 0 it ends, and with BUSY = 1 the sequencer's step and the next poll follow
(log entry 4). RUN is ISSUE and WAIT (R149). -/
def Obligations.HostEventsAccessTheWindow : Prop :=
  Config.base % 0x10000 = 0 ∧ (∀ i, hostRUN i = [.host (.write .w32 0x000C#16 (encode i)), .wait]) ∧
  ∀ (s : State) (es : List Event),
    let u : State := { s with pending := es }
    (∀ op, s.pending = .host op :: es → step s = hostAccess op u) ∧
    (∀ width (off : BitVec 16), s.pending = .bus (.read width (Config.base + off.toNat)) :: es →
      step s = hostAccess (.read width off) u) ∧
    (∀ width (off : BitVec 16) w, s.pending = .bus (.write width (Config.base + off.toNat) w) :: es →
      step s = hostAccess (.write width off w) u) ∧
    (∀ width address w, address < Config.base ∨ Config.base + 0x10000 ≤ address →
      s.pending = .bus (.read width address) :: es ∨ s.pending = .bus (.write width address w) :: es →
      step s = .next u) ∧
    (s.pending = .wait :: es → s.statusWord.getLsbD 0 = false →
      step s = .next { u with rdata := some s.statusWord }) ∧
    (s.pending = .wait :: es → s.statusWord.getLsbD 0 = true →
      step s = .next { u with rdata := some s.statusWord, pending := .sequencer :: .wait :: es })

/-- The model's own fetch (log entry 10): a command placed with `withFetchWord` is what the very next step runs. -/
def Obligations.PlacedCommandRunsNext : Prop :=
  ∀ (s : State) (i : Instr), i.wellFormed = true →
    step (s.withFetchWord 32 (encode i).toNat) = exec i { s with latch := some ⟨encode i, s.par⟩ }

/-- R450, R458: a CMD write tests BUSY first (CMDBUSY, code 2), then ERR (the word is discarded), then the decode
(BADCMD, code 1), and a refused word changes at most ERR and ERRCODE; a word that passes all three clears DONE and is
latched with a snapshot of the registers (R54), and nothing else changes. -/
def Obligations.IssueTestsThenLatches : Prop :=
  ∀ (s : State) (w : Word),
    (s.busy = true →
      hostAccess (.write .w32 0x000C#16 w) s = .next { s with status := errorStatus s.status 2#4 }) ∧
    (s.busy = false → s.status.err = true → hostAccess (.write .w32 0x000C#16 w) s = .next s) ∧
    (s.busy = false → s.status.err = false → (∃ e, decode w = .error e) →
      hostAccess (.write .w32 0x000C#16 w) s = .next { s with status := errorStatus s.status 1#4 }) ∧
    (∀ i : Instr, s.busy = false → s.status.err = false → i.wellFormed = true →
      hostAccess (.write .w32 0x000C#16 (encode i)) s =
        .next { s with status := { s.status with done := false }, latch := some ⟨encode i, s.par⟩ })

/-- R54: a latched command reads its snapshot, the one that the latch holds, never the live registers: with other live
registers it ends the same way, and the state after it differs in those registers only, of which HUFF alone writes
BITPOS. -/
def Obligations.SnapshotShieldsCommand : Prop :=
  ∀ (i : Instr) (s : State) (l : Latch) (q : Params), s.latch = some l → s.snap = l.snap ∧
    match exec i s, exec i { s with par := q } with
    | .next t, .next t' =>
      { t' with par := t.par } = t ∧
        ((t.par = s.par ∧ t'.par = q) ∨
          (i = .huff ∧ t.par = { s.par with pos := t.par.pos } ∧ t'.par = { q with pos := t.par.pos }))
    | .fault f, .fault f' => f = f'
    | .refused r, .refused r' => r = r'
    | _, _ => False

/-- R450, R451, R453, R458: a command that ends empties the latch. It ends either with DONE and no error recorded, or
with DONE as it was and one error, UNDERFLOW for HUFF and BADPARAM for DEQ, SYNTH and SYNTHG; ERRCODE keeps an
earlier error's code, and a command refused with BADPARAM changes nothing but STATUS and the latch. -/
def Obligations.CommandsEndDoneOrWithOneError : Prop :=
  ∀ (i : Instr) (s t : State), exec i s = .next t →
    t.latch = none ∧
    ((t.status.done = true ∧ t.status.err = s.status.err ∧ t.status.errcode = s.status.errcode) ∨
     (i = .huff ∧ t.status.done = s.status.done ∧ t.status.err = true ∧
       t.status.errcode = (errorStatus s.status 3#4).errcode) ∨
     (((∃ ch, i = .deq ch) ∨ (∃ ch k, i = .synth ch k) ∨ (∃ ch, i = .synthg ch)) ∧
       t = { s with latch := none, status := errorStatus s.status 4#4 }))

/-- R35: warning bits are sticky: no command clears one. Only HUFF sets those of HUFF, and only SYNTH and SYNTHG set
W_CLIP. -/
def Obligations.CommandsOnlySetTheirWarnings : Prop :=
  ∀ (i : Instr) (s t : State), exec i s = .next t →
    (∀ b, s.status.warns.getLsbD b = true → t.status.warns.getLsbD b = true) ∧
    (i ≠ .huff → ∀ b, b < 7 → t.status.warns.getLsbD b = s.status.warns.getLsbD b) ∧
    ((∀ ch k, i ≠ .synth ch k) → (∀ ch, i ≠ .synthg ch) →
      t.status.warns.getLsbD 7 = s.status.warns.getLsbD 7)

/-- R57, R204: a command stops in no other way than by reading unspecified content, and HUFF alone is refused, exactly
when a pair selects an open table whose configured codebook is no complete prefix code over the 256 pairs. That the
refusal happens when a pair selects that codebook is the model's reading of R204 (DEDUCED, log entry 15). -/
def Obligations.CommandsStopOnlyAsStated : Prop :=
  ∀ (i : Instr) (s : State),
    (∀ f, exec i s = .fault f → f = .unwritten) ∧
    (∀ r, exec i s = .refused r → i = .huff ∧ r = .badCodebook) ∧
    (exec .huff s = .refused .badCodebook ↔
      ∃ k, k < pairsOf s.snap ∧ OpenTable (tableOf s.snap k) ∧ ¬CompleteCode (codebook (tableOf s.snap k)))

/-! ### Registers, STATUS and IRQ -/

/-- R36, R37, R38, R39, R50: each parameter register stores the field bits of a written word, reads them back with
every other bit 0, and a write to it changes nothing else; this holds while BUSY too (R404). -/
def Obligations.ParameterRegistersReadBack : Prop :=
  ∀ (s : State) (w : Word) (off : BitVec 16) (mask : Word),
    (off, mask) ∈ [(0x0010#16, 0x0000003F#32), (0x0014#16, 0x00000FFF#32), (0x0018#16, 0x00000FFF#32),
      (0x001C#16, 0x000003FF#32), (0x0020#16, 0x000007FF#32), (0x0024#16, 0x001F1F1F#32),
      (0x0028#16, 0x03FF03FF#32), (0x002C#16, 0x00007777#32), (0x0030#16, 0x0000FFFF#32),
      (0x0034#16, 0x0000FFFF#32)] →
    ∃ t, hostAccess (.write .w32 off w) s = .next t ∧ t = { s with par := t.par } ∧
      t.readRegister (off.toNat / 4) = w &&& mask ∧
      ∀ n, n ≠ off.toNat / 4 → t.readRegister n = s.readRegister n

/-- R108, R404: a host read that is answered changes nothing but the data on the bus; writes to read-only and unlisted
registers do nothing; and a write of any value to CLIPCNT sets it to 0 and does nothing else. -/
def Obligations.ReadsAndReadOnlyWritesHaveNoEffect : Prop :=
  (∀ (s t : State) (width : Width) (off : BitVec 16),
    hostAccess (.read width off) s = .next t → t = { s with rdata := t.rdata }) ∧
  ∀ (s : State) (w : Word) (off : BitVec 16), off.toNat % 4 = 0 → off.toNat < 0x100 →
    (off.toNat = 0 ∨ (0x38 ≤ off.toNat ∧ off.toNat ≠ 0x44) →
      hostAccess (.write .w32 off w) s = .next s) ∧
    (off.toNat = 0x44 → hostAccess (.write .w32 off w) s = .next { s with clipcnt := 0#32 })

/-- R35: a host write to STATUS clears exactly the W1C bits written with 1, ERRCODE with ERR, and nothing else. -/
def Obligations.StatusWriteClearsWrittenBits : Prop :=
  ∀ (s : State) (w : Word), ∃ t, hostAccess (.write .w32 0x0008#16 w) s = .next t ∧
    t = { s with status := t.status } ∧
    (∀ k, k ∈ [1, 2, 16, 17, 18, 19, 20, 21, 22, 23] →
      t.statusWord.getLsbD k = (s.statusWord.getLsbD k && !w.getLsbD k)) ∧
    (∀ k, k ∈ [8, 9, 10, 11] → t.statusWord.getLsbD k = (s.statusWord.getLsbD k && !w.getLsbD 2)) ∧
    (∀ k, k ∉ [1, 2, 8, 9, 10, 11, 16, 17, 18, 19, 20, 21, 22, 23] →
      t.statusWord.getLsbD k = s.statusWord.getLsbD k)

/-- R33, R460: a CTRL write with bit 0 = 0 stores bits 3:1, which read back with every other bit 0, and changes
nothing else; the interrupt output after it is the level that the words CTRL and STATUS give. -/
def Obligations.CtrlEnablesAndIrq : Prop :=
  (∀ (s : State) (w : Word), w.getLsbD 0 = false →
    ∃ t, hostAccess (.write .w32 0x0004#16 w) s = .next t ∧ t = { s with ctrl := t.ctrl } ∧
      t.readRegister 1 = w &&& 0x0000000E#32) ∧
  ∀ s : State, s.irq =
    (((s.readRegister 1).getLsbD 1 && (s.readRegister 2).getLsbD 1) ||
      ((s.readRegister 1).getLsbD 2 && (s.readRegister 2).getLsbD 2) ||
      ((s.readRegister 1).getLsbD 3 && decide ((s.readRegister 2).extractLsb' 16 8 ≠ 0#8)))

/-! ### Reset -/

/-- R500: after power-on reset every register reads as the table says, no command is latched, IRQ is 0, OVL and VR
are ZERO, and every other memory is unspecified: so is State.reset, and so is the state that a power-on reset gives from
every state. That such a reset is an event of `pending`, and that the model's own record of the outside goes on, is the
model's choice (log entries 4 and 9). -/
def Obligations.PowerOnResetState : Prop :=
  PoweredOn State.reset ∧
  ∀ (s : State) (es : List Event), s.pending = .powerOn :: es →
    ∃ t, step s = .next t ∧ PoweredOn t ∧ t.pending = es ∧ t.rdata = s.rdata ∧ t.free = s.free

/-- R501: a CTRL write with bit 0 = 1, whatever its other bits, resets every register, OVL, VR and the offsets, with no
error and no DONE. With no command latched every other memory keeps its contents; with one latched, the cells that it
would have written, as log entry 8 reads the rule's list, become unspecified, and every other cell keeps its content. -/
def Obligations.SoftResetClearsAndDiscards : Prop :=
  ∀ (s : State) (w : Word), w.getLsbD 0 = true →
    (s.latch = none → ∃ t, hostAccess (.write .w32 0x0004#16 w) s = .next t ∧ RegistersReset t ∧
      (∀ c, FilterCleared (t.chan c)) ∧ SameKeptMemories s t) ∧
    (∀ (l : Latch) (i : Instr), s.inv = true → s.latch = some l → decode l.word = .ok i →
      ∃ t, hostAccess (.write .w32 0x0004#16 w) s = .next t ∧ RegistersReset t ∧
        (∀ c, FilterCleared (t.chan c)) ∧ Discards i l.snap s t)

/-! ### The host's memory accesses -/

/-- R105, R106: an access faults with HOST_BUSERR exactly when its width and alignment are not accepted. That it does so
while BUSY too, before HOST_RACE, is the model's choice (log entry 18). -/
def Obligations.BusErrorsAreExactlyThese : Prop :=
  ∀ (s : State) (op : HostOp), hostAccess op s = .fault .hostBusErr ↔
    ∃ width off, (op = .read width off ∨ ∃ w, op = .write width off w) ∧
      ¬(width = .w32 ∧ off.toNat % 4 = 0) ∧ ¬(width = .w8 ∧ 0x1000 ≤ off.toNat ∧ off.toNat < 0x2000)

/-- R31–R39, R50–R53, R405, R511: a register read answers the register's word in every state, BUSY or not: each field
of the state at its place, every other bit 0, and 0 at CMD and at every unlisted offset; and a register write is
allowed. While BUSY, a word access to a cell of any memory faults with HOST_RACE, and so does a byte access to BITBUF;
that it does so also where the cell holds no value, before UNWRITTEN, is the model's choice (log entry 18). -/
def Obligations.MemoryAccessWhileBusyFaults : Prop :=
  ∀ (s : State) (off : BitVec 16) (w : Word),
    (off.toNat % 4 = 0 → off.toNat < 0x100 →
      hostAccess (.read .w32 off) s = .next { s with rdata := some (s.readRegister (off.toNat / 4)) } ∧
      s.readRegister (off.toNat / 4) = (registerLayout s).getD (off.toNat / 4) 0#32 ∧
      ∃ t, hostAccess (.write .w32 off w) s = .next t) ∧
    (s.busy = true → off.toNat % 4 = 0 →
      (∃ lo hi, (lo, hi) ∈ [(0x100, 0x154), (0x160, 0x1F0), (0x1000, 0x2000), (0x2000, 0x2900), (0x4000, 0x4900),
        (0x5000, 0x5900), (0x6000, 0x6900), (0x7000, 0x7900), (0x8000, 0x8900), (0x9000, 0x9900),
        (0xA000, 0xB000), (0xB000, 0xC000), (0xC000, 0xD200)] ∧ lo ≤ off.toNat ∧ off.toNat < hi) →
      hostAccess (.read .w32 off) s = .fault .hostRace ∧ hostAccess (.write .w32 off w) s = .fault .hostRace) ∧
    (s.busy = true → 0x1000 ≤ off.toNat → off.toNat < 0x2000 →
      hostAccess (.read .w8 off) s = .fault .hostRace ∧ hostAccess (.write .w8 off w) s = .fault .hostRace)

/-- R101: an aligned word access to an offset that no row of R100 maps reads 0, ignores writes and raises no error. -/
def Obligations.UnmappedOffsetsReadZero : Prop :=
  ∀ (s : State) (off : BitVec 16) (w : Word), off.toNat % 4 = 0 →
    (∃ lo hi, (lo, hi) ∈ [(0x154, 0x160), (0x1F0, 0x1000), (0x2900, 0x4000), (0x4900, 0x5000), (0x5900, 0x6000),
      (0x6900, 0x7000), (0x7900, 0x8000), (0x8900, 0x9000), (0x9900, 0xA000), (0xD200, 0x10000)] ∧
      lo ≤ off.toNat ∧ off.toNat < hi) →
    hostAccess (.read .w32 off) s = .next { s with rdata := some 0#32 } ∧
    hostAccess (.write .w32 off w) s = .next s

/-- R103, R105, R107: a BITBUF word write puts the word's bytes into the four bytes little-endian and changes no other
byte and nothing else; reading the word back gives it; a byte write changes only its byte, which reads back; a byte read
of a byte that holds a value answers it; and a word read of four bytes that hold values, however they were written,
answers them little-endian. That the byte of an access is in bits 7:0 and a read's is zero-extended is
the model's choice (log entry 21). -/
def Obligations.BitbufIsLittleEndian : Prop :=
  ∀ (s : State) (w : Word) (m : Nat), s.inv = true → s.latch = none → m < 1024 →
    (∃ t, hostAccess (.write .w32 (BitVec.ofNat 16 (0x1000 + 4 * m)) w) s = .next t ∧
      t = { s with bitbuf := t.bitbuf } ∧
      (∀ k, k < 4 → Store.get unspecified t.bitbuf (4 * m + k) = some (w.extractLsb' (8 * k) 8)) ∧
      (∀ a, a < 4 * m ∨ 4 * m + 4 ≤ a → Store.get unspecified t.bitbuf a = Store.get unspecified s.bitbuf a) ∧
      hostAccess (.read .w32 (BitVec.ofNat 16 (0x1000 + 4 * m))) t = .next { t with rdata := some w }) ∧
    (∀ k, k < 4 → ∃ t, hostAccess (.write .w8 (BitVec.ofNat 16 (0x1000 + 4 * m + k)) w) s = .next t ∧
      t = { s with bitbuf := t.bitbuf } ∧
      Store.get unspecified t.bitbuf (4 * m + k) = some (w.extractLsb' 0 8) ∧
      (∀ a, a ≠ 4 * m + k → Store.get unspecified t.bitbuf a = Store.get unspecified s.bitbuf a) ∧
      hostAccess (.read .w8 (BitVec.ofNat 16 (0x1000 + 4 * m + k))) t =
        .next { t with rdata := some (w &&& 0x000000FF#32) }) ∧
    (∀ k (b : Byte), k < 4 → Store.get unspecified s.bitbuf (4 * m + k) = some b →
      hostAccess (.read .w8 (BitVec.ofNat 16 (0x1000 + 4 * m + k))) s =
        .next { s with rdata := some (b.setWidth 32) }) ∧
    (∀ b0 b1 b2 b3 : Byte, Store.get unspecified s.bitbuf (4 * m) = some b0 →
      Store.get unspecified s.bitbuf (4 * m + 1) = some b1 → Store.get unspecified s.bitbuf (4 * m + 2) = some b2 →
      Store.get unspecified s.bitbuf (4 * m + 3) = some b3 →
      hostAccess (.read .w32 (BitVec.ofNat 16 (0x1000 + 4 * m))) s =
        .next { s with rdata := some (b3 ++ b2 ++ b1 ++ b0) })

/-- R12, R41–R48, R407: between commands a word written to a cell of a memory is held there as dec of it in XR, OVL,
SBS and VR, whole in PCM, and as its low bits in SFL, SFS and IS; it reads back as enc of that element, whole, with
the bits above 0, or sign-extended; that SFS does so as SFL does is the model's choice (DEDUCED, log entry 23);
and nothing else changes: every other cell of every memory, unwritten ones too,
holds what it held. -/
def Obligations.MemoryCellsReadBack : Prop :=
  ∀ (s : State) (w : Word) (place : Place) (base n i : Nat), s.inv = true → s.latch = none →
    (place, base, n) ∈ wordRegions → i < n →
    ∃ t, hostAccess (.write .w32 (BitVec.ofNat 16 (base + 4 * i)) w) s = .next t ∧ t.inv = true ∧
      CellHolds t place i w ∧ OnlyCell s t place i ∧
      hostAccess (.read .w32 (BitVec.ofNat 16 (base + 4 * i))) t =
        .next { t with rdata := some (readsBack Config.numImpl place w) }

/-- R57, R504: where the machine stops with UNWRITTEN. Between commands, a host read of a cell that holds no value,
and of a BITBUF word or byte with such a byte; HUFF at such a byte of BITBUF; and DEQ, AA, IMDCT, SYNTH and SYNTHG,
unless refused, when one of the cells that R504 lists for them holds no value. -/
def Obligations.UnwrittenReadsFault : Prop :=
  (∀ (s : State) (place : Place) (base n i : Nat), s.latch = none → (place, base, n) ∈ wordRegions → i < n →
    CellUnwritten s place i → hostAccess (.read .w32 (BitVec.ofNat 16 (base + 4 * i))) s = .fault .unwritten) ∧
  (∀ (s : State) (m k : Nat), s.inv = true → s.latch = none → m < 1024 → k < 4 →
    Store.get unspecified s.bitbuf (4 * m + k) = none →
    hostAccess (.read .w32 (BitVec.ofNat 16 (0x1000 + 4 * m))) s = .fault .unwritten ∧
    hostAccess (.read .w8 (BitVec.ofNat 16 (0x1000 + 4 * m + k))) s = .fault .unwritten) ∧
  (∀ (src : BitSource) (r : Reader), r.pos < src.bitEnd → r.pos < 32768 →
    Store.get unspecified src.bitbuf (r.pos / 8) = none → getBit src r = .unwritten) ∧
  ∀ s : State, s.inv = true →
    (∀ k rs x y, TablesUsable s.snap → k < pairsOf s.snap → PairsDecode s k rs x y →
      readPair s.bitSource (tableOf s.snap k) (rs k) = .unwritten → exec .huff s = .fault .unwritten) ∧
    (∀ m rs x y qs, TablesUsable s.snap → PairsDecode s (pairsOf s.snap) rs x y → QuadsDecode s m rs qs →
      QuadStarts s (2 * pairsOf s.snap + 4 * m) (rs (pairsOf s.snap + m)) →
      nextQuad s (rs (pairsOf s.snap + m)) = .unwritten → exec .huff s = .fault .unwritten) ∧
    ∀ ch,
      (DeqAccepts s.snap → ¬(Store.written s.isq 576 ∧ ScalesWritten s) → exec (.deq ch) s = .fault .unwritten) ∧
      (∀ b k, AaBoundary s.snap b → k < 16 → Store.get unspecified (s.chan ch).xr (18 * b - 8 + k) = none →
        exec (.aa ch) s = .fault .unwritten) ∧
      (¬Store.written (s.chan ch).xr 576 → exec (.imdct ch) s = .fault .unwritten) ∧
      (∀ (k : BitVec 5) (a : Nat), SynthAccepts s.snap ch → a < 32 →
        Store.get unspecified (s.chan ch).sbs (32 * k.toNat + a) = none →
        exec (.synth ch k) s = .fault .unwritten) ∧
      (SynthAccepts s.snap ch → ¬Store.written (s.chan ch).sbs 576 → exec (.synthg ch) s = .fault .unwritten)

/-! ### Whole-machine rules -/

/-- The invariant of a run (canonical memories, a legal STATUS, a latched word that decodes, C1END at most 576) is kept
by every step, from every state that has it. -/
def Obligations.StepKeepsInvariant : Prop :=
  ∀ s t : State, s.inv = true → step s = .next t → t.inv = true

/-- The state after reset has the invariant. -/
def Obligations.ResetHasInvariant : Prop := State.reset.inv = true

/-- R318, R502: OVL and VR of a channel change only by a reset, a host write to them, CLRH of the channel, and IMDCT
(OVL) or SYNTH and SYNTHG (VR) on it. -/
def Obligations.FilterStateChangesOnlyBy : Prop :=
  ∀ (s t : State) (c : BitVec 1), step s = .next t →
    ((t.chan c).ovl ≠ (s.chan c).ovl →
      NextReset s ∨ NextWriteBetween s (0x6000 + 0x1000 * c.toNat) (0x6900 + 0x1000 * c.toNat) ∨
        NextCommand s (.imdct c) ∨ ∃ m, NextCommand s (.clrh m) ∧ m.getLsbD c.toNat = true) ∧
    ((t.chan c).vr ≠ (s.chan c).vr →
      NextReset s ∨ NextWriteBetween s (0xA000 + 0x1000 * c.toNat) (0xB000 + 0x1000 * c.toNat) ∨
        (∃ k, NextCommand s (.synth c k)) ∨ NextCommand s (.synthg c) ∨
        ∃ m, NextCommand s (.clrh m) ∧ m.getLsbD c.toNat = true)

/-- R52, R354, R359: BOc changes only by a reset, CLRH of the channel, SYNTH and SYNTHG on it; SYNTH takes one from it,
and SYNTHG eighteen, modulo 16. CLIPCNT changes only by SYNTH and SYNTHG, a host write to it, and a reset. -/
def Obligations.SynthCountersChangeOnlyBy : Prop :=
  (∀ (s t : State) (c : BitVec 1), step s = .next t → (t.chan c).bo ≠ (s.chan c).bo →
    (NextReset s ∧ (t.chan c).bo = 0#4) ∨
    (∃ m, NextCommand s (.clrh m) ∧ m.getLsbD c.toNat = true ∧ (t.chan c).bo = 0#4) ∨
    (∃ k, NextCommand s (.synth c k) ∧ (t.chan c).bo = (s.chan c).bo - 1#4) ∨
    (NextCommand s (.synthg c) ∧ (t.chan c).bo = (s.chan c).bo - 18#4)) ∧
  ∀ s t : State, step s = .next t → t.clipcnt ≠ s.clipcnt →
    (NextReset s ∧ t.clipcnt = 0#32) ∨ (NextWriteBetween s 0x44 0x48 ∧ t.clipcnt = 0#32) ∨
      (∃ ch k, NextCommand s (.synth ch k)) ∨ ∃ ch, NextCommand s (.synthg ch)

/-! ### NOP and CLRH -/

/-- R400: word 0x0000_0000 is NOP; it sets DONE and, ending, empties the latch, and nothing else changes. -/
def Obligations.NopOnlySetsDone : Prop :=
  decode 0x00000000#32 = .ok .nop ∧
  ∀ s : State, exec .nop s = .next { s with latch := none, status := { s.status with done := true } }

/-- R402: word 0x0000_0007 | mask << 8 is CLRH mask; it zeroes OVL, VR and BO of each channel whose mask bit is 1,
leaves that channel's XR and SBS, leaves the other channels, and changes nothing else but DONE and the latch. -/
def Obligations.ClrhClearsMaskedChannels : Prop :=
  ∀ (mask : BitVec 2) (s : State), decode (0x00000007#32 ||| mask.setWidth 32 <<< 8) = .ok (.clrh mask) ∧
  ∃ t, exec (.clrh mask) s = .next t ∧ CompletesWithin s t ∧ NoOutput s t ∧
    t.free = s.free ∧
    ∀ c : BitVec 1,
      (mask.getLsbD c.toNat = true → FilterCleared (t.chan c) ∧ (t.chan c).xr = (s.chan c).xr ∧
        (t.chan c).sbs = (s.chan c).sbs) ∧
      (mask.getLsbD c.toNat = false → t.chan c = s.chan c)

/-! ### HUFF (40_huffman.md) -/

/-- R202–R206 and section 7: following the bits of each listed codeword down the codebook of its table ends at the pair
of its row and column, and for the count1 tables at its four bits. Tables 13, 15, 16 to 23 and 24 to 31 take the four
open codebooks, and linbits is R203's column. Tables 0, 4 and 14 have the one pair (0, 0), which reads no bits. -/
def Obligations.ListedCodewordsDecode : Prop :=
  (∀ l ∈ listings, ∀ x, x < l.2.length → ∀ y, y < l.2.length →
    follow (codebook (BitVec.ofNat 5 l.1)) (codeBits ((l.2.getD x []).getD y 0)) =
      some (.leaf (BitVec.ofNat 4 x, BitVec.ofNat 4 y))) ∧
  (∀ q, q < 16 →
    follow (quadBook false) (codeBits (listingA.getD q 0)) = some (.leaf (BitVec.ofNat 4 q)) ∧
    follow (quadBook true) (codeBits (listingB.getD q 0)) = some (.leaf (BitVec.ofNat 4 q))) ∧
  codebook 13#5 = Config.huffRom13 ∧ codebook 15#5 = Config.huffRom15 ∧
  (∀ t : BitVec 5, 16 ≤ t.toNat → t.toNat ≤ 23 → codebook t = Config.huffRom16) ∧
  (∀ t : BitVec 5, 24 ≤ t.toNat → codebook t = Config.huffRom24) ∧
  (∀ t : BitVec 5, t.toNat < 16 → linbits t = 0) ∧
  (List.range 16).map (fun k => linbits (BitVec.ofNat 5 (16 + k))) =
    [1, 2, 3, 4, 6, 8, 10, 13, 4, 5, 6, 7, 8, 9, 11, 13] ∧
  ∀ t ∈ [0#5, 4#5, 14#5], codebook t = .leaf (0#4, 0#4) ∧
    ∀ (src : BitSource) (r : Reader), readPair src t r = .ok (0, 0) r

/-- R104, R201, R202, R207, R211: HUFF reads BITBUF up to the snapshot's BITEND. At a bit address at or past BITEND or
32768 GetBit underflows and the reader stays; before it, GetBit answers bit 7 − (pos mod 8) of BITBUF[pos div 8] and
pos and used go up by one. Bits that are a codeword of table t, then x's escape and sign, then y's escape and sign,
decode to that pair, for every table, listed or open, every escape and every sign; exactly those bits are read. Where
the bits end before the last of them, the pair underflows there. -/
def Obligations.PairBitsDecodeInOrder : Prop :=
  (∀ s : State, s.bitSource = ⟨s.bitbuf, s.snap.bitEnd.toNat⟩) ∧
  (∀ (src : BitSource) (r : Reader), PastEnd src r.pos → getBit src r = .underflow r) ∧
  (∀ (src : BitSource) (r : Reader) (b : Byte), ¬PastEnd src r.pos →
    Store.get unspecified src.bitbuf (r.pos / 8) = some b →
    getBit src r = .ok (b.getLsbD (7 - r.pos % 8)) ⟨r.pos + 1, r.used + 1⟩) ∧
  ∀ (src : BitSource) (r : Reader) (t : BitVec 5) (word : List Bool) (x y : BitVec 4) (ex ey : Nat) (nx ny : Bool),
    follow (codebook t) word = some (.leaf (x, y)) → ex < 2 ^ linbits t → ey < 2 ^ linbits t →
    let mx := escaped t x.toNat ex
    let my := escaped t y.toNat ey
    let bits := word ++ (escapeBits t x.toNat ex ++ (signBits mx nx ++ (escapeBits t y.toNat ey ++ signBits my ny)))
    (BitsAt src r bits → readPair src t r = .ok (withSign mx nx, withSign my ny) (r.after bits.length)) ∧
    ∀ n, n < bits.length → BitsAt src r (bits.take n) → PastEnd src (r.pos + n) →
      readPair src t r = .underflow (r.after n)

/-- R104, R201, R206, R212: one count1 quadruple. Its codeword and the sign bits of its nonzero values, v first, are
read only within the budget. Whole within it, the quadruple has those values; (b) cut at a sign bit, that value and
the rest are 0 and the quadruple counts as cut; (a) cut inside the codeword, there is none. Exactly the bits up to the
cut are read. Where the bits of BITBUF end before that, the quadruple underflows there. -/
def Obligations.QuadBitsDecodeWithinBudget : Prop :=
  ∀ (src : BitSource) (r : Reader) (sel : Bool) (budget : Nat) (word : List Bool) (q : BitVec 4) (neg : Nat → Bool),
    follow (quadBook sel) word = some (.leaf q) →
    let bits := word ++ ((List.range 4).filter (fun j => q.getLsbD (3 - j))).map neg
    let room := budget - r.used
    (∀ n, n < bits.length → n < room → BitsAt src r (bits.take n) → PastEnd src (r.pos + n) →
      readQuad src sel budget r = .underflow (r.after n)) ∧
    (BitsAt src r (bits.take room) →
      (bits.length ≤ room → readQuad src sel budget r =
        .ok (some ((List.range 4).map (quadValue q neg), false)) (r.after bits.length)) ∧
      (word.length ≤ room → room < bits.length → readQuad src sel budget r =
        .ok (some ((List.range 4).map (fun j =>
          if (List.range j).countP (fun i => q.getLsbD (3 - i)) < room - word.length then quadValue q neg j else 0),
          true)) (r.after room)) ∧
      (room < word.length → readQuad src sel budget r = .ok none (r.after room)))

/-- R200, R205, R207, R208, R212–R216: HUFF on a granule whose pairs and quadruples decode one after the other, from
BITPOS on. Pair k takes the table of its first line's region and goes to lines 2k and 2k + 1; quadruple j goes to the
four lines from 2·big_values + 4j on. The count1 region ends at the budget or above line 572, or in a quadruple that
the budget cuts: (a) inside its codeword, its four lines stay 0; (b) at a sign, its four lines take the values kept.
Every line after is 0; C1END is the line after the region and HUFFUSED the bits read; and each warning bit after is
the bit before or its cause. -/
def Obligations.HuffStoresPairsThenQuads : Prop :=
  ∀ (s : State) (m : Nat) (rs : Nat → Reader) (x y : Nat → Int) (qs : Nat → List Int) (last : List Int) (r : Reader)
    (cut : Bool),
    let n := pairsOf s.snap
    let line := 2 * n + 4 * m
    s.inv = true → TablesUsable s.snap → PairsDecode s n rs x y → QuadsDecode s m rs qs →
    CountOneEnds s line (rs (n + m)) last r cut →
    ∃ t, exec .huff s = .next t ∧ t.status.done = true ∧ t.status.err = s.status.err ∧
      t.huffused.toNat = r.used ∧ t.c1end.toNat = line + last.length ∧ SpectrumIs s t n m x y qs last ∧
      WarnsAre s t (huffCause s.snap r.used (line + last.length) cut)

/-- R200, R201, R209: HUFF completes when every table its pairs select may be decoded, BITBUF holds values, and BITEND
and the buffer leave room for its longest pairs (28 escape and sign bits beside a codeword) and the budget. -/
def Obligations.HuffCompletesWithinTheBuffer : Prop :=
  ∀ (s : State) (depth : Nat), s.inv = true → Store.written s.bitbuf 4096 →
    TablesUsable s.snap → (∀ k, k < pairsOf s.snap → codeDepth (codebook (tableOf s.snap k)) ≤ depth) →
    s.snap.pos.toNat + pairsOf s.snap * (depth + 28) + budgetOf s.snap ≤ min s.snap.bitEnd.toNat 32768 →
    ∃ t, exec .huff s = .next t ∧ t.status.done = true ∧ t.status.err = s.status.err

/-- R213, R214, R215, R216: a HUFF that completes sets BITPOS to the budget's end, OVERRUN to the bits read beyond it,
and C1END to a line of 2·big_values … 576; every line from C1END on is 0, and every line holds a value. W_OVERRUN
after is the bit before or that there are bits beyond the budget, W_LEFTOVER the bit before or that the region stopped
above line 572 with budget left, and W_TABLE the bit before or that a pair selects table 4 or 14. -/
def Obligations.HuffCompletionResults : Prop :=
  ∀ s t : State, s.inv = true → s.status.done = false → exec .huff s = .next t → t.status.done = true →
    let budget := budgetOf s.snap
    t.par.pos = BitVec.ofNat 16 (s.snap.pos.toNat + budget) ∧
    t.overrun.toNat = t.huffused.toNat - budget ∧
    2 * pairsOf s.snap ≤ t.c1end.toNat ∧ t.c1end.toNat ≤ 576 ∧
    (∀ i, t.c1end.toNat ≤ i → i < 576 → Store.get unspecified t.isq i = some 0#16) ∧
    Store.written t.isq 576 ∧
    (t.status.warns.getLsbD 2 = true ↔ s.status.warns.getLsbD 2 = true ∨ budget < t.huffused.toNat) ∧
    (t.status.warns.getLsbD 3 = true ↔ s.status.warns.getLsbD 3 = true ∨ ReservedAmong s.snap (pairsOf s.snap)) ∧
    (t.status.warns.getLsbD 5 = true ↔
      s.status.warns.getLsbD 5 = true ∨ (572 < t.c1end.toNat ∧ t.huffused.toNat < budget))

/-- R217: a HUFF that aborts read up to a bit address at or past BITEND or 32768; every IS line holds a value, BITPOS,
OVERRUN and C1END are unchanged, and UNDERFLOW (3) is recorded, DONE as it was. Which values: at an underflow in pair
k, or in quadruple m after all the pairs, every pair and quadruple completed before it keeps its value and every later
line, the failing one's too, is 0; HUFFUSED is the bits read before the failing read, and each warning bit after is
the bit before or what was found up to there. -/
def Obligations.HuffAbortResults : Prop :=
  ∀ s : State, s.inv = true →
    (∀ t, s.status.done = false → exec .huff s = .next t → t.status.done = false →
      (s.snap.bitEnd.toNat ≤ s.snap.pos.toNat + t.huffused.toNat ∨
        32768 ≤ s.snap.pos.toNat + t.huffused.toNat) ∧
      t.par = s.par ∧ t.overrun = s.overrun ∧ t.c1end = s.c1end ∧ Store.written t.isq 576 ∧
      t.status.err = true ∧ t.status.errcode = (errorStatus s.status 3#4).errcode) ∧
    (∀ k rs x y r, TablesUsable s.snap → k < pairsOf s.snap → PairsDecode s k rs x y →
      readPair s.bitSource (tableOf s.snap k) (rs k) = .underflow r →
      ∃ t, exec .huff s = .next t ∧ t.status.done = s.status.done ∧ t.status.err = true ∧ t.huffused.toNat = r.used ∧
        SpectrumIs s t k 0 x y (fun _ => []) [] ∧
        WarnsAre s t (fun b => earlyCause s.snap b ∨ (b = 3 ∧ ReservedAmong s.snap (k + 1)))) ∧
    (∀ m rs x y qs r, TablesUsable s.snap → PairsDecode s (pairsOf s.snap) rs x y → QuadsDecode s m rs qs →
      QuadStarts s (2 * pairsOf s.snap + 4 * m) (rs (pairsOf s.snap + m)) →
      nextQuad s (rs (pairsOf s.snap + m)) = .underflow r →
      ∃ t, exec .huff s = .next t ∧ t.status.done = s.status.done ∧ t.status.err = true ∧ t.huffused.toNat = r.used ∧
        SpectrumIs s t (pairsOf s.snap) m x y qs [] ∧
        WarnsAre s t (fun b => earlyCause s.snap b ∨ (b = 3 ∧ ReservedAmong s.snap (pairsOf s.snap))))

/-- R209, R210, R200, R458: whether it completes or aborts, W_BUDGET after a HUFF is the bit before or that P2 > LEN,
W_BVCLAMP the bit before or that big_values > 288, and W_REGION the bit before or that R2 < R1. -/
def Obligations.HuffEarlyWarnings : Prop :=
  ∀ s t : State, exec .huff s = .next t →
    (t.status.warns.getLsbD 4 = true ↔ s.status.warns.getLsbD 4 = true ∨ s.snap.len.toNat < s.snap.p2.toNat) ∧
    (t.status.warns.getLsbD 0 = true ↔ s.status.warns.getLsbD 0 = true ∨ 288 < s.snap.bv.toNat) ∧
    (t.status.warns.getLsbD 1 = true ↔
      s.status.warns.getLsbD 1 = true ∨ s.snap.region.r2.toNat < s.snap.region.r1.toNat)

/-- R212: no count1 bit is read at or beyond the budget: once the pairs of a granule have decoded, for any big_values,
HUFF reads at most the larger of the budget and the bits of the pairs, whether it completes or aborts. -/
def Obligations.CountOneStaysWithinBudget : Prop :=
  ∀ (s t : State) (rs : Nat → Reader) (x y : Nat → Int), PairsDecode s (pairsOf s.snap) rs x y →
    exec .huff s = .next t → t.huffused.toNat ≤ max (budgetOf s.snap) (rs (pairsOf s.snap)).used

/-- R211: no magnitude that HUFF stores exceeds 15 + 2^13 − 1 = 8206. -/
def Obligations.HuffMagnitudeBound : Prop :=
  ∀ (s t : State) (i : Nat) (v : BitVec 16), s.inv = true → exec .huff s = .next t → i < 576 →
    Store.get unspecified t.isq i = some v → v.toInt.natAbs ≤ 8206

/-- R200: what HUFF writes, whether it completes or aborts: IS, BITPOS, HUFFUSED, OVERRUN, C1END, STATUS and the latch;
every other register and every other memory keeps its value. -/
def Obligations.HuffFrame : Prop :=
  ∀ s t : State, exec .huff s = .next t →
    t = { s with
      isq := t.isq
      par := { s.par with pos := t.par.pos }
      huffused := t.huffused
      overrun := t.overrun
      c1end := t.c1end
      status := t.status
      latch := none }

/-! ### DEQ (41_dequant.md) -/

/-- R39, R250, R253, R254, R255, R257: DEQ on an accepted block whose inputs hold values completes. A long line i of
band b goes to XR[ch][i] with E = GG − 210 − 2(1 + SS)(sf + PRE·PRETAB[b]); line k of short band b in window w goes to
XR[ch][3(S[b] + k) + w] with E = GG − 210 − 8·SBG[w] − 2(1 + SS)·sf, SBG[w] the field SBGw of BLOCK. Nothing else
changes but DONE and the latch. -/
def Obligations.DeqDequantizesEveryLine : Prop :=
  ∀ (s : State) (ch : BitVec 1), s.inv = true → DeqAccepts s.snap → Store.written s.isq 576 → ScalesWritten s →
    ∃ t, exec (.deq ch) s = .next t ∧ CompletesWithin s t ∧ NoOutput s t ∧ t.free = s.free ∧ OnlyChannel s t ch ∧
      t.chan ch = { s.chan ch with xr := (t.chan ch).xr } ∧
      (∀ i b v, LongLine s.snap i → b ≤ 21 → longAt s.snap b ≤ i → i < longAt s.snap (b + 1) →
        Store.get unspecified s.isq i = some v →
        Store.get unspecified (t.chan ch).xr i = some (Config.numImpl.ops.deq v.toInt
          ((s.snap.gain.gg.toNat : Int) - 210 - scaleStep s.snap *
            (longScale s b + if s.snap.gain.pre = true ∧ b ≤ 20 then pretab.getD b 0 else 0)))) ∧
      (∀ b w k v, ShortBandUsed s.snap b → b ≤ 12 → w < 3 → k < shortAt s.snap (b + 1) - shortAt s.snap b →
        Store.get unspecified s.isq
          (3 * shortAt s.snap b + w * (shortAt s.snap (b + 1) - shortAt s.snap b) + k) = some v →
        Store.get unspecified (t.chan ch).xr (3 * (shortAt s.snap b + k) + w) = some (Config.numImpl.ops.deq v.toInt
          ((s.snap.gain.gg.toNat : Int) - 210 - 8 * windowGain s.snap w - scaleStep s.snap * shortScale s b w)))

/-- R257: the placement that DEQ reads by, the IS line of each XR cell, is a bijection of the 576 lines: a long line
goes to its own cell, line k of short band b in window w to cell 3(S[b] + k) + w, and `deqDest` is its inverse. -/
def Obligations.DeqPlacementIsBijection : Prop :=
  ∀ p : Params, DeqAccepts p →
    (∀ j, j < 576 → deqSource p j < 576 ∧ deqDest p (deqSource p j) = j) ∧
    (∀ i, i < 576 → deqDest p i < 576 ∧ deqSource p (deqDest p i) = i) ∧
    (∀ i, LongLine p i → deqSource p i = i) ∧
    (∀ b w k, ShortBandUsed p b → b ≤ 12 → w < 3 → k < shortAt p (b + 1) - shortAt p b →
      deqSource p (3 * (shortAt p b + k) + w) = 3 * shortAt p b + w * (shortAt p (b + 1) - shortAt p b) + k)

/-- R259, R453: DEQ refuses SFREQ 9…15, and the mixed block at 8 kHz, with BADPARAM (4) and no other change. -/
def Obligations.DeqRefusesBadParameters : Prop :=
  ∀ (s : State) (ch : BitVec 1), ¬DeqAccepts s.snap →
    exec (.deq ch) s = .next { s with latch := none, status := errorStatus s.status 4#4 }

/-- R13, R256: DEQ's value in REF32 is sign(v)·|v|^(4/3)·2^(E/4) rounded once to
binary32. The sign of a value that rounds to a zero is as log entry 13 reads R13. -/
def Obligations.DeqValueIsRoundedOnce : Prop := ∀ v e : ℤ, RoundsTo (deqReal v e) (ref32Deq v e)

/-! ### AA and IMDCT (42_hybrid.md) -/

/-- R300, R301, R303: AA completes when the cells of its boundaries hold values. Butterfly i of each boundary b that it
processes takes u = XR[18b − 1 − i] and d = XR[18b + i] to the two outputs of NUM_IMPL.aa, both inputs read before
either is written; every other XR cell, the other channel and everything else but DONE and the latch is unchanged. -/
def Obligations.AaRotatesSelectedBoundaries : Prop :=
  ∀ (s : State) (ch : BitVec 1), s.inv = true →
    (∀ b k, AaBoundary s.snap b → k < 16 → (Store.get unspecified (s.chan ch).xr (18 * b - 8 + k)).isSome) →
    ∃ t, exec (.aa ch) s = .next t ∧ CompletesWithin s t ∧ NoOutput s t ∧ OnlyChannel s t ch ∧
      t.chan ch = { s.chan ch with xr := (t.chan ch).xr } ∧
      (∀ b i u d, AaBoundary s.snap b → i < 8 →
        Store.get unspecified (s.chan ch).xr (18 * b - 1 - i) = some u →
        Store.get unspecified (s.chan ch).xr (18 * b + i) = some d →
        ∃ n n', Store.get unspecified (t.chan ch).xr (18 * b - 1 - i) = some (settled n (Config.numImpl.ops.aa u d i).1) ∧
          Store.get unspecified (t.chan ch).xr (18 * b + i) = some (settled n' (Config.numImpl.ops.aa u d i).2)) ∧
      (∀ a, (∀ b, AaBoundary s.snap b → a < 18 * b - 8 ∨ 18 * b + 8 ≤ a) →
        Store.get unspecified (t.chan ch).xr a = Store.get unspecified (s.chan ch).xr a)

/-- R13, R302, R305: in REF32 both outputs of a butterfly on finite inputs are its reference values rounded once. The
sign of a value that rounds to a zero is as log entry 13 reads R13. -/
def Obligations.AaValuesAreRoundedOnce : Prop :=
  ∀ (u d : Word) (i : ℕ), isFinite u = true → isFinite d = true → i < 8 →
    ∃ a b, ref32Aa u d i = (some a, some b) ∧
      RoundsTo (val32 u * aaCS i - val32 d * aaCA i) a ∧ RoundsTo (val32 d * aaCS i + val32 u * aaCA i) b

/-- R310, R313, R317, R318, R319: IMDCT completes when XR[ch] holds values. For every subband sb, with the window type
of R317, SBS[ch][t][sb] and OVL[ch][18·sb + t] take the outputs of NUM_IMPL.imdct on the subband's XR and its old
OVL cells; XR, the synthesis state, the other channel and everything else but DONE and the latch are unchanged. -/
def Obligations.ImdctTransformsEverySubband : Prop :=
  ∀ (s : State) (ch : BitVec 1), s.inv = true → Store.written (s.chan ch).xr 576 →
    ∃ t, exec (.imdct ch) s = .next t ∧ CompletesWithin s t ∧ NoOutput s t ∧ OnlyChannel s t ch ∧
      t.chan ch = { s.chan ch with sbs := (t.chan ch).sbs, ovl := (t.chan ch).ovl } ∧
      ∀ sb xs os k, sb < 32 → k < 18 → xs.length = 18 → os.length = 18 →
        Holds unspecified (s.chan ch).xr (18 * sb) xs → Holds Config.numImpl.zeroed (s.chan ch).ovl (18 * sb) os →
        ∃ n n', Store.get unspecified (t.chan ch).sbs (32 * k + sb) =
            some (settled n ((Config.numImpl.ops.imdct xs os (subbandType s.snap sb) sb).1 k)) ∧
          Store.get Config.numImpl.zeroed (t.chan ch).ovl (18 * sb + k) =
            some (settled n' ((Config.numImpl.ops.imdct xs os (subbandType s.snap sb) sb).2 k))

/-- R13, R310, R313: every output that REF32's imdct gives is the real reference value of R310 rounded once to
binary32, for every window type and subband, and on finite inputs it gives every output, but for a form that no
precision of the model's list decides (DESIGN CHOICE, log entry 12). The sign of a value that rounds to a zero is as
log entry 13 reads R13. -/
def Obligations.ImdctValuesAreRoundedOnce : Prop :=
  ∀ (x o : List Word) (wt : BitVec 2) (sb t : ℕ), x.length = 18 → o.length = 18 → t < 18 →
    (∀ w, (ref32Imdct x o wt sb).1 t = some w → RoundsTo (outputReal x o wt sb t) w) ∧
    (∀ w, (ref32Imdct x o wt sb).2 t = some w → RoundsTo (blockReal x wt (18 + t)) w) ∧
    ((∀ v ∈ x ++ o, isFinite v = true) →
      ((∃ w, (ref32Imdct x o wt sb).1 t = some w) ∨ Undecided .pi72 (outputTerms x o wt sb t)) ∧
      ((∃ w, (ref32Imdct x o wt sb).2 t = some w) ∨ Undecided .pi72 (blockTerms x wt (18 + t))))

/-- R310 (corner case), in REF32 (which a machine may take as its NUM_IMPL, log entry 6): a zero spectrum flushes the
overlap. With every XR cell a zero, +0.0 or −0.0, and OVL finite, IMDCT completes, OVL is all +0.0 after it, and each
SBS cell has the value of the old OVL cell, negated at odd t of odd sb. -/
def Obligations.ZeroSpectrumFlushesOverlap : Prop :=
  ∀ (s : State ref32) (ch : BitVec 1), s.inv = true →
    (∀ a, a < 576 → ∃ v : Word, Store.get unspecified (s.chan ch).xr a = some v ∧ isFinite v = true ∧ fix v = 0) →
    (∀ (a : ℕ) (v : Word), a < 576 → Store.get ref32.zeroed (s.chan ch).ovl a = some v → isFinite v = true) →
    ∃ t, execImdct ch s = .next t ∧
      (∀ a, Store.get ref32.zeroed (t.chan ch).ovl a = some 0#32) ∧
      ∀ (sb k : ℕ) (v : Word), sb < 32 → k < 18 →
        Store.get ref32.zeroed (s.chan ch).ovl (18 * sb + k) = some v →
        ∃ w : Word, Store.get unspecified (t.chan ch).sbs (32 * k + sb) = some w ∧ isFinite w = true ∧
          fix w = (if sb % 2 = 1 ∧ k % 2 = 1 then -1 else 1) * fix v

/-! ### SYNTH and SYNTHG (43_synthesis.md) -/

/-- R350, R353, R354: SYNTH on an accepted channel whose SBS row holds values completes. BOch goes down by one modulo
16; every old entry V(m), m < 960, becomes V(m + 64); the new entries V(0…63) are NUM_IMPL.synth's Vn on the row and
the old entries; XR, OVL, SBS, the other channel and everything but VR, BO, PCM, CLIPCNT, W_CLIP, DONE and the latch
are unchanged. -/
def Obligations.SynthShiftsDelayLine : Prop :=
  ∀ (s : State) (ch : BitVec 1) (k : BitVec 5), s.inv = true → k.toNat ≤ 17 → SynthAccepts s.snap ch →
    (∀ a, a < 32 → (Store.get unspecified (s.chan ch).sbs (32 * k.toNat + a)).isSome) →
    ∃ t, exec (.synth ch k) s = .next t ∧ CompletesWithin s t ∧ OnlyChannel s t ch ∧
      t.chan ch = { s.chan ch with vr := (t.chan ch).vr, bo := (s.chan ch).bo - 1#4 } ∧
      (∀ b, b < 7 → t.status.warns.getLsbD b = s.status.warns.getLsbD b) ∧
      (∀ m, m < 960 → lineEntry t ch (m + 64) = lineEntry s ch m) ∧
      ∀ sb vo i, sb.length = 32 → vo.length = 960 → i < 64 →
        Holds unspecified (s.chan ch).sbs (32 * k.toNat) sb →
        (∀ m (hm : m < vo.length), lineEntry s ch m = some vo[m]) →
        ∃ n, lineEntry t ch i = some (settled n ((Config.numImpl.ops.synth sb vo).1 i))

/-- R357, R358, R359: the PCM words of a SYNTH. Sample j of time slot k goes to PCM[2n + ch] in stereo and PCM[n] in
mono, n = 32k + j: enc of y itself unclipped, else the sign-extended sample of pcm16 of its value; a y without one, a
NaN or an infinity in REF32, gives any 16-bit sample. Clipped, each sample has a clip mark, pcm16's where y has a value
and either one where it has none (U2; which one it is, log entry 7 leaves free); CLIPCNT goes up by the number of marks
modulo 2^32, and W_CLIP is set exactly if there are any. No other PCM cell changes. The command completes with DONE. -/
def Obligations.SynthWritesPcm : Prop :=
  ∀ (s t : State) (ch : BitVec 1) (k : BitVec 5) (sb vo : List Config.numImpl.R), s.inv = true →
    SynthAccepts s.snap ch → k.toNat ≤ 17 → sb.length = 32 → vo.length = 960 →
    Holds unspecified (s.chan ch).sbs (32 * k.toNat) sb →
    (∀ m (hm : m < vo.length), lineEntry s ch m = some vo[m]) → exec (.synth ch k) s = .next t →
    let value (j : Nat) : Option ℚ := Config.numImpl.ops.val (stepOutput s sb vo j)
    t.status.done = true ∧
    (∀ j, j < 32 → ∃ w, Store.get unspecified t.pcm (pcmCell s.snap ch (32 * k.toNat + j)) = some w ∧
      (s.snap.cfg.unclip = true → w = Config.numImpl.ops.enc (stepOutput s sb vo j)) ∧
      (∀ r, s.snap.cfg.unclip = false → value j = some r → w = (pcm16 r).1.signExtend 32) ∧
      (s.snap.cfg.unclip = false → ∃ v : BitVec 16, w = v.signExtend 32)) ∧
    (∀ a, (∀ j, j < 32 → a ≠ pcmCell s.snap ch (32 * k.toNat + j)) →
      Store.get unspecified t.pcm a = Store.get unspecified s.pcm a) ∧
    (s.snap.cfg.unclip = true → t.clipcnt = s.clipcnt ∧ t.status.warns = s.status.warns) ∧
    (s.snap.cfg.unclip = false → ∃ mark : Nat → Bool,
      (∀ j, j < 32 → (value j).isSome → mark j = clips (value j)) ∧
      let n := (List.range 32).countP mark
      t.clipcnt = s.clipcnt + BitVec.ofNat 32 n ∧
      t.status.warns.getLsbD 7 = (s.status.warns.getLsbD 7 || decide (0 < n)))

/-- R357: pcm16 clips above 32767 and below −32768 and else rounds to the nearest integer, halves away from zero. That
r is rational is log entry 22. -/
def Obligations.PcmSampleRounding : Prop :=
  ∀ r : ℚ, let x : ℝ := (r : ℝ)
    (32767 < x → pcm16 r = (32767#16, true)) ∧
    (x < -32768 → pcm16 r = (BitVec.ofInt 16 (-32768), true)) ∧
    (-32768 ≤ x → x ≤ 32767 → (pcm16 r).2 = false ∧
      ((pcm16 r).1.toInt : ℝ) = (SignType.sign x : ℝ) * ⌊|x| + 1 / 2⌋)

/-- R351: SYNTH and SYNTHG with CH = 1 while CFG.STEREO = 0 end with BADPARAM (4) and no other change; in every other
case they raise no error: a next state has DONE set and ERR and ERRCODE as before. -/
def Obligations.SynthRefusesOnlyMonoChannelOne : Prop :=
  ∀ (s : State) (ch : BitVec 1) (k : BitVec 5),
    (ch = 1#1 ∧ s.snap.cfg.stereo = false →
      exec (.synth ch k) s = .next { s with latch := none, status := errorStatus s.status 4#4 } ∧
      exec (.synthg ch) s = .next { s with latch := none, status := errorStatus s.status 4#4 }) ∧
    (¬(ch = 1#1 ∧ s.snap.cfg.stereo = false) →
      ∀ t, exec (.synth ch k) s = .next t ∨ exec (.synthg ch) s = .next t →
        t.status.done = true ∧ t.status.err = s.status.err ∧ t.status.errcode = s.status.errcode)

/-- R360: SYNTHG on an accepted channel whose SBS holds values completes and is equal in effect to SYNTH ch, 0 … SYNTH
ch, 17 in that order with the same snapshot: there is a chain of states, each the SYNTH's result with the latch and
DONE put back as before it, from the first to the last. -/
def Obligations.SynthgIsEighteenSteps : Prop :=
  ∀ (s : State) (ch : BitVec 1), s.inv = true → SynthAccepts s.snap ch → Store.written (s.chan ch).sbs 576 →
    ∃ chain : Nat → State, chain 0 = s ∧
      (∀ k, k < 18 → ∃ t, exec (.synth ch (BitVec.ofNat 5 k)) (chain k) = .next t ∧
        chain (k + 1) = { t with latch := s.latch, status := { t.status with done := s.status.done } }) ∧
      exec (.synthg ch) s =
        .next { chain 18 with latch := none, status := { (chain 18).status with done := true } } ∧
      OnlyChannel s (chain 18) ch ∧ CompletesWithin s { chain 18 with
        latch := none, status := { (chain 18).status with done := true } } ∧
      (chain 18).chan ch = { s.chan ch with vr := ((chain 18).chan ch).vr, bo := (s.chan ch).bo - 18#4 }

/-- R13, R350, R356: every output that REF32's synth gives is the real reference value of R350 rounded once to
binary32, whatever the window D, of the form that the model takes R352 to give it (PRESUMED, log entry 11); and on
finite inputs it gives every output, but for a form that no precision of the model's list decides (DESIGN CHOICE, log
entry 12). The sign of a value that rounds to a zero is as log entry 13 reads R13. -/
def Obligations.SynthValuesAreRoundedOnce : Prop :=
  ∀ sb vo : List Word, sb.length = 32 → vo.length = 960 →
    (∀ i w, i < 64 → (ref32Synth sb vo).1 i = some w → RoundsTo (matrixReal sb i) w) ∧
    (∀ j w, j < 32 → (ref32Synth sb vo).2 j = some w → RoundsTo (sampleReal sb vo j) w) ∧
    ((∀ v ∈ sb ++ vo, isFinite v = true) →
      (∀ i, i < 64 → (∃ w, (ref32Synth sb vo).1 i = some w) ∨ Undecided .pi64 (matrixTerms sb i)) ∧
      (∀ j, j < 32 → (∃ w, (ref32Synth sb vo).2 j = some w) ∨ Undecided .pi64 (windowTerms sb vo j)))

/-- R362, in REF32 (which a machine may take as its NUM_IMPL, log entry 6): silence. With VR[ch] and the time slot's
SBS row all zeros, +0.0 or −0.0, SYNTH completes with 32 zero words, clips nothing and leaves VR[ch] all zeros,
clipped or not, whatever the window D: its new entries are +0.0, and the others the cells as they were. -/
def Obligations.SilenceStaysSilent : Prop :=
  ∀ (s : State ref32) (ch : BitVec 1) (k : BitVec 5), s.inv = true → k.toNat ≤ 17 → SynthAccepts s.snap ch →
    (∀ a, a < 32 → ∃ v : Word, Store.get unspecified (s.chan ch).sbs (32 * k.toNat + a) = some v ∧
      isFinite v = true ∧ fix v = 0) →
    (∀ a, a < 1024 → ∃ v : Word, Store.get ref32.zeroed (s.chan ch).vr a = some v ∧ isFinite v = true ∧ fix v = 0) →
    ∃ t, execSynth ch k s = .next t ∧
      (∀ j, j < 32 → Store.get unspecified t.pcm (pcmCell s.snap ch (32 * k.toNat + j)) = some 0#32) ∧
      t.clipcnt = s.clipcnt ∧ t.status.warns = s.status.warns ∧
      ∀ a, a < 1024 → Store.get ref32.zeroed (t.chan ch).vr a = some 0#32 ∨
        Store.get ref32.zeroed (t.chan ch).vr a = Store.get ref32.zeroed (s.chan ch).vr a

/-! ### Numbers (00_scope.md) -/

/-- R12, R13, R14: how the model reads and rounds a binary32 word. Of a word with sign bit 31, exponent e in bits
30:23 and fraction f in bits 22:0, it is finite exactly if e is not 255, and then its value is ± f·2^−149 for e = 0
and else ± (2^23 + f)·2^(e − 150), minus for sign bit 1; every finite word but −0.0 is what its value rounds to. In
REF32 `enc` and `dec` are the identity and `val` is that value on finite words and none else (that it is rational is
log entry 22). Rounding an exact multiple of a power of two gives the nearest binary32, ties to even, infinity outside
the finite range, and +0.0 for an exact 0. The sign of a value that rounds to a zero is as log entry 13 reads R13. -/
def Obligations.ExactValuesRoundToNearest : Prop :=
  (∀ (sign : BitVec 1) (e : BitVec 8) (f : BitVec 23), let w : Word := sign ++ e ++ f
    (isFinite w = true ↔ e ≠ 255#8) ∧ (isNeg w = true ↔ sign = 1#1) ∧
    (e ≠ 255#8 → val32 w = (if sign = 1#1 then -1 else 1) *
      (if e = 0#8 then (f.toNat : ℝ) * (2 : ℝ) ^ (-149 : ℤ)
        else ((2 : ℝ) ^ 23 + (f.toNat : ℝ)) * (2 : ℝ) ^ ((e.toNat : ℤ) - 150)))) ∧
  (∀ w : Word, isFinite w = true → w ≠ 0x80000000#32 → RoundsTo (val32 w) w) ∧
  (∀ w : Word, ref32.ops.enc w = w ∧ ref32.ops.dec w = w ∧
    (isFinite w = true → ∃ q, ref32.ops.val w = some q ∧ (q : ℝ) = val32 w) ∧
    (isFinite w = false → ref32.ops.val w = none)) ∧
  ∀ (k : ℕ) (v : ℤ), 1 ≤ k → RoundsTo ((v : ℝ) / 2 ^ (149 + k)) (roundFix k v)

/-- R13, U1: an input that is a NaN or an infinity leaves open every output of REF32 whose formula reads it: both of a
butterfly; both halves of a long block; of a short block, the samples of the input's window; Y[t], by the old overlap
O[t]; every Vn[i] and y[j], by a subband sample; and y[j], by its fifteen old line entries. That a coefficient of 0 does
not take an input out of a formula is the model's reading (DEDUCED, log entry 14). -/
def Obligations.NonFiniteInputsLeaveOutputsOpen : Prop :=
  (∀ (u d : Word) (i : Nat), isFinite u = false ∨ isFinite d = false → ref32Aa u d i = (none, none)) ∧
  (∀ (x o : List Word) (wt : BitVec 2) (sb k t : Nat), wt ≠ 2#2 → k < 18 → t < 18 →
    isFinite (x.getD k 0#32) = false →
    (ref32Imdct x o wt sb).1 t = none ∧ (ref32Imdct x o wt sb).2 t = none) ∧
  (∀ (x o : List Word) (sb w k t : Nat), w < 3 → k < 6 → t < 18 → isFinite (x.getD (3 * k + w) 0#32) = false →
    (6 + 6 * w ≤ t ∧ t < 18 + 6 * w → (ref32Imdct x o 2#2 sb).1 t = none) ∧
    (6 + 6 * w ≤ 18 + t ∧ 18 + t < 18 + 6 * w → (ref32Imdct x o 2#2 sb).2 t = none)) ∧
  (∀ (x o : List Word) (wt : BitVec 2) (sb t : Nat), t < 18 → isFinite (o.getD t 0#32) = false →
    (ref32Imdct x o wt sb).1 t = none) ∧
  (∀ (sb vo : List Word) (k i j : Nat), k < 32 → i < 64 → j < 32 → isFinite (sb.getD k 0#32) = false →
    (ref32Synth sb vo).1 i = none ∧ (ref32Synth sb vo).2 j = none) ∧
  (∀ (sb vo : List Word) (i j : Nat), i < 8 → j < 32 →
    (1 ≤ i ∧ isFinite (vo.getD (128 * i + j - 64) 0#32) = false) ∨ isFinite (vo.getD (128 * i + 32 + j) 0#32) = false →
    (ref32Synth sb vo).2 j = none)
end

