-- ==== Sys2Proof/Laws/Memory.lean ====
section
/-! SUPPORT. The laws of one memory: what a cell holds after each operation of Machine/Memory.lean, and that each
operation keeps the canonical form. Callers cite these instead of unfolding the operations. -/

namespace Sys2Proof.Machine

variable {w : Nat} {d : Option (BitVec w)}

/-- The cells of a memory rise strictly. -/
abbrev Store.Rising (m : Store w) : Prop := m.Pairwise (fun e f => e.1 < f.1)

@[simp] theorem Store.get_nil (a : Nat) : Store.get d ([] : Store w) a = d := rfl

@[simp] theorem Store.get_cons (k : Nat) (v : BitVec w) (m : Store w) (a : Nat) :
    Store.get d ((k, v) :: m) a = if k = a then some v else Store.get d m a := rfl

theorem Store.get_of_not_mem {m : Store w} {a : Nat} (h : ∀ e ∈ m, e.1 ≠ a) : Store.get d m a = d := by
  induction m with
  | nil => rfl
  | cons e m ih =>
    obtain ⟨k, v⟩ := e
    rw [Store.get_cons, if_neg (h (k, v) (by simp)), ih (fun e he => h e (by simp [he]))]

theorem Store.get_append_left {m n : Store w} {a : Nat} (h : ∀ e ∈ n, e.1 ≠ a) :
    Store.get d (m ++ n) a = Store.get d m a := by
  induction m with
  | nil => simpa using Store.get_of_not_mem h
  | cons e m ih => obtain ⟨k, v⟩ := e; simp [ih]

theorem Store.get_append_right {m n : Store w} {a : Nat} (h : ∀ e ∈ m, e.1 ≠ a) :
    Store.get d (m ++ n) a = Store.get d n a := by
  induction m with
  | nil => rfl
  | cons e m ih =>
    obtain ⟨k, v⟩ := e
    rw [List.cons_append, Store.get_cons, if_neg (h (k, v) (by simp)), ih (fun e he => h e (by simp [he]))]

theorem Store.mem_takeWhile_lt {m : Store w} {b : Nat} {e : Nat × BitVec w}
    (h : e ∈ m.takeWhile (fun e => decide (e.1 < b))) : e.1 < b := by
  simpa using List.mem_takeWhile_imp h

theorem Store.rising_dropWhile {m : Store w} (hm : Store.Rising m) (p : Nat × BitVec w → Bool) :
    Store.Rising (m.dropWhile p) := hm.sublist (List.dropWhile_sublist p)

theorem Store.rising_takeWhile {m : Store w} (hm : Store.Rising m) (p : Nat × BitVec w → Bool) :
    Store.Rising (m.takeWhile p) := hm.sublist (List.takeWhile_sublist p)

/-- After the cells below `b` are dropped, the rest lie at `b` or above. -/
theorem Store.le_of_mem_dropWhile_lt {m : Store w} (hm : Store.Rising m) {b : Nat} {e : Nat × BitVec w}
    (h : e ∈ m.dropWhile (fun e => decide (e.1 < b))) : b ≤ e.1 := by
  induction m with
  | nil => simp at h
  | cons x m ih =>
    rw [Store.Rising, List.pairwise_cons] at hm
    by_cases hx : x.1 < b
    · rw [List.dropWhile_cons_of_pos (by simpa using hx)] at h
      exact ih hm.2 h
    · rw [List.dropWhile_cons_of_neg (by simpa using hx)] at h
      rcases List.mem_cons.1 h with rfl | h
      · omega
      · have := hm.1 e h
        omega

/-- After the cells up to `b` are dropped, the rest lie above `b`. -/
theorem Store.lt_of_mem_dropWhile_le {m : Store w} (hm : Store.Rising m) {b : Nat} {e : Nat × BitVec w}
    (h : e ∈ m.dropWhile (fun e => decide (e.1 ≤ b))) : b < e.1 := by
  induction m with
  | nil => simp at h
  | cons x m ih =>
    rw [Store.Rising, List.pairwise_cons] at hm
    by_cases hx : x.1 ≤ b
    · rw [List.dropWhile_cons_of_pos (by simpa using hx)] at h
      exact ih hm.2 h
    · rw [List.dropWhile_cons_of_neg (by simpa using hx)] at h
      rcases List.mem_cons.1 h with rfl | h
      · omega
      · have := hm.1 e h
        omega

theorem Store.get_dropWhile_lt {m : Store w} {b a : Nat} (h : b ≤ a) :
    Store.get d (m.dropWhile (fun e => decide (e.1 < b))) a = Store.get d m a := by
  conv_rhs => rw [← List.takeWhile_append_dropWhile (p := fun e => decide (e.1 < b)) (l := m)]
  rw [Store.get_append_right]
  intro e he
  have := Store.mem_takeWhile_lt he
  omega

theorem Store.get_dropWhile_le {m : Store w} {b a : Nat} (h : b < a) :
    Store.get d (m.dropWhile (fun e => decide (e.1 ≤ b))) a = Store.get d m a := by
  conv_rhs => rw [← List.takeWhile_append_dropWhile (p := fun e => decide (e.1 ≤ b)) (l := m)]
  rw [Store.get_append_right]
  intro e he
  have : e.1 ≤ b := by simpa using List.mem_takeWhile_imp he
  omega

theorem Store.get_takeWhile_lt {m : Store w} (hm : Store.Rising m) {b a : Nat} (h : a < b) :
    Store.get d (m.takeWhile (fun e => decide (e.1 < b))) a = Store.get d m a := by
  conv_rhs => rw [← List.takeWhile_append_dropWhile (p := fun e => decide (e.1 < b)) (l := m)]
  rw [Store.get_append_left]
  intro e he
  have := Store.le_of_mem_dropWhile_lt hm he
  omega

/-- In a rising memory whose cells lie at `a` or above, the first cell settles cell `a`. -/
theorem Store.first_eq_get {m : Store w} (hm : Store.Rising m) {a : Nat} (h : ∀ e ∈ m, a ≤ e.1) :
    Store.first d m a = Store.get d m a := by
  cases m with
  | nil => rfl
  | cons e m =>
    obtain ⟨k, v⟩ := e
    rw [Store.Rising, List.pairwise_cons] at hm
    simp only [Store.first, Store.get_cons]
    split
    · rfl
    · rename_i hk
      refine (Store.get_of_not_mem fun e he => ?_).symm
      have h1 := hm.1 e he
      have h2 := h (k, v) (by simp)
      simp only at h1 h2
      omega

/-- `reads` gives the contents of its cells, or `none` when one is unspecified. -/
theorem Store.reads_eq_mapM {m : Store w} (hm : Store.Rising m) {as : List Nat} (has : as.Pairwise (· < ·)) :
    Store.reads d m as = as.mapM (Store.get d m) := by
  induction as generalizing m with
  | nil => rfl
  | cons a as ih =>
    rw [List.pairwise_cons] at has
    have hm' := Store.rising_dropWhile hm (fun e => decide (e.1 < a))
    have h1 : Store.first d (m.dropWhile (fun e => decide (e.1 < a))) a = Store.get d m a := by
      rw [Store.first_eq_get hm' (fun e he => Store.le_of_mem_dropWhile_lt hm he)]
      exact Store.get_dropWhile_lt (Nat.le_refl a)
    have h2 : as.mapM (Store.get d (m.dropWhile (fun e => decide (e.1 < a)))) = as.mapM (Store.get d m) := by
      have : ∀ b ∈ as, Store.get d (m.dropWhile (fun e => decide (e.1 < a))) b = Store.get d m b :=
        fun b hb => Store.get_dropWhile_lt (Nat.le_of_lt (has.1 b hb))
      clear ih has h1
      induction as with
      | nil => rfl
      | cons b bs ihb =>
        simp only [List.mapM_cons, this b (by simp), ihb (fun x hx => this x (by simp [hx]))]
    simp only [Store.reads, h1, ih hm' has.2, h2, List.mapM_cons]
    cases Store.get d m a <;> cases as.mapM (Store.get d m) <;> rfl

theorem mapM_eq_some_iff {α β : Type} {f : α → Option β} {l : List α} {bs : List β} :
    l.mapM f = some bs ↔ l.map f = bs.map some := by
  induction l generalizing bs with
  | nil => cases bs <;> simp
  | cons a l ih =>
    rw [List.mapM_cons]
    cases hfa : f a with
    | none => cases bs <;> simp [hfa]
    | some b =>
      cases hl : l.mapM f with
      | none =>
        cases bs with
        | nil => simp
        | cons b' bs =>
          have := (ih (bs := bs)).not.1 (by simp [hl])
          simp [hfa, this]
      | some bs' =>
        have h' := ih.1 hl
        cases bs with
        | nil => simp
        | cons b' bs =>
          simp only [List.map_cons, hfa, h', List.cons.injEq, Option.some.injEq, Option.bind_eq_bind,
            Option.bind_some, Option.pure_def]
          constructor
          · rintro ⟨rfl, rfl⟩; exact ⟨rfl, rfl⟩
          · rintro ⟨rfl, h⟩
            exact ⟨rfl, List.map_injective_iff.2 (Option.some_injective _) h⟩

/-- A block of OVL or VR can always be read: every cell holds a value. -/
theorem Store.block_zeroed {N : NumImpl} (m : Store N.bits) (base n : Nat) :
    ∃ vs, Store.block N.zeroed m base n = some vs := by
  unfold Store.block
  generalize List.range' base n = as
  induction as generalizing m with
  | nil => exact ⟨[], rfl⟩
  | cons a as ih =>
    obtain ⟨vs, hvs⟩ := ih (m.dropWhile (fun e => decide (e.1 < a)))
    have h : ∃ v, Store.first N.zeroed (m.dropWhile (fun e => decide (e.1 < a))) a = some v := by
      unfold Store.first
      split
      · exact ⟨_, rfl⟩
      · split <;> exact ⟨_, rfl⟩
    obtain ⟨v, hv⟩ := h
    exact ⟨v :: vs, by rw [Store.reads, hv, hvs]⟩

/-- What reading a block answers: all its cells hold values, and these are they. -/
theorem Store.block_eq_some_iff {m : Store w} (hm : Store.Rising m) {base n : Nat} {vs : List (BitVec w)} :
    Store.block d m base n = some vs ↔
      vs.length = n ∧ ∀ k (hk : k < vs.length), Store.get d m (base + k) = some vs[k] := by
  rw [Store.block, Store.reads_eq_mapM hm (List.pairwise_lt_range' (step := 1)), mapM_eq_some_iff]
  constructor
  · intro h
    have hlen : vs.length = n := by simpa using (congrArg List.length h).symm
    refine ⟨hlen, fun k hk => ?_⟩
    have := congrArg (fun l => l[k]?) h
    simpa [hk, hlen ▸ hk] using this
  · rintro ⟨hlen, h⟩
    apply List.ext_getElem
    · simp [hlen]
    · intro k h1 h2
      have hk : k < vs.length := by simpa using h2
      simpa using h k hk

/-- A block whose cells all hold values can be read. -/
theorem Store.block_isSome {m : Store w} (hm : Store.Rising m) {base n : Nat}
    (h : ∀ k, k < n → (Store.get d m (base + k)).isSome) : ∃ vs, Store.block d m base n = some vs := by
  refine ⟨(List.range n).map (fun k => (Store.get d m (base + k)).getD 0#w), ?_⟩
  rw [Store.block_eq_some_iff hm]
  refine ⟨by simp, fun k hk => ?_⟩
  have hk' : k < n := by simpa using hk
  obtain ⟨v, hv⟩ := Option.isSome_iff_exists.1 (h k hk')
  simp [hv]

/-! ### Writes -/

theorem Store.mem_entry {a : Nat} {v : BitVec w} {e : Nat × BitVec w} (h : e ∈ Store.entry d a v) :
    e = (a, v) ∧ some v ≠ d := by
  unfold Store.entry at h
  split at h
  · simp at h
  · exact ⟨by simpa using h, ‹_›⟩

theorem Store.mem_writes {m : Store w} {l : List (Nat × BitVec w)} {e : Nat × BitVec w}
    (h : e ∈ Store.writes d m l) : e ∈ m ∨ (e ∈ l ∧ some e.2 ≠ d) := by
  induction l generalizing m with
  | nil => exact Or.inl h
  | cons x l ih =>
    obtain ⟨a, v⟩ := x
    simp only [Store.writes, List.mem_append] at h
    rcases h with h | h | h
    · exact Or.inl ((List.takeWhile_sublist _).mem h)
    · obtain ⟨rfl, hv⟩ := Store.mem_entry h
      exact Or.inr ⟨by simp, hv⟩
    · rcases ih h with h | h
      · exact Or.inl ((List.dropWhile_sublist _).mem h)
      · exact Or.inr ⟨by simp [h.1], h.2⟩

/-- The cells that remain after a step of `writes` lie above the cell written. -/
theorem Store.lt_of_mem_writes_dropWhile {m : Store w} (hm : Store.Rising m) {l : List (Nat × BitVec w)} {a : Nat}
    (hl : ∀ e ∈ l, a < e.1) {e : Nat × BitVec w}
    (h : e ∈ Store.writes d (m.dropWhile (fun e => decide (e.1 ≤ a))) l) : a < e.1 := by
  rcases Store.mem_writes h with h | h
  · exact Store.lt_of_mem_dropWhile_le hm h
  · exact hl e h.1

theorem Store.rising_writes {m : Store w} (hm : Store.Rising m) {l : List (Nat × BitVec w)}
    (hl : l.Pairwise (fun e f => e.1 < f.1)) : Store.Rising (Store.writes d m l) := by
  induction l generalizing m with
  | nil => exact hm
  | cons x l ih =>
    obtain ⟨a, v⟩ := x
    rw [List.pairwise_cons] at hl
    simp only [Store.writes]
    rw [Store.Rising, List.pairwise_append, List.pairwise_append]
    refine ⟨Store.rising_takeWhile hm _, ⟨?_, ih (Store.rising_dropWhile hm _) hl.2, ?_⟩, ?_⟩
    · unfold Store.entry; split <;> simp
    · intro e he f hf
      obtain ⟨rfl, -⟩ := Store.mem_entry he
      exact Store.lt_of_mem_writes_dropWhile hm hl.1 hf
    · intro e he f hf
      have h1 := Store.mem_takeWhile_lt he
      rcases List.mem_append.1 hf with hf | hf
      · obtain ⟨rfl, -⟩ := Store.mem_entry hf
        exact h1
      · have := Store.lt_of_mem_writes_dropWhile hm hl.1 hf
        omega

/-- A cell that is not written keeps its content. -/
theorem Store.get_writes_of_not_mem {m : Store w} (hm : Store.Rising m) {l : List (Nat × BitVec w)}
    (hl : l.Pairwise (fun e f => e.1 < f.1)) {b : Nat} (hb : ∀ e ∈ l, e.1 ≠ b) :
    Store.get d (Store.writes d m l) b = Store.get d m b := by
  induction l generalizing m with
  | nil => rfl
  | cons x l ih =>
    obtain ⟨a, v⟩ := x
    rw [List.pairwise_cons] at hl
    have hab : a ≠ b := hb (a, v) (by simp)
    simp only [Store.writes]
    rcases Nat.lt_or_gt_of_ne hab with h | h
    · rw [Store.get_append_right, Store.get_append_right, ih (Store.rising_dropWhile hm _) hl.2
        (fun e he => hb e (by simp [he])), Store.get_dropWhile_le h]
      · intro e he
        obtain ⟨rfl, -⟩ := Store.mem_entry he
        exact hab
      · intro e he
        have := Store.mem_takeWhile_lt he
        omega
    · rw [Store.get_append_left, Store.get_takeWhile_lt hm h]
      intro e he
      rcases List.mem_append.1 he with he | he
      · obtain ⟨rfl, -⟩ := Store.mem_entry he
        exact hab
      · have := Store.lt_of_mem_writes_dropWhile hm hl.1 he
        omega

/-- A cell that is written holds the value written. -/
theorem Store.get_writes_of_mem {m : Store w} (hm : Store.Rising m) {l : List (Nat × BitVec w)}
    (hl : l.Pairwise (fun e f => e.1 < f.1)) {b : Nat} {u : BitVec w} (hb : (b, u) ∈ l) :
    Store.get d (Store.writes d m l) b = some u := by
  induction l generalizing m with
  | nil => simp at hb
  | cons x l ih =>
    obtain ⟨a, v⟩ := x
    rw [List.pairwise_cons] at hl
    simp only [Store.writes]
    rcases List.mem_cons.1 hb with h | h
    · obtain ⟨rfl, rfl⟩ := Prod.mk.inj h
      rw [Store.get_append_right (fun e he => by have := Store.mem_takeWhile_lt he; omega)]
      unfold Store.entry
      split
      · rename_i hd
        rw [List.nil_append, Store.get_of_not_mem, hd]
        intro e he
        have := Store.lt_of_mem_writes_dropWhile hm hl.1 he
        omega
      · simp
    · have hab : a < b := hl.1 (b, u) h
      rw [Store.get_append_right, Store.get_append_right, ih (Store.rising_dropWhile hm _) hl.2 h]
      · intro e he
        obtain ⟨rfl, -⟩ := Store.mem_entry he
        exact Nat.ne_of_lt hab
      · intro e he
        have := Store.mem_takeWhile_lt he
        omega

theorem Store.get_set_self {m : Store w} (hm : Store.Rising m) (a : Nat) (v : BitVec w) :
    Store.get d (Store.set d m a v) a = some v :=
  Store.get_writes_of_mem hm (by simp) (by simp)

theorem Store.get_set_ne {m : Store w} (hm : Store.Rising m) {a b : Nat} (h : a ≠ b) (v : BitVec w) :
    Store.get d (Store.set d m a v) b = Store.get d m b :=
  Store.get_writes_of_not_mem hm (by simp) (by simpa using h)

theorem mem_cellsFrom_iff {base : Nat} {vs : List (BitVec w)} {e : Nat × BitVec w} :
    e ∈ cellsFrom base vs ↔ ∃ k, ∃ hk : k < vs.length, e = (base + k, vs[k]) := by
  induction vs generalizing base with
  | nil => simp [cellsFrom]
  | cons v vs ih =>
    simp only [cellsFrom, List.mem_cons, ih]
    constructor
    · rintro (rfl | ⟨k, hk, rfl⟩)
      · exact ⟨0, by simp, by simp⟩
      · exact ⟨k + 1, by simpa using hk, by simp; omega⟩
    · rintro ⟨k, hk, rfl⟩
      cases k with
      | zero => exact Or.inl (by simp)
      | succ k => exact Or.inr ⟨k, by simpa using hk, by simp; omega⟩

theorem pairwise_cellsFrom (base : Nat) (vs : List (BitVec w)) :
    (cellsFrom base vs).Pairwise (fun e f => e.1 < f.1) := by
  induction vs generalizing base with
  | nil => simp [cellsFrom]
  | cons v vs ih =>
    rw [cellsFrom, List.pairwise_cons]
    refine ⟨fun e he => ?_, ih (base + 1)⟩
    obtain ⟨k, -, rfl⟩ := mem_cellsFrom_iff.1 he
    simp only
    omega

theorem Store.get_fill_mem {m : Store w} (hm : Store.Rising m) (base : Nat) (vs : List (BitVec w)) {k : Nat}
    (hk : k < vs.length) : Store.get d (Store.fill d m base vs) (base + k) = some vs[k] :=
  Store.get_writes_of_mem hm (pairwise_cellsFrom base vs) (mem_cellsFrom_iff.2 ⟨k, hk, rfl⟩)

theorem Store.get_fill_not_mem {m : Store w} (hm : Store.Rising m) (base : Nat) (vs : List (BitVec w)) {a : Nat}
    (ha : a < base ∨ base + vs.length ≤ a) : Store.get d (Store.fill d m base vs) a = Store.get d m a := by
  refine Store.get_writes_of_not_mem hm (pairwise_cellsFrom base vs) fun e he => ?_
  obtain ⟨k, hk, rfl⟩ := mem_cellsFrom_iff.1 he
  simp only
  omega

theorem Store.get_forget (m : Store w) (p : Nat → Bool) (a : Nat) :
    Store.get unspecified (m.forget p) a = if p a then none else Store.get unspecified m a := by
  induction m with
  | nil => simp [Store.forget, unspecified]
  | cons e m ih =>
    obtain ⟨k, v⟩ := e
    simp only [Store.forget, List.filter_cons] at ih ⊢
    by_cases hk : k = a
    · subst hk
      cases hp : p k <;> simp_all
    · cases hp : p k <;> simp_all

/-! ### The canonical form -/

theorem Store.wf_iff {n : Nat} {m : Store w} :
    Store.wf d n m = true ↔ Store.Rising m ∧ ∀ e ∈ m, e.1 < n ∧ some e.2 ≠ d := by
  simp [Store.wf, Store.Rising]

theorem Store.wf_nil (n : Nat) : Store.wf d n ([] : Store w) = true := by simp [Store.wf]

theorem Store.wf_writes {n : Nat} {m : Store w} (hm : Store.wf d n m = true) {l : List (Nat × BitVec w)}
    (hl : l.Pairwise (fun e f => e.1 < f.1)) (hn : ∀ e ∈ l, e.1 < n) : Store.wf d n (Store.writes d m l) = true := by
  rw [Store.wf_iff] at hm ⊢
  refine ⟨Store.rising_writes hm.1 hl, fun e he => ?_⟩
  rcases Store.mem_writes he with h | h
  · exact hm.2 e h
  · exact ⟨hn e h.1, h.2⟩

theorem Store.wf_set {n : Nat} {m : Store w} (hm : Store.wf d n m = true) {a : Nat} (ha : a < n) (v : BitVec w) :
    Store.wf d n (Store.set d m a v) = true := Store.wf_writes hm (by simp) (by simpa using ha)

theorem Store.wf_fill {n : Nat} {m : Store w} (hm : Store.wf d n m = true) {base : Nat} {vs : List (BitVec w)}
    (h : base + vs.length ≤ n) : Store.wf d n (Store.fill d m base vs) = true := by
  refine Store.wf_writes hm (pairwise_cellsFrom base vs) fun e he => ?_
  obtain ⟨k, hk, rfl⟩ := mem_cellsFrom_iff.1 he
  simp only
  omega

theorem Store.wf_forget {n : Nat} {m : Store w} (hm : Store.wf d n m = true) (p : Nat → Bool) :
    Store.wf d n (m.forget p) = true := by
  rw [Store.wf_iff] at hm ⊢
  exact ⟨hm.1.sublist List.filter_sublist, fun e he => hm.2 e (List.mem_of_mem_filter he)⟩

theorem Store.rising_of_wf {n : Nat} {m : Store w} (hm : Store.wf d n m = true) : Store.Rising m :=
  (Store.wf_iff.1 hm).1

end Sys2Proof.Machine
end

