-- ==== Sys2Proof/Laws/State.lean ====
section
/-! SUPPORT. One lemma per field and shared update of the state, so that no later proof unfolds a record update. -/

namespace Sys2Proof.Machine

variable {N : NumImpl} (s : State N)

/-! ### `State.complete` -/

@[simp] theorem State.complete_ctrl : (s.complete).ctrl = s.ctrl := rfl

@[simp] theorem State.complete_par : (s.complete).par = s.par := rfl

@[simp] theorem State.complete_huffused : (s.complete).huffused = s.huffused := rfl

@[simp] theorem State.complete_overrun : (s.complete).overrun = s.overrun := rfl

@[simp] theorem State.complete_c1end : (s.complete).c1end = s.c1end := rfl

@[simp] theorem State.complete_clipcnt : (s.complete).clipcnt = s.clipcnt := rfl

@[simp] theorem State.complete_bitbuf : (s.complete).bitbuf = s.bitbuf := rfl

@[simp] theorem State.complete_sfl : (s.complete).sfl = s.sfl := rfl

@[simp] theorem State.complete_sfs : (s.complete).sfs = s.sfs := rfl

@[simp] theorem State.complete_isq : (s.complete).isq = s.isq := rfl

@[simp] theorem State.complete_pcm : (s.complete).pcm = s.pcm := rfl

@[simp] theorem State.complete_ch0 : (s.complete).ch0 = s.ch0 := rfl

@[simp] theorem State.complete_ch1 : (s.complete).ch1 = s.ch1 := rfl

@[simp] theorem State.complete_pending : (s.complete).pending = s.pending := rfl

@[simp] theorem State.complete_rdata : (s.complete).rdata = s.rdata := rfl

@[simp] theorem State.complete_free : (s.complete).free = s.free := rfl

@[simp] theorem State.complete_latch : (s.complete).latch = none := rfl

@[simp] theorem State.complete_done : (s.complete).status.done = true := rfl

@[simp] theorem State.complete_err : (s.complete).status.err = s.status.err := rfl

@[simp] theorem State.complete_errcode : (s.complete).status.errcode = s.status.errcode := rfl

@[simp] theorem State.complete_warns : (s.complete).status.warns = s.status.warns := rfl

@[simp] theorem State.complete_chan (c : BitVec 1) : (s.complete).chan c = s.chan c := rfl

/-! ### `State.setWarns` -/

@[simp] theorem State.setWarns_ctrl (m : BitVec 8) : (s.setWarns m).ctrl = s.ctrl := rfl

@[simp] theorem State.setWarns_par (m : BitVec 8) : (s.setWarns m).par = s.par := rfl

@[simp] theorem State.setWarns_huffused (m : BitVec 8) : (s.setWarns m).huffused = s.huffused := rfl

@[simp] theorem State.setWarns_overrun (m : BitVec 8) : (s.setWarns m).overrun = s.overrun := rfl

@[simp] theorem State.setWarns_c1end (m : BitVec 8) : (s.setWarns m).c1end = s.c1end := rfl

@[simp] theorem State.setWarns_clipcnt (m : BitVec 8) : (s.setWarns m).clipcnt = s.clipcnt := rfl

@[simp] theorem State.setWarns_latch (m : BitVec 8) : (s.setWarns m).latch = s.latch := rfl

@[simp] theorem State.setWarns_bitbuf (m : BitVec 8) : (s.setWarns m).bitbuf = s.bitbuf := rfl

@[simp] theorem State.setWarns_sfl (m : BitVec 8) : (s.setWarns m).sfl = s.sfl := rfl

@[simp] theorem State.setWarns_sfs (m : BitVec 8) : (s.setWarns m).sfs = s.sfs := rfl

@[simp] theorem State.setWarns_isq (m : BitVec 8) : (s.setWarns m).isq = s.isq := rfl

@[simp] theorem State.setWarns_pcm (m : BitVec 8) : (s.setWarns m).pcm = s.pcm := rfl

@[simp] theorem State.setWarns_ch0 (m : BitVec 8) : (s.setWarns m).ch0 = s.ch0 := rfl

@[simp] theorem State.setWarns_ch1 (m : BitVec 8) : (s.setWarns m).ch1 = s.ch1 := rfl

@[simp] theorem State.setWarns_pending (m : BitVec 8) : (s.setWarns m).pending = s.pending := rfl

@[simp] theorem State.setWarns_rdata (m : BitVec 8) : (s.setWarns m).rdata = s.rdata := rfl

@[simp] theorem State.setWarns_free (m : BitVec 8) : (s.setWarns m).free = s.free := rfl

@[simp] theorem State.setWarns_done (m : BitVec 8) : (s.setWarns m).status.done = s.status.done := rfl

@[simp] theorem State.setWarns_err (m : BitVec 8) : (s.setWarns m).status.err = s.status.err := rfl

@[simp] theorem State.setWarns_errcode (m : BitVec 8) : (s.setWarns m).status.errcode = s.status.errcode := rfl

@[simp] theorem State.setWarns_warns (m : BitVec 8) : (s.setWarns m).status.warns = s.status.warns ||| m := rfl

@[simp] theorem State.setWarns_snap (m : BitVec 8) : (s.setWarns m).snap = s.snap := rfl

@[simp] theorem State.setWarns_chan (m : BitVec 8) (c : BitVec 1) : (s.setWarns m).chan c = s.chan c := rfl

/-! ### `State.recordError` -/

@[simp] theorem State.recordError_ctrl (e : ErrorCode) : (s.recordError e).ctrl = s.ctrl := rfl

@[simp] theorem State.recordError_par (e : ErrorCode) : (s.recordError e).par = s.par := rfl

@[simp] theorem State.recordError_huffused (e : ErrorCode) : (s.recordError e).huffused = s.huffused := rfl

@[simp] theorem State.recordError_overrun (e : ErrorCode) : (s.recordError e).overrun = s.overrun := rfl

@[simp] theorem State.recordError_c1end (e : ErrorCode) : (s.recordError e).c1end = s.c1end := rfl

@[simp] theorem State.recordError_clipcnt (e : ErrorCode) : (s.recordError e).clipcnt = s.clipcnt := rfl

@[simp] theorem State.recordError_latch (e : ErrorCode) : (s.recordError e).latch = s.latch := rfl

@[simp] theorem State.recordError_bitbuf (e : ErrorCode) : (s.recordError e).bitbuf = s.bitbuf := rfl

@[simp] theorem State.recordError_sfl (e : ErrorCode) : (s.recordError e).sfl = s.sfl := rfl

@[simp] theorem State.recordError_sfs (e : ErrorCode) : (s.recordError e).sfs = s.sfs := rfl

@[simp] theorem State.recordError_isq (e : ErrorCode) : (s.recordError e).isq = s.isq := rfl

@[simp] theorem State.recordError_pcm (e : ErrorCode) : (s.recordError e).pcm = s.pcm := rfl

@[simp] theorem State.recordError_ch0 (e : ErrorCode) : (s.recordError e).ch0 = s.ch0 := rfl

@[simp] theorem State.recordError_ch1 (e : ErrorCode) : (s.recordError e).ch1 = s.ch1 := rfl

@[simp] theorem State.recordError_pending (e : ErrorCode) : (s.recordError e).pending = s.pending := rfl

@[simp] theorem State.recordError_rdata (e : ErrorCode) : (s.recordError e).rdata = s.rdata := rfl

@[simp] theorem State.recordError_free (e : ErrorCode) : (s.recordError e).free = s.free := rfl

@[simp] theorem State.recordError_done (e : ErrorCode) : (s.recordError e).status.done = s.status.done := rfl

@[simp] theorem State.recordError_err (e : ErrorCode) : (s.recordError e).status.err = true := rfl

@[simp] theorem State.recordError_errcode (e : ErrorCode) : (s.recordError e).status.errcode = if s.status.err then s.status.errcode else e.value := rfl

@[simp] theorem State.recordError_warns (e : ErrorCode) : (s.recordError e).status.warns = s.status.warns := rfl

@[simp] theorem State.recordError_snap (e : ErrorCode) : (s.recordError e).snap = s.snap := rfl

@[simp] theorem State.recordError_chan (e : ErrorCode) (c : BitVec 1) : (s.recordError e).chan c = s.chan c := rfl

/-! ### `State.raiseError` -/

@[simp] theorem State.raiseError_ctrl (e : ErrorCode) : (s.raiseError e).ctrl = s.ctrl := rfl

@[simp] theorem State.raiseError_par (e : ErrorCode) : (s.raiseError e).par = s.par := rfl

@[simp] theorem State.raiseError_huffused (e : ErrorCode) : (s.raiseError e).huffused = s.huffused := rfl

@[simp] theorem State.raiseError_overrun (e : ErrorCode) : (s.raiseError e).overrun = s.overrun := rfl

@[simp] theorem State.raiseError_c1end (e : ErrorCode) : (s.raiseError e).c1end = s.c1end := rfl

@[simp] theorem State.raiseError_clipcnt (e : ErrorCode) : (s.raiseError e).clipcnt = s.clipcnt := rfl

@[simp] theorem State.raiseError_bitbuf (e : ErrorCode) : (s.raiseError e).bitbuf = s.bitbuf := rfl

@[simp] theorem State.raiseError_sfl (e : ErrorCode) : (s.raiseError e).sfl = s.sfl := rfl

@[simp] theorem State.raiseError_sfs (e : ErrorCode) : (s.raiseError e).sfs = s.sfs := rfl

@[simp] theorem State.raiseError_isq (e : ErrorCode) : (s.raiseError e).isq = s.isq := rfl

@[simp] theorem State.raiseError_pcm (e : ErrorCode) : (s.raiseError e).pcm = s.pcm := rfl

@[simp] theorem State.raiseError_ch0 (e : ErrorCode) : (s.raiseError e).ch0 = s.ch0 := rfl

@[simp] theorem State.raiseError_ch1 (e : ErrorCode) : (s.raiseError e).ch1 = s.ch1 := rfl

@[simp] theorem State.raiseError_pending (e : ErrorCode) : (s.raiseError e).pending = s.pending := rfl

@[simp] theorem State.raiseError_rdata (e : ErrorCode) : (s.raiseError e).rdata = s.rdata := rfl

@[simp] theorem State.raiseError_free (e : ErrorCode) : (s.raiseError e).free = s.free := rfl

@[simp] theorem State.raiseError_latch (e : ErrorCode) : (s.raiseError e).latch = none := rfl

@[simp] theorem State.raiseError_done (e : ErrorCode) : (s.raiseError e).status.done = s.status.done := rfl

@[simp] theorem State.raiseError_err (e : ErrorCode) : (s.raiseError e).status.err = true := rfl

@[simp] theorem State.raiseError_errcode (e : ErrorCode) : (s.raiseError e).status.errcode = if s.status.err then s.status.errcode else e.value := rfl

@[simp] theorem State.raiseError_warns (e : ErrorCode) : (s.raiseError e).status.warns = s.status.warns := rfl

@[simp] theorem State.raiseError_chan (e : ErrorCode) (c : BitVec 1) : (s.raiseError e).chan c = s.chan c := rfl

/-! ### `State.skipFree` -/

@[simp] theorem State.skipFree_ctrl (n : Nat) : (s.skipFree n).ctrl = s.ctrl := rfl

@[simp] theorem State.skipFree_status (n : Nat) : (s.skipFree n).status = s.status := rfl

@[simp] theorem State.skipFree_par (n : Nat) : (s.skipFree n).par = s.par := rfl

@[simp] theorem State.skipFree_huffused (n : Nat) : (s.skipFree n).huffused = s.huffused := rfl

@[simp] theorem State.skipFree_overrun (n : Nat) : (s.skipFree n).overrun = s.overrun := rfl

@[simp] theorem State.skipFree_c1end (n : Nat) : (s.skipFree n).c1end = s.c1end := rfl

@[simp] theorem State.skipFree_clipcnt (n : Nat) : (s.skipFree n).clipcnt = s.clipcnt := rfl

@[simp] theorem State.skipFree_latch (n : Nat) : (s.skipFree n).latch = s.latch := rfl

@[simp] theorem State.skipFree_bitbuf (n : Nat) : (s.skipFree n).bitbuf = s.bitbuf := rfl

@[simp] theorem State.skipFree_sfl (n : Nat) : (s.skipFree n).sfl = s.sfl := rfl

@[simp] theorem State.skipFree_sfs (n : Nat) : (s.skipFree n).sfs = s.sfs := rfl

@[simp] theorem State.skipFree_isq (n : Nat) : (s.skipFree n).isq = s.isq := rfl

@[simp] theorem State.skipFree_pcm (n : Nat) : (s.skipFree n).pcm = s.pcm := rfl

@[simp] theorem State.skipFree_ch0 (n : Nat) : (s.skipFree n).ch0 = s.ch0 := rfl

@[simp] theorem State.skipFree_ch1 (n : Nat) : (s.skipFree n).ch1 = s.ch1 := rfl

@[simp] theorem State.skipFree_pending (n : Nat) : (s.skipFree n).pending = s.pending := rfl

@[simp] theorem State.skipFree_rdata (n : Nat) : (s.skipFree n).rdata = s.rdata := rfl

@[simp] theorem State.skipFree_free (n : Nat) : (s.skipFree n).free = s.free + n := rfl

@[simp] theorem State.skipFree_snap (n : Nat) : (s.skipFree n).snap = s.snap := rfl

@[simp] theorem State.skipFree_chan (n : Nat) (c : BitVec 1) : (s.skipFree n).chan c = s.chan c := rfl

/-! ### `State.storeSpectrum` -/

@[simp] theorem State.storeSpectrum_ctrl (g : Progress) : (s.storeSpectrum g).ctrl = s.ctrl := rfl

@[simp] theorem State.storeSpectrum_status (g : Progress) : (s.storeSpectrum g).status = s.status := rfl

@[simp] theorem State.storeSpectrum_par (g : Progress) : (s.storeSpectrum g).par = s.par := rfl

@[simp] theorem State.storeSpectrum_huffused (g : Progress) : (s.storeSpectrum g).huffused = s.huffused := rfl

@[simp] theorem State.storeSpectrum_overrun (g : Progress) : (s.storeSpectrum g).overrun = s.overrun := rfl

@[simp] theorem State.storeSpectrum_c1end (g : Progress) : (s.storeSpectrum g).c1end = s.c1end := rfl

@[simp] theorem State.storeSpectrum_clipcnt (g : Progress) : (s.storeSpectrum g).clipcnt = s.clipcnt := rfl

@[simp] theorem State.storeSpectrum_latch (g : Progress) : (s.storeSpectrum g).latch = s.latch := rfl

@[simp] theorem State.storeSpectrum_bitbuf (g : Progress) : (s.storeSpectrum g).bitbuf = s.bitbuf := rfl

@[simp] theorem State.storeSpectrum_sfl (g : Progress) : (s.storeSpectrum g).sfl = s.sfl := rfl

@[simp] theorem State.storeSpectrum_sfs (g : Progress) : (s.storeSpectrum g).sfs = s.sfs := rfl

@[simp] theorem State.storeSpectrum_pcm (g : Progress) : (s.storeSpectrum g).pcm = s.pcm := rfl

@[simp] theorem State.storeSpectrum_ch0 (g : Progress) : (s.storeSpectrum g).ch0 = s.ch0 := rfl

@[simp] theorem State.storeSpectrum_ch1 (g : Progress) : (s.storeSpectrum g).ch1 = s.ch1 := rfl

@[simp] theorem State.storeSpectrum_pending (g : Progress) : (s.storeSpectrum g).pending = s.pending := rfl

@[simp] theorem State.storeSpectrum_rdata (g : Progress) : (s.storeSpectrum g).rdata = s.rdata := rfl

@[simp] theorem State.storeSpectrum_free (g : Progress) : (s.storeSpectrum g).free = s.free := rfl

@[simp] theorem State.storeSpectrum_isq (g : Progress) : (s.storeSpectrum g).isq = Store.fill unspecified s.isq 0 (spectrum g) := rfl

@[simp] theorem State.storeSpectrum_snap (g : Progress) : (s.storeSpectrum g).snap = s.snap := rfl

@[simp] theorem State.storeSpectrum_chan (g : Progress) (c : BitVec 1) : (s.storeSpectrum g).chan c = s.chan c := rfl

/-! ### `State.setChan` -/

@[simp] theorem State.setChan_ctrl (c : BitVec 1) (x : Channel N) : (s.setChan c x).ctrl = s.ctrl := by
  unfold State.setChan; split <;> rfl

@[simp] theorem State.setChan_status (c : BitVec 1) (x : Channel N) : (s.setChan c x).status = s.status := by
  unfold State.setChan; split <;> rfl

@[simp] theorem State.setChan_par (c : BitVec 1) (x : Channel N) : (s.setChan c x).par = s.par := by
  unfold State.setChan; split <;> rfl

@[simp] theorem State.setChan_huffused (c : BitVec 1) (x : Channel N) : (s.setChan c x).huffused = s.huffused := by
  unfold State.setChan; split <;> rfl

@[simp] theorem State.setChan_overrun (c : BitVec 1) (x : Channel N) : (s.setChan c x).overrun = s.overrun := by
  unfold State.setChan; split <;> rfl

@[simp] theorem State.setChan_c1end (c : BitVec 1) (x : Channel N) : (s.setChan c x).c1end = s.c1end := by
  unfold State.setChan; split <;> rfl

@[simp] theorem State.setChan_clipcnt (c : BitVec 1) (x : Channel N) : (s.setChan c x).clipcnt = s.clipcnt := by
  unfold State.setChan; split <;> rfl

@[simp] theorem State.setChan_latch (c : BitVec 1) (x : Channel N) : (s.setChan c x).latch = s.latch := by
  unfold State.setChan; split <;> rfl

@[simp] theorem State.setChan_bitbuf (c : BitVec 1) (x : Channel N) : (s.setChan c x).bitbuf = s.bitbuf := by
  unfold State.setChan; split <;> rfl

@[simp] theorem State.setChan_sfl (c : BitVec 1) (x : Channel N) : (s.setChan c x).sfl = s.sfl := by
  unfold State.setChan; split <;> rfl

@[simp] theorem State.setChan_sfs (c : BitVec 1) (x : Channel N) : (s.setChan c x).sfs = s.sfs := by
  unfold State.setChan; split <;> rfl

@[simp] theorem State.setChan_isq (c : BitVec 1) (x : Channel N) : (s.setChan c x).isq = s.isq := by
  unfold State.setChan; split <;> rfl

@[simp] theorem State.setChan_pcm (c : BitVec 1) (x : Channel N) : (s.setChan c x).pcm = s.pcm := by
  unfold State.setChan; split <;> rfl

@[simp] theorem State.setChan_pending (c : BitVec 1) (x : Channel N) : (s.setChan c x).pending = s.pending := by
  unfold State.setChan; split <;> rfl

@[simp] theorem State.setChan_rdata (c : BitVec 1) (x : Channel N) : (s.setChan c x).rdata = s.rdata := by
  unfold State.setChan; split <;> rfl

@[simp] theorem State.setChan_free (c : BitVec 1) (x : Channel N) : (s.setChan c x).free = s.free := by
  unfold State.setChan; split <;> rfl

@[simp] theorem State.setChan_snap (c : BitVec 1) (x : Channel N) : (s.setChan c x).snap = s.snap := by
  simp [State.snap]

@[simp] theorem State.setChan_chan_self (c : BitVec 1) (x : Channel N) : (s.setChan c x).chan c = x := by
  unfold State.setChan State.chan; split <;> rfl

theorem channel_cases (c : BitVec 1) : c = 0#1 ∨ c = 1#1 := by revert c; decide

theorem State.setChan_chan_ne {c c' : BitVec 1} (h : c' ≠ c) (x : Channel N) : (s.setChan c x).chan c' = s.chan c' := by
  unfold State.setChan State.chan
  rcases channel_cases c with rfl | rfl <;> rcases channel_cases c' with rfl | rfl <;> simp_all

theorem State.setChan_zero (x : Channel N) : s.setChan 0#1 x = { s with ch0 := x } := rfl

theorem State.setChan_one (x : Channel N) : s.setChan 1#1 x = { s with ch1 := x } := rfl

theorem State.chan_zero : s.chan 0#1 = s.ch0 := rfl

theorem State.chan_one : s.chan 1#1 = s.ch1 := rfl

/-! ### Status words -/

@[simp] theorem Warn.maskIf_true (f : Warn) : f.maskIf true = f.mask := rfl

@[simp] theorem Warn.maskIf_false (f : Warn) : f.maskIf false = 0#8 := rfl

theorem State.snap_of_latch {l : Latch} (h : s.latch = some l) : s.snap = l.snap := by simp [State.snap, h]

theorem State.busy_iff : s.busy = true ↔ ∃ l, s.latch = some l := by
  simp [State.busy, Option.isSome_iff_exists]

/-! ### The bits of a register word -/

/-- A one-bit field's word has its flag at its bit and 0 at every other. -/
theorem getLsbD_flagAt (k i : Nat) (b : Bool) (hi : i < 32) : (flagAt k b).getLsbD i = (decide (k = i) && b) := by
  cases b <;> simp only [flagAt, Bool.false_eq_true, if_false, if_true, BitVec.getLsbD_zero, Bool.and_false]
  by_cases h : k = i
  · subst h; simp [hi]
  · simp [h]; omega

/-- A field's word has the field's bits from its low bit on, and 0 elsewhere. -/
theorem getLsbD_atBit {n : Nat} (lo i : Nat) (v : BitVec n) (hi : i < 32) :
    (atBit lo v).getLsbD i = (decide (lo ≤ i) && v.getLsbD (i - lo)) := by
  simp only [atBit, BitVec.getLsbD_shiftLeft, BitVec.getLsbD_setWidth, hi, decide_true, Bool.true_and]
  by_cases h : lo ≤ i
  · simp [h, show i - lo < 32 by omega]
  · simp [h, show i < lo by omega]

end Sys2Proof.Machine
end

