-- ==== Sys2Proof/Laws/Commands.lean ====
section
/-! SUPPORT. What each shared operation and each command can do, said once: if it answers a next state, which one.
Later proofs cite these and unfold none of the operations. -/

namespace Sys2Proof.Machine

variable {N : NumImpl} {s t : State N} {ch : BitVec 1}

/-! ### Codebooks -/

theorem mem_allPairs (p : Nibbles) : p ∈ allPairs := by
  obtain ⟨x, y⟩ := p
  simp only [allPairs, List.mem_flatMap, List.mem_map, List.mem_range]
  exact ⟨x.toNat, x.isLt, y.toNat, y.isLt, by simp⟩

/-- R204: each of the 256 pairs stands at exactly one leaf. -/
theorem coversPairs_iff (c : Code Nibbles) : coversPairs c = true ↔ ∀ p, (leaves c).count p = 1 := by
  have hn : allPairs.Nodup := by decide +kernel
  have hl : allPairs.length = 256 := by decide +kernel
  have h1 (p : Nibbles) : allPairs.count p = 1 := List.count_eq_one_of_mem hn (mem_allPairs p)
  simp only [coversPairs, Bool.and_eq_true, decide_eq_true_eq, List.all_eq_true, List.contains_iff_mem]
  refine ⟨fun ⟨hc, hm⟩ p => ?_, fun h => ?_⟩
  · rw [← ((List.subperm_of_subset hn hm).perm_of_length_le (by rw [hc, hl])).count_eq, h1]
  · have hp : allPairs.Perm (leaves c) := List.perm_iff_count.2 fun p => by rw [h p, h1]
    exact ⟨hp.length_eq ▸ hl, fun p hm => hp.mem_iff.1 hm⟩

/-! ### Commands -/

theorem execDeq_next (h : execDeq ch s = .next t) :
    (deqRefuses s.snap = true ∧ t = s.raiseError .badParam) ∨
    (deqRefuses s.snap = false ∧ ∃ is c, Store.block unspecified s.isq 0 576 = some is ∧
      s.readScales s.snap = some c ∧
      t = State.complete (s.setChan ch { s.chan ch with
        xr := Store.fill unspecified (s.chan ch).xr 0 ((List.range 576).map (dequantized s.snap c is)) })) := by
  unfold execDeq at h
  split at h
  · exact .inl ⟨‹_›, (Host.Outcome.next.inj h).symm⟩
  · split at h
    · exact .inr ⟨Bool.eq_false_iff.2 ‹_›, _, _, ‹_›, ‹_›, (Host.Outcome.next.inj h).symm⟩
    · cases h

theorem execAa_next (h : execAa ch s = .next t) :
    ∃ xr, antialias (aaBoundaries s.snap) s.free (s.chan ch).xr = some xr ∧
      t = State.complete
        ((s.setChan ch { s.chan ch with xr := xr }).skipFree (16 * (aaBoundaries s.snap).length)) := by
  unfold execAa at h
  split at h
  · exact ⟨_, ‹_›, (Host.Outcome.next.inj h).symm⟩
  · cases h

theorem execImdct_next (h : execImdct ch s = .next t) :
    ∃ xs os, Store.block unspecified (s.chan ch).xr 0 576 = some xs ∧
      Store.block N.zeroed (s.chan ch).ovl 0 576 = some os ∧
      t = State.complete ((s.setChan ch { s.chan ch with
        sbs := Store.fill unspecified (s.chan ch).sbs 0 (sbsCells s.snap s.free xs os)
        ovl := Store.fill N.zeroed (s.chan ch).ovl 0 (ovlCells s.snap s.free xs os) }).skipFree 1152) := by
  unfold execImdct at h
  split at h
  · exact ⟨_, _, ‹_›, ‹_›, (Host.Outcome.next.inj h).symm⟩
  · cases h

/-- IMDCT completes when XR can be read: OVL always can. -/
theorem execImdct_of_block {xs : List N.R} (hx : Store.block unspecified (s.chan ch).xr 0 576 = some xs) :
    ∃ os, Store.block N.zeroed (s.chan ch).ovl 0 576 = some os ∧
      execImdct ch s = .next (State.complete ((s.setChan ch { s.chan ch with
        sbs := Store.fill unspecified (s.chan ch).sbs 0 (sbsCells s.snap s.free xs os)
        ovl := Store.fill N.zeroed (s.chan ch).ovl 0 (ovlCells s.snap s.free xs os) }).skipFree 1152)) := by
  obtain ⟨os, ho⟩ := Store.block_zeroed (s.chan ch).ovl 0 576
  exact ⟨os, ho, by rw [execImdct, hx, ho]⟩

theorem execHuff_next (h : execHuff s = .next t) :
    tablesUsable s.snap = true ∧ ∃ g line,
      (decodeSpectrum s.bitSource s.snap = ((g, line), .goesOn) ∧ t = s.huffDone s.snap g line) ∨
      (decodeSpectrum s.bitSource s.snap = ((g, line), .underflow) ∧ t = s.huffAbort g) := by
  unfold execHuff at h
  split at h
  · split at h
    · exact ⟨‹_›, _, _, .inl ⟨‹_›, (Host.Outcome.next.inj h).symm⟩⟩
    · exact ⟨‹_›, _, _, .inr ⟨‹_›, (Host.Outcome.next.inj h).symm⟩⟩
    · cases h
  · cases h

/-- SYNTH and SYNTHG: refused before anything else, or all their steps done. -/
theorem synthesize_next {ts : List Nat} (h : synthesize ch ts s = .next t) :
    (synthRefuses s.snap ch = true ∧ t = s.raiseError .badParam) ∨
    (synthRefuses s.snap ch = false ∧ ∃ u, synthSteps ch s.snap ts s = some u ∧ t = u.complete) := by
  unfold synthesize at h
  split at h
  · exact .inl ⟨‹_›, (Host.Outcome.next.inj h).symm⟩
  · split at h
    · exact .inr ⟨Bool.eq_false_iff.2 ‹_›, _, ‹_›, (Host.Outcome.next.inj h).symm⟩
    · cases h

theorem synthSteps_cons {p : Params} {k : Nat} {ks : List Nat} :
    synthSteps ch p (k :: ks) s = some t ↔
      ∃ u, synthStep ch p k s = some u ∧ synthSteps ch p ks u = some t := by
  show (match synthStep ch p k s with | some s' => synthSteps ch p ks s' | none => none) = some t ↔ _
  cases synthStep ch p k s <;> simp

theorem synthSteps_append {p : Params} {ks ls : List Nat} :
    synthSteps ch p (ks ++ ls) s = some t ↔
      ∃ u, synthSteps ch p ks s = some u ∧ synthSteps ch p ls u = some t := by
  induction ks generalizing s with
  | nil => simp [synthSteps]
  | cons k ks ih =>
    simp only [List.cons_append, synthSteps_cons, ih]
    constructor
    · rintro ⟨u, hu, v, hv, h⟩
      exact ⟨v, ⟨u, hu, hv⟩, h⟩
    · rintro ⟨v, ⟨u, hu, hv⟩, h⟩
      exact ⟨u, hu, v, hv, h⟩

/-- What one synthesis step leaves as it was. -/
def StepKeeps (s t : State N) (ch : BitVec 1) : Prop :=
  t.ctrl = s.ctrl ∧ t.par = s.par ∧ t.huffused = s.huffused ∧ t.overrun = s.overrun ∧ t.c1end = s.c1end ∧
    t.latch = s.latch ∧ t.bitbuf = s.bitbuf ∧ t.sfl = s.sfl ∧ t.sfs = s.sfs ∧ t.isq = s.isq ∧
    t.pending = s.pending ∧ t.rdata = s.rdata ∧ t.status.done = s.status.done ∧ t.status.err = s.status.err ∧
    t.status.errcode = s.status.errcode ∧ (∀ c, c ≠ ch → t.chan c = s.chan c) ∧
    (t.chan ch).xr = (s.chan ch).xr ∧ (t.chan ch).ovl = (s.chan ch).ovl ∧ (t.chan ch).sbs = (s.chan ch).sbs

theorem StepKeeps.refl : StepKeeps s s ch := by simp [StepKeeps]

theorem StepKeeps.trans {u : State N} (h : StepKeeps s t ch) (k : StepKeeps t u ch) : StepKeeps s u ch := by
  unfold StepKeeps at *
  obtain ⟨h1, h2, h3, h4, h5, h6, h7, h8, h9, h10, h11, h12, h13, h14, h15, hc, h16, h17, h18⟩ := h
  obtain ⟨k1, k2, k3, k4, k5, k6, k7, k8, k9, k10, k11, k12, k13, k14, k15, kc, k16, k17, k18⟩ := k
  exact ⟨k1.trans h1, k2.trans h2, k3.trans h3, k4.trans h4, k5.trans h5, k6.trans h6, k7.trans h7, k8.trans h8,
    k9.trans h9, k10.trans h10, k11.trans h11, k12.trans h12, k13.trans h13, k14.trans h14, k15.trans h15,
    fun c hne => (kc c hne).trans (hc c hne), k16.trans h16, k17.trans h17, k18.trans h18⟩

/-- One synthesis step: what it writes, from what it reads. -/
theorem synthStep_some {p : Params} {k : Nat} (h : synthStep ch p k s = some t) :
    ∃ sb ring, Store.block unspecified (s.chan ch).sbs (32 * k) 32 = some sb ∧
      Store.block N.zeroed (s.chan ch).vr 0 1024 = some ring ∧
      let r := N.ops.synth sb ((logicalLine ring (s.chan ch).bo).take 960)
      let ws := stepSamples p (s.free + 64) (settledAll (s.free + 64) 32 r.2)
      let clips := ws.countP (fun e => e.2)
      StepKeeps s t ch ∧ (t.chan ch).bo = (s.chan ch).bo - 1#4 ∧
      (t.chan ch).vr =
        Store.fill N.zeroed (s.chan ch).vr (64 * ((s.chan ch).bo - 1#4).toNat) (settledAll s.free 64 r.1) ∧
      t.pcm = Store.writes unspecified s.pcm (stepCells p ch k ws) ∧
      t.clipcnt = s.clipcnt + BitVec.ofNat 32 clips ∧
      t.status.warns = s.status.warns ||| Warn.clip.maskIf (decide (0 < clips)) ∧ t.free = s.free + 96 := by
  unfold synthStep at h
  split at h
  · refine ⟨_, _, ‹_›, ‹_›, ?_⟩
    have h := (Option.some.inj h).symm
    subst h
    obtain rfl | rfl := channel_cases ch
    all_goals
      refine ⟨⟨rfl, rfl, rfl, rfl, rfl, rfl, rfl, rfl, rfl, rfl, rfl, rfl, rfl, rfl, rfl, ?_, rfl, rfl, rfl⟩,
        rfl, rfl, rfl, rfl, rfl, rfl⟩
      intro c hc
      obtain rfl | rfl := channel_cases c
      all_goals first | exact absurd rfl hc | rfl
  · cases h

/-- A synthesis step whose SBS row holds values is done: the delay line always holds values. -/
theorem synthStep_isSome {p : Params} {k : Nat} (hs : Store.Rising (s.chan ch).sbs)
    (h : ∀ a, a < 32 → (Store.get unspecified (s.chan ch).sbs (32 * k + a)).isSome) :
    ∃ t, synthStep ch p k s = some t := by
  obtain ⟨sb, hsb⟩ := Store.block_isSome hs h
  obtain ⟨ring, hr⟩ := Store.block_zeroed (s.chan ch).vr 0 1024
  exact ⟨_, by rw [synthStep, hsb, hr]⟩

/-- The steps at time slots whose SBS rows hold values are done. -/
theorem synthSteps_isSome {p : Params} {ks : List Nat} (hs : Store.Rising (s.chan ch).sbs)
    (h : ∀ k ∈ ks, ∀ a, a < 32 → (Store.get unspecified (s.chan ch).sbs (32 * k + a)).isSome) :
    ∃ t, synthSteps ch p ks s = some t := by
  induction ks generalizing s with
  | nil => exact ⟨s, rfl⟩
  | cons k ks ih =>
    obtain ⟨u, hu⟩ := synthStep_isSome (p := p) hs (h k (by simp))
    obtain ⟨_, _, _, _, hk, _⟩ := synthStep_some hu
    have hsbs := hk.2.2.2.2.2.2.2.2.2.2.2.2.2.2.2.2.2.2
    obtain ⟨t, ht⟩ := ih (s := u) (hsbs ▸ hs) (fun k' hk' => by rw [hsbs]; exact h k' (by simp [hk']))
    exact ⟨t, synthSteps_cons.2 ⟨u, hu, ht⟩⟩

/-- An accepted synthesis whose SBS rows hold values completes, in the state its steps end in. -/
theorem synthesize_isSome {ks : List Nat} (ha : synthRefuses s.snap ch = false) (hs : Store.Rising (s.chan ch).sbs)
    (h : ∀ k ∈ ks, ∀ a, a < 32 → (Store.get unspecified (s.chan ch).sbs (32 * k + a)).isSome) :
    ∃ u, synthSteps ch s.snap ks s = some u ∧ synthesize ch ks s = .next u.complete := by
  obtain ⟨u, hu⟩ := synthSteps_isSome (p := s.snap) hs h
  refine ⟨u, hu, ?_⟩
  rw [synthesize, if_neg (by simp [ha]), hu]

theorem synthSteps_keeps {p : Params} {ks : List Nat} (h : synthSteps ch p ks s = some t) : StepKeeps s t ch := by
  induction ks generalizing s with
  | nil =>
    have h : s = t := Option.some.inj h
    exact h ▸ StepKeeps.refl
  | cons k ks ih =>
    obtain ⟨u, hu, h⟩ := synthSteps_cons.1 h
    obtain ⟨_, _, _, _, hk, _⟩ := synthStep_some hu
    exact hk.trans (ih h)

/-- The steps take one from the offset each, modulo 16. -/
theorem synthSteps_bo {p : Params} {ks : List Nat} (h : synthSteps ch p ks s = some t) :
    (t.chan ch).bo = (s.chan ch).bo - BitVec.ofNat 4 ks.length := by
  induction ks generalizing s with
  | nil =>
    obtain rfl : s = t := Option.some.inj h
    simp
  | cons k ks ih =>
    obtain ⟨u, hu, h⟩ := synthSteps_cons.1 h
    obtain ⟨_, _, _, _, _, hbo, _⟩ := synthStep_some hu
    rw [ih h, hbo, List.length_cons]
    generalize (s.chan ch).bo = b
    rw [show BitVec.ofNat 4 (ks.length + 1) = BitVec.ofNat 4 ks.length + 1#4 from (BitVec.ofNat_add ..)]
    generalize BitVec.ofNat 4 ks.length = c
    revert b c
    decide

/-! ### Host accesses -/

theorem answer_next {v : Option Word} (h : s.answer v = .next t) : ∃ w, v = some w ∧ t = { s with rdata := some w } := by
  cases v with
  | none => cases h
  | some w => exact ⟨w, rfl, (Host.Outcome.next.inj h).symm⟩

theorem readWord_next {off : Nat} (h : s.readWord off = .next t) : ∃ w, t = { s with rdata := some w } := by
  unfold State.readWord at h
  split at h
  · obtain ⟨w, -, h⟩ := answer_next h
    exact ⟨w, h⟩
  · split at h
    · cases h
    · obtain ⟨w, -, h⟩ := answer_next h
      exact ⟨w, h⟩

theorem readByte_next {off : Nat} (h : s.readByte off = .next t) : ∃ w, t = { s with rdata := some w } := by
  unfold State.readByte at h
  split at h
  · cases h
  · obtain ⟨w, -, h⟩ := answer_next h
    exact ⟨w, h⟩

/-- A write to a word: ignored, or a write to the place it maps to, which is a register while BUSY. -/
theorem writeWord_next {off : Nat} {w : Word} (h : s.writeWord off w = .next t) :
    (locate off = none ∧ t = s) ∨
    ∃ place n, locate off = some (place, n) ∧ (place = .register ∨ s.busy = false) ∧ t = s.writePlace place n w := by
  unfold State.writeWord at h
  split at h
  · exact .inl ⟨‹_›, (Host.Outcome.next.inj h).symm⟩
  · split at h
    · cases h
    · refine .inr ⟨_, _, ‹_›, ?_, (Host.Outcome.next.inj h).symm⟩
      rename_i hc
      by_cases hp : ‹Place› = Place.register
      · exact .inl hp
      · exact .inr (by simpa using fun hb => hc ⟨hp, hb⟩)

theorem writeByte_next {off : Nat} {w : Word} (h : s.writeByte off w = .next t) :
    s.busy = false ∧
      t = { s with bitbuf := Store.set unspecified s.bitbuf (off - 0x1000) (fieldOf w 0 8) } := by
  unfold State.writeByte at h
  split at h
  · cases h
  · exact ⟨Bool.eq_false_iff.2 ‹_›, (Host.Outcome.next.inj h).symm⟩

/-- Everything an answered host access can do. -/
theorem hostAccess_next {op : HostOp} (h : hostAccess op s = .next t) :
    (∃ width off w, op = .read width off ∧ t = { s with rdata := some w }) ∨
    (∃ off w, op = .write .w8 off w ∧ s.writeByte off.toNat w = .next t) ∨
    (∃ off w, op = .write .w32 off w ∧ off.toNat % 4 = 0 ∧ s.writeWord off.toNat w = .next t) := by
  unfold hostAccess at h
  cases op with
  | read width off =>
    simp only at h
    split at h
    · split at h
      · obtain ⟨w, h⟩ := readByte_next h
        exact .inl ⟨_, _, w, rfl, h⟩
      · obtain ⟨w, h⟩ := readWord_next h
        exact .inl ⟨_, _, w, rfl, h⟩
    · cases h
  | write width off w =>
    simp only at h
    split at h
    · rename_i ha
      split at h
      · rename_i hw
        subst hw
        exact .inr (.inl ⟨_, _, rfl, h⟩)
      · rename_i hw
        cases width with
        | w8 => exact absurd rfl hw
        | w16 => cases ha
        | w32 => exact .inr (.inr ⟨_, _, rfl, by simpa [accepts] using ha, h⟩)
        | w64 => cases ha
    · cases h

/-! ### Events -/

theorem statusRead_eq : hostAccess statusRead s = .next { s with rdata := some s.statusWord } := rfl

/-- One poll of a WAIT: the STATUS word is read, and with BUSY = 1 the sequencer's step and another poll come next. -/
theorem waitAccess_eq :
    waitAccess s = .next (if s.busy then
      { s with rdata := some s.statusWord, pending := .sequencer :: .wait :: s.pending }
      else { s with rdata := some s.statusWord }) := rfl

/-- A bus access is one to the window at BASE, or changes nothing. -/
theorem busAccess_next {op : BusOp} (h : busAccess op s = .next t) :
    (op.inWindow Config.base = none ∧ t = s) ∨
    ∃ access, op.inWindow Config.base = some access ∧ hostAccess access s = .next t := by
  unfold busAccess at h
  split at h
  · exact .inr ⟨_, ‹_›, h⟩
  · exact .inl ⟨‹_›, (Host.Outcome.next.inj h).symm⟩

/-- The physical address of a window offset is that offset in the window. -/
theorem windowOffset_add (base : Nat) (off : BitVec 16) : windowOffset base (base + off.toNat) = some off := by
  have h := off.isLt
  rw [windowOffset, if_pos ⟨by omega, by omega⟩, Nat.add_sub_cancel_left]
  simp

theorem windowOffset_outside {base address : Nat} (h : address < base ∨ base + 0x10000 ≤ address) :
    windowOffset base address = none := by
  rw [windowOffset, if_neg (by omega)]

/-! ### Steps -/

variable {s t : State}

/-- The sequencer's step: idle, or exec of the latched command. -/
theorem sequencerStep_next (h : sequencerStep s = .next t) :
    (s.latch = none ∧ t = s) ∨ ∃ l i, s.latch = some l ∧ decode l.word = .ok i ∧ exec i s = .next t := by
  unfold sequencerStep at h
  split at h
  · exact .inl ⟨‹_›, (Host.Outcome.next.inj h).symm⟩
  · split at h
    · exact .inr ⟨_, _, ‹_›, ‹_›, h⟩
    · cases h

/-- Everything a step can do. -/
theorem step_next (h : step s = .next t) :
    (s.pending = [] ∧ sequencerStep s = .next t) ∨
    (∃ es, s.pending = .sequencer :: es ∧ sequencerStep { s with pending := es } = .next t) ∨
    (∃ op es, s.pending = .host op :: es ∧ hostAccess op { s with pending := es } = .next t) ∨
    (∃ op es, s.pending = .bus op :: es ∧ busAccess op { s with pending := es } = .next t) ∨
    (∃ es, s.pending = .wait :: es ∧ waitAccess { s with pending := es } = .next t) ∨
    (∃ es, s.pending = .powerOn :: es ∧ t = ({ s with pending := es } : State).powerOn) := by
  unfold step at h
  split at h
  · exact .inl ⟨‹_›, h⟩
  · rename_i e es hp
    cases e with
    | host op => exact .inr (.inr (.inl ⟨op, es, hp, h⟩))
    | bus op => exact .inr (.inr (.inr (.inl ⟨op, es, hp, h⟩)))
    | wait => exact .inr (.inr (.inr (.inr (.inl ⟨es, hp, h⟩))))
    | sequencer => exact .inr (.inl ⟨es, hp, h⟩)
    | powerOn => exact .inr (.inr (.inr (.inr (.inr ⟨es, hp, (Host.Outcome.next.inj h).symm⟩))))

end Sys2Proof.Machine
end

