-- ==== Sys2Proof/Laws/PerInstr.lean ====
section
/-! SUPPORT. Laws made per command: the family EncodedFields. -/

namespace Sys2Proof.Laws.EncodedFields

/-- R140, R141, R143, R147: the encoding of a command has its opcode in bits 7:0, its operand bits as they are, and
no bit outside the field mask of its format. -/
def Statement (i : Instr) : Prop :=
  Word.op (encode i) = i.opcode.byte ∧ encode i &&& 0xFFFFFF00#32 = i.operandBits ∧
    encode i &&& ~~~(i.opcode.format.fieldMask) = 0#32

theorem nop : Statement .nop := by unfold Statement; decide

theorem huff : Statement .huff := by unfold Statement; decide

theorem deq (ch : BitVec 1) : Statement (.deq ch) := by unfold Statement; revert ch; decide

theorem aa (ch : BitVec 1) : Statement (.aa ch) := by unfold Statement; revert ch; decide

theorem imdct (ch : BitVec 1) : Statement (.imdct ch) := by unfold Statement; revert ch; decide

theorem synth (ch : BitVec 1) (t : BitVec 5) : Statement (.synth ch t) := by
  unfold Statement
  revert ch t
  decide

theorem synthg (ch : BitVec 1) : Statement (.synthg ch) := by unfold Statement; revert ch; decide

theorem clrh (mask : BitVec 2) : Statement (.clrh mask) := by unfold Statement; revert mask; decide

end Sys2Proof.Laws.EncodedFields
end

