-- ==== Sys2Proof/Tests/Slice0.lean ====
section
/-! SUPPORT. Tests whose expected results come from the spec's encodings and vectors (each names its source), and a
witness for the hypotheses of every statement that has any. -/

namespace Sys2Proof.Tests

open Sys2Proof Sys2Proof.Machine

set_option Elab.async false

/-! ### Helpers -/

variable {N : NumImpl}

/-- The next state, if there is one. -/
def next? (o : Host.Outcome (State N) Fault Refusal) : Option (State N) :=
  match o with
  | .next t => some t
  | .fault _ => none
  | .refused _ => none

theorem next_of_next? {o : Host.Outcome (State N) Fault Refusal} {t : State N} (h : next? o = some t) : o = .next t := by
  cases o with
  | next u => exact congrArg _ (Option.some.inj h)
  | fault _ => cases h
  | refused _ => cases h

/-- The fault, if there is one. -/
def fault? (o : Host.Outcome (State N) Fault Refusal) : Option Fault :=
  match o with
  | .next _ => none
  | .fault f => some f
  | .refused _ => none

/-- A state with the parameter registers `p` and the command `i` latched with them. -/
def issued (i : Instr) (p : Params) (s : State N) : State N := { s with par := p, latch := some ⟨encode i, p⟩ }

/-- A memory whose first n cells hold 0. -/
def zeros (w n : Nat) : Store w := Store.fill unspecified [] 0 (List.replicate n 0#w)

/-- The bits of vector H1: 0x64, 0xC8. -/
def bitsH1 : State := { State.reset with bitbuf := [(0, 0x64#8), (1, 0xC8#8)] }

/-- The bits of vector H2: 0x7C, 0xA8. -/
def bitsH2 : State := { State.reset with bitbuf := [(0, 0x7C#8), (1, 0xA8#8)] }

/-- The parameters of vector H1. -/
def parH1 : Params :=
  { Params.reset with
    len := 13#12
    bv := 2#10
    gain := ⟨0#8, false, false, true⟩
    tsel := ⟨1#5, 0#5, 0#5⟩
    region := ⟨576#10, 576#10⟩
    bitEnd := 16#16 }

/-- What a HUFF leaves: the IS cells listed, BITPOS, HUFFUSED, OVERRUN, C1END and the STATUS word. -/
def huffView (as : List Nat) (t : State) : List (Option (BitVec 16)) × Nat × Nat × Nat × Nat × Word :=
  (as.map (Store.get unspecified t.isq), t.par.pos.toNat, t.huffused.toNat, t.overrun.toNat, t.c1end.toNat,
    t.statusWord)

/-- A state for DEQ: IS 0 but for the cells listed, SFL and SFS 0, and the parameters `p`. -/
def deqState (N : NumImpl) (is : List (Nat × BitVec 16)) (ch : BitVec 1) (p : Params) : State N :=
  issued (.deq ch) p { State.initial N with
    isq := Store.writes unspecified (zeros 16 576) is
    sfl := zeros 6 21
    sfs := zeros 6 36 }

/-- A state whose channel 0 has XR 0 but for the cells listed, and the block register given. -/
def xrState (N : NumImpl) (i : Instr) (xs : List (Nat × N.R)) (b : Block) : State N :=
  issued i { Params.reset with block := b } { State.initial N with
    ch0 := { (Channel.reset : Channel N) with xr := Store.writes unspecified (zeros N.bits 576) xs } }

/-- A state whose channels have SBS 0 and VR as listed. -/
def synthState (N : NumImpl) (i : Instr) (vr : Store N.bits) (p : Params) : State N :=
  issued i p { State.initial N with
    ch0 := { (Channel.reset : Channel N) with sbs := zeros N.bits 576, vr := vr }
    ch1 := { (Channel.reset : Channel N) with sbs := zeros N.bits 576, vr := vr } }

/-- The parameters with CFG as given. -/
def parCfg (sfreq : BitVec 4) (stereo unclip : Bool) : Params := { Params.reset with cfg := ⟨sfreq, stereo, unclip⟩ }

theorem get_zeros {w n a : Nat} (h : a < n) : Store.get unspecified (zeros w n) a = some 0#w := by
  have := Store.get_fill_mem (d := unspecified) (m := []) List.Pairwise.nil 0 (List.replicate n 0#w) (k := a)
    (by simpa using h)
  simpa [zeros] using this

theorem wf_zeros (w n : Nat) : Store.wf unspecified n (zeros w n) = true :=
  Store.wf_fill (Store.wf_nil n) (by simp)

theorem rising_zeros (w n : Nat) : Store.Rising (zeros w n) := Store.rising_of_wf (wf_zeros w n)

/-- Writing over a cell that stands twice, in no canonical form, changes the memory, whatever is written. -/
theorem writes_ne_of_twice {w : Nat} {d : Option (BitVec w)} {a : Nat} {u v : BitVec w} {l : List (Nat × BitVec w)}
    (hl : l.Pairwise (fun e f => e.1 < f.1)) (ha : ∀ e ∈ l, a < e.1) :
    Store.writes d [(a, u), (a, u)] ((a, v) :: l) ≠ [(a, u), (a, u)] := by
  have h : Store.writes d [(a, u), (a, u)] ((a, v) :: l) = Store.writes d [] ((a, v) :: l) := by simp [Store.writes]
  intro hc
  have hr : Store.Rising (Store.writes d ([] : Store w) ((a, v) :: l)) :=
    Store.rising_writes List.Pairwise.nil (List.pairwise_cons.2 ⟨ha, hl⟩)
  rw [← h, hc] at hr
  simp [Store.Rising] at hr

theorem written_zeros (w n : Nat) : Store.written (zeros w n) n := fun a ha => by simp [get_zeros ha]

/-- The invariant does not look at the parameters. -/
theorem inv_issued (i : Instr) (p : Params) (s : State N) : (issued i p s).inv = (issued i Params.reset s).inv := rfl

/-! ### WellFormed: the one check, and an ill-formed term that it refuses (R145 (c)) -/

theorem test_slot_18_is_ill_formed : (Instr.synth 0#1 18#5).wellFormed = false := by decide

theorem test_slot_17_is_well_formed : (Instr.synth 1#1 17#5).wellFormed = true := by decide

/-! ### Decode: words written out from the fields of R140 and the opcodes of R143 -/

theorem test_decode_nop : decode 0b0000000000000000000000_00_00000000#32 = .ok .nop := by decide

theorem test_decode_huff : decode 0b0000000000000000000000_00_00000001#32 = .ok .huff := by decide

theorem test_decode_deq : decode 0b0000000000000000000000_01_00000010#32 = .ok (.deq 1#1) := by decide

theorem test_decode_aa : decode 0b0000000000000000000000_01_00000011#32 = .ok (.aa 1#1) := by decide

theorem test_decode_imdct : decode 0b0000000000000000000000_00_00000100#32 = .ok (.imdct 0#1) := by decide

theorem test_decode_synth : decode 0b000000000000000_01101_00_01_00000101#32 = .ok (.synth 1#1 13#5) := by decide

theorem test_decode_synthg : decode 0b0000000000000000000000_01_00000110#32 = .ok (.synthg 1#1) := by decide

theorem test_decode_clrh : decode 0b0000000000000000000000_10_00000111#32 = .ok (.clrh 2#2) := by decide

/-- Vectors K2 to K5, and one reserved bit of format S. -/
theorem test_decode_refuses :
    decode 0x00000100#32 = .error .reservedBit ∧ decode 0x00000008#32 = .error .reservedOpcode ∧
    decode 0x000000FF#32 = .error .reservedOpcode ∧ decode 0x00012005#32 = .error .slotRange ∧
    decode 0x00000202#32 = .error .reservedBit ∧ decode 0x00000101#32 = .error .reservedBit ∧
    decode 0x00000407#32 = .error .reservedBit ∧ decode 0x00000205#32 = .error .reservedBit ∧
    decode 0x80000000#32 = .error .reservedBit := by decide

theorem test_decode_table_word :
    decodeTableWord 32 0x00011105 = some (.synth 1#1 17#5) ∧ decodeTableWord 32 0x00012005 = none := by decide

/-! ### Commands: vectors of 95_test_vectors.md -/

/-- Vector K1. -/
theorem test_nop : (next? (step (State.reset.withFetchWord 32 0))).map (fun t => (t.statusWord, t.busy)) =
    some (0x00000002#32, false) := by decide +kernel

/-- A channel with a cell of OVL and of VR set. -/
def usedChannel (N : NumImpl) : Channel N :=
  { (Channel.reset : Channel N) with ovl := [(3, 1#N.bits)], vr := [(5, 1#N.bits)], bo := 7#4 }

/-- Vector K9. -/
theorem test_clrh :
    (next? (exec (.clrh 2#2) { State.reset with ch0 := usedChannel _, ch1 := usedChannel _ })).map
      (fun t => (t.ch0, t.ch1)) = some (usedChannel _, Channel.reset) := rfl

/-- Vector H1. -/
theorem test_huff : (next? (exec .huff (issued .huff parH1 bitsH1))).map (huffView [0, 1, 2, 3, 4, 7, 8, 575]) =
    some ([some (-1#16), some 0#16, some 0#16, some 1#16, some 1#16, some (-1#16), some 0#16, some 0#16],
      13, 13, 0, 8, 0x00000002#32) := by decide +kernel

/-- Vector H15: UNDERFLOW. -/
theorem test_huff_underflow :
    (next? (exec .huff (issued .huff { parH1 with bitEnd := 10#16 } bitsH1))).map (huffView [0, 3, 4, 7]) =
    some ([some (-1#16), some 1#16, some 0#16, some 0#16], 0, 10, 0, 0, 0x00000304#32) := by decide +kernel

/-- Vector Q2, on channel 1 as in Q15. -/
theorem test_deq_long : (next? (execDeq 1#1 (deqState ref32 [(0, -1#16), (1, 8#16)] 1#1
      { Params.reset with gain := ⟨214#8, false, false, false⟩ }))).map
      (fun t => (Store.get unspecified t.ch1.xr 0, Store.get unspecified t.ch1.xr 1, t.ch0.xr, t.statusWord)) =
    some (some 0xC0000000#32, some 0x42000000#32, [], 0x00000002#32) := by decide +kernel

/-- Vector Q6: two of its cells. -/
theorem test_deq_short : (next? (execDeq 0#1 (deqState ref32 [(5, 1#16), (575, 1#16)] 0#1
      { Params.reset with gain := ⟨210#8, false, false, false⟩, block := ⟨2#2, false, 0#3, 1#3, 0#3⟩ }))).map
      (fun t => (Store.get unspecified t.ch0.xr 4, Store.get unspecified t.ch0.xr 575)) =
    some (some 0x3E800000#32, some 0x3F800000#32) := by decide +kernel

/-- Vector A1. -/
theorem test_aa : (next? (execAa 0#1 (xrState ref32 (.aa 0#1) [(17, 0x3F800000#32)] ⟨0#2, false, 0#3, 0#3, 0#3⟩))).map
      (fun t => (Store.get unspecified t.ch0.xr 17, Store.get unspecified t.ch0.xr 18)) =
    some (some 0x3F5B84A8#32, some 0xBF03B5FE#32) := by decide +kernel

/-- Vector A5: boundary 2 is not processed. -/
theorem test_aa_mixed :
    (next? (execAa 0#1 (xrState ref32 (.aa 0#1) [(17, 0x3F800000#32), (35, 0x3F800000#32)] ⟨2#2, true, 0#3, 0#3, 0#3⟩))).map
      (fun t => (Store.get unspecified t.ch0.xr 17, Store.get unspecified t.ch0.xr 35)) =
    some (some 0x3F5B84A8#32, some 0x3F800000#32) := by decide +kernel

/-- Vector I1, at function level: t = 0 and 17 of both halves. -/
theorem test_imdct_long :
    let x := 0x3F800000#32 :: List.replicate 17 0#32
    let r := ref32Imdct x (List.replicate 18 0#32) 0#2 0
    (r.1 0, r.2 0, r.1 9, r.2 15) =
      (some 0x3CF1689E#32, some 0xBF3C9038#32, some 0xBD03B9C5#32, some 0xBE3AECA3#32) := by decide +kernel

/-- Vector I10: an odd subband of a short block; 0.079459311 is 0x3DA2BB90 and −0.353553391 is 0xBEB504F3 (I1). -/
theorem test_imdct_short_inverted :
    let x := 0x3F800000#32 :: List.replicate 17 0#32
    let r := ref32Imdct x (List.replicate 18 0#32) 2#2 1
    (r.1 5, r.1 6, r.1 10, r.2 0) =
      (some 0#32, some 0x3DA2BB90#32, some 0xBEB504F3#32, some 0#32) := by decide +kernel

/-- Vector S9: the cells 193 and 255 of PCM, SYNBO and STATUS. -/
theorem test_synth_stereo :
    (next? (execSynth 1#1 3#5 (synthState ref32 (.synth 1#1 3#5) [] (parCfg 0#4 true false)))).map
      (fun t => (Store.get unspecified t.pcm 193, Store.get unspecified t.pcm 194, t.synboWord, t.statusWord)) =
    some (some 0#32, none, 0x00000F00#32, 0x00000002#32) := by decide +kernel

/-- Vector S2 at function level: three of its VR words. -/
theorem test_synth_matrixing :
    let r := ref32Synth (0x3F800000#32 :: List.replicate 31 0#32) (List.replicate 960 0#32)
    (r.1 0, r.1 16, r.1 63) =
      (some 0x3F3504F3#32, some 0#32, some 0xBF3DAEF9#32) := by decide +kernel

/-- Vector S12. -/
theorem test_synthg_mono :
    (next? (exec (.synthg 1#1) (issued (.synthg 1#1) Params.reset State.reset))).map
      (fun t => (t.statusWord, t.synboWord)) = some (0x00000404#32, 0#32) := by decide +kernel

/-- The offset of vector S11. -/
theorem test_synthg_offset :
    (next? (execSynthg 0#1 (synthState ref32 (.synthg 0#1) [] Params.reset))).map (fun t => t.synboWord) =
      some 0x0000000E#32 := by decide +kernel

/-- The table of `pcm16`: 0.5, −2.5, 32767.2, −32767.5 and −32768.4. -/
theorem test_pcm16 :
    pcm16 (mkRat 1 2) = (1#16, false) ∧ pcm16 (mkRat (-5) 2) = (-3#16, false) ∧
    pcm16 (mkRat 327672 10) = (32767#16, true) ∧ pcm16 (mkRat (-65535) 2) = (-32768#16, false) ∧
    pcm16 (mkRat (-327684) 10) = (-32768#16, true) := by decide +kernel

/-- R13: the largest finite value stays, and a value outside the finite range, by however little, is infinity. -/
theorem test_round_beyond_finite :
    roundFix 1 (2 * maxFinite) = 0x7F7FFFFF#32 ∧ roundFix 1 (2 * maxFinite + 1) = 0x7F800000#32 ∧
    roundFix 1 (-(2 * maxFinite + 1)) = 0xFF800000#32 ∧ roundFix 1 (2 * maxFinite - 2 ^ 253) = 0x7F7FFFFE#32 ∧
    round32 1 false (2 * maxFinite) true = 0x7F800000#32 := by decide +kernel

/-! ### Host accesses and reset: vectors of 95_test_vectors.md -/

/-- Vector K22. -/
theorem test_bitbuf_little_endian :
    (next? (hostAccess (.read .w32 0x1004#16)
      { State.reset with bitbuf := [(4, 0x11#8), (5, 0x22#8), (6, 0x33#8), (7, 0x44#8)] })).map (·.rdata) =
    some (some 0x44332211#32) := by decide +kernel

/-- Vectors F1, F2, F3. -/
theorem test_model_faults :
    fault? (hostAccess (.read .w32 0x1002#16) State.reset) = some .hostBusErr ∧
    fault? (hostAccess (.read .w32 0x4000#16) (issued (.deq 0#1) Params.reset State.reset)) = some .hostRace ∧
    fault? (hostAccess (.read .w32 0x2000#16) State.reset) = some .unwritten ∧
    fault? (exec (.deq 0#1) (issued (.deq 0#1) Params.reset State.reset)) = some .unwritten := by decide +kernel

/-- A WAIT on a running NOP: it polls, the NOP runs, and the second poll reads BUSY = 0 and DONE (R148, R149). -/
theorem test_run_nop :
    (next? (step { State.reset with pending := hostRUN .nop })).bind (fun a => (next? (step a)).bind (fun b =>
      (next? (step b)).bind (fun c => (next? (step c)).map (fun d => (b.rdata, b.pending, d.rdata, d.pending))))) =
    some (some 0x00000001#32, [.sequencer, .wait], some 0x00000002#32, []) := by decide

/-- Vector K11: IRQ after RUN NOP with IE_DONE. -/
theorem test_irq :
    (next? (exec .nop (issued .nop Params.reset { State.reset with ctrl := ⟨true, false, false⟩ }))).map (·.irq) =
      some true := by decide

/-! ### Witnesses: states and operands that meet the hypotheses of each statement, each clause at its boundary -/

theorem witness_DecodeOfEncodeIsIdentity : (Instr.synth 1#1 17#5).wellFormed = true ∧ (Instr.clrh 3#2).wellFormed = true := by
  decide

theorem witness_AcceptedWordsAreEncodings : decode 0x00011105#32 = .ok (.synth 1#1 17#5) := by decide

/-- Each clause of R145 at its boundary: the lowest word refused and, beside it, a word accepted. -/
theorem witness_IllegalWordsAreExactlyThese :
    decode 0x00000008#32 = .error .reservedOpcode ∧ decode 0x00000007#32 = .ok (.clrh 0#2) ∧
    decode 0x00000101#32 = .error .reservedBit ∧ decode 0x00000001#32 = .ok .huff ∧
    decode 0x00000206#32 = .error .reservedBit ∧ decode 0x00000106#32 = .ok (.synthg 1#1) ∧
    decode 0x00020005#32 = .error .reservedBit ∧ decode 0x00012005#32 = .error .slotRange ∧
    decode 0x00011005#32 = .ok (.synth 0#1 17#5) ∧ decode 0x00000407#32 = .error .reservedBit := by decide

theorem witness_StepRunsLatchedCommand :
    let s := issued (.deq 1#1) Params.reset State.reset
    (s.latch = some ⟨0x00000102#32, Params.reset⟩ ∧ decode 0x00000102#32 = .ok (.deq 1#1)) ∧ s.pending = [] ∧
      ({ s with pending := [.sequencer, .powerOn] } : State).pending = .sequencer :: [.powerOn] := by decide

theorem witness_IdleKeepsState :
    (State.reset.latch = none ∧ State.reset.pending = []) ∧
    (({ State.reset with pending := [.sequencer] } : State).latch = none ∧
      ({ State.reset with pending := [.sequencer] } : State).pending = .sequencer :: []) ∧
    ((next? (step { State.reset with pending := [hostISSUE (.synthg 1#1)] })).map (fun t => t.latch)) =
      some (some ⟨0x00000106#32, Params.reset⟩) := by decide

/-- An access at the window's last byte, addresses on both sides of it, and a WAIT with BUSY = 0 and with BUSY = 1. -/
theorem witness_HostEventsAccessTheWindow :
    (0xFFFF#16).toNat = 0xFFFF ∧ Config.base + 0x10000 ≤ Config.base + 0x10000 ∧
    ({ State.reset with pending := [.bus (.read .w8 (Config.base + 0xFFFF))] } : State).pending =
      .bus (.read .w8 (Config.base + (0xFFFF#16).toNat)) :: [] ∧
    State.reset.statusWord.getLsbD 0 = false ∧
    (issued .nop Params.reset State.reset).statusWord.getLsbD 0 = true ∧
    ({ State.reset with pending := [hostWAIT] } : State).pending = .wait :: [] :=
  ⟨rfl, Nat.le_refl _, rfl, by decide, by decide, rfl⟩

/-- An address below the window, for a machine whose BASE is not 0. -/
theorem witness_HostEventsAccessTheWindow_below (h : Config.baseIndex = 1) : 0xFFFF < Config.base := by
  rw [Config.base, h]
  decide

theorem witness_PlacedCommandRunsNext : (Instr.synth 0#1 17#5).wellFormed = true := by decide

/-- A state with ERR recorded (vector K6). -/
def errState : State := { State.reset with status := ⟨false, true, 1#4, 0#8⟩ }

theorem witness_IssueTestsThenLatches :
    (issued .nop Params.reset State.reset).busy = true ∧ (errState.busy = false ∧ errState.status.err = true) ∧
    (State.reset.busy = false ∧ State.reset.status.err = false ∧ decode 0x00000008#32 = .error .reservedOpcode) ∧
    (Instr.synthg 1#1).wellFormed = true := by
  decide

/-- A latched snapshot beside other live registers; a command that completes and one that faults. -/
theorem witness_SnapshotShieldsCommand :
    ({ issued .huff parH1 bitsH1 with par := Params.reset } : State).latch = some ⟨encode .huff, parH1⟩ ∧
    Params.reset ≠ parH1 ∧
    (next? (exec .huff { issued .huff parH1 bitsH1 with par := Params.reset })).isSome = true ∧
    (issued .huff parH1 State.reset).latch = some ⟨encode .huff, parH1⟩ ∧
    fault? (exec .huff (issued .huff parH1 State.reset)) = some .unwritten := by decide +kernel

/-- A command that completes, a HUFF that aborts, and one command refused of each kind. -/
theorem witness_CommandsEndDoneOrWithOneError :
    (next? (exec .nop State.reset)).isSome = true ∧
    (next? (exec .huff (issued .huff { parH1 with bitEnd := 10#16 } bitsH1))).isSome = true ∧
    (next? (exec (.deq 0#1) (issued (.deq 0#1) (parCfg 9#4 false false) State.reset))).isSome = true ∧
    (next? (exec (.synth 1#1 17#5) (issued (.synth 1#1 17#5) Params.reset State.reset))).isSome = true ∧
    (next? (exec (.synthg 1#1) (issued (.synthg 1#1) Params.reset State.reset))).isSome = true := by decide +kernel

theorem witness_CommandsOnlySetTheirWarnings :
    let s : State := { State.reset with status := ⟨false, false, 0#4, 0x41#8⟩ }
    (next? (exec .nop s)).isSome = true ∧ s.status.warns.getLsbD 6 = true ∧ (0 : Nat) < 7 ∧ (6 : Nat) < 7 := by decide

theorem witness_CommandsStopOnlyAsStated :
    fault? (exec (.imdct 1#1) State.reset) = some .unwritten := by decide +kernel

/-- The refusal's witness, for a machine whose table 13 is configured with no complete prefix code (R204). -/
theorem witness_CommandsStopOnlyAsStated_refusal (h : coversPairs Config.huffRom13 = false) :
    exec .huff (issued .huff { Params.reset with bv := 1#10, tsel := ⟨0#5, 0#5, 13#5⟩ } State.reset) =
      .refused .badCodebook := by
  have ht : tableUsable 13#5 = false := by
    rw [tableUsable, show codebook 13#5 = Config.huffRom13 from rfl, h]
    rfl
  have : tablesUsable (issued .huff { Params.reset with bv := 1#10, tsel := ⟨0#5, 0#5, 13#5⟩ } State.reset).snap =
      false := by
    show (List.range 1).all _ = false
    simp only [List.range_succ, List.range_zero, List.nil_append, List.all_cons, List.all_nil, Bool.and_true]
    exact ht
  show execHuff _ = _
  rw [execHuff, this]
  rfl

/-- The condition of the refusal at that state, and that a codebook of one pair meets it. -/
theorem witness_CommandsStopOnlyAsStated_condition (h : ¬CompleteCode Config.huffRom13) :
    (let p : Params := { Params.reset with bv := 1#10, tsel := ⟨0#5, 0#5, 13#5⟩ }
      ∃ k, k < pairsOf p ∧ OpenTable (tableOf p k) ∧ ¬CompleteCode (codebook (tableOf p k))) ∧
    ¬CompleteCode (.leaf (0#4, 0#4)) :=
  ⟨⟨0, by decide, by decide, h⟩, fun hc => by
    obtain ⟨word, hw, -⟩ := hc (1#4, 0#4)
    cases word <;> simp [follow] at hw⟩

theorem witness_ParameterRegistersReadBack :
    let l := [(0x0010#16, 0x0000003F#32), (0x0014#16, 0x00000FFF#32), (0x0018#16, 0x00000FFF#32),
      (0x001C#16, 0x000003FF#32), (0x0020#16, 0x000007FF#32), (0x0024#16, 0x001F1F1F#32),
      (0x0028#16, 0x03FF03FF#32), (0x002C#16, 0x00007777#32), (0x0030#16, 0x0000FFFF#32),
      (0x0034#16, 0x0000FFFF#32)]
    (0x0010#16, 0x0000003F#32) ∈ l ∧ (0x0034#16, 0x0000FFFF#32) ∈ l := by decide

/-- The first clause at both ends of its two ranges, and the second clause's one offset. -/
theorem witness_ReadsAndReadOnlyWritesHaveNoEffect :
    (∀ off ∈ [0x00, 0x38, 0x40, 0x48, 0xFC], off % 4 = 0 ∧ off < 0x100 ∧
      (off = 0 ∨ (0x38 ≤ off ∧ off ≠ 0x44)) ∧ (BitVec.ofNat 16 off).toNat = off) ∧
    (0x0044#16).toNat % 4 = 0 ∧ (0x0044#16).toNat < 0x100 ∧ (0x0044#16).toNat = 0x44 := by decide +kernel

theorem witness_CtrlEnablesAndIrq : (0x0000000E#32).getLsbD 0 = false := by decide

theorem witness_PowerOnResetState :
    ({ errState with ch0 := usedChannel _, pending := [.powerOn] } : State).pending = .powerOn :: [] := rfl

/-- Idle; and a running SYNTHG on channel 1 in stereo, with the first and the last of its PCM cells written. -/
theorem witness_SoftResetClearsAndDiscards :
    let s : State := issued (.synthg 1#1) (parCfg 0#4 true false) { State.reset with pcm := [(1, 7#32), (1151, 7#32)] }
    State.reset.latch = none ∧ s.inv = true ∧ (0x0000000F#32).getLsbD 0 = true ∧
      s.latch = some ⟨0x00000106#32, parCfg 0#4 true false⟩ ∧
      decode 0x00000106#32 = .ok (.synthg 1#1) ∧ SynthAccepts (parCfg 0#4 true false) 1#1 ∧
      pcmCell (parCfg 0#4 true false) 1#1 0 = 1 ∧ pcmCell (parCfg 0#4 true false) 1#1 575 = 1151 :=
  ⟨rfl, by decide, by decide, rfl, by decide, .inr rfl, rfl, rfl⟩

/-- Refused and accepted accesses on both sides of each boundary. -/
theorem witness_BusErrorsAreExactlyThese :
    (∀ op ∈ [HostOp.read .w32 0x1002#16, .read .w8 0x0FFF#16, .read .w8 0x2000#16, .write .w16 0x1000#16 0#32,
      .write .w64 0x1000#16 0#32], fault? (hostAccess op State.reset) = some .hostBusErr) ∧
    (∀ op ∈ [HostOp.write .w8 0x1000#16 0#32, .write .w8 0x1FFF#16 0#32, .write .w32 0xFFFC#16 0#32],
      (next? (hostAccess op State.reset)).isSome = true) := by decide +kernel

/-- A busy state, and the first and the last word of each region. -/
theorem witness_MemoryAccessWhileBusyFaults :
    (issued .nop Params.reset State.reset).busy = true ∧
    ∀ r ∈ [(0x100, 0x154), (0x160, 0x1F0), (0x1000, 0x2000), (0x2000, 0x2900), (0x4000, 0x4900), (0x5000, 0x5900),
        (0x6000, 0x6900), (0x7000, 0x7900), (0x8000, 0x8900), (0x9000, 0x9900), (0xA000, 0xB000), (0xB000, 0xC000),
        (0xC000, 0xD200)],
      fault? (hostAccess (.read .w32 (BitVec.ofNat 16 r.1)) (issued .nop Params.reset State.reset)) = some .hostRace ∧
      fault? (hostAccess (.read .w32 (BitVec.ofNat 16 (r.2 - 4))) (issued .nop Params.reset State.reset)) =
        some .hostRace := by decide +kernel

theorem witness_MemoryAccessWhileBusyFaults_bytes_and_registers :
    fault? (hostAccess (.read .w8 0x1000#16) (issued .nop Params.reset State.reset)) = some .hostRace ∧
    fault? (hostAccess (.write .w8 0x1FFF#16 0#32) (issued .nop Params.reset State.reset)) = some .hostRace ∧
    (next? (hostAccess (.read .w32 0x00FC#16) (issued .nop Params.reset State.reset))).isSome = true := by
  decide +kernel

/-- A busy state in which every field of a read-only register has its first and its last bit set. -/
def fullRegisters : State :=
  { issued .nop Params.reset State.reset with
    status := ⟨true, true, 0x9#4, 0x81#8⟩
    huffused := 0x8001#16
    overrun := 0x8001#16
    c1end := 0x201#10
    clipcnt := 0x80000001#32
    ch0 := { Channel.reset with bo := 0x9#4 }
    ch1 := { Channel.reset with bo := 0xB#4 } }

/-- The read clause at the first and the last offset and at those of ID, STATUS, CMD and the result registers. -/
theorem witness_MemoryAccessWhileBusyFaults_reads :
    [(0x0000#16, 0x4C330100#32), (0x0008#16, 0x00810907#32), (0x000C#16, 0#32), (0x0038#16, 0x00008001#32),
      (0x003C#16, 0x00008001#32), (0x0040#16, 0x00000201#32), (0x0044#16, 0x80000001#32), (0x0048#16, 0x00000B09#32),
      (0x004C#16, 0#32), (0x00FC#16, 0#32)].all (fun r =>
        decide (r.1.toNat % 4 = 0 ∧ r.1.toNat < 0x100) &&
        (registerLayout fullRegisters).getD (r.1.toNat / 4) 0#32 == r.2 &&
        (next? (hostAccess (.read .w32 r.1) fullRegisters)).map (·.rdata) == some (some r.2)) = true := by
  decide +kernel

theorem witness_UnmappedOffsetsReadZero :
    ∀ r ∈ [(0x154, 0x160), (0x1F0, 0x1000), (0x2900, 0x4000), (0x4900, 0x5000), (0x5900, 0x6000), (0x6900, 0x7000),
        (0x7900, 0x8000), (0x8900, 0x9000), (0x9900, 0xA000), (0xD200, 0x10000)],
      ∀ off ∈ [r.1, r.2 - 4], off % 4 = 0 ∧ r.1 ≤ off ∧ off < r.2 ∧
        (next? (hostAccess (.read .w32 (BitVec.ofNat 16 off)) State.reset)).map (·.rdata) = some (some 0#32) := by
  decide +kernel

theorem witness_ReadsAndReadOnlyWritesHaveNoEffect_read :
    (next? (hostAccess (.read .w32 0x0000#16) State.reset)).map (·.rdata) = some (some 0x4C330100#32) := by decide

theorem witness_BitbufIsLittleEndian :
    State.reset.inv = true ∧ State.reset.latch = none ∧ (1023 : Nat) < 1024 ∧ (3 : Nat) < 4 := by decide

/-- The byte-read clause: the last byte of BITBUF holds a value, and a read of it answers that value. -/
theorem witness_BitbufIsLittleEndian_byte :
    let s : State := { State.reset with bitbuf := [(4095, 0xA5#8)] }
    s.inv = true ∧ s.latch = none ∧ Store.get unspecified s.bitbuf (4 * 1023 + 3) = some 0xA5#8 ∧
      (next? (hostAccess (.read .w8 0x1FFF#16) s)).map (·.rdata) = some (some 0x000000A5#32) :=
  ⟨by decide +kernel, rfl, by decide +kernel, by decide +kernel⟩

/-- The word-read clause (vector K22). -/
theorem witness_BitbufIsLittleEndian_word :
    let s : State := { State.reset with bitbuf := [(4, 0x11#8), (5, 0x22#8), (6, 0x33#8), (7, 0x44#8)] }
    s.inv = true ∧ s.latch = none ∧ Store.get unspecified s.bitbuf (4 * 1) = some 0x11#8 ∧
      Store.get unspecified s.bitbuf (4 * 1 + 3) = some 0x44#8 ∧
      (next? (hostAccess (.read .w32 0x1004#16) s)).map (·.rdata) = some (some 0x44332211#32) :=
  ⟨by decide +kernel, rfl, rfl, rfl, by decide +kernel⟩

/-- The last cell of each region. -/
theorem witness_MemoryCellsReadBack :
    State.reset.inv = true ∧ State.reset.latch = none ∧
    (∀ r ∈ wordRegions,
      (next? (hostAccess (.write .w32 (BitVec.ofNat 16 (r.2.1 + 4 * (r.2.2 - 1))) 0xFFFFFFFF#32) State.reset)).isSome =
        true) := by decide +kernel

/-- After reset every cell is unspecified but those of OVL and VR; the byte and the word at either end of BITBUF. -/
theorem witness_UnwrittenReadsFault :
    State.reset.latch = none ∧ State.reset.inv = true ∧ (.pcm, 0xC000, 1152) ∈ wordRegions ∧
    CellUnwritten State.reset .pcm 1151 ∧ CellUnwritten State.reset (.xr 1#1) 575 ∧
    fault? (hostAccess (.read .w32 0x5FFC#16) State.reset) = none ∧
    fault? (hostAccess (.read .w32 0x58FC#16) State.reset) = some .unwritten ∧
    fault? (hostAccess (.read .w32 0x1FFC#16) State.reset) = some .unwritten ∧
    fault? (hostAccess (.read .w8 0x1FFF#16) State.reset) = some .unwritten :=
  ⟨rfl, by decide, by decide, rfl, rfl, by decide, by decide, by decide, by decide⟩

/-- HUFF without a BITBUF byte, in a pair and in a quadruple. -/
theorem witness_UnwrittenReadsFault_huff :
    let s := issued .huff parH1 State.reset
    let u := issued .huff { parH1 with bv := 0#10 } State.reset
    (TablesUsable s.snap ∧ 0 < pairsOf s.snap ∧ PairsDecode s 0 (fun _ => ⟨0, 0⟩) (fun _ => 0) (fun _ => 0) ∧
      readPair s.bitSource (tableOf s.snap 0) ⟨0, 0⟩ = .unwritten) ∧
    (QuadsDecode u 0 (fun _ => ⟨0, 0⟩) (fun _ => []) ∧ QuadStarts u 0 ⟨0, 0⟩ ∧ nextQuad u ⟨0, 0⟩ = .unwritten) ∧
    fault? (exec .huff s) = some .unwritten ∧ fault? (exec .huff u) = some .unwritten := by
  refine ⟨⟨fun k hk ho => ?_, by decide, ⟨rfl, fun k hk => absurd hk (Nat.not_lt_zero k)⟩, by decide +kernel⟩,
    ⟨fun j hj => absurd hj (Nat.not_lt_zero j), ⟨by decide, by decide⟩, by decide +kernel⟩, by decide +kernel,
    by decide +kernel⟩
  have hk : k < 2 := hk
  interval_cases k <;> exact absurd ho (by decide)

/-- The inputs of R504 unwritten after reset: those of DEQ, of AA and IMDCT, and of SYNTH's and SYNTHG's row 17. -/
theorem witness_UnwrittenReadsFault_filters :
    (DeqAccepts Params.reset ∧ ¬Store.written State.reset.isq 576) ∧
    (AaBoundary Params.reset 31 ∧ Store.get unspecified (State.reset.chan 1#1).xr (18 * 31 - 8 + 15) = none) ∧
    ¬Store.written (State.reset.chan 1#1).xr 576 ∧
    (SynthAccepts (parCfg 0#4 true false) 1#1 ∧
      Store.get unspecified (State.reset.chan 1#1).sbs (32 * (17#5).toNat + 31) = none) ∧
    ¬Store.written (State.reset.chan 1#1).sbs 576 :=
  ⟨⟨⟨by decide, by decide⟩, fun h => absurd (h 0 (by decide)) (by decide)⟩, ⟨⟨by decide, by decide, .inl (by decide)⟩, rfl⟩,
    fun h => absurd (h 0 (by decide)) (by decide), ⟨.inr rfl, rfl⟩, fun h => absurd (h 0 (by decide)) (by decide)⟩

theorem witness_StepKeepsInvariant : State.reset.inv = true ∧ step State.reset = .next State.reset := by
  exact ⟨by decide, rfl⟩

/-- A state whose channel 0 has the memories OVL and VR given, and its other inputs 0, with a command latched. -/
def filterState (i : Instr) (ovl vr : Store Config.numImpl.bits) : State :=
  issued i Params.reset { State.reset with ch0 := ⟨zeros _ 576, ovl, zeros _ 576, vr, 0#4⟩ }

/-- A CLRH, a soft reset and host writes that change OVL and VR. -/
theorem witness_FilterStateChangesOnlyBy :
    let one : Store Config.numImpl.bits := [(0, 1#_)]
    let twice (a : Nat) : Store Config.numImpl.bits := [(a, 0#_), (a, 0#_)]
    ((next? (step (filterState (.clrh 1#2) one one))).map (fun t => (t.ch0.ovl, t.ch0.vr))) = some ([], []) ∧
    ((next? (step { filterState .nop one one with pending := [.host (.write .w32 0x0004#16 1#32)] })).map
      (fun t => (t.ch0.ovl, t.ch0.vr))) = some ([], []) ∧
    (∃ t, step { State.reset with ch0 := { (Channel.reset : Channel _) with ovl := twice 575 },
                                  pending := [hostWR 0x68FC#16 1#32] } = .next t ∧ t.ch0.ovl ≠ twice 575) ∧
    ∃ t, step { State.reset with ch1 := { (Channel.reset : Channel _) with vr := twice 1023 },
                                 pending := [hostWR 0xBFFC#16 1#32] } = .next t ∧ t.ch1.vr ≠ twice 1023 :=
  ⟨rfl, rfl, ⟨_, rfl, writes_ne_of_twice List.Pairwise.nil (by simp)⟩,
    ⟨_, rfl, writes_ne_of_twice List.Pairwise.nil (by simp)⟩⟩

/-- A SYNTH that changes VR and BO0, and an IMDCT that changes OVL, whatever values they write. -/
theorem witness_FilterStateChangesOnlyBy_commands :
    let twice (a : Nat) : Store Config.numImpl.bits := [(a, 0#_), (a, 0#_)]
    (∃ t, step (filterState (.synth 0#1 0#5) [] (twice 960)) = .next t ∧ t.ch0.vr ≠ twice 960 ∧ t.ch0.bo = 15#4) ∧
    ∃ t, step (filterState (.imdct 0#1) (twice 0) []) = .next t ∧ t.ch0.ovl ≠ twice 0 := by
  refine ⟨?_, ?_⟩
  · obtain ⟨u, hu, h⟩ := synthesize_isSome (s := filterState (.synth 0#1 0#5) [] [(960, 0#_), (960, 0#_)])
      (ch := 0#1) (ks := [0]) rfl (rising_zeros _ 576) (by
        intro k hk a ha
        obtain rfl : k = 0 := by simpa using hk
        show (Store.get unspecified (zeros _ 576) (32 * 0 + a)).isSome
        rw [get_zeros (by omega)]
        rfl)
    refine ⟨u.complete, h, ?_, synthSteps_bo hu⟩
    obtain ⟨v, hv, h⟩ := synthSteps_cons.1 hu
    obtain rfl : v = u := Option.some.inj h
    obtain ⟨_, _, _, _, _, _, hvr, _⟩ := synthStep_some hv
    have hvr' : v.ch0.vr = _ := hvr
    show v.ch0.vr ≠ _
    rw [hvr']
    exact writes_ne_of_twice (pairwise_cellsFrom _ _) (fun e he => by
      obtain ⟨k, -, rfl⟩ := mem_cellsFrom_iff.1 he
      exact Nat.lt_of_lt_of_le (Nat.lt_succ_self _) (Nat.le_add_right _ _))
  · obtain ⟨xs, hx⟩ := Store.block_isSome (d := unspecified) (rising_zeros Config.numImpl.bits 576) (base := 0)
      (n := 576) fun k hk => by rw [get_zeros (by omega)]; rfl
    obtain ⟨os, -, h⟩ := execImdct_of_block (s := filterState (.imdct 0#1) [(0, 0#_), (0, 0#_)] []) (ch := 0#1) hx
    refine ⟨_, h, ?_⟩
    show Store.writes _ [(0, 0#_), (0, 0#_)] _ ≠ _
    exact writes_ne_of_twice (pairwise_cellsFrom _ _) (fun e he => by
      obtain ⟨k, -, rfl⟩ := mem_cellsFrom_iff.1 he
      exact Nat.lt_of_lt_of_le (Nat.lt_succ_self _) (Nat.le_add_right _ _))

theorem witness_SynthCountersChangeOnlyBy :
    ((next? (step (filterState (.synth 0#1 0#5) [] []))).map (fun t => t.ch0.bo)) = some 15#4 ∧
    ((next? (step { issued (.clrh 1#2) Params.reset State.reset with ch0 := usedChannel _ })).map (fun t => t.ch0.bo)) =
      some 0#4 ∧
    ((next? (step { State.reset with ch0 := usedChannel _, pending := [.powerOn] })).map (fun t => t.ch0.bo)) =
      some 0#4 := by decide +kernel

/-- SYNTHG's clause: eighteen steps from BO = 0 leave BO = 14. -/
theorem witness_SynthCountersChangeOnlyBy_synthg :
    ∃ t, step (filterState (.synthg 0#1) [] []) = .next t ∧ t.ch0.bo ≠ 0#4 := by
  obtain ⟨u, hu, h⟩ := synthesize_isSome (s := filterState (.synthg 0#1) [] []) (ch := 0#1) (ks := List.range 18) rfl
    (rising_zeros _ 576) (by
      intro k hk a ha
      have hk : k < 18 := List.mem_range.1 hk
      show (Store.get unspecified (zeros _ 576) (32 * k + a)).isSome
      rw [get_zeros (by omega)]
      rfl)
  refine ⟨u.complete, h, ?_⟩
  have hbo : u.ch0.bo = 0#4 - 18#4 := synthSteps_bo hu
  show u.ch0.bo ≠ 0#4
  rw [hbo]
  decide

theorem witness_SynthCountersChangeOnlyBy_clipcnt :
    ((next? (step { State.reset with clipcnt := 7#32, pending := [hostWR 0x0044#16 0x12345678#32] })).map
      (fun t => t.clipcnt)) = some 0#32 ∧
    ((next? (step { State.reset with clipcnt := 7#32, pending := [.powerOn] })).map (fun t => t.clipcnt)) =
      some 0#32 := by decide +kernel

theorem witness_PairBitsDecodeInOrder :
    follow (codebook 1#5) [false, true] = some (.leaf (1#4, 0#4)) ∧ (0 : Nat) < 2 ^ linbits 1#5 ∧
    BitsAt ⟨[(0, 0x64#8)], 16⟩ ⟨0, 0⟩ ([false, true] ++ (escapeBits 1#5 1 0 ++
      (signBits (escaped 1#5 1 0) true ++ (escapeBits 1#5 0 0 ++ signBits (escaped 1#5 0 0) false)))) := by
  refine ⟨by decide +kernel, by decide, fun k hk => ?_⟩
  have hk : k < 3 := hk
  interval_cases k <;> exact ⟨by decide, _, rfl, rfl⟩

/-- GetBit's clauses at the last bit address of BITBUF, at BITEND and past the buffer, and a pair of which the bits end
before its sign. -/
theorem witness_PairBitsDecodeInOrder_end :
    ¬PastEnd ⟨[(4095, 1#8)], 65535⟩ 32767 ∧ Store.get unspecified [(4095, 1#8)] (32767 / 8) = some 1#8 ∧
    PastEnd ⟨[(4095, 1#8)], 65535⟩ 32768 ∧ PastEnd ⟨[(0, 0x64#8)], 2⟩ (0 + 2) ∧
    BitsAt ⟨[(0, 0x64#8)], 2⟩ ⟨0, 0⟩ ([false, true, true].take 2) := by
  refine ⟨by decide +kernel, by decide +kernel, by decide +kernel, by decide, fun k hk => ?_⟩
  have hk : k < 2 := hk
  interval_cases k <;> exact ⟨by decide, _, rfl, rfl⟩

/-- The escape clause's witness, for a machine whose table 16 has the codeword `0` for (15, 15): table 23's largest
escape, 2^13 − 1, and its smallest, with both signs. -/
theorem witness_PairBitsDecodeInOrder_escape
    (h : Config.huffRom16 = .node (.leaf (15#4, 15#4)) (.leaf (0#4, 0#4))) :
    follow (codebook 23#5) [false] = some (.leaf (15#4, 15#4)) ∧ 2 ^ 13 - 1 < 2 ^ linbits 23#5 ∧
    BitsAt ⟨[(0, 0x7F#8), (1, 0xFE#8), (2, 0#8), (3, 0#8)], 32⟩ ⟨0, 0⟩ ([false] ++
      (escapeBits 23#5 15 (2 ^ 13 - 1) ++ (signBits (escaped 23#5 15 (2 ^ 13 - 1)) true ++
        (escapeBits 23#5 15 0 ++ signBits (escaped 23#5 15 0) false)))) := by
  refine ⟨?_, by decide, fun k hk => ?_⟩
  · rw [show codebook 23#5 = Config.huffRom16 from rfl, h]
    rfl
  · have hk : k < 29 := hk
    interval_cases k <;> exact ⟨by decide, _, rfl, rfl⟩

/-- Table A's 0011 (codeword `00101`) with room for all, for one sign, and for four codeword bits (vectors H2, H4, H3's
cut), and with BITBUF's bits ending before its last sign. -/
theorem witness_QuadBitsDecodeWithinBudget :
    follow (quadBook false) [false, false, true, false, true] = some (.leaf 3#4) ∧
    (∀ room ∈ [7, 6, 5, 4], BitsAt ⟨[(0, 0b00101_011#8)], room⟩ ⟨0, 0⟩
      (([false, false, true, false, true] ++ ((List.range 4).filter (fun j => (3#4).getLsbD (3 - j))).map
        (fun j => decide (j = 3))).take room)) ∧ PastEnd ⟨[(0, 0b00101_011#8)], 6⟩ (0 + 6) := by
  refine ⟨by decide +kernel, fun room hr => ?_, by decide⟩
  simp only [List.mem_cons, List.not_mem_nil, or_false] at hr
  rcases hr with rfl | rfl | rfl | rfl <;> intro k hk
  · have hk : k < 7 := hk
    interval_cases k <;> exact ⟨by decide, _, rfl, rfl⟩
  · have hk : k < 6 := hk
    interval_cases k <;> exact ⟨by decide, _, rfl, rfl⟩
  · have hk : k < 5 := hk
    interval_cases k <;> exact ⟨by decide, _, rfl, rfl⟩
  · have hk : k < 4 := hk
    interval_cases k <;> exact ⟨by decide, _, rfl, rfl⟩

/-- The readers of vector H1: after each of its two pairs and its quadruple. -/
def readersH1 (k : Nat) : Reader := [⟨0, 0⟩, ⟨3, 3⟩, ⟨7, 7⟩, ⟨13, 13⟩].getD k ⟨0, 0⟩

theorem usable_H1 (p : Params) (hb : p.bv = 2#10) (h0 : p.tsel = ⟨1#5, 0#5, 0#5⟩) (hr : p.region = ⟨576#10, 576#10⟩) :
    TablesUsable p := fun k hk ho => by
  have hk : k < min p.bv.toNat 288 := hk
  rw [hb] at hk
  have hk : k < 2 := hk
  rw [tableOf, h0, hr] at ho
  interval_cases k <;> exact absurd ho (by decide)

/-- The pairs of vector H1, at any LEN. -/
theorem pairs_H1 (len : BitVec 12) :
    PairsDecode (issued .huff { parH1 with len := len } bitsH1) 2 readersH1 (fun k => -1 + (k : Int))
      (fun k => (k : Int)) := by
  refine ⟨rfl, fun k hk => ?_⟩
  interval_cases k
  · show readPair (issued .huff parH1 bitsH1).bitSource 1#5 ⟨0, 0⟩ = .ok (-1, 0) ⟨3, 3⟩
    decide +kernel
  · show readPair (issued .huff parH1 bitsH1).bitSource 1#5 ⟨3, 3⟩ = .ok (0, 1) ⟨7, 7⟩
    decide +kernel

/-- Vector H1: two pairs of table 1 and one quadruple, whole. -/
theorem witness_HuffStoresPairsThenQuads :
    let s := issued .huff parH1 bitsH1
    s.inv = true ∧ TablesUsable s.snap ∧ PairsDecode s (pairsOf s.snap) readersH1 (fun k => -1 + (k : Int))
      (fun k => (k : Int)) ∧
    QuadsDecode s 1 readersH1 (fun _ => [1, 0, 0, -1]) ∧ CountOneEnds s 8 (readersH1 3) [] (readersH1 3) false := by
  refine ⟨by decide +kernel, usable_H1 _ rfl rfl rfl, pairs_H1 13#12, fun j hj => ?_,
    .inl ⟨fun h => absurd h.2 (by decide), rfl, rfl, rfl⟩⟩
  obtain rfl : j = 0 := by omega
  exact ⟨⟨by decide, by decide⟩, by decide +kernel⟩

/-- The same granule with LEN = 12, whose quadruple is cut at its last sign (R212 (b)), and with LEN = 10, cut inside
its codeword (R212 (a)). -/
theorem witness_HuffStoresPairsThenQuads_cut :
    let s := issued .huff { parH1 with len := 12#12 } bitsH1
    let u := issued .huff { parH1 with len := 10#12 } bitsH1
    (s.inv = true ∧ TablesUsable s.snap ∧ PairsDecode s (pairsOf s.snap) readersH1 (fun k => -1 + (k : Int))
      (fun k => (k : Int)) ∧ CountOneEnds s 4 (readersH1 2) [1, 0, 0, 0] ⟨12, 12⟩ true) ∧
    (u.inv = true ∧ TablesUsable u.snap ∧ PairsDecode u (pairsOf u.snap) readersH1 (fun k => -1 + (k : Int))
      (fun k => (k : Int)) ∧ CountOneEnds u 4 (readersH1 2) [] ⟨10, 10⟩ true) := by
  exact ⟨⟨by decide +kernel, usable_H1 _ rfl rfl rfl, pairs_H1 12#12,
      .inr ⟨⟨by decide, by decide⟩, rfl, .inl (by decide +kernel)⟩⟩,
    ⟨by decide +kernel, usable_H1 _ rfl rfl rfl, pairs_H1 10#12,
      .inr ⟨⟨by decide, by decide⟩, rfl, .inr ⟨by decide +kernel, rfl⟩⟩⟩⟩

/-- The reserved tables' cause (vector H8): table 4's pair reads no bit. -/
theorem witness_HuffStoresPairsThenQuads_reserved :
    readPair (issued .huff parH1 bitsH1).bitSource 4#5 ⟨0, 0⟩ = .ok (0, 0) ⟨0, 0⟩ ∧ ¬OpenTable 4#5 ∧
    ¬OpenTable 14#5 ∧ ReservedAmong { parH1 with tsel := ⟨14#5, 0#5, 0#5⟩ } 1 :=
  ⟨by decide +kernel, by decide, by decide, 0, by decide, .inr rfl⟩

/-- A BITBUF with all its bytes 0. -/
def zeroBits : State := { State.reset with bitbuf := zeros 8 4096 }

theorem witness_HuffCompletesWithinTheBuffer :
    let p : Params := { parH1 with bv := 1#10, bitEnd := 44#16 }
    let s := issued .huff p zeroBits
    s.inv = true ∧ Store.written s.bitbuf 4096 ∧ TablesUsable s.snap ∧
    (∀ k, k < pairsOf s.snap → codeDepth (codebook (tableOf s.snap k)) ≤ 3) ∧
    s.snap.pos.toNat + pairsOf s.snap * (3 + 28) + budgetOf s.snap ≤ min s.snap.bitEnd.toNat 32768 := by
  refine ⟨?_, written_zeros 8 4096, fun k hk ho => ?_, fun k hk => ?_, by decide⟩
  · have h := wf_zeros 8 4096
    simp only [State.inv, State.memoryWf, issued, zeroBits, h]
    rfl
  · have hk : k < 1 := hk
    obtain rfl : k = 0 := by omega
    exact absurd ho (by decide)
  · have hk : k < 1 := hk
    obtain rfl : k = 0 := by omega
    decide +kernel

theorem witness_HuffCompletionResults :
    (issued .huff parH1 bitsH1).inv = true ∧ (issued .huff parH1 bitsH1).status.done = false ∧
    (next? (exec .huff (issued .huff parH1 bitsH1))).map (fun t => t.status.done) = some true := by decide +kernel

/-- The overrun clause (vector H5). -/
theorem witness_HuffCompletionResults_overrun :
    (next? (exec .huff (issued .huff { parH1 with len := 5#12 } bitsH1))).map
      (fun t => (t.status.done, t.huffused.toNat)) = some (true, 7) := by decide +kernel

/-- The leftover clause (vector H12): line 574 with 4 budget bits left. -/
theorem witness_HuffCompletionResults_leftover :
    (next? (exec .huff (issued .huff { parH1 with len := 4#12, bv := 287#10, tsel := ⟨0#5, 0#5, 0#5⟩ } bitsH1))).map
      (fun t => (t.status.done, t.huffused.toNat, t.c1end.toNat, t.statusWord)) =
        some (true, 0, 574, 0x00200002#32) := by decide +kernel

theorem witness_HuffAbortResults :
    (issued .huff { parH1 with bitEnd := 10#16 } bitsH1).inv = true ∧
    (issued .huff { parH1 with bitEnd := 10#16 } bitsH1).status.done = false ∧
    (next? (exec .huff (issued .huff { parH1 with bitEnd := 10#16 } bitsH1))).map (fun t => t.status.done) =
      some false := by decide +kernel

/-- An underflow in the second pair (BITEND = 5), and one in the quadruple after both (vector H15). -/
theorem witness_HuffAbortResults_values :
    let s := issued .huff { parH1 with bitEnd := 5#16 } bitsH1
    let u := issued .huff { parH1 with bitEnd := 10#16 } bitsH1
    (s.inv = true ∧ TablesUsable s.snap ∧ 1 < pairsOf s.snap ∧
      PairsDecode s 1 readersH1 (fun _ => -1) (fun _ => 0) ∧
      readPair s.bitSource (tableOf s.snap 1) (readersH1 1) = .underflow ⟨5, 5⟩) ∧
    (u.inv = true ∧ TablesUsable u.snap ∧
      PairsDecode u (pairsOf u.snap) readersH1 (fun k => -1 + (k : Int)) (fun k => (k : Int)) ∧
      QuadsDecode u 0 readersH1 (fun _ => []) ∧ QuadStarts u 4 (readersH1 2) ∧
      nextQuad u (readersH1 2) = .underflow ⟨10, 10⟩) := by
  refine ⟨⟨by decide +kernel, usable_H1 _ rfl rfl rfl, by decide, ⟨rfl, fun k hk => ?_⟩, by decide +kernel⟩,
    ⟨by decide +kernel, usable_H1 _ rfl rfl rfl, ⟨rfl, fun k hk => ?_⟩, fun j hj => absurd hj (Nat.not_lt_zero j),
      ⟨by decide, by decide⟩, by decide +kernel⟩⟩
  · obtain rfl : k = 0 := by omega
    decide +kernel
  · have hk : k < 2 := hk
    interval_cases k <;> decide +kernel

/-- Vectors H6, H7 (with 289 pairs) and a region of length −1. -/
theorem witness_HuffEarlyWarnings :
    (next? (exec .huff (issued .huff { Params.reset with p2 := 1#12 } State.reset))).isSome = true ∧
    (next? (exec .huff (issued .huff { Params.reset with bv := 289#10 } State.reset))).isSome = true ∧
    (next? (exec .huff (issued .huff { Params.reset with region := ⟨1#10, 0#10⟩ } State.reset))).isSome = true := by
  decide +kernel

/-- Vector H1 with LEN = 12, cut by the budget, and with LEN = 5, of which the pairs read 7 bits. -/
theorem witness_CountOneStaysWithinBudget :
    PairsDecode (issued .huff { parH1 with len := 12#12 } bitsH1) 2 readersH1 (fun k => -1 + (k : Int))
      (fun k => (k : Int)) ∧
    PairsDecode (issued .huff { parH1 with len := 5#12 } bitsH1) 2 readersH1 (fun k => -1 + (k : Int))
      (fun k => (k : Int)) ∧
    (next? (exec .huff (issued .huff { parH1 with len := 12#12 } bitsH1))).map (huffView [4, 7]) =
      some ([some 1#16, some 0#16], 12, 12, 0, 8, 0x00400002#32) ∧
    (next? (exec .huff (issued .huff { parH1 with len := 5#12 } bitsH1))).map (fun t => t.huffused.toNat) = some 7 :=
  ⟨pairs_H1 12#12, pairs_H1 5#12, by decide +kernel, by decide +kernel⟩

theorem witness_HuffMagnitudeBound :
    (issued .huff parH1 bitsH1).inv = true ∧
    (next? (exec .huff (issued .huff parH1 bitsH1))).map (fun t => Store.get unspecified t.isq 575) =
      some (some 0#16) := by decide +kernel

theorem witness_HuffFrame : (next? (exec .huff (issued .huff parH1 bitsH1))).isSome = true := by decide +kernel

/-- DEQ's inputs all 0, in the block given. -/
def zeroDeq (p : Params) : State := deqState _ [] 0#1 p

theorem inv_zeroDeq (p : Params) : (zeroDeq p).inv = true := by
  have h1 := wf_zeros 16 576
  have h2 := wf_zeros 6 21
  have h3 := wf_zeros 6 36
  rw [zeroDeq, deqState, inv_issued]
  simp only [State.inv, State.memoryWf, issued, Store.writes, h1, h2, h3]
  rfl

theorem scales_zeroDeq (p : Params) : ScalesWritten (zeroDeq p) :=
  ⟨fun b hb _ => by
    show (Store.get unspecified (zeros 6 21) b).isSome
    rw [get_zeros (by omega)]; rfl,
   fun b w hb hw _ => by
    show (Store.get unspecified (zeros 6 36) (3 * b + w)).isSome
    rw [get_zeros (by omega)]; rfl⟩

/-- The first and the last line of a long block. -/
theorem witness_DeqDequantizesEveryLine_long :
    let s := zeroDeq (parCfg 8#4 false false)
    (s.inv = true ∧ DeqAccepts s.snap ∧ Store.written s.isq 576 ∧ ScalesWritten s) ∧
    (LongLine s.snap 0 ∧ longAt s.snap 0 ≤ 0 ∧ 0 < longAt s.snap 1 ∧ Store.get unspecified s.isq 0 = some 0#16) ∧
    LongLine s.snap 575 ∧ longAt s.snap 21 ≤ 575 ∧ 575 < longAt s.snap 22 ∧
      Store.get unspecified s.isq 575 = some 0#16 := by
  refine ⟨⟨inv_zeroDeq _, ⟨by decide, by decide⟩, written_zeros 16 576, scales_zeroDeq _⟩,
    ⟨.inl (by decide), by decide, by decide, get_zeros (by decide)⟩, .inl (by decide), by decide, by decide,
    get_zeros (by decide)⟩

/-- The last line of band 12 in window 2 of a short block, and the last long and the first short line of a mixed
one. -/
theorem witness_DeqDequantizesEveryLine_short :
    let p : Params := { Params.reset with block := ⟨2#2, false, 0#3, 0#3, 0#3⟩ }
    let q : Params := { Params.reset with block := ⟨2#2, true, 0#3, 0#3, 0#3⟩ }
    ((zeroDeq p).inv = true ∧ DeqAccepts p ∧ Store.written (zeroDeq p).isq 576 ∧ ScalesWritten (zeroDeq p) ∧
      ShortBandUsed p 12 ∧ 55 < shortAt p 13 - shortAt p 12 ∧
      3 * shortAt p 12 + 2 * (shortAt p 13 - shortAt p 12) + 55 = 575 ∧
      Store.get unspecified (zeroDeq p).isq 575 = some 0#16) ∧
    DeqAccepts q ∧ LongLine q 35 ∧ longAt q 7 ≤ 35 ∧ 35 < longAt q 8 ∧ ShortBandUsed q 3 ∧ 3 * shortAt q 3 = 36 := by
  refine ⟨⟨inv_zeroDeq _, ⟨by decide, by decide⟩, written_zeros 16 576, scales_zeroDeq _, ⟨rfl, by decide⟩,
    by decide, by decide, get_zeros (by decide)⟩, ⟨by decide, by decide⟩, .inr (by decide), by decide, by decide,
    ⟨rfl, by decide⟩, by decide⟩

/-- The last cell of a pure short block at 8 kHz, and the first short cell of a mixed one. -/
theorem witness_DeqPlacementIsBijection :
    DeqAccepts { parCfg 8#4 false false with block := ⟨2#2, false, 0#3, 0#3, 0#3⟩ } ∧
    DeqAccepts { parCfg 7#4 false false with block := ⟨2#2, true, 0#3, 0#3, 0#3⟩ } ∧ (575 : Nat) < 576 ∧
    LongLine { parCfg 7#4 false false with block := ⟨2#2, true, 0#3, 0#3, 0#3⟩ } 35 ∧
    ShortBandUsed { parCfg 7#4 false false with block := ⟨2#2, true, 0#3, 0#3, 0#3⟩ } 3 ∧
    0 < shortAt (parCfg 7#4 false false) 4 - shortAt (parCfg 7#4 false false) 3 :=
  ⟨⟨by decide, by decide⟩, ⟨by decide, by decide⟩, by decide, .inr (by decide), ⟨rfl, by decide⟩, by decide⟩

theorem witness_DeqRefusesBadParameters :
    ¬DeqAccepts (parCfg 9#4 false false) ∧ ¬DeqAccepts (parCfg 15#4 false false) ∧
    ¬DeqAccepts { parCfg 8#4 false false with block := ⟨2#2, true, 0#3, 0#3, 0#3⟩ } :=
  ⟨fun h => absurd h.1 (by decide), fun h => absurd h.1 (by decide), fun h => h.2 (by decide)⟩

/-- XR[0] all 0, OVL and VR zero. -/
def zeroXr (i : Instr) (b : Block) : State N := xrState N i [] b

theorem inv_zeroXr {i : Instr} (hi : i = .aa 0#1 ∨ i = .imdct 0#1) (b : Block) :
    (zeroXr i b : State N).inv = true := by
  have h1 := wf_zeros N.bits 576
  rw [zeroXr, xrState, inv_issued]
  rcases hi with rfl | rfl <;>
    simp only [State.inv, State.memoryWf, Channel.memoryWf, issued, Store.writes, h1] <;> rfl

/-- The first and the last butterfly of the first and the last boundary, and a line that no boundary takes. -/
theorem witness_AaRotatesSelectedBoundaries :
    let s : State := zeroXr (.aa 0#1) ⟨0#2, false, 0#3, 0#3, 0#3⟩
    s.inv = true ∧
    (∀ b k, AaBoundary s.snap b → k < 16 → (Store.get unspecified (s.chan 0#1).xr (18 * b - 8 + k)).isSome) ∧
    (AaBoundary s.snap 1 ∧ Store.get unspecified (s.chan 0#1).xr 17 = some 0#_ ∧
      Store.get unspecified (s.chan 0#1).xr 18 = some 0#_) ∧
    (AaBoundary s.snap 31 ∧ Store.get unspecified (s.chan 0#1).xr 550 = some 0#_ ∧
      Store.get unspecified (s.chan 0#1).xr 565 = some 0#_) ∧
    ∀ b, AaBoundary s.snap b → 9 < 18 * b - 8 ∨ 18 * b + 8 ≤ 9 := by
  have g : ∀ a, a < 576 →
      Store.get unspecified ((zeroXr (.aa 0#1) ⟨0#2, false, 0#3, 0#3, 0#3⟩ : State).chan 0#1).xr a = some 0#_ :=
    fun a ha => get_zeros ha
  refine ⟨inv_zeroXr (.inl rfl) _, fun b k hb hk => ?_, ⟨⟨by decide, by decide, .inl (by decide)⟩, g _ (by decide),
    g _ (by decide)⟩, ⟨⟨by decide, by decide, .inl (by decide)⟩, g _ (by decide), g _ (by decide)⟩, fun b hb => ?_⟩
  · have h1 := hb.1
    have h2 := hb.2.1
    rw [g _ (by omega)]
    rfl
  · have h1 := hb.1
    omega

/-- The one boundary of a mixed block. -/
theorem witness_AaRotatesSelectedBoundaries_mixed :
    AaBoundary { Params.reset with block := ⟨2#2, true, 0#3, 0#3, 0#3⟩ } 1 ∧
    ¬AaBoundary { Params.reset with block := ⟨2#2, true, 0#3, 0#3, 0#3⟩ } 2 ∧
    ¬AaBoundary { Params.reset with block := ⟨2#2, false, 0#3, 0#3, 0#3⟩ } 1 := by
  unfold AaBoundary
  decide

theorem witness_AaValuesAreRoundedOnce :
    isFinite 0x7F7FFFFF#32 = true ∧ isFinite 0x80000001#32 = true ∧ (7 : Nat) < 8 := by decide

theorem written_zeroXr (i : Instr) (b : Block) : Store.written ((zeroXr i b : State).chan 0#1).xr 576 :=
  written_zeros _ 576

theorem witness_ImdctTransformsEverySubband :
    let s : State := zeroXr (.imdct 0#1) ⟨2#2, true, 0#3, 0#3, 0#3⟩
    s.inv = true ∧ Store.written (s.chan 0#1).xr 576 ∧ (31 : Nat) < 32 ∧ (17 : Nat) < 18 ∧
    (List.replicate 18 Config.numImpl.ops.zero).length = 18 ∧
    Holds unspecified (s.chan 0#1).xr (18 * 31) (List.replicate 18 0#_) ∧
    Holds Config.numImpl.zeroed (s.chan 0#1).ovl (18 * 31) (List.replicate 18 Config.numImpl.ops.zero) := by
  refine ⟨inv_zeroXr (.inr rfl) _, written_zeroXr _ _, by decide, by decide, rfl, fun k hk => ?_, fun k hk => ?_⟩
  · have hk : k < 18 := by simpa using hk
    show Store.get unspecified (zeros _ 576) _ = _
    rw [get_zeros (by omega), List.getElem_replicate]
  · rw [List.getElem_replicate]
    rfl

/-- Vector I1's spectrum and overlap: all inputs finite, and outputs in both halves, one of them 0. -/
theorem witness_ImdctValuesAreRoundedOnce :
    let x := 0x3F800000#32 :: List.replicate 17 0#32
    let z := List.replicate 18 0#32
    x.length = 18 ∧ z.length = 18 ∧ (∀ v ∈ x ++ z, isFinite v = true) ∧ (17 : Nat) < 18 ∧
      (ref32Imdct x z 0#2 0).1 0 = some 0x3CF1689E#32 ∧ (ref32Imdct x z 0#2 0).2 15 = some 0xBE3AECA3#32 ∧
      (ref32Imdct z z 2#2 31).1 17 = some 0#32 :=
  ⟨rfl, rfl, List.all_eq_true.1 (by decide), by decide, by decide +kernel, by decide +kernel, by decide +kernel⟩

/-- A spectrum of zeros, two of them −0.0, and an overlap of +0.0. -/
theorem witness_ZeroSpectrumFlushesOverlap :
    let s : State ref32 := xrState ref32 (.imdct 0#1) [(0, 0x80000000#32), (575, 0x80000000#32)] ⟨0#2, false, 0#3, 0#3, 0#3⟩
    s.inv = true ∧
    (∀ a, a < 576 → ∃ v : Word, Store.get unspecified (s.chan 0#1).xr a = some v ∧ isFinite v = true ∧ fix v = 0) ∧
    (∀ (a : ℕ) (v : Word), a < 576 → Store.get ref32.zeroed (s.chan 0#1).ovl a = some v → isFinite v = true) ∧
    Store.get ref32.zeroed (s.chan 0#1).ovl (18 * 31 + 17) = some 0#32 := by
  have hw := Store.wf_writes (wf_zeros 32 576) (l := [(0, 0x80000000#32), (575, 0x80000000#32)]) (by simp) (by simp)
  refine ⟨?_, fun a ha => ?_, fun a v _ h => ?_, rfl⟩
  · simp only [State.inv, State.memoryWf, Channel.memoryWf, xrState, issued, hw]
    rfl
  · by_cases h : a = 0 ∨ a = 575
    · refine ⟨0x80000000#32, Store.get_writes_of_mem (rising_zeros 32 576) (by simp) ?_, by decide, by decide⟩
      rcases h with rfl | rfl <;> simp
    · refine ⟨0#32, ?_, by decide, by decide⟩
      refine (Store.get_writes_of_not_mem (rising_zeros 32 576) (by simp) ?_).trans (get_zeros ha)
      simp only [List.mem_cons, List.not_mem_nil, or_false, forall_eq_or_imp, forall_eq]
      omega
  · obtain rfl : 0#32 = v := Option.some.inj h
    decide

/-- SBS all 0 on both channels, VR zero, in stereo. -/
def zeroSbs (i : Instr) : State N := synthState N i [] (parCfg 0#4 true false)

theorem inv_zeroSbs {i : Instr} (hi : i = .synth 1#1 17#5 ∨ i = .synthg 1#1) :
    (zeroSbs i : State N).inv = true := by
  have h1 := wf_zeros N.bits 576
  rcases hi with rfl | rfl <;>
    simp only [State.inv, State.memoryWf, Channel.memoryWf, zeroSbs, synthState, issued, h1] <;> rfl

theorem get_zeroSbs (i : Instr) {a : Nat} (h : a < 576) :
    Store.get unspecified ((zeroSbs i : State N).chan 1#1).sbs a = some 0#_ := get_zeros h

theorem holds_zeroSbs (i : Instr) :
    Holds unspecified ((zeroSbs i : State N).chan 1#1).sbs (32 * 17) (List.replicate 32 0#_) := fun k hk => by
  have hk : k < 32 := by simpa using hk
  rw [get_zeroSbs i (by omega), List.getElem_replicate]

theorem line_zeroSbs (i : Instr) (m : Nat) : lineEntry (zeroSbs i : State N) 1#1 m = some N.ops.zero := rfl

theorem witness_SynthShiftsDelayLine :
    let s : State := zeroSbs (.synth 1#1 17#5)
    let vo := List.replicate 960 Config.numImpl.ops.zero
    s.inv = true ∧ (17#5).toNat ≤ 17 ∧ SynthAccepts s.snap 1#1 ∧
    (∀ a, a < 32 → (Store.get unspecified (s.chan 1#1).sbs (32 * (17#5).toNat + a)).isSome) ∧
    Holds unspecified (s.chan 1#1).sbs (32 * (17#5).toNat) (List.replicate 32 0#_) ∧
    (∀ m (hm : m < vo.length), lineEntry s 1#1 m = some vo[m]) ∧ (63 : Nat) < 64 ∧ (959 : Nat) < 960 := by
  refine ⟨inv_zeroSbs (.inl rfl), by decide, .inr rfl, fun a ha => ?_, holds_zeroSbs _, fun m hm => ?_, by decide,
    by decide⟩
  · rw [get_zeroSbs _ (by simp; omega)]
    rfl
  · rw [List.getElem_replicate]
    exact line_zeroSbs _ m

/-- A SYNTH that ends in a next state, clipped and unclipped; its other hypotheses are those of the witness above. -/
theorem witness_SynthWritesPcm :
    (next? (exec (.synth 1#1 17#5) (zeroSbs (.synth 1#1 17#5)))).isSome = true ∧
    (zeroSbs (.synth 1#1 17#5) : State).snap.cfg.unclip = false ∧
    (next? (exec (.synth 0#1 17#5) (synthState _ (.synth 0#1 17#5) [] (parCfg 0#4 false true)))).isSome = true ∧
    (parCfg 0#4 false true).cfg.unclip = true ∧ SynthAccepts (parCfg 0#4 false true) 0#1 :=
  ⟨by decide +kernel, rfl, by decide +kernel, rfl, .inl rfl⟩

/-- The premise on samples with a value, for a machine whose NUM_IMPL gives every element one; in REF32 these have
one. -/
theorem witness_SynthWritesPcm_values (h : ∀ v, (Config.numImpl.ops.val v).isSome) :
    (∀ j, j < 32 → (Config.numImpl.ops.val (stepOutput (zeroSbs (.synth 1#1 17#5)) (List.replicate 32 0#_)
      (List.replicate 960 Config.numImpl.ops.zero) j)).isSome) ∧
    (List.range 32).all (fun j => (ref32.ops.val (stepOutput (zeroSbs (.synth 1#1 17#5) : State ref32)
      (List.replicate 32 0#_) (List.replicate 960 ref32.ops.zero) j)).isSome) = true :=
  ⟨fun _ _ => h _, by decide +kernel⟩

theorem witness_PcmSampleRounding :
    (32767 : ℝ) < ((327671 / 10 : ℚ) : ℝ) ∧ ((-327681 / 10 : ℚ) : ℝ) < -32768 ∧
    (-32768 : ℝ) ≤ ((-32768 : ℚ) : ℝ) ∧ ((32767 : ℚ) : ℝ) ≤ 32767 := by
  norm_num

/-- Refused in mono on channel 1; on channel 0 and in stereo there is a next state. -/
theorem witness_SynthRefusesOnlyMonoChannelOne :
    ((1#1 : BitVec 1) = 1#1 ∧ (parCfg 0#4 false true).cfg.stereo = false) ∧
    ¬((0#1 : BitVec 1) = 1#1 ∧ (parCfg 0#4 false true).cfg.stereo = false) ∧
    (next? (exec (.synth 0#1 17#5) (synthState _ (.synth 0#1 17#5) [] (parCfg 0#4 false true)))).isSome = true ∧
    ¬((1#1 : BitVec 1) = 1#1 ∧ (parCfg 0#4 true false).cfg.stereo = false) := by
  decide +kernel

theorem witness_SynthRefusesOnlyMonoChannelOne_synthg :
    ∃ t, exec (.synthg 1#1) (zeroSbs (.synthg 1#1)) = .next t := by
  obtain ⟨u, -, h⟩ := synthesize_isSome (s := (zeroSbs (.synthg 1#1) : State)) (ch := 1#1) (ks := List.range 18) rfl
    (rising_zeros _ 576) (by
      intro k hk a ha
      have hk : k < 18 := List.mem_range.1 hk
      rw [get_zeroSbs _ (by omega)]
      rfl)
  exact ⟨_, h⟩

theorem witness_SynthgIsEighteenSteps :
    let s : State := zeroSbs (.synthg 1#1)
    s.inv = true ∧ SynthAccepts s.snap 1#1 ∧ Store.written (s.chan 1#1).sbs 576 :=
  ⟨inv_zeroSbs (.inr rfl), .inr rfl, written_zeros _ 576⟩

/-- Vector S2's samples: all inputs finite, with outputs that are not 0; and a zero y, whose value is the same for every
window. -/
theorem witness_SynthValuesAreRoundedOnce :
    let sb := 0x3F800000#32 :: List.replicate 31 0#32
    let vo := List.replicate 960 0#32
    sb.length = 32 ∧ vo.length = 960 ∧ (∀ v ∈ sb ++ vo, isFinite v = true) ∧
    (ref32Synth sb vo).1 0 = some 0x3F3504F3#32 ∧ (ref32Synth sb vo).1 63 = some 0xBF3DAEF9#32 ∧
    (ref32Synth (List.replicate 32 0#32) vo).2 31 = some 0#32 :=
  ⟨rfl, by decide +kernel, List.all_eq_true.1 (by decide +kernel), by decide +kernel, by decide +kernel,
    by decide +kernel⟩

/-- A row and a delay line of zeros, one of them −0.0. -/
theorem witness_SilenceStaysSilent :
    let s : State ref32 := synthState ref32 (.synth 1#1 17#5) [(5, 0x80000000#32)] (parCfg 0#4 true false)
    s.inv = true ∧ (17#5).toNat ≤ 17 ∧ SynthAccepts s.snap 1#1 ∧
    (∀ a, a < 32 → ∃ v : Word, Store.get unspecified (s.chan 1#1).sbs (32 * (17#5).toNat + a) = some v ∧
      isFinite v = true ∧ fix v = 0) ∧
    (∀ a, a < 1024 → ∃ v : Word, Store.get ref32.zeroed (s.chan 1#1).vr a = some v ∧ isFinite v = true ∧ fix v = 0) := by
  have h1 := wf_zeros 32 576
  refine ⟨?_, by decide, .inr rfl, fun a ha => ⟨0#32, get_zeros (by simp; omega), by decide, by decide⟩,
    fun a _ => ?_⟩
  · simp only [State.inv, State.memoryWf, Channel.memoryWf, synthState, issued, h1]
    rfl
  by_cases h : a = 5
  · subst h
    exact ⟨0x80000000#32, rfl, by decide, by decide⟩
  · refine ⟨0#32, ?_, by decide, by decide⟩
    show Store.get ref32.zeroed [(5, 0x80000000#32)] a = _
    rw [Store.get_cons, if_neg (fun hc => h hc.symm)]
    rfl

/-- The smallest and the largest exponent, the smallest subnormal, the largest finite word and 0, and a word without a
value. -/
theorem witness_ExactValuesRoundToNearest :
    (0#8 : BitVec 8) ≠ 255#8 ∧ (254#8 : BitVec 8) ≠ 255#8 ∧ (1 : ℕ) ≤ 1 ∧
    (isFinite 0x00000001#32 = true ∧ 0x00000001#32 ≠ 0x80000000#32) ∧
    (isFinite 0xFF7FFFFF#32 = true ∧ 0xFF7FFFFF#32 ≠ 0x80000000#32) ∧
    (isFinite 0x00000000#32 = true ∧ 0x00000000#32 ≠ 0x80000000#32) ∧ isFinite 0x7F800000#32 = false :=
  ⟨by decide, by decide, le_refl 1, ⟨by decide, by decide⟩, ⟨by decide, by decide⟩, ⟨by decide, by decide⟩, by decide⟩

/-- Non-finite words at the end of each input list, and each clause at the ends of its ranges. -/
theorem witness_NonFiniteInputsLeaveOutputsOpen :
    isFinite 0x7FC00000#32 = false ∧ isFinite 0xFF800000#32 = false ∧ (3#2 : BitVec 2) ≠ 2#2 ∧
    isFinite ((List.replicate 17 0#32 ++ [0x7FC00000#32]).getD 17 0#32) = false ∧ 3 * 5 + 2 = 17 ∧
    (6 + 6 * 0 ≤ 6 ∧ 6 < 18 + 6 * 0) ∧ (6 + 6 * 2 ≤ 18 + 11 ∧ 18 + 11 < 18 + 6 * 2) ∧
    isFinite ((List.replicate 31 0#32 ++ [0x7FC00000#32]).getD 31 0#32) = false ∧
    isFinite ((List.replicate 959 0#32 ++ [0x7FC00000#32]).getD (128 * 7 + 32 + 31) 0#32) = false ∧
    isFinite ((List.replicate 64 0#32 ++ [0x7FC00000#32]).getD (128 * 1 + 0 - 64) 0#32) = false := by decide +kernel

end Sys2Proof.Tests
end

section
/-! PROOFS. What a step does at the sequencer's event and at the host's (R16, R100, R148, R450), and which inputs each
linear formula of REF32 reads (R13, R310, R350). Settles O5, O7 and O60. -/

namespace Sys2Proof.Machine

/-! ### What a step does at each next event -/

variable {s : State} {es : List Event}

theorem step_of_pending_nil (h : s.pending = []) : step s = sequencerStep s := by
  rw [step, h]

theorem step_of_pending_cons {e : Event} (h : s.pending = e :: es) :
    step s = takeEvent e { s with pending := es } := by
  rw [step, h]

theorem sequencerStep_of_latch {l : Latch} {i : Instr} (hl : s.latch = some l) (hi : decode l.word = .ok i) :
    sequencerStep s = exec i s := by
  simp only [sequencerStep, hl, hi]

theorem busAccess_of_inWindow {op : BusOp} {access : HostOp} (h : op.inWindow Config.base = some access) :
    busAccess op s = hostAccess access s := by
  rw [busAccess, h]

theorem busAccess_of_outside {op : BusOp} (h : op.inWindow Config.base = none) : busAccess op s = .next s := by
  rw [busAccess, h]

/-- R35: bit 0 of STATUS is BUSY. -/
theorem statusWord_bit_zero (s : State) : s.statusWord.getLsbD 0 = s.busy := by
  simp only [State.statusWord, BitVec.getLsbD_or, getLsbD_flagAt _ 0 _ (by decide), getLsbD_atBit _ 0 _ (by decide)]
  simp

/-- Settles O5: the next event selects the sequencer's step, which runs the latched command. -/
theorem stepRunsLatchedCommand : Obligations.StepRunsLatchedCommand := by
  intro s l i hl hi
  refine ⟨fun hp => ?_, fun es hp => ?_⟩
  · rw [step_of_pending_nil hp, sequencerStep_of_latch hl hi]
  · rw [step_of_pending_cons hp]
    exact sequencerStep_of_latch (s := { s with pending := es }) hl hi

/-- Settles O7: each clause is `takeEvent` at its event, with the window offset of the address where there is one. -/
theorem hostEventsAccessTheWindow : Obligations.HostEventsAccessTheWindow := by
  refine ⟨Nat.mul_mod_right _ _, fun i => rfl, fun s es => ?_⟩
  refine ⟨fun op hp => step_of_pending_cons hp, fun width off hp => ?_, fun width off w hp => ?_,
    fun width address w hout hp => ?_, fun hp hb => ?_, fun hp hb => ?_⟩
  · rw [step_of_pending_cons hp]
    exact busAccess_of_inWindow (by rw [BusOp.inWindow, windowOffset_add, Option.map_some])
  · rw [step_of_pending_cons hp]
    exact busAccess_of_inWindow (by rw [BusOp.inWindow, windowOffset_add, Option.map_some])
  · rcases hp with hp | hp
    all_goals
      rw [step_of_pending_cons hp]
      exact busAccess_of_outside (by rw [BusOp.inWindow, windowOffset_outside hout, Option.map_none])
  · have hbusy : ({ s with pending := es } : State).busy = false := (statusWord_bit_zero s).symm.trans hb
    rw [step_of_pending_cons hp]
    exact waitAccess_eq.trans (by rw [hbusy]; rfl)
  · have hbusy : ({ s with pending := es } : State).busy = true := (statusWord_bit_zero s).symm.trans hb
    rw [step_of_pending_cons hp]
    exact waitAccess_eq.trans (by rw [hbusy]; rfl)

/-! ### Linear formulas with a non-finite input -/

/-- A term of the sum is over the input `w`. -/
abbrev ReadsInput (ts : List (Word × List CosTerm)) (w : Word) : Prop := ∃ row, (w, row) ∈ ts

/-- R13: one input that is a NaN or an infinity leaves the output open. -/
theorem roundForm_of_reads {u : Unit} {ts : List (Word × List CosTerm)} {w : Word} (hw : ReadsInput ts w)
    (h : isFinite w = false) : roundForm u ts = none := by
  obtain ⟨row, hrow⟩ := hw
  rw [roundForm, if_neg]
  intro hall
  have hfin : isFinite w = true := List.all_eq_true.1 hall (w, row) hrow
  rw [h] at hfin
  cases hfin

theorem longTerms_reads (x : List Word) {wt : BitVec 2} {i k : Nat} (hk : k < 18) :
    ReadsInput (longTerms x wt i) (x.getD k 0#32) :=
  ⟨_, List.mem_map.2 ⟨k, List.mem_range.2 hk, rfl⟩⟩

theorem shortTerms_reads (x : List Word) {i w k : Nat} (hw : w < 3) (hk : k < 6)
    (hi : 6 + 6 * w ≤ i ∧ i < 18 + 6 * w) : ReadsInput (shortTerms x i) (x.getD (3 * k + w) 0#32) := by
  refine ⟨shortRow (i - 6 - 6 * w) k, List.mem_flatMap.2 ⟨w, List.mem_range.2 hw, ?_⟩⟩
  rw [if_pos hi]
  exact List.mem_map.2 ⟨k, List.mem_range.2 hk, rfl⟩

theorem negateTerms_reads {neg : Bool} {ts : List (Word × List CosTerm)} {w : Word} (h : ReadsInput ts w) :
    ReadsInput (negateTerms neg ts) w := by
  obtain ⟨row, hrow⟩ := h
  cases neg with
  | false => exact ⟨row, hrow⟩
  | true => exact ⟨_, List.mem_map.2 ⟨_, hrow, rfl⟩⟩

theorem outputTerms_reads_block {x o : List Word} {wt : BitVec 2} {sb t : Nat} {w : Word}
    (h : ReadsInput (blockTerms x wt t) w) : ReadsInput (outputTerms x o wt sb t) w :=
  negateTerms_reads (h.imp fun _ hrow => List.mem_cons_of_mem _ hrow)

theorem outputTerms_reads_overlap (x o : List Word) (wt : BitVec 2) (sb t : Nat) :
    ReadsInput (outputTerms x o wt sb t) (o.getD t 0#32) :=
  negateTerms_reads ⟨_, List.mem_cons_self⟩

theorem blockTerms_reads_long (x : List Word) {wt : BitVec 2} {i k : Nat} (hwt : wt ≠ 2#2) (hk : k < 18) :
    ReadsInput (blockTerms x wt i) (x.getD k 0#32) := by
  rw [blockTerms, if_neg hwt]
  exact longTerms_reads x hk

theorem blockTerms_reads_short (x : List Word) {i w k : Nat} (hw : w < 3) (hk : k < 6)
    (hi : 6 + 6 * w ≤ i ∧ i < 18 + 6 * w) : ReadsInput (blockTerms x 2#2 i) (x.getD (3 * k + w) 0#32) := by
  rw [blockTerms, if_pos rfl]
  exact shortTerms_reads x hw hk hi

theorem matrixTerms_reads (s : List Word) (i : Nat) {k : Nat} (hk : k < 32) :
    ReadsInput (matrixTerms s i) (s.getD k 0#32) :=
  ⟨_, List.mem_map.2 ⟨k, List.mem_range.2 hk, rfl⟩⟩

theorem windowTerms_reads_sample (s vo : List Word) (j : Nat) {k : Nat} (hk : k < 32) :
    ReadsInput (windowTerms s vo j) (s.getD k 0#32) :=
  ⟨_, List.mem_append_left _ (List.mem_map.2 ⟨k, List.mem_range.2 hk, rfl⟩)⟩

/-- R355: the first of the two delay-line entries of step i, for i = 1…7. -/
theorem windowTerms_reads_line (s vo : List Word) (j : Nat) {i : Nat} (h1 : 1 ≤ i) (h8 : i < 8) :
    ReadsInput (windowTerms s vo j) (vo.getD (128 * i + j - 64) 0#32) := by
  have hi : i ∈ List.range' 1 7 := List.mem_range'_1.2 ⟨h1, by omega⟩
  exact ⟨_, List.mem_append_right _ (List.mem_append_left _ (List.mem_map.2 ⟨i, hi, rfl⟩))⟩

/-- R355: the second of the two delay-line entries of step i, for i = 0…7. -/
theorem windowTerms_reads_line_upper (s vo : List Word) (j : Nat) {i : Nat} (h8 : i < 8) :
    ReadsInput (windowTerms s vo j) (vo.getD (128 * i + 32 + j) 0#32) :=
  ⟨_, List.mem_append_right _ (List.mem_append_right _ (List.mem_map.2 ⟨i, List.mem_range.2 h8, rfl⟩))⟩

theorem ref32Aa_of_not_finite {u d : Word} (i : Nat) (h : isFinite u = false ∨ isFinite d = false) :
    ref32Aa u d i = (none, none) := by
  rw [ref32Aa, if_neg]
  rcases h with h | h <;> simp [h]

/-- Settles O60: each formula reads the input named, and REF32 leaves a formula with a non-finite input open. -/
theorem nonFiniteInputsLeaveOutputsOpen : Obligations.NonFiniteInputsLeaveOutputsOpen := by
  refine ⟨fun u d i h => ref32Aa_of_not_finite i h, fun x o wt sb k t hwt hk _ h => ?_,
    fun x o sb w k t hw hk _ h => ?_, fun x o wt sb t _ h => ?_, fun sb vo k i j hk _ _ h => ?_,
    fun sb vo i j hi _ h => ?_⟩
  · exact ⟨roundForm_of_reads (outputTerms_reads_block (blockTerms_reads_long x hwt hk)) h,
      roundForm_of_reads (blockTerms_reads_long x hwt hk) h⟩
  · exact ⟨fun ht => roundForm_of_reads (outputTerms_reads_block (blockTerms_reads_short x hw hk ht)) h,
      fun ht => roundForm_of_reads (blockTerms_reads_short x hw hk ht) h⟩
  · exact roundForm_of_reads (outputTerms_reads_overlap x o wt sb t) h
  · exact ⟨roundForm_of_reads (matrixTerms_reads sb i hk) h,
      roundForm_of_reads (windowTerms_reads_sample sb vo j hk) h⟩
  · rcases h with ⟨h1, h⟩ | h
    · exact roundForm_of_reads (windowTerms_reads_line sb vo j h1 hi) h
    · exact roundForm_of_reads (windowTerms_reads_line_upper sb vo j hi) h

end Sys2Proof.Machine
end

section
/-! PROOFS. What a word access to a cell of a memory does (R41–R48, R100, R407): where it goes, what the cell holds after
a write, and that the invariant and every other cell are kept. Settles O24. -/

namespace Sys2Proof.Machine

variable {N : NumImpl} {s : State N} {place : Place} {base n i : Nat}

/-! ### Word accesses to the memories -/

/-- Every region of `wordRegions` lies in the window at a multiple of 4, and is a memory. -/
theorem wordRegion_bounds (h : (place, base, n) ∈ wordRegions) :
    place ≠ .register ∧ base % 4 = 0 ∧ base + 4 * n ≤ 0x10000 := by
  have hall : ∀ r ∈ wordRegions, r.1 ≠ .register ∧ r.2.1 % 4 = 0 ∧ r.2.1 + 4 * r.2.2 ≤ 0x10000 := by decide
  exact hall _ h

/-- R100: the rows of the map do not overlap. -/
theorem windowMap_disjoint : windowMap.Pairwise (fun r r' => r.base + 4 * r.words ≤ r'.base) := by decide

theorem wordRegion_mem_windowMap (h : (place, base, n) ∈ wordRegions) : ⟨place, base, n⟩ ∈ windowMap := by
  have hall : ∀ r ∈ wordRegions, (⟨r.1, r.2.1, r.2.2⟩ : MapRow) ∈ windowMap := by decide
  exact hall _ h

/-- In a map whose rows do not overlap, the row that holds an offset is the one found. -/
theorem find?_of_disjoint {rows : List MapRow} (hd : rows.Pairwise (fun r r' => r.base + 4 * r.words ≤ r'.base))
    {r : MapRow} (hr : r ∈ rows) {off : Nat} (ho : r.holds off = true) : rows.find? (fun r => r.holds off) = some r := by
  induction rows with
  | nil => cases hr
  | cons x rows ih =>
    obtain ⟨hx, hd⟩ := List.pairwise_cons.1 hd
    rcases List.mem_cons.1 hr with rfl | hr
    · exact List.find?_cons_of_pos ho
    · have hne : ¬x.holds off = true := by
        have := hx r hr
        simp only [MapRow.holds, Bool.and_eq_true, decide_eq_true_eq] at ho ⊢
        omega
      exact (List.find?_cons_of_neg (p := fun r : MapRow => r.holds off) hne).trans (ih hd hr)

/-- R100: a cell's offset is located in its region at its index. -/
theorem locate_wordRegion (h : (place, base, n) ∈ wordRegions) (hi : i < n) :
    locate (base + 4 * i) = some (place, i) := by
  have ho : (⟨place, base, n⟩ : MapRow).holds (base + 4 * i) = true := by
    simp only [MapRow.holds, Bool.and_eq_true, decide_eq_true_eq]
    omega
  rw [locate, find?_of_disjoint windowMap_disjoint (wordRegion_mem_windowMap h) ho, Option.map_some]
  simp

theorem toNat_cellOffset (h : (place, base, n) ∈ wordRegions) (hi : i < n) :
    (BitVec.ofNat 16 (base + 4 * i)).toNat = base + 4 * i := by
  obtain ⟨-, -, hend⟩ := wordRegion_bounds h
  rw [BitVec.toNat_ofNat, Nat.mod_eq_of_lt (by omega)]

theorem accepts_cell (h : (place, base, n) ∈ wordRegions) : accepts .w32 (base + 4 * i) = true := by
  obtain ⟨-, halign, -⟩ := wordRegion_bounds h
  simp only [accepts, decide_eq_true_eq]
  omega

/-- Between commands, a word write to a cell writes it. -/
theorem hostAccess_write_cell (h : (place, base, n) ∈ wordRegions) (hi : i < n) (hl : s.latch = none) (w : Word) :
    hostAccess (.write .w32 (BitVec.ofNat 16 (base + 4 * i)) w) s = .next (s.writePlace place i w) := by
  have hbusy : s.busy = false := by rw [State.busy, hl]; rfl
  simp [hostAccess, toNat_cellOffset h hi, accepts_cell h, State.writeWord, locate_wordRegion h hi, hbusy]

/-- Between commands, a word read of a cell answers its content. -/
theorem hostAccess_read_cell (h : (place, base, n) ∈ wordRegions) (hi : i < n) (hl : s.latch = none) :
    hostAccess (.read .w32 (BitVec.ofNat 16 (base + 4 * i))) s = s.answer (s.readPlace place i) := by
  have hbusy : s.busy = false := by rw [State.busy, hl]; rfl
  simp [hostAccess, toNat_cellOffset h hi, accepts_cell h, State.readWord, locate_wordRegion h hi, hbusy]

/-- R41: zero-extending the low six bits masks the word. -/
theorem setWidth_low_six (w : Word) : (w.extractLsb' 0 6).setWidth 32 = w &&& 0x3F#32 := by
  apply BitVec.eq_of_toNat_eq
  have hmask := Nat.and_two_pow_sub_one_eq_mod w.toNat 6
  simp only [BitVec.toNat_setWidth, BitVec.extractLsb'_toNat, BitVec.toNat_and, BitVec.toNat_ofNat, Nat.shiftRight_zero]
  norm_num at hmask ⊢
  omega

/-- What a cell holds after a write of `w` is what `readsBack` says it reads as. -/
theorem readPlace_of_cellHolds {w : Word} (h : CellHolds s place i w) :
    s.readPlace place i = some (readsBack N place w) := by
  cases place with
  | register => cases h
  | bitbuf => cases h
  | sfl => exact (congrArg (Option.map (BitVec.setWidth 32)) h).trans (congrArg some (setWidth_low_six w))
  | sfs => exact (congrArg (Option.map (BitVec.setWidth 32)) h).trans (congrArg some (setWidth_low_six w))
  | isq => exact congrArg (Option.map (BitVec.signExtend 32)) h
  | xr c => exact congrArg (Option.map N.ops.enc) h
  | ovl c => exact congrArg (Option.map N.ops.enc) h
  | sbs c => exact congrArg (Option.map N.ops.enc) h
  | vr c => exact congrArg (Option.map N.ops.enc) h
  | pcm => exact h

/-! ### Writing a cell -/

/-- The number of cells of a memory of `wordRegions` (R41–R48), 0 for what is none of them. -/
def Place.cells : Place → Nat
  | .register => 0
  | .bitbuf => 0
  | .sfl => 21
  | .sfs => 36
  | .isq => 576
  | .xr _ => 576
  | .ovl _ => 576
  | .sbs _ => 576
  | .vr _ => 1024
  | .pcm => 1152

theorem cells_wordRegion (h : (place, base, n) ∈ wordRegions) : place.cells = n := by
  have hall : ∀ r ∈ wordRegions, r.1.cells = r.2.2 := by decide
  exact hall _ h

theorem channel_memoryWf_iff {x : Channel N} : x.memoryWf = true ↔
    Store.wf unspecified 576 x.xr = true ∧ Store.wf N.zeroed 576 x.ovl = true ∧
    Store.wf unspecified 576 x.sbs = true ∧ Store.wf N.zeroed 1024 x.vr = true := by
  simp only [Channel.memoryWf, Bool.and_eq_true, and_assoc]

theorem memoryWf_iff : s.memoryWf = true ↔
    Store.wf unspecified 4096 s.bitbuf = true ∧ Store.wf unspecified 21 s.sfl = true ∧
    Store.wf unspecified 36 s.sfs = true ∧ Store.wf unspecified 576 s.isq = true ∧
    Store.wf unspecified 1152 s.pcm = true ∧ ∀ c, (s.chan c).memoryWf = true := by
  have hc : (∀ c, (s.chan c).memoryWf = true) ↔ s.ch0.memoryWf = true ∧ s.ch1.memoryWf = true := by
    refine ⟨fun h => ⟨h 0#1, h 1#1⟩, fun ⟨h0, h1⟩ c => ?_⟩
    rcases channel_cases c with rfl | rfl
    · exact h0
    · exact h1
  simp only [State.memoryWf, Bool.and_eq_true, hc, and_assoc]

theorem memoryWf_setChan (hs : s.memoryWf = true) {c : BitVec 1} {x : Channel N} (hx : x.memoryWf = true) :
    (s.setChan c x).memoryWf = true := by
  obtain ⟨hbit, hsfl, hsfs, hisq, hpcm, hchan⟩ := memoryWf_iff.1 hs
  refine memoryWf_iff.2 ⟨by simpa, by simpa, by simpa, by simpa, by simpa, fun c' => ?_⟩
  by_cases hc : c' = c
  · rw [hc, State.setChan_chan_self]
    exact hx
  · rw [State.setChan_chan_ne s hc]
    exact hchan c'

theorem inv_iff : s.inv = true ↔
    s.memoryWf = true ∧ s.status.legal = true ∧ s.latchLegal = true ∧ s.c1end.toNat ≤ 576 := by
  simp only [State.inv, Bool.and_eq_true, decide_eq_true_eq, and_assoc]

/-- A write to a cell keeps the memories in canonical form. -/
theorem memoryWf_writePlace (hs : s.memoryWf = true) (hi : i < place.cells) (w : Word) :
    (s.writePlace place i w).memoryWf = true := by
  obtain ⟨hbit, hsfl, hsfs, hisq, hpcm, hchan⟩ := memoryWf_iff.1 hs
  cases place with
  | register => cases hi
  | bitbuf => cases hi
  | sfl => exact memoryWf_iff.2 ⟨hbit, Store.wf_set hsfl hi _, hsfs, hisq, hpcm, hchan⟩
  | sfs => exact memoryWf_iff.2 ⟨hbit, hsfl, Store.wf_set hsfs hi _, hisq, hpcm, hchan⟩
  | isq => exact memoryWf_iff.2 ⟨hbit, hsfl, hsfs, Store.wf_set hisq hi _, hpcm, hchan⟩
  | pcm => exact memoryWf_iff.2 ⟨hbit, hsfl, hsfs, hisq, Store.wf_set hpcm hi _, hchan⟩
  | xr c =>
    obtain ⟨hxr, hovl, hsbs, hvr⟩ := channel_memoryWf_iff.1 (hchan c)
    exact memoryWf_setChan hs (channel_memoryWf_iff.2 ⟨Store.wf_set hxr hi _, hovl, hsbs, hvr⟩)
  | ovl c =>
    obtain ⟨hxr, hovl, hsbs, hvr⟩ := channel_memoryWf_iff.1 (hchan c)
    exact memoryWf_setChan hs (channel_memoryWf_iff.2 ⟨hxr, Store.wf_set hovl hi _, hsbs, hvr⟩)
  | sbs c =>
    obtain ⟨hxr, hovl, hsbs, hvr⟩ := channel_memoryWf_iff.1 (hchan c)
    exact memoryWf_setChan hs (channel_memoryWf_iff.2 ⟨hxr, hovl, Store.wf_set hsbs hi _, hvr⟩)
  | vr c =>
    obtain ⟨hxr, hovl, hsbs, hvr⟩ := channel_memoryWf_iff.1 (hchan c)
    exact memoryWf_setChan hs (channel_memoryWf_iff.2 ⟨hxr, hovl, hsbs, Store.wf_set hvr hi _⟩)

/-- The cell written holds what the word leaves there. -/
theorem cellHolds_writePlace (hs : s.memoryWf = true) (hi : i < place.cells) (w : Word) :
    CellHolds (s.writePlace place i w) place i w := by
  obtain ⟨-, hsfl, hsfs, hisq, hpcm, hchan⟩ := memoryWf_iff.1 hs
  cases place with
  | register => cases hi
  | bitbuf => cases hi
  | sfl => exact Store.get_set_self (Store.rising_of_wf hsfl) i _
  | sfs => exact Store.get_set_self (Store.rising_of_wf hsfs) i _
  | isq => exact Store.get_set_self (Store.rising_of_wf hisq) i _
  | pcm => exact Store.get_set_self (Store.rising_of_wf hpcm) i _
  | xr c =>
    obtain ⟨hxr, -⟩ := channel_memoryWf_iff.1 (hchan c)
    rw [State.writePlace, CellHolds, State.setChan_chan_self]
    exact Store.get_set_self (Store.rising_of_wf hxr) i _
  | ovl c =>
    obtain ⟨-, hovl, -⟩ := channel_memoryWf_iff.1 (hchan c)
    rw [State.writePlace, CellHolds, State.setChan_chan_self]
    exact Store.get_set_self (Store.rising_of_wf hovl) i _
  | sbs c =>
    obtain ⟨-, -, hsbs, -⟩ := channel_memoryWf_iff.1 (hchan c)
    rw [State.writePlace, CellHolds, State.setChan_chan_self]
    exact Store.get_set_self (Store.rising_of_wf hsbs) i _
  | vr c =>
    obtain ⟨-, -, -, hvr⟩ := channel_memoryWf_iff.1 (hchan c)
    rw [State.writePlace, CellHolds, State.setChan_chan_self]
    exact Store.get_set_self (Store.rising_of_wf hvr) i _

/-- Replacing a channel by one that agrees with it, but for cell i of the memory `place`, changes at most that cell. -/
theorem onlyCell_setChan {c : BitVec 1} {x : Channel N} (hbo : x.bo = (s.chan c).bo)
    (hxr : ∀ a, ¬(place = .xr c ∧ a = i) → Store.get unspecified x.xr a = Store.get unspecified (s.chan c).xr a)
    (hovl : ∀ a, ¬(place = .ovl c ∧ a = i) → Store.get N.zeroed x.ovl a = Store.get N.zeroed (s.chan c).ovl a)
    (hsbs : ∀ a, ¬(place = .sbs c ∧ a = i) → Store.get unspecified x.sbs a = Store.get unspecified (s.chan c).sbs a)
    (hvr : ∀ a, ¬(place = .vr c ∧ a = i) → Store.get N.zeroed x.vr a = Store.get N.zeroed (s.chan c).vr a) :
    OnlyCell s (s.setChan c x) place i := by
  refine ⟨?_, by simp, by simp, by simp, by simp, fun c' => ?_⟩
  · rcases channel_cases c with rfl | rfl <;> rfl
  · by_cases hc : c' = c
    · subst hc
      rw [State.setChan_chan_self]
      exact ⟨hbo, hxr, hovl, hsbs, hvr⟩
    · rw [State.setChan_chan_ne s hc]
      exact ⟨rfl, fun _ _ => rfl, fun _ _ => rfl, fun _ _ => rfl, fun _ _ => rfl⟩

/-- A write to cell i of a memory keeps every other cell: `Store.get_set_ne` in the form of `OnlyCell`'s clauses. -/
theorem get_set_of_not_cell {v : Nat} {d : Option (BitVec v)} {m : Store v} {size : Nat}
    (hm : Store.wf d size m = true) (u : BitVec v) {a : Nat} (ha : ¬(place = place ∧ a = i)) :
    Store.get d (Store.set d m i u) a = Store.get d m a :=
  Store.get_set_ne (Store.rising_of_wf hm) (fun h => ha ⟨rfl, h.symm⟩) u

/-- A write to a cell changes nothing else. -/
theorem onlyCell_writePlace (hs : s.memoryWf = true) (hi : i < place.cells) (w : Word) :
    OnlyCell s (s.writePlace place i w) place i := by
  obtain ⟨-, hsfl, hsfs, hisq, hpcm, hchan⟩ := memoryWf_iff.1 hs
  have same {v : Nat} {d : Option (BitVec v)} {m : Store v} {p : Nat → Prop} :
      ∀ a, p a → Store.get d m a = Store.get d m a := fun _ _ => rfl
  cases place with
  | register => cases hi
  | bitbuf => cases hi
  | sfl => exact ⟨rfl, fun _ => get_set_of_not_cell hsfl _, same, same, same, fun c => ⟨rfl, same, same, same, same⟩⟩
  | sfs => exact ⟨rfl, same, fun _ => get_set_of_not_cell hsfs _, same, same, fun c => ⟨rfl, same, same, same, same⟩⟩
  | isq => exact ⟨rfl, same, same, fun _ => get_set_of_not_cell hisq _, same, fun c => ⟨rfl, same, same, same, same⟩⟩
  | pcm => exact ⟨rfl, same, same, same, fun _ => get_set_of_not_cell hpcm _, fun c => ⟨rfl, same, same, same, same⟩⟩
  | xr c =>
    obtain ⟨hxr, -⟩ := channel_memoryWf_iff.1 (hchan c)
    exact onlyCell_setChan rfl (fun _ => get_set_of_not_cell hxr _) same same same
  | ovl c =>
    obtain ⟨-, hovl, -⟩ := channel_memoryWf_iff.1 (hchan c)
    exact onlyCell_setChan rfl same (fun _ => get_set_of_not_cell hovl _) same same
  | sbs c =>
    obtain ⟨-, -, hsbs, -⟩ := channel_memoryWf_iff.1 (hchan c)
    exact onlyCell_setChan rfl same same (fun _ => get_set_of_not_cell hsbs _) same
  | vr c =>
    obtain ⟨-, -, -, hvr⟩ := channel_memoryWf_iff.1 (hchan c)
    exact onlyCell_setChan rfl same same same (fun _ => get_set_of_not_cell hvr _)

theorem inv_of_onlyCell {t : State N} (hs : s.inv = true) (h : OnlyCell s t place i) (hm : t.memoryWf = true) :
    t.inv = true := by
  obtain ⟨-, hstatus, hlatch, hc1end⟩ := inv_iff.1 hs
  obtain ⟨ht, -⟩ := h
  rw [ht]
  rw [ht] at hm
  exact inv_iff.2 ⟨hm, hstatus, hlatch, hc1end⟩

theorem latch_of_onlyCell {t : State N} (h : OnlyCell s t place i) : t.latch = s.latch :=
  (congrArg State.latch h.1 :)

/-- Settles O24: the write goes to its cell, which then holds and reads back the word; every other cell is kept. -/
theorem memoryCellsReadBack : Obligations.MemoryCellsReadBack := by
  intro s w place base n i hs hl hr hi
  obtain ⟨hm, -⟩ := inv_iff.1 hs
  have hcell : i < place.cells := by rwa [cells_wordRegion hr]
  have hholds := cellHolds_writePlace hm hcell w
  have honly := onlyCell_writePlace hm hcell w
  refine ⟨_, hostAccess_write_cell hr hi hl w, inv_of_onlyCell hs honly (memoryWf_writePlace hm hcell w), hholds,
    honly, ?_⟩
  rw [hostAccess_read_cell hr hi ((latch_of_onlyCell honly).trans hl), readPlace_of_cellHolds hholds]
  rfl

end Sys2Proof.Machine
end

section
/-! PROOFS. Binary32 in REF32 (R12, R13): the fields and the value of a word, the order of the finite magnitudes, and that
`round32` rounds a real that is known up to its truncation. Settles O59. -/

namespace Sys2Proof.Machine

/-! ### The fields of a word -/

section fields

variable (sign : BitVec 1) (e : BitVec 8) (f : BitVec 23)

/-- R12: the bits of a word by its fields. -/
theorem getLsbD_fields (j : ℕ) : BitVec.getLsbD (w := 32) (sign ++ e ++ f) j =
    if j < 23 then f.getLsbD j else if j - 23 < 8 then e.getLsbD (j - 23) else sign.getLsbD (j - 23 - 8) := by
  refine (BitVec.getLsbD_append (x := sign ++ e) (y := f) (i := j)).trans ?_
  rw [BitVec.getLsbD_append]

theorem expField_append : expField (sign ++ e ++ f) = e.toNat := by
  refine congrArg BitVec.toNat (BitVec.eq_of_getLsbD_eq fun j hj => ?_)
  rw [BitVec.getLsbD_extractLsb', getLsbD_fields, if_neg (by omega), if_pos (by omega), Nat.add_sub_cancel_left]
  simp [hj]

theorem fracField_append : fracField (sign ++ e ++ f) = f.toNat := by
  refine congrArg BitVec.toNat (BitVec.eq_of_getLsbD_eq fun j hj => ?_)
  rw [BitVec.getLsbD_extractLsb', getLsbD_fields, Nat.zero_add, if_pos hj]
  simp [hj]

theorem isNeg_append : isNeg (sign ++ e ++ f) = true ↔ sign = 1#1 := by
  rw [isNeg, getLsbD_fields, if_neg (by norm_num), if_neg (by norm_num)]
  revert sign
  decide

theorem isFinite_append : isFinite (sign ++ e ++ f) = true ↔ e ≠ 255#8 := by
  rw [isFinite, expField_append, decide_eq_true_eq, Ne, Ne, ← BitVec.toNat_inj]
  rfl

end fields

theorem val32_of_nonneg {w : Word} (h : isNeg w = false) : val32 w = (fixMag w : ℝ) / 2 ^ 149 := by
  simp [val32, fix, h]

theorem val32_of_neg {w : Word} (h : isNeg w = true) : val32 w = -((fixMag w : ℝ) / 2 ^ 149) := by
  simp [val32, fix, h, neg_div]

theorem abs_val32 (w : Word) : |val32 w| = (fixMag w : ℝ) / 2 ^ 149 := by
  have hnonneg : (0 : ℝ) ≤ (fixMag w : ℝ) / 2 ^ 149 := by positivity
  cases h : isNeg w with
  | false => rw [val32_of_nonneg h, abs_of_nonneg hnonneg]
  | true => rw [val32_of_neg h, abs_neg, abs_of_nonneg hnonneg]

/-- R12: the magnitude of a word with exponent field 0, in units of 2^−149. -/
theorem fixMag_subnormal {w : Word} (h : expField w = 0) : fixMag w = fracField w := by
  rw [fixMag, if_pos h]

/-- R12: the magnitude of a word with a nonzero exponent field, in units of 2^−149. -/
theorem fixMag_normal {w : Word} (h : expField w ≠ 0) :
    fixMag w = (2 ^ 23 + fracField w) * 2 ^ (expField w - 1) := by
  rw [fixMag, if_neg h]

/-- R12: the value of a word by its fields. -/
theorem fixMag_append (sign : BitVec 1) (e : BitVec 8) (f : BitVec 23) :
    (fixMag (sign ++ e ++ f) : ℝ) / 2 ^ 149 =
      if e = 0#8 then (f.toNat : ℝ) * (2 : ℝ) ^ (-149 : ℤ)
      else ((2 : ℝ) ^ 23 + (f.toNat : ℝ)) * (2 : ℝ) ^ ((e.toNat : ℤ) - 150) := by
  by_cases he : e = 0#8
  · have hexp : expField (sign ++ e ++ f) = 0 := by rw [expField_append, he]; rfl
    rw [if_pos he, fixMag_subnormal hexp, fracField_append, div_eq_mul_inv, zpow_neg]
    norm_cast
  · have hpos : e.toNat ≠ 0 := fun h => he (BitVec.eq_of_toNat_eq h)
    have hexp : expField (sign ++ e ++ f) ≠ 0 := by rwa [expField_append]
    have hpow : (2 : ℝ) ^ ((e.toNat : ℤ) - 150) = 2 ^ (e.toNat - 1) / 2 ^ 149 := by
      rw [← zpow_natCast, ← zpow_natCast, ← zpow_sub₀ (by norm_num)]
      congr 1
      omega
    rw [if_neg he, fixMag_normal hexp, fracField_append, expField_append, hpow]
    push_cast
    ring

/-! ### The order of the finite magnitudes -/

/-- The magnitude of bits 30:0 = `n` in units of 2^−149. -/
def magUnits (n : ℕ) : ℕ := if n < 2 ^ 23 then n else (2 ^ 23 + n % 2 ^ 23) * 2 ^ (n / 2 ^ 23 - 1)

theorem magnitude_eq (n : ℕ) : magnitude n = (magUnits n : ℝ) / 2 ^ 149 := by
  unfold magnitude magUnits
  split
  · rfl
  · push_cast
    rfl

/-- A significand of at most 2^24, which is below 2^23 only for the lowest exponent, is placed by adding the exponent
field: the magnitude is the significand times 2 to the exponent, also where the significand is 2^24. -/
theorem magUnits_place {c q : ℕ} (hlow : c = 0 ∨ 2 ^ 23 ≤ q) (hq : q ≤ 2 ^ 24) :
    magUnits (c * 2 ^ 23 + q) = q * 2 ^ c := by
  by_cases hsub : q < 2 ^ 23
  · obtain rfl : c = 0 := by omega
    rw [magUnits, if_pos (by omega)]
    omega
  · rw [magUnits, if_neg (by omega)]
    by_cases htop : q = 2 ^ 24
    · have hdiv : (c * 2 ^ 23 + q) / 2 ^ 23 = c + 2 := by omega
      have hmod : (c * 2 ^ 23 + q) % 2 ^ 23 = 0 := by omega
      rw [hdiv, hmod, htop, show c + 2 - 1 = c + 1 by omega]
      ring
    · have hdiv : (c * 2 ^ 23 + q) / 2 ^ 23 = c + 1 := by omega
      have hmod : 2 ^ 23 + (c * 2 ^ 23 + q) % 2 ^ 23 = q := by omega
      rw [hdiv, hmod, Nat.add_sub_cancel]

/-- Every pattern is a significand placed at an exponent, with room for the next pattern above it. -/
theorem exists_place (n : ℕ) : ∃ c q, (c = 0 ∨ 2 ^ 23 ≤ q) ∧ q < 2 ^ 24 ∧ n = c * 2 ^ 23 + q :=
  ⟨n / 2 ^ 23 - 1, n - (n / 2 ^ 23 - 1) * 2 ^ 23, by omega, by omega, by omega⟩

theorem magnitude_strictMono : StrictMono magnitude := by
  refine strictMono_nat_of_lt_succ fun n => ?_
  obtain ⟨c, q, hlow, hq, rfl⟩ := exists_place n
  have hlt : q * 2 ^ c < (q + 1) * 2 ^ c := Nat.mul_lt_mul_of_pos_right (by omega) (by positivity)
  rw [magnitude_eq, magnitude_eq, magUnits_place hlow hq.le, add_assoc, magUnits_place (by omega) hq]
  gcongr

theorem magnitude_largest : magnitude (255 * 2 ^ 23 - 1) = maxReal := by
  have hplace : 255 * 2 ^ 23 - 1 = 253 * 2 ^ 23 + (2 ^ 24 - 1) := by norm_num
  rw [hplace, magnitude_eq, magUnits_place (by norm_num) (by norm_num), maxReal]
  norm_num

theorem magnitude_le_maxReal {n : ℕ} (h : n < 255 * 2 ^ 23) : magnitude n ≤ maxReal := by
  rw [← magnitude_largest]
  exact magnitude_strictMono.monotone (by omega)

theorem lt_of_magnitude_le_maxReal {n : ℕ} (h : magnitude n ≤ maxReal) : n < 255 * 2 ^ 23 := by
  rw [← magnitude_largest] at h
  have := magnitude_strictMono.le_iff_le.1 h
  omega

/-! ### Rounding between two neighbours -/

/-- The midpoint of a magnitude and the next one, where the rounding turns. -/
noncomputable def midpoint (m : ℕ) : ℝ := (magnitude m + magnitude (m + 1)) / 2

theorem magnitude_lt_midpoint (m : ℕ) : magnitude m < midpoint m := by
  have := magnitude_strictMono (Nat.lt_add_one m)
  unfold midpoint
  linarith

theorem midpoint_lt_magnitude (m : ℕ) : midpoint m < magnitude (m + 1) := by
  have := magnitude_strictMono (Nat.lt_add_one m)
  unfold midpoint
  linarith

/-- `NearestMagnitude` of a finite value, by the midpoints on both sides of the pattern. -/
theorem nearestMagnitude_of_midpoints {a : ℝ} {n : ℕ} (ha : a ≤ maxReal) (hn : n < 255 * 2 ^ 23)
    (hbelow : ∀ m, n = m + 1 → midpoint m ≤ a ∧ (midpoint m = a → n % 2 = 0))
    (habove : a ≤ midpoint n ∧ (a = midpoint n → n % 2 = 0)) : NearestMagnitude a n := by
  refine ⟨fun h => absurd ha (not_le.2 h), fun _ => ⟨hn, fun hpos => ?_, fun _ => habove⟩⟩
  have hm := hbelow (n - 1) (by omega)
  rwa [midpoint, Nat.sub_add_cancel hpos] at hm

/-- Below the midpoint, or on it with an even pattern, the lower neighbour is the nearest. -/
theorem nearestMagnitude_down {a : ℝ} {m : ℕ} (ha : a ≤ maxReal) (hlow : magnitude m ≤ a)
    (hmid : a < midpoint m ∨ a = midpoint m ∧ m % 2 = 0) : NearestMagnitude a m := by
  refine nearestMagnitude_of_midpoints ha (lt_of_magnitude_le_maxReal (hlow.trans ha)) (fun j hj => ?_) ?_
  · have hlt : midpoint j < a := (midpoint_lt_magnitude j).trans_le (hj ▸ hlow)
    exact ⟨hlt.le, fun h => absurd h hlt.ne⟩
  · rcases hmid with h | ⟨h, heven⟩
    · exact ⟨h.le, fun h' => absurd h' h.ne⟩
    · exact ⟨h.le, fun _ => heven⟩

/-- Above the midpoint, or on it with an odd pattern below, the upper neighbour is the nearest. -/
theorem nearestMagnitude_up {a : ℝ} {m : ℕ} (ha : a ≤ maxReal) (hhigh : a < magnitude (m + 1))
    (hmid : midpoint m < a ∨ midpoint m = a ∧ m % 2 = 1) : NearestMagnitude a (m + 1) := by
  have hle : midpoint m ≤ a := hmid.elim le_of_lt fun h => h.1.le
  have hm : m < 255 * 2 ^ 23 - 1 := by
    refine magnitude_strictMono.lt_iff_lt.1 ?_
    rw [magnitude_largest]
    exact ((magnitude_lt_midpoint m).trans_le hle).trans_le ha
  refine nearestMagnitude_of_midpoints ha (by omega) (fun j hj => ?_) ?_
  · obtain rfl : m = j := by omega
    rcases hmid with h | ⟨h, hodd⟩
    · exact ⟨hle, fun h' => absurd h' h.ne⟩
    · exact ⟨hle, fun _ => by omega⟩
  · have hlt : a < midpoint (m + 1) := hhigh.trans (magnitude_lt_midpoint (m + 1))
    exact ⟨hlt.le, fun h => absurd h hlt.ne⟩

/-- A real between two neighbours rounds up above their midpoint, or on it where the lower pattern is odd. -/
theorem nearestMagnitude_of_between {a : ℝ} {m : ℕ} {up : Bool} (ha : a ≤ maxReal) (hlow : magnitude m ≤ a)
    (hhigh : a < magnitude (m + 1)) (hup : up = true ↔ midpoint m < a ∨ midpoint m = a ∧ m % 2 = 1) :
    NearestMagnitude a (m + if up then 1 else 0) := by
  cases up with
  | true => exact nearestMagnitude_up ha hhigh (hup.1 rfl)
  | false =>
    obtain ⟨hlt, heq⟩ := not_or.1 (fun h => Bool.false_ne_true (hup.2 h))
    refine nearestMagnitude_down (m := m) ha hlow ((not_lt.1 hlt).lt_or_eq.imp_right fun h => ⟨h, ?_⟩)
    exact Nat.mod_two_ne_one.1 fun hodd => heq ⟨h.symm, hodd⟩

theorem nearestMagnitude_self {n : ℕ} (h : n < 255 * 2 ^ 23) : NearestMagnitude (magnitude n) n :=
  nearestMagnitude_down (magnitude_le_maxReal h) le_rfl (.inl (magnitude_lt_midpoint n))

/-! ### `roundMag` and `round32` -/

/-- `n` is `x` cut to an integer, and `sticky` says whether anything was cut off. -/
def CutTo (x : ℝ) (n : ℕ) (sticky : Bool) : Prop :=
  if sticky then (n : ℝ) < x ∧ x < n + 1 else x = n

namespace CutTo

variable {x : ℝ} {n : ℕ} {sticky : Bool}

theorem le (h : CutTo x n sticky) : (n : ℝ) ≤ x := by
  cases sticky with
  | false => exact (show x = n from h).ge
  | true => exact (show _ ∧ _ from h).1.le

theorem lt_add_one (h : CutTo x n sticky) : x < n + 1 := by
  cases sticky with
  | false => exact (show x = n from h) ▸ lt_add_one _
  | true => exact (show _ ∧ _ from h).2

/-- An integer lies below `x` if it is below `n`, or is `n` and something was cut off. -/
theorem lt_iff (h : CutTo x n sticky) (b : ℕ) : (b : ℝ) < x ↔ b < n ∨ (b = n ∧ sticky = true) := by
  have hle := h.le
  have hlt := h.lt_add_one
  rcases lt_trichotomy b n with hb | rfl | hb
  · have : (b : ℝ) < n := by exact_mod_cast hb
    exact ⟨fun _ => .inl hb, fun _ => this.trans_le hle⟩
  · cases sticky with
    | false => simp [show x = b from h]
    | true => simp [(show _ ∧ _ from h).1]
  · have : (n : ℝ) + 1 ≤ b := by exact_mod_cast hb
    exact ⟨fun h' => absurd h' (by linarith), fun h' => by omega⟩

/-- An integer is `x` if it is `n` and nothing was cut off. -/
theorem eq_iff (h : CutTo x n sticky) (b : ℕ) : (b : ℝ) = x ↔ b = n ∧ sticky = false := by
  cases sticky with
  | false => rw [show x = n from h]; simp
  | true =>
    obtain ⟨hlt, hlt'⟩ := (show _ ∧ _ from h)
    simp only [Bool.true_eq_false, and_false, iff_false]
    rintro rfl
    have h1 : n < b := by exact_mod_cast hlt
    have h2 : b < n + 1 := by exact_mod_cast hlt'
    omega

end CutTo

/-- The bits that rounding drops leave a significand that fits its exponent. -/
theorem dropBits_spec (n k : ℕ) :
    (dropBits n k - k = 0 ∨ 2 ^ 23 ≤ n / 2 ^ dropBits n k) ∧ n / 2 ^ dropBits n k < 2 ^ 24 := by
  rcases Nat.eq_zero_or_pos n with rfl | hn
  · simp [dropBits]
  have hlow : 2 ^ Nat.log2 n ≤ n := Nat.log2_self_le hn.ne'
  have hhigh : n < 2 ^ (Nat.log2 n + 1) := Nat.lt_log2_self
  have hdrop : Nat.log2 n - 23 ≤ dropBits n k := le_max_right _ _
  constructor
  · by_cases h : dropBits n k - k = 0
    · exact .inl h
    · have heq : dropBits n k = Nat.log2 n - 23 := by unfold dropBits at h ⊢; omega
      refine .inr ((Nat.le_div_iff_mul_le (by positivity)).2 ?_)
      rwa [← pow_add, show 23 + dropBits n k = Nat.log2 n by omega]
  · refine Nat.div_lt_of_lt_mul (hhigh.trans_le ?_)
    rw [← pow_add]
    exact Nat.pow_le_pow_right (by norm_num) (by omega)

section roundMag

variable {a : ℝ} {k n : ℕ} {sticky : Bool}

theorem scale_lt_iff {b c : ℝ} (k : ℕ) : b * 2 ^ (149 + k) < c * 2 ^ (149 + k) ↔ b < c :=
  mul_lt_mul_iff_of_pos_right (by positivity)

theorem scale_le_iff {b c : ℝ} (k : ℕ) : b * 2 ^ (149 + k) ≤ c * 2 ^ (149 + k) ↔ b ≤ c :=
  mul_le_mul_iff_of_pos_right (by positivity)

theorem scale_eq_iff {b c : ℝ} (k : ℕ) : b * 2 ^ (149 + k) = c * 2 ^ (149 + k) ↔ b = c :=
  mul_left_inj' (by positivity)

theorem maxReal_scaled (k : ℕ) : maxReal * 2 ^ (149 + k) = ((maxFinite * 2 ^ k : ℕ) : ℝ) := by
  rw [maxReal, maxFinite, pow_add]
  push_cast
  ring

theorem beyondFinite_iff (h : CutTo (a * 2 ^ (149 + k)) n sticky) :
    beyondFinite k n sticky = true ↔ maxReal < a := by
  rw [← scale_lt_iff k, maxReal_scaled, h.lt_iff]
  simp only [beyondFinite, Bool.or_eq_true, Bool.and_eq_true, decide_eq_true_eq, eq_comm (a := n)]

/-- The magnitude of a placed significand, in the units in which it is rounded. -/
theorem magnitude_scaled {c q : ℕ} (hlow : c = 0 ∨ 2 ^ 23 ≤ q) (hq : q ≤ 2 ^ 24) (k : ℕ) :
    magnitude (c * 2 ^ 23 + q) * 2 ^ (149 + k) = ((q * 2 ^ (c + k) : ℕ) : ℝ) := by
  rw [magnitude_eq, magUnits_place hlow hq, pow_add, pow_add]
  push_cast
  field_simp

theorem magnitude_succ_scaled {c q : ℕ} (hlow : c = 0 ∨ 2 ^ 23 ≤ q) (hq : q < 2 ^ 24) (k : ℕ) :
    magnitude (c * 2 ^ 23 + q + 1) * 2 ^ (149 + k) = (((q + 1) * 2 ^ (c + k) : ℕ) : ℝ) := by
  rw [add_assoc]
  exact magnitude_scaled (hlow.imp_right fun h => h.trans (Nat.le_succ q)) hq k

theorem midpoint_scaled {c q : ℕ} (hlow : c = 0 ∨ 2 ^ 23 ≤ q) (hq : q < 2 ^ 24) {k : ℕ} (hk : 1 ≤ k) :
    midpoint (c * 2 ^ 23 + q) * 2 ^ (149 + k) = (((2 * q + 1) * 2 ^ (c + k - 1) : ℕ) : ℝ) := by
  have hm := magnitude_scaled hlow hq.le k
  have hm1 := magnitude_succ_scaled hlow hq k
  have hpow : 2 ^ (c + k) = 2 * 2 ^ (c + k - 1) := by rw [← pow_succ', show c + k - 1 + 1 = c + k by omega]
  rw [hpow] at hm hm1
  rw [midpoint, div_mul_eq_mul_div, add_mul, hm, hm1]
  push_cast
  ring

/-- The dropped bits round up exactly above the midpoint (2q + 1)·2^(s − 1), or on it when q is odd. -/
theorem roundsUp_iff {x : ℝ} {s : ℕ} (hs : 1 ≤ s) (h : CutTo x n sticky) :
    roundsUp n s sticky = true ↔
      (((2 * (n / 2 ^ s) + 1) * 2 ^ (s - 1) : ℕ) : ℝ) < x ∨
      (((2 * (n / 2 ^ s) + 1) * 2 ^ (s - 1) : ℕ) : ℝ) = x ∧ n / 2 ^ s % 2 = 1 := by
  have hpow : 2 ^ s = 2 * 2 ^ (s - 1) := by rw [← pow_succ', Nat.sub_add_cancel hs]
  have hn := Nat.div_add_mod n (2 ^ s)
  have hmid : (2 * (n / 2 ^ s) + 1) * 2 ^ (s - 1) = 2 ^ s * (n / 2 ^ s) + 2 ^ (s - 1) := by rw [hpow]; ring
  rw [h.lt_iff, h.eq_iff, hmid]
  simp only [roundsUp, Bool.or_eq_true, Bool.and_eq_true, decide_eq_true_eq]
  generalize 2 ^ s * (n / 2 ^ s) = high at *
  generalize n % 2 ^ s = low at *
  cases sticky <;> simp <;> omega

/-- R13: `roundMag` gives the nearest magnitude of a value known up to its truncation. -/
theorem nearestMagnitude_roundMag (hk : 1 ≤ k) (h : CutTo (a * 2 ^ (149 + k)) n sticky) :
    NearestMagnitude a (roundMag k n sticky) := by
  unfold roundMag
  split
  next hb =>
    have ha := (beyondFinite_iff h).1 hb
    exact ⟨fun _ => rfl, fun ha' => absurd ha' (not_le.2 ha)⟩
  next hb =>
    have ha : a ≤ maxReal := not_lt.1 fun ha => hb ((beyondFinite_iff h).2 ha)
    obtain ⟨hlow, hq⟩ := dropBits_spec n k
    have hck : dropBits n k - k + k = dropBits n k := Nat.sub_add_cancel (le_max_left _ _)
    have hs : 1 ≤ dropBits n k := hk.trans (le_max_left _ _)
    have hmid := midpoint_scaled hlow hq hk
    have hup := roundsUp_iff hs h
    rw [hck] at hmid
    rw [← hmid, scale_lt_iff, scale_eq_iff] at hup
    have hm := magnitude_scaled hlow hq.le k
    have hm1 := magnitude_succ_scaled hlow hq k
    rw [hck] at hm hm1
    have hbelow : magnitude ((dropBits n k - k) * 2 ^ 23 + n / 2 ^ dropBits n k) ≤ a := by
      rw [← scale_le_iff k, hm]
      exact le_trans (Nat.cast_le.2 (Nat.div_mul_le_self _ _)) h.le
    have habove : a < magnitude ((dropBits n k - k) * 2 ^ 23 + n / 2 ^ dropBits n k + 1) := by
      rw [← scale_lt_iff k, hm1]
      refine h.lt_add_one.trans_le ?_
      exact_mod_cast Nat.lt_mul_of_div_lt (Nat.lt_add_one _) (by positivity)
    have hparity : ((dropBits n k - k) * 2 ^ 23 + n / 2 ^ dropBits n k) % 2 = n / 2 ^ dropBits n k % 2 := by omega
    rw [← hparity] at hup
    dsimp only
    rw [← add_assoc]
    exact nearestMagnitude_of_between ha hbelow habove hup

end roundMag

theorem NearestMagnitude.le {a : ℝ} {n : ℕ} (h : NearestMagnitude a n) : n ≤ 255 * 2 ^ 23 := by
  rcases lt_or_ge maxReal a with ha | ha
  · exact (h.1 ha).le
  · exact (h.2 ha).1.le

theorem isNeg_iff (w : Word) : isNeg w = true ↔ 2 ^ 31 ≤ w.toNat := by
  have hmsb : isNeg w = w.msb := (BitVec.msb_eq_getLsbD_last w).symm
  rw [hmsb, BitVec.msb_eq_decide, decide_eq_true_eq]

theorem toNat_signed32 {neg : Bool} {bits : ℕ} (h : bits < 2 ^ 31) :
    (signed32 neg bits).toNat = bits + if neg then 2 ^ 31 else 0 := by
  rw [signed32, BitVec.toNat_ofNat, Nat.mod_eq_of_lt]
  split <;> omega

theorem isNeg_signed32 {neg : Bool} {bits : ℕ} (h : bits < 2 ^ 31) : isNeg (signed32 neg bits) = neg := by
  rw [Bool.eq_iff_iff, isNeg_iff, toNat_signed32 h]
  split <;> simp_all

/-- R13: `round32` rounds a real whose magnitude is known up to its truncation. -/
theorem roundsTo_round32 {x : ℝ} {k n : ℕ} {neg sticky : Bool} (hk : 1 ≤ k)
    (hcut : CutTo (|x| * 2 ^ (149 + k)) n sticky) (hneg : x ≠ 0 → (neg = true ↔ x < 0)) :
    RoundsTo x (round32 k neg n sticky) := by
  have hscale : (0 : ℝ) < 2 ^ (149 + k) := by positivity
  have hzero : x = 0 ↔ n = 0 ∧ sticky = false := by
    rw [eq_comm (a := n), ← hcut.eq_iff 0, Nat.cast_zero, zero_eq_mul, abs_eq_zero, or_iff_left hscale.ne']
  refine ⟨fun hx => by rw [round32, if_pos (hzero.1 hx)], fun hx => ?_⟩
  have hmag := nearestMagnitude_roundMag hk hcut
  have hbits : roundMag k n sticky < 2 ^ 31 := hmag.le.trans_lt (by norm_num)
  rw [round32, if_neg (fun h => hx (hzero.2 h)), isNeg_signed32 hbits]
  refine ⟨hneg hx, ?_⟩
  convert hmag using 1
  rw [toNat_signed32 hbits]
  split <;> omega

theorem roundsTo_roundFix {k : ℕ} (hk : 1 ≤ k) (v : ℤ) : RoundsTo ((v : ℝ) / 2 ^ (149 + k)) (roundFix k v) := by
  refine roundsTo_round32 hk ?_ fun _ => ?_
  · show |(v : ℝ) / 2 ^ (149 + k)| * 2 ^ (149 + k) = (v.natAbs : ℝ)
    rw [abs_div, abs_of_pos (by positivity : (0 : ℝ) < 2 ^ (149 + k)), div_mul_cancel₀ _ (by positivity),
      Nat.cast_natAbs, Int.cast_abs]
  · rw [decide_eq_true_eq, div_lt_iff₀ (by positivity), zero_mul, Int.cast_lt_zero]

/-! ### A finite word is what its value rounds to -/

theorem expField_eq (w : Word) : expField w = w.toNat % 2 ^ 31 / 2 ^ 23 := by
  have := w.isLt
  rw [expField, BitVec.extractLsb'_toNat, Nat.shiftRight_eq_div_pow]
  omega

theorem fracField_eq (w : Word) : fracField w = w.toNat % 2 ^ 31 % 2 ^ 23 := by
  rw [fracField, BitVec.extractLsb'_toNat, Nat.shiftRight_zero]
  omega

theorem isFinite_iff (w : Word) : isFinite w = true ↔ w.toNat % 2 ^ 31 < 255 * 2 ^ 23 := by
  rw [isFinite, decide_eq_true_eq, expField_eq]
  omega

theorem fixMag_eq_magUnits (w : Word) : fixMag w = magUnits (w.toNat % 2 ^ 31) := by
  rw [fixMag, magUnits, expField_eq, fracField_eq]
  by_cases h : w.toNat % 2 ^ 31 < 2 ^ 23
  · rw [if_pos (by omega), if_pos h]
    omega
  · rw [if_neg (by omega), if_neg h]

theorem abs_val32_eq_magnitude (w : Word) : |val32 w| = magnitude (w.toNat % 2 ^ 31) := by
  rw [abs_val32, fixMag_eq_magUnits, magnitude_eq]

theorem magnitude_zero : magnitude 0 = 0 := by simp [magnitude]

theorem roundsTo_val32 {w : Word} (hw : isFinite w = true) (hne : w ≠ 0x80000000#32) : RoundsTo (val32 w) w := by
  refine ⟨fun hx => ?_, fun hx => ⟨?_, ?_⟩⟩
  · have hbits : w.toNat % 2 ^ 31 = 0 := by
      refine magnitude_strictMono.injective ?_
      rw [← abs_val32_eq_magnitude, hx, abs_zero, magnitude_zero]
    have hsign : w.toNat ≠ 2 ^ 31 := fun h => hne (BitVec.eq_of_toNat_eq h)
    have hlt := w.isLt
    exact BitVec.eq_of_toNat_eq (by simp; omega)
  · have hpos : 0 < |val32 w| := abs_pos.2 hx
    rw [abs_val32] at hpos
    cases h : isNeg w with
    | false => simp [val32_of_nonneg h, hpos.le]
    | true => simp [val32_of_neg h, hpos]
  · rw [abs_val32_eq_magnitude]
    exact nearestMagnitude_self ((isFinite_iff w).1 hw)

/-- In REF32 the value of a finite word is its real value. -/
theorem ref32_val_of_finite {w : Word} (h : isFinite w = true) :
    ref32.ops.val w = some (mkRat (fix w) (2 ^ 149)) ∧ ((mkRat (fix w) (2 ^ 149) : ℚ) : ℝ) = val32 w := by
  refine ⟨if_pos h, ?_⟩
  rw [Rat.mkRat_eq_div, val32, Rat.cast_div, Rat.cast_intCast, Rat.cast_natCast, Nat.cast_pow, Nat.cast_ofNat]

/-- Settles O59: the fields give the value, a finite word is its value's rounding, and `roundFix` is `round32` of an
exact magnitude. -/
theorem exactValuesRoundToNearest : Obligations.ExactValuesRoundToNearest := by
  refine ⟨fun sign e f => ⟨isFinite_append sign e f, isNeg_append sign e f, fun _ => ?_⟩,
    fun w hw hne => roundsTo_val32 hw hne,
    fun w => ⟨rfl, rfl, fun hw => ⟨_, ref32_val_of_finite hw⟩, fun hw => if_neg (by simp [hw])⟩,
    fun k v hk => roundsTo_roundFix hk v⟩
  rw [← fixMag_append sign]
  by_cases hs : sign = 1#1
  · rw [val32_of_neg ((isNeg_append sign e f).2 hs), if_pos hs, neg_one_mul]
  · rw [val32_of_nonneg (by simpa [hs] using isNeg_append sign e f), if_neg hs, one_mul]

end Sys2Proof.Machine
end

section
/-! PROOFS. Register words (R31, R33–R39, R50): a word is assembled from its fields bit by bit, and a host write to a
register's offset is a write to that register. Settles O14, O16 and O17. -/

namespace Sys2Proof.Machine

variable {N : NumImpl} {s : State N}

/-! ### The bits of a field -/

theorem getLsbD_fieldOf (w : Word) (lo n i : Nat) :
    (fieldOf w lo n).getLsbD i = (decide (i < n) && w.getLsbD (lo + i)) := BitVec.getLsbD_extractLsb' ..

@[simp] theorem getElem_fieldOf (w : Word) (lo n i : Nat) (hi : i < n) : (fieldOf w lo n)[i] = w.getLsbD (lo + i) := by
  rw [← BitVec.getLsbD_eq_getElem, getLsbD_fieldOf, decide_eq_true hi, Bool.true_and]

/-- The word with ones exactly in the `n` bits from bit `lo` on. -/
def bitsMask (lo n : Nat) : Word := atBit lo (BitVec.allOnes n)

/-- A field taken from a word and put back at its place is the word masked to the field. -/
theorem atBit_fieldOf (w : Word) (lo n : Nat) : atBit lo (fieldOf w lo n) = w &&& bitsMask lo n := by
  apply BitVec.eq_of_getLsbD_eq
  intro i hi
  simp only [bitsMask, BitVec.getLsbD_and, getLsbD_atBit _ i _ hi, getLsbD_fieldOf, BitVec.getLsbD_allOnes]
  by_cases h : lo ≤ i
  · simp [h, Bool.and_comm]
  · simp [h]

theorem flagAt_getLsbD (w : Word) (k : Nat) : flagAt k (w.getLsbD k) = w &&& flagAt k true := by
  apply BitVec.eq_of_getLsbD_eq
  intro i hi
  simp only [BitVec.getLsbD_and, getLsbD_flagAt _ i _ hi]
  by_cases h : k = i
  · subst h; simp
  · simp [h]

theorem setWidth_fieldOf (w : Word) (n : Nat) : (fieldOf w 0 n).setWidth 32 = w &&& bitsMask 0 n := by
  rw [← atBit_fieldOf, atBit, BitVec.shiftLeft_zero]

/-! ### A register word reads back masked to its fields -/

theorem Cfg.word_ofWord (w : Word) : (Cfg.ofWord w).word = w &&& 0x0000003F#32 := by
  simp only [Cfg.word, Cfg.ofWord, atBit_fieldOf, flagAt_getLsbD, ← BitVec.and_or_distrib_left]
  rfl

theorem Gain.word_ofWord (w : Word) : (Gain.ofWord w).word = w &&& 0x000007FF#32 := by
  simp only [Gain.word, Gain.ofWord, atBit_fieldOf, flagAt_getLsbD, ← BitVec.and_or_distrib_left]
  rfl

theorem Tsel.word_ofWord (w : Word) : (Tsel.ofWord w).word = w &&& 0x001F1F1F#32 := by
  simp only [Tsel.word, Tsel.ofWord, atBit_fieldOf, ← BitVec.and_or_distrib_left]
  rfl

theorem Region.word_ofWord (w : Word) : (Region.ofWord w).word = w &&& 0x03FF03FF#32 := by
  simp only [Region.word, Region.ofWord, atBit_fieldOf, ← BitVec.and_or_distrib_left]
  rfl

theorem Block.word_ofWord (w : Word) : (Block.ofWord w).word = w &&& 0x00007777#32 := by
  simp only [Block.word, Block.ofWord, atBit_fieldOf, flagAt_getLsbD,
    ← BitVec.and_or_distrib_left]
  rfl

theorem Ctrl.word_ofWord (w : Word) : (Ctrl.ofWord w).word = w &&& 0x0000000E#32 := by
  simp only [Ctrl.word, Ctrl.ofWord, flagAt_getLsbD, ← BitVec.and_or_distrib_left]
  rfl

/-! ### Writes at a register's offset -/

/-- R100: word k of the register page is located as register k. -/
theorem locate_register {k : Nat} (hk : k < 64) : locate (4 * k) = some (.register, k) := by
  have ho : (⟨.register, 0x0000, 64⟩ : MapRow).holds (4 * k) = true := by
    simp only [MapRow.holds, Bool.and_eq_true, decide_eq_true_eq]
    omega
  rw [locate, find?_of_disjoint windowMap_disjoint (by decide) ho, Option.map_some]
  simp

/-- R404, R405: a word write to a register's offset, BUSY or not, is the write to that register. -/
theorem hostAccess_write_register {off : BitVec 16} {k : Nat} (ho : off.toNat = 4 * k) (hk : k < 64) (w : Word) :
    hostAccess (.write .w32 off w) s = .next (s.writeRegister k w) := by
  simp [hostAccess, ho, accepts, State.writeWord, locate_register hk, State.writePlace]

/-! ### The parameter registers -/

/-- The words of the parameter registers, CFG to BITEND: those of registers 4 to 13. -/
def Params.words (p : Params) : List Word :=
  [p.cfg.word, p.len.setWidth 32, p.p2.setWidth 32, p.bv.setWidth 32, p.gain.word, p.tsel.word, p.region.word,
   p.block.word, p.pos.setWidth 32, p.bitEnd.setWidth 32]

/-- With other parameter registers, registers 4 to 13 read as their words and every other register as before. -/
theorem readRegister_par (s : State N) (p : Params) (n : Nat) : ({ s with par := p } : State N).readRegister n =
    if 4 ≤ n ∧ n < 14 then p.words.getD (n - 4) 0#32 else s.readRegister n := by
  unfold State.readRegister
  split
  case h_20 =>
    refine (if_neg fun ⟨hlo, hhi⟩ => ?_).symm
    interval_cases n <;> contradiction
  all_goals rfl

/-- A write that sets one of the parameter registers' words to the masked word reads back as it, and changes no other
register and nothing else. -/
theorem parameterWrite_readsBack {off : BitVec 16} {k : Nat} {p : Params} {w mask : Word} (ho : off.toNat = 4 * k)
    (hk : 4 ≤ k ∧ k < 14) (hwrite : s.writeRegister k w = { s with par := p })
    (hwords : p.words = s.par.words.set (k - 4) (w &&& mask)) :
    ∃ t, hostAccess (.write .w32 off w) s = .next t ∧ t = { s with par := t.par } ∧
      t.readRegister (off.toNat / 4) = w &&& mask ∧
      ∀ n, n ≠ off.toNat / 4 → t.readRegister n = s.readRegister n := by
  have hlen : k - 4 < s.par.words.length := by simp only [Params.words, List.length_cons, List.length_nil]; omega
  refine ⟨{ s with par := p }, by rw [hostAccess_write_register ho (by omega), hwrite], rfl, ?_, fun n hn => ?_⟩
  · rw [show off.toNat / 4 = k by omega, readRegister_par, if_pos hk, hwords, List.getD_eq_getElem?_getD,
      List.getElem?_set_self hlen, Option.getD_some]
  · have hkeep := readRegister_par s s.par n
    rw [readRegister_par, hkeep]
    by_cases hr : 4 ≤ n ∧ n < 14
    · rw [if_pos hr, if_pos hr, hwords, List.getD_eq_getElem?_getD, List.getElem?_set_ne (by omega),
        ← List.getD_eq_getElem?_getD]
    · rw [if_neg hr, if_neg hr]

/-- Settles O14: each of the ten writes sets one word of the parameter registers, to the written word's field bits. -/
theorem parameterRegistersReadBack : Obligations.ParameterRegistersReadBack := by
  intro s w off mask h
  simp only [List.mem_cons, Prod.mk.injEq, List.not_mem_nil, or_false] at h
  rcases h with ⟨rfl, rfl⟩ | ⟨rfl, rfl⟩ | ⟨rfl, rfl⟩ | ⟨rfl, rfl⟩ | ⟨rfl, rfl⟩ | ⟨rfl, rfl⟩ | ⟨rfl, rfl⟩ |
    ⟨rfl, rfl⟩ | ⟨rfl, rfl⟩ | ⟨rfl, rfl⟩
  · exact parameterWrite_readsBack (k := 4) rfl (by decide) rfl (congrArg (s.par.words.set 0) (Cfg.word_ofWord w))
  · exact parameterWrite_readsBack (k := 5) rfl (by decide) rfl (congrArg (s.par.words.set 1) (setWidth_fieldOf w 12))
  · exact parameterWrite_readsBack (k := 6) rfl (by decide) rfl (congrArg (s.par.words.set 2) (setWidth_fieldOf w 12))
  · exact parameterWrite_readsBack (k := 7) rfl (by decide) rfl (congrArg (s.par.words.set 3) (setWidth_fieldOf w 10))
  · exact parameterWrite_readsBack (k := 8) rfl (by decide) rfl (congrArg (s.par.words.set 4) (Gain.word_ofWord w))
  · exact parameterWrite_readsBack (k := 9) rfl (by decide) rfl (congrArg (s.par.words.set 5) (Tsel.word_ofWord w))
  · exact parameterWrite_readsBack (k := 10) rfl (by decide) rfl (congrArg (s.par.words.set 6) (Region.word_ofWord w))
  · exact parameterWrite_readsBack (k := 11) rfl (by decide) rfl (congrArg (s.par.words.set 7) (Block.word_ofWord w))
  · exact parameterWrite_readsBack (k := 12) rfl (by decide) rfl (congrArg (s.par.words.set 8) (setWidth_fieldOf w 16))
  · exact parameterWrite_readsBack (k := 13) rfl (by decide) rfl (congrArg (s.par.words.set 9) (setWidth_fieldOf w 16))

/-! ### STATUS, CTRL and IRQ -/

/-- R35: the bits of STATUS. -/
theorem getLsbD_statusWord (s : State N) {i : Nat} (hi : i < 32) : s.statusWord.getLsbD i =
    (decide (i = 0) && s.busy || decide (i = 1) && s.status.done || decide (i = 2) && s.status.err ||
      decide (8 ≤ i) && s.status.errcode.getLsbD (i - 8) || decide (16 ≤ i) && s.status.warns.getLsbD (i - 16)) := by
  simp only [State.statusWord, BitVec.getLsbD_or, getLsbD_flagAt _ i _ hi, getLsbD_atBit _ i _ hi, eq_comm]

theorem statusWord_warns (s : State N) : s.statusWord.extractLsb' 16 8 = s.status.warns := by
  apply BitVec.eq_of_getLsbD_eq
  intro i hi
  have hcode : s.status.errcode.getLsbD (16 + i - 8) = false := BitVec.getLsbD_of_ge _ _ (by omega)
  rw [BitVec.getLsbD_extractLsb', getLsbD_statusWord s (by omega), hcode]
  simp [hi, show 16 + i ≠ 1 by omega, show 16 + i ≠ 2 by omega]

/-- Settles O16: bit by bit, STATUS after the write is its fields cleared by the written word. -/
theorem statusWriteClearsWrittenBits : Obligations.StatusWriteClearsWrittenBits := by
  intro s w
  refine ⟨{ s with status := s.status.clear w }, hostAccess_write_register (k := 2) rfl (by decide) w, rfl,
    fun k hk => ?_, fun k hk => ?_, fun k hk => ?_⟩
  · simp only [List.mem_cons, List.not_mem_nil, or_false] at hk
    rw [getLsbD_statusWord _ (by omega), getLsbD_statusWord _ (by omega)]
    rcases hk with rfl | rfl | rfl | rfl | rfl | rfl | rfl | rfl | rfl | rfl
    all_goals simp [Status.clear]
  · simp only [List.mem_cons, List.not_mem_nil, or_false] at hk
    rw [getLsbD_statusWord _ (by omega), getLsbD_statusWord _ (by omega)]
    rcases hk with rfl | rfl | rfl | rfl
    all_goals cases hw : w[2] <;> simp [Status.clear, hw]
  · by_cases hlt : k < 32
    · rw [getLsbD_statusWord _ hlt, getLsbD_statusWord _ hlt]
      interval_cases k
      all_goals simp [Status.clear, State.busy] at hk ⊢
    · rw [BitVec.getLsbD_of_ge _ _ (by omega), BitVec.getLsbD_of_ge _ _ (by omega)]

/-- Settles O17: CTRL's word is its enables, and IRQ reads the same fields as the words do. -/
theorem ctrlEnablesAndIrq : Obligations.CtrlEnablesAndIrq := by
  refine ⟨fun s w h => ?_, fun s => ?_⟩
  · refine ⟨{ s with ctrl := Ctrl.ofWord w }, ?_, rfl, Ctrl.word_ofWord w⟩
    rw [hostAccess_write_register (k := 1) rfl (by decide), State.writeRegister, State.writeCtrl, h]
    rfl
  · have hctrl (i : Nat) (hi : i < 32) : (s.readRegister 1).getLsbD i =
        (decide (1 = i) && s.ctrl.ieDone || decide (2 = i) && s.ctrl.ieErr || decide (3 = i) && s.ctrl.ieWarn) := by
      simp only [State.readRegister, Ctrl.word, BitVec.getLsbD_or, getLsbD_flagAt _ i _ hi]
    have hstatus : s.readRegister 2 = s.statusWord := rfl
    rw [hctrl 1 (by decide), hctrl 2 (by decide), hctrl 3 (by decide), hstatus, statusWord_warns,
      getLsbD_statusWord s (show 1 < 32 by decide), getLsbD_statusWord s (show 2 < 32 by decide), State.irq]
    simp

end Sys2Proof.Machine
end

section
/-! PROOFS. The warnings a command sets (R35, R454) and the ways a command stops (R57, R204, R467): each operation only
ors warnings in, and a codebook's leaves are counted by the words that lead to them. Settles O12 and O13. -/

namespace Sys2Proof.Machine

variable {N : NumImpl} {s t : State N} {ch : BitVec 1}

/-! ### Warning masks -/

theorem Warn.bit_lt (f : Warn) : f.bit < 8 := by cases f <;> decide

theorem Warn.getLsbD_maskIf (f : Warn) (c : Bool) (b : Nat) :
    (f.maskIf c).getLsbD b = (c && decide (b = f.bit)) := by
  cases c with
  | false => simp
  | true =>
    have hmask : f.mask = BitVec.twoPow 8 f.bit := rfl
    rw [Warn.maskIf_true, hmask, BitVec.getLsbD_twoPow]
    simp [f.bit_lt, eq_comm]

@[simp] theorem Warn.getElem_maskIf (f : Warn) (c : Bool) (b : Nat) (hb : b < 8) :
    (f.maskIf c)[b] = (c && decide (b = f.bit)) := by
  rw [← BitVec.getLsbD_eq_getElem, f.getLsbD_maskIf]

theorem Warn.maskIf_or_maskIf (f : Warn) (a b : Bool) : f.maskIf a ||| f.maskIf b = f.maskIf (a || b) := by
  cases a <;> cases b <;> simp

/-! ### HUFF's warnings -/

/-- R205: the big-values region sets no warning but W_TABLE. -/
theorem bigValues_warns (src : BitSource) (p : Params) (n k : Nat) (g : Progress) :
    ∃ c, (bigValues src p n k g).1.warns = g.warns ||| Warn.table.maskIf c := by
  induction n generalizing k g with
  | zero => exact ⟨false, by simp [bigValues]⟩
  | succ n ih =>
    rw [bigValues]
    cases readPair src (pairTable p (2 * k)) g.reader with
    | ok v r =>
      obtain ⟨c, hc⟩ := ih (k + 1) _
      exact ⟨_, by rw [hc, BitVec.or_assoc, Warn.maskIf_or_maskIf]⟩
    | underflow r => exact ⟨_, rfl⟩
    | unwritten => exact ⟨_, rfl⟩

/-- R212: the count1 region sets no warning but W_TRUNC. -/
theorem count1_warns (src : BitSource) (sel : Bool) (budget fuel line : Nat) (g : Progress) :
    ∃ c, (count1 src sel budget fuel line g).1.1.warns = g.warns ||| Warn.trunc.maskIf c := by
  induction fuel generalizing line g with
  | zero => exact ⟨false, by simp [count1]⟩
  | succ fuel ih =>
    rw [count1]
    split
    · cases readQuad src sel budget g.reader with
      | ok v r =>
        cases v with
        | none => exact ⟨true, rfl⟩
        | some e =>
          obtain ⟨vs, cut⟩ := e
          cases cut with
          | true => exact ⟨true, rfl⟩
          | false =>
            obtain ⟨c, hc⟩ := ih (line + 4) _
            exact ⟨c, hc.trans (by simp)⟩
      | underflow r => exact ⟨false, by simp⟩
      | unwritten => exact ⟨false, by simp⟩
    · exact ⟨false, by simp⟩

/-- R454: the warnings of a granule's decoding, by cause. -/
theorem decodeSpectrum_warns (src : BitSource) (p : Params) : ∃ a b,
    (decodeSpectrum src p).1.1.warns = earlyWarns p ||| Warn.table.maskIf a ||| Warn.trunc.maskIf b := by
  obtain ⟨a, ha⟩ := bigValues_warns src p (pairCount p) 0 ⟨[], ⟨p.pos.toNat, 0⟩, earlyWarns p⟩
  rw [decodeSpectrum]
  split
  next g hg =>
    obtain ⟨b, hb⟩ := count1_warns src p.gain.c1sel (spectralBudget p) maxQuads (2 * pairCount p) g
    rw [hg] at ha
    exact ⟨a, b, by rw [hb, ha]⟩
  next g hg => exact ⟨a, false, by rw [hg] at ha; simpa using ha⟩
  next g hg => exact ⟨a, false, by rw [hg] at ha; simpa using ha⟩

/-- HUFF ors in warnings other than W_CLIP. -/
theorem execHuff_warns (h : execHuff s = .next t) :
    ∃ m : BitVec 8, t.status.warns = s.status.warns ||| m ∧ m.getLsbD 7 = false := by
  obtain ⟨-, g, line, hend⟩ := execHuff_next h
  obtain ⟨a, b, hg⟩ := decodeSpectrum_warns s.bitSource s.snap
  have hbit : (decodeSpectrum s.bitSource s.snap).1.1.warns.getLsbD 7 = false := by
    rw [hg]
    simp [earlyWarns, Warn.bit]
  rcases hend with ⟨hd, rfl⟩ | ⟨hd, rfl⟩
  · rw [hd] at hbit
    have hlate : (lateWarns s.snap g.reader.used line).getLsbD 7 = false := by simp [lateWarns, Warn.bit]
    exact ⟨g.warns ||| lateWarns s.snap g.reader.used line, rfl, by rw [BitVec.getLsbD_or, hbit, hlate]; rfl⟩
  · rw [hd] at hbit
    exact ⟨g.warns, rfl, hbit⟩

/-! ### The other commands' warnings -/

/-- R357: synthesis steps set no warning but W_CLIP. -/
theorem synthSteps_warns {p : Params} {ks : List Nat} (h : synthSteps ch p ks s = some t) :
    ∃ c, t.status.warns = s.status.warns ||| Warn.clip.maskIf c := by
  induction ks generalizing s with
  | nil =>
    obtain rfl : s = t := Option.some.inj h
    exact ⟨false, by simp⟩
  | cons k ks ih =>
    obtain ⟨u, hu, h⟩ := synthSteps_cons.1 h
    obtain ⟨_, _, _, _, _, _, _, _, _, hw, _⟩ := synthStep_some hu
    obtain ⟨c, hc⟩ := ih h
    exact ⟨_, by rw [hc, hw, BitVec.or_assoc, Warn.maskIf_or_maskIf]⟩

theorem synthesize_warns {ks : List Nat} (h : synthesize ch ks s = .next t) :
    ∃ c, t.status.warns = s.status.warns ||| Warn.clip.maskIf c := by
  rcases synthesize_next h with ⟨-, rfl⟩ | ⟨-, u, hu, rfl⟩
  · exact ⟨false, by simp⟩
  · exact synthSteps_warns (t := u) hu

/-- Each command ors a mask into the warnings: HUFF one without W_CLIP, SYNTH and SYNTHG one with at most W_CLIP, and
every other command none. -/
theorem exec_warns {i : Instr} {s t : State} (h : exec i s = .next t) :
    ∃ m : BitVec 8, t.status.warns = s.status.warns ||| m ∧ (i ≠ .huff → ∀ b, b < 7 → m.getLsbD b = false) ∧
      ((∀ ch k, i ≠ .synth ch k) → (∀ ch, i ≠ .synthg ch) → m.getLsbD 7 = false) := by
  have hclip (c : Bool) (b : Nat) (hb : b < 7) : (Warn.clip.maskIf c).getLsbD b = false := by
    simp [Warn.getLsbD_maskIf, Warn.bit, show b ≠ 7 by omega]
  cases i with
  | nop => cases h; exact ⟨0#8, by simp, by simp, by simp⟩
  | huff =>
    obtain ⟨m, hm, h7⟩ := execHuff_warns h
    exact ⟨m, hm, fun hne => absurd rfl hne, fun _ _ => h7⟩
  | deq ch =>
    refine ⟨0#8, ?_, by simp, by simp⟩
    rcases execDeq_next h with ⟨-, rfl⟩ | ⟨-, _, _, -, -, rfl⟩ <;> simp
  | aa ch =>
    obtain ⟨_, -, rfl⟩ := execAa_next h
    exact ⟨0#8, by simp, by simp, by simp⟩
  | imdct ch =>
    obtain ⟨_, _, -, -, rfl⟩ := execImdct_next h
    exact ⟨0#8, by simp, by simp, by simp⟩
  | synth ch k =>
    obtain ⟨c, hc⟩ := synthesize_warns (ch := ch) h
    exact ⟨_, hc, fun _ => hclip c, fun hne => absurd rfl (hne ch k)⟩
  | synthg ch =>
    obtain ⟨c, hc⟩ := synthesize_warns (ch := ch) h
    exact ⟨_, hc, fun _ => hclip c, fun _ hne => absurd rfl (hne ch)⟩
  | clrh mask => cases h; exact ⟨0#8, by simp, by simp, by simp⟩

/-- Settles O12: a mask ored in clears no bit, and each command's mask has only its own warnings. -/
theorem commandsOnlySetTheirWarnings : Obligations.CommandsOnlySetTheirWarnings := by
  intro i s t h
  obtain ⟨m, hm, hhuff, hclip⟩ := exec_warns h
  rw [hm]
  refine ⟨fun b hb => by rw [BitVec.getLsbD_or, hb, Bool.true_or], fun hne b hb => ?_, fun hsynth hsynthg => ?_⟩
  · rw [BitVec.getLsbD_or, hhuff hne b hb, Bool.or_false]
  · rw [BitVec.getLsbD_or, hclip hsynth hsynthg, Bool.or_false]

/-! ### Complete codes (R204) -/

/-- The words that lead to the value `p` in a codebook. -/
def wordsTo (p : Nibbles) : Code Nibbles → List (List Bool)
  | .leaf a => if a = p then [[]] else []
  | .node zero one => (wordsTo p zero).map (false :: ·) ++ (wordsTo p one).map (true :: ·)

theorem mem_wordsTo_iff {p : Nibbles} {c : Code Nibbles} {word : List Bool} :
    word ∈ wordsTo p c ↔ follow c word = some (.leaf p) := by
  induction c generalizing word with
  | leaf a => cases word <;> simp [wordsTo, follow]
  | node zero one ihz iho =>
    cases word with
    | nil => simp [wordsTo, follow]
    | cons b word => cases b <;> simp [wordsTo, follow, ihz, iho]

theorem nodup_wordsTo (p : Nibbles) (c : Code Nibbles) : (wordsTo p c).Nodup := by
  induction c with
  | leaf a => rw [wordsTo]; split <;> simp
  | node zero one ihz iho =>
    refine List.Nodup.append (ihz.map List.cons_injective) (iho.map List.cons_injective) ?_
    intro word hz ho
    obtain ⟨_, -, rfl⟩ := List.mem_map.1 hz
    obtain ⟨_, -, h⟩ := List.mem_map.1 ho
    cases h

/-- A value stands at as many leaves as there are words that lead to it. -/
theorem length_wordsTo (p : Nibbles) (c : Code Nibbles) : (wordsTo p c).length = (leaves c).count p := by
  induction c with
  | leaf a => by_cases h : a = p <;> simp [wordsTo, leaves, h]
  | node zero one ihz iho => simp [wordsTo, leaves, ihz, iho]

theorem existsUnique_follow_iff {p : Nibbles} {c : Code Nibbles} :
    (∃! word, follow c word = some (.leaf p)) ↔ (leaves c).count p = 1 := by
  simp only [← mem_wordsTo_iff, ← length_wordsTo]
  constructor
  · rintro ⟨word, hw, huniq⟩
    have hperm : (wordsTo p c).Perm [word] := (List.perm_ext_iff_of_nodup (nodup_wordsTo p c) (by simp)).2 fun v => by
      rw [List.mem_singleton]
      exact ⟨huniq v, fun hv => hv ▸ hw⟩
    exact hperm.length_eq
  · intro h
    obtain ⟨word, hw⟩ := List.length_eq_one_iff.1 h
    exact ⟨word, by simp [hw], fun v hv => by simpa [hw] using hv⟩

theorem completeCode_iff {c : Code Nibbles} : CompleteCode c ↔ coversPairs c = true := by
  rw [coversPairs_iff]
  exact forall_congr' fun p => existsUnique_follow_iff

theorem isOpenTable_iff {t : BitVec 5} : isOpenTable t = true ↔ OpenTable t := by
  simp only [isOpenTable, Bool.or_eq_true, decide_eq_true_eq, ← BitVec.toNat_inj]
  rfl

theorem tableUsable_iff {t : BitVec 5} : tableUsable t = true ↔ (OpenTable t → CompleteCode (codebook t)) := by
  rw [completeCode_iff, ← isOpenTable_iff, tableUsable]
  cases isOpenTable t <;> simp

/-- R204: HUFF's test of the tables that its pairs select. -/
theorem tablesUsable_iff {p : Params} : tablesUsable p = true ↔ TablesUsable p := by
  simp only [tablesUsable, List.all_eq_true, List.mem_range, tableUsable_iff]
  rfl

/-! ### How a command ends -/

theorem execHuff_outcome (s : State N) : (∃ t, execHuff s = .next t) ∨ execHuff s = .fault .unwritten ∨
    (tablesUsable s.snap = false ∧ execHuff s = .refused .badCodebook) := by
  unfold execHuff
  split
  · split
    · exact .inl ⟨_, rfl⟩
    · exact .inl ⟨_, rfl⟩
    · exact .inr (.inl rfl)
  · exact .inr (.inr ⟨Bool.eq_false_iff.2 ‹_›, rfl⟩)

theorem execDeq_outcome (ch : BitVec 1) (s : State N) :
    (∃ t, execDeq ch s = .next t) ∨ execDeq ch s = .fault .unwritten := by
  unfold execDeq
  split
  · exact .inl ⟨_, rfl⟩
  · split
    · exact .inl ⟨_, rfl⟩
    · exact .inr rfl

theorem execAa_outcome (ch : BitVec 1) (s : State N) :
    (∃ t, execAa ch s = .next t) ∨ execAa ch s = .fault .unwritten := by
  unfold execAa
  split
  · exact .inl ⟨_, rfl⟩
  · exact .inr rfl

theorem execImdct_outcome (ch : BitVec 1) (s : State N) :
    (∃ t, execImdct ch s = .next t) ∨ execImdct ch s = .fault .unwritten := by
  unfold execImdct
  split
  · exact .inl ⟨_, rfl⟩
  · exact .inr rfl

theorem synthesize_outcome (ch : BitVec 1) (ks : List Nat) (s : State N) :
    (∃ t, synthesize ch ks s = .next t) ∨ synthesize ch ks s = .fault .unwritten := by
  unfold synthesize
  split
  · exact .inl ⟨_, rfl⟩
  · split
    · exact .inl ⟨_, rfl⟩
    · exact .inr rfl

/-- Every command goes on to a next state or faults with UNWRITTEN, but for HUFF's refusal of a codebook. -/
theorem exec_outcome (i : Instr) (s : State) : (∃ t, exec i s = .next t) ∨ exec i s = .fault .unwritten ∨
    (i = .huff ∧ tablesUsable s.snap = false ∧ exec i s = .refused .badCodebook) := by
  cases i with
  | nop => exact .inl ⟨_, rfl⟩
  | huff => exact (execHuff_outcome s).imp_right (.imp_right fun h => ⟨rfl, h⟩)
  | deq ch => exact (execDeq_outcome ch s).imp_right .inl
  | aa ch => exact (execAa_outcome ch s).imp_right .inl
  | imdct ch => exact (execImdct_outcome ch s).imp_right .inl
  | synth ch k => exact (synthesize_outcome ch _ s).imp_right .inl
  | synthg ch => exact (synthesize_outcome ch _ s).imp_right .inl
  | clrh mask => exact .inl ⟨_, rfl⟩

theorem exec_huff_refused_iff {s : State} : exec .huff s = .refused .badCodebook ↔ ¬TablesUsable s.snap := by
  rw [← tablesUsable_iff, exec, execHuff]
  split
  next h =>
    refine iff_of_false ?_ (fun hn => hn h)
    split <;> simp
  next h => exact iff_of_true rfl h

/-- Settles O13: HUFF's test of its tables is the only refusal, and it fails at a pair whose open table has a codebook
that is no complete code. -/
theorem commandsStopOnlyAsStated : Obligations.CommandsStopOnlyAsStated := by
  intro i s
  refine ⟨fun f h => ?_, fun r h => ?_, ?_⟩
  · rcases exec_outcome i s with ⟨t, ht⟩ | hf | ⟨-, -, hr⟩
    · cases ht.symm.trans h
    · cases hf.symm.trans h; rfl
    · cases hr.symm.trans h
  · rcases exec_outcome i s with ⟨t, ht⟩ | hf | ⟨hi, -, hr⟩
    · cases ht.symm.trans h
    · cases hf.symm.trans h
    · cases hr.symm.trans h; exact ⟨hi, rfl⟩
  · rw [exec_huff_refused_iff, TablesUsable]
    push Not
    rfl

end Sys2Proof.Machine
end

section
/-! PROOFS. The snapshot (R54): a latched command reads its parameters from the latch, so that it commutes with a change
of the live parameter registers. Settles O10. -/

namespace Sys2Proof.Machine

variable {N : NumImpl} {s t : State N} {ch : BitVec 1} {q : Params}

/-! ### Other live parameter registers -/

/-- The state with other live parameter registers. -/
def State.withPar (s : State N) (q : Params) : State N := { s with par := q }

/-- A latched command's snapshot is the latch's, whatever the live registers hold. -/
theorem snap_withPar {l : Latch} (hl : s.latch = some l) : (s.withPar q).snap = s.snap := by
  rw [State.snap_of_latch s hl, State.snap_of_latch (s.withPar q) hl]

theorem withPar_bitSource {l : Latch} (hl : s.latch = some l) : (s.withPar q).bitSource = s.bitSource := by
  rw [State.bitSource, snap_withPar hl]
  rfl

theorem withPar_chan (c : BitVec 1) : (s.withPar q).chan c = s.chan c := rfl

theorem withPar_isq : (s.withPar q).isq = s.isq := rfl

theorem withPar_free : (s.withPar q).free = s.free := rfl

theorem withPar_readScales (p : Params) : (s.withPar q).readScales p = s.readScales p := rfl

theorem withPar_setChan (c : BitVec 1) (x : Channel N) : (s.withPar q).setChan c x = (s.setChan c x).withPar q := by
  unfold State.setChan; split <;> rfl

theorem synthStep_withPar (p : Params) (k : Nat) :
    synthStep ch p k (s.withPar q) = (synthStep ch p k s).map (State.withPar · q) := by
  unfold synthStep
  rw [withPar_chan]
  cases Store.block unspecified (s.chan ch).sbs (32 * k) 32 with
  | none => rfl
  | some sb =>
    cases Store.block N.zeroed (s.chan ch).vr 0 1024 with
    | none => rfl
    | some ring => simp only [withPar_setChan]; rfl

theorem synthSteps_withPar (p : Params) (ks : List Nat) :
    synthSteps ch p ks (s.withPar q) = (synthSteps ch p ks s).map (State.withPar · q) := by
  induction ks generalizing s with
  | nil => rfl
  | cons k ks ih =>
    rw [synthSteps, synthSteps, synthStep_withPar]
    cases synthStep ch p k s with
    | none => rfl
    | some u => exact ih

/-! ### Outcomes that agree but for the live registers -/

/-- Two outcomes that end the same way, with next states that differ in the live registers only: these are `p` and `q`,
but for BITPOS if `writesPos` holds, which then is the same in both. -/
def Shields (writesPos : Prop) (p q : Params) (o o' : Host.Outcome (State N) Fault Refusal) : Prop :=
  match o, o' with
  | .next t, .next t' =>
    t'.withPar t.par = t ∧
      ((t.par = p ∧ t'.par = q) ∨
        (writesPos ∧ t.par = { p with pos := t.par.pos } ∧ t'.par = { q with pos := t.par.pos }))
  | .fault f, .fault f' => f = f'
  | .refused r, .refused r' => r = r'
  | _, _ => False

theorem shields_next {writesPos : Prop} {p : Params} (ht : t.par = p) :
    Shields writesPos p q (.next t) (.next (t.withPar q)) :=
  ⟨rfl, .inl ⟨ht, rfl⟩⟩

section commands

variable {writesPos : Prop} {l : Latch} (hl : s.latch = some l)

include hl

theorem shields_deq : Shields writesPos s.par q (execDeq ch s) (execDeq ch (s.withPar q)) := by
  unfold execDeq
  rw [snap_withPar hl, withPar_readScales, withPar_isq, withPar_chan]
  split
  · exact shields_next rfl
  · split
    · simp only [withPar_setChan]
      exact shields_next (by simp)
    · rfl

theorem shields_aa : Shields writesPos s.par q (execAa ch s) (execAa ch (s.withPar q)) := by
  unfold execAa
  rw [snap_withPar hl, withPar_chan, withPar_free]
  split
  · rw [withPar_setChan]
    exact shields_next (by simp)
  · rfl

theorem shields_imdct : Shields writesPos s.par q (execImdct ch s) (execImdct ch (s.withPar q)) := by
  unfold execImdct
  rw [snap_withPar hl, withPar_chan, withPar_free]
  split
  · rw [withPar_setChan]
    exact shields_next (by simp)
  · rfl

theorem shields_synthesize (ks : List Nat) :
    Shields writesPos s.par q (synthesize ch ks s) (synthesize ch ks (s.withPar q)) := by
  unfold synthesize
  rw [snap_withPar hl, synthSteps_withPar]
  split
  · exact shields_next rfl
  · cases hs : synthSteps ch s.snap ks s with
    | none => rfl
    | some u =>
      obtain ⟨-, hpar, -⟩ := synthSteps_keeps hs
      exact shields_next (t := u.complete) hpar

/-- R216: a HUFF that completes writes BITPOS, from the snapshot alone; one that aborts writes no register. -/
theorem shields_huff (hpos : writesPos) : Shields writesPos s.par q (execHuff s) (execHuff (s.withPar q)) := by
  unfold execHuff
  rw [snap_withPar hl, withPar_bitSource hl]
  split
  · split
    · exact ⟨rfl, .inr ⟨hpos, rfl, rfl⟩⟩
    · exact shields_next rfl
    · rfl
  · rfl

end commands

theorem shields_exec {i : Instr} {s : State} {l : Latch} (hl : s.latch = some l) :
    Shields (i = .huff) s.par q (exec i s) (exec i (s.withPar q)) := by
  cases i with
  | nop => exact shields_next rfl
  | huff => exact shields_huff hl rfl
  | deq ch => exact shields_deq hl
  | aa ch => exact shields_aa hl
  | imdct ch => exact shields_imdct hl
  | synth ch k => exact shields_synthesize hl _
  | synthg ch => exact shields_synthesize hl _
  | clrh mask => exact shields_next rfl

/-- Settles O10: the latch's snapshot is what each command reads, so its outcome keeps the live registers' change. -/
theorem snapshotShieldsCommand : Obligations.SnapshotShieldsCommand := by
  intro i s l q hl
  have h : Shields (i = .huff) s.par q (exec i s) (exec i { s with par := q }) := shields_exec hl
  refine ⟨State.snap_of_latch s hl, ?_⟩
  generalize exec i s = o at h ⊢
  generalize exec i { s with par := q } = o' at h ⊢
  cases o <;> cases o' <;> exact h

end Sys2Proof.Machine
end

section
/-! PROOFS. DEQ (R250–R257): the bands of the ROM tables, the scalefactors that a granule reads, and the line and the
exponent that each XR cell takes its value from. Settles O43. -/

namespace Sys2Proof.Machine

variable {N : NumImpl} {s : State N} {ch : BitVec 1} {p : Params} {b i k w : Nat}

/-! ### Blocks of a memory -/

section blocks

variable {v : Nat} {d : Option (BitVec v)} {m : Store v} {base n : Nat}

/-- What a block that was read says of each of its cells. -/
theorem Store.get_of_block (hm : Store.Rising m) {vs : List (BitVec v)} (h : Store.block d m base n = some vs)
    (hk : k < n) : Store.get d m (base + k) = some (vs.getD k 0#v) := by
  obtain ⟨hlen, hget⟩ := (Store.block_eq_some_iff hm).1 h
  rw [hget k (hlen ▸ hk), List.getD_eq_getElem _ _ (hlen ▸ hk)]

/-- A block with a cell that holds no value cannot be read. -/
theorem Store.block_eq_none (hm : Store.Rising m) (hk : k < n) (h : Store.get d m (base + k) = none) :
    Store.block d m base n = none := by
  cases hb : Store.block d m base n with
  | none => rfl
  | some vs => cases h.symm.trans (Store.get_of_block hm hb hk)

end blocks

/-! ### The band tables (R251) -/

section tables

variable (ha : DeqAccepts p)

include ha

theorem longOf_rising : (longOf p).Pairwise (· < ·) :=
  (by decide : ∀ f, f ≤ 8 → (longRowOf f).Pairwise (· < ·)) _ ha.1

theorem shortOf_rising : (shortOf p).Pairwise (· < ·) :=
  (by decide : ∀ f, f ≤ 8 → (shortRowOf f).Pairwise (· < ·)) _ ha.1

theorem length_longOf : (longOf p).length = 23 := (by decide : ∀ f, f ≤ 8 → (longRowOf f).length = 23) _ ha.1

theorem length_shortOf : (shortOf p).length = 14 := (by decide : ∀ f, f ≤ 8 → (shortRowOf f).length = 14) _ ha.1

theorem longAt_le (hb : b ≤ 22) : longAt p b ≤ 576 :=
  (by decide : ∀ f, f ≤ 8 → ∀ b, b ≤ 22 → (longRowOf f).getD b 0 ≤ 576) _ ha.1 b hb

theorem shortAt_le (hb : b ≤ 13) : shortAt p b ≤ 192 :=
  (by decide : ∀ f, f ≤ 8 → ∀ b, b ≤ 13 → (shortRowOf f).getD b 0 ≤ 192) _ ha.1 b hb

/-- R253: in a mixed block the short bands that hold short lines begin at line 12 of their window, line 36 of IS. -/
theorem shortAt_mixed (hu : ShortBandUsed p b) (hb : b ≤ 12) (hmix : p.block.mix = true) : 12 ≤ shortAt p b := by
  have hall : ∀ f, f < 8 → ∀ b, b ≤ 12 → 3 ≤ b → 12 ≤ (shortRowOf f).getD b 0 := by decide
  obtain ⟨hle, hne⟩ := ha
  obtain ⟨hbt, h3⟩ := hu
  exact hall _ (lt_of_le_of_ne hle fun h8 => hne ⟨h8, hbt, hmix⟩) b hb (h3 hmix)

end tables

/-- In rising bounds, the band of a line between two neighbours is the first one's. -/
theorem bandOf_eq {bounds : List Nat} (hr : bounds.Pairwise (· < ·)) (hb : b + 1 < bounds.length)
    (hlo : bounds.getD b 0 ≤ i) (hhi : i < bounds.getD (b + 1) 0) : bandOf bounds i = b := by
  induction bounds generalizing b with
  | nil => simp at hb
  | cons x bounds ih =>
    cases bounds with
    | nil => simp at hb
    | cons next rest =>
      obtain ⟨-, hr⟩ := List.pairwise_cons.1 hr
      cases b with
      | zero => exact if_pos (by simpa using hhi)
      | succ b =>
        have hb : b + 1 < (next :: rest).length := by simpa using hb
        have hnext : next ≤ i := by
          cases b with
          | zero => simpa using hlo
          | succ b =>
            obtain ⟨hlt, -⟩ := List.pairwise_cons.1 hr
            have hmem : rest.getD b 0 ∈ rest := by
              rw [List.getD_eq_getElem _ _ (by simpa using Nat.lt_of_succ_lt hb)]
              exact List.getElem_mem _
            exact (hlt _ hmem).le.trans (by simpa using hlo)
        rw [bandOf, if_neg (Nat.not_lt.2 hnext), ih hr hb (by simpa using hlo) (by simpa using hhi)]

theorem longBand_eq (ha : DeqAccepts p) (hb : b ≤ 21) (hlo : longAt p b ≤ i) (hhi : i < longAt p (b + 1)) :
    longBand p i = b :=
  bandOf_eq (longOf_rising ha) (by rw [length_longOf ha]; omega) hlo hhi

theorem isLongLine_iff : isLongLine p i = true ↔ LongLine p i := by simp [isLongLine, LongLine]

/-! ### The short lines (R257) -/

section short

variable (ha : DeqAccepts p) (hu : ShortBandUsed p b) (hb : b ≤ 12) (hw : w < 3)
  (hk : k < shortAt p (b + 1) - shortAt p b)

include ha hu hb

/-- No line from short band b's first on is long. -/
theorem isLongLine_short (hi : 3 * shortAt p b ≤ i) : isLongLine p i = false := by
  rw [Bool.eq_false_iff, Ne, isLongLine_iff]
  rintro (h | ⟨hmix, hlt⟩)
  · exact h hu.1
  · have := shortAt_mixed ha hu hb hmix
    omega

omit hu in
/-- The band of a line of one window between the bounds of band b. -/
theorem bandOf_short (hlo : shortAt p b ≤ i) (hhi : i < shortAt p (b + 1)) : bandOf (shortOf p) i = b :=
  bandOf_eq (shortOf_rising ha) (by rw [length_shortOf ha]; omega) hlo hhi

include hw hk

/-- R257: the cell that line k of band b in window w goes to takes its value from that line of IS. -/
theorem deqSource_short : deqSource p (3 * (shortAt p b + k) + w) =
    3 * shortAt p b + w * (shortAt p (b + 1) - shortAt p b) + k := by
  have hband : bandOf (shortOf p) (shortAt p b + k) = b := bandOf_short ha hb (by omega) (by omega)
  have hdiv : (3 * (shortAt p b + k) + w) / 3 = shortAt p b + k := by omega
  have hmod : (3 * (shortAt p b + k) + w) % 3 = w := by omega
  rw [deqSource, isLongLine_short ha hu hb (by omega), hdiv, hmod, hband]
  show 3 * shortAt p b + w * (shortAt p (b + 1) - shortAt p b) + (shortAt p b + k - shortAt p b) = _
  rw [Nat.add_sub_cancel_left]

omit hu in
/-- Line k of band b in window w lies in band b of IS. -/
theorem shortBand_eq : shortBand p (3 * shortAt p b + w * (shortAt p (b + 1) - shortAt p b) + k) = b := by
  have hwin : w * (shortAt p (b + 1) - shortAt p b) ≤ 2 * (shortAt p (b + 1) - shortAt p b) :=
    Nat.mul_le_mul_right _ (by omega)
  exact bandOf_short ha hb (by omega) (by omega)

omit hu in
/-- Line k of band b in window w lies in window w. -/
theorem shortWin_eq : shortWin p (3 * shortAt p b + w * (shortAt p (b + 1) - shortAt p b) + k) = w := by
  rw [shortWin, shortBand_eq ha hb hw hk]
  show (3 * shortAt p b + w * (shortAt p (b + 1) - shortAt p b) + k - 3 * shortAt p b) /
    (shortAt p (b + 1) - shortAt p b) = w
  rw [Nat.add_assoc, Nat.add_sub_cancel_left, Nat.mul_comm, Nat.mul_add_div (by omega), Nat.div_eq_of_lt hk,
    Nat.add_zero]

end short

/-! ### The scalefactors read (R254) -/

theorem longScaleCount_le (ha : DeqAccepts p) : longScaleCount p ≤ 21 := by
  have hall : ∀ f, f ≤ 8 → ((longRowOf f).filter (fun l => decide (l < 36))).length ≤ 21 := by decide
  unfold longScaleCount
  split
  · exact le_rfl
  · split
    · exact hall _ ha.1
    · omega

/-- The scalefactors that DEQ reads for long bands are those of the bands whose first line is long. -/
theorem lt_longScaleCount_iff (ha : DeqAccepts p) (hb : b ≤ 20) : b < longScaleCount p ↔ LongLine p (longAt p b) := by
  have hall : ∀ f, f ≤ 8 → ∀ b, b ≤ 20 →
      (b < ((longRowOf f).filter (fun l => decide (l < 36))).length ↔ (longRowOf f).getD b 0 < 36) := by decide
  unfold longScaleCount LongLine
  by_cases hbt : p.block.bt = 2#2
  · cases hmix : p.block.mix with
    | false => simp [hbt]
    | true =>
      rw [if_neg (by simp [hbt]), if_pos rfl]
      exact (hall _ ha.1 b hb).trans (by simp [hbt, longAt])
  · exact iff_of_true (by rw [if_pos hbt]; omega) (.inl hbt)

/-- The scalefactors of the short bands that hold short lines lie in the block of SFS that DEQ reads. -/
theorem shortScale_range (hu : ShortBandUsed p b) (hb : b ≤ 11) (hw : w < 3) :
    shortScaleBase p ≤ 3 * b + w ∧ 3 * b + w - shortScaleBase p < shortScaleCount p := by
  obtain ⟨hbt, h3⟩ := hu
  rw [shortScaleCount, if_neg (by simp [hbt]), shortScaleBase]
  split
  next hmix =>
    have := h3 hmix
    omega
  next => omega

/-- A scalefactor in the block of SFS that DEQ reads is that of a short band that holds short lines. -/
theorem shortBandUsed_of_lt (hk : k < shortScaleCount p) : ShortBandUsed p ((shortScaleBase p + k) / 3) ∧
    (shortScaleBase p + k) / 3 ≤ 11 := by
  unfold shortScaleCount at hk
  split at hk
  · omega
  · rename_i hbt
    refine ⟨⟨by simpa using hbt, fun hmix => ?_⟩, by omega⟩
    rw [shortScaleBase, if_pos hmix]
    omega

/-- The blocks of SFL and SFS that make up the scalefactors read. -/
theorem readScales_some {c : Scales} (h : s.readScales p = some c) :
    Store.block unspecified s.sfl 0 (longScaleCount p) = some c.long ∧
    Store.block unspecified s.sfs (shortScaleBase p) (shortScaleCount p) = some c.short ∧
    c.sfsBase = shortScaleBase p := by
  unfold State.readScales at h
  split at h
  · obtain rfl := Option.some.inj h
    exact ⟨‹_›, ‹_›, rfl⟩
  · cases h

section scales

variable {c : Scales} (ha : DeqAccepts s.snap) (hs : s.memoryWf = true)

include ha hs

/-- R254: DEQ can read its scalefactors when each of R254 holds a value. -/
theorem readScales_isSome (hw : ScalesWritten s) : ∃ c, s.readScales s.snap = some c := by
  obtain ⟨-, hsfl, hsfs, -⟩ := memoryWf_iff.1 hs
  obtain ⟨hlong, hshort⟩ := hw
  have hl (k : Nat) (hk : k < longScaleCount s.snap) : (Store.get unspecified s.sfl (0 + k)).isSome := by
    have hk20 : k ≤ 20 := by have := longScaleCount_le ha; omega
    rw [Nat.zero_add]
    exact hlong k hk20 ((lt_longScaleCount_iff ha hk20).1 hk)
  have hh (k : Nat) (hk : k < shortScaleCount s.snap) :
      (Store.get unspecified s.sfs (shortScaleBase s.snap + k)).isSome := by
    obtain ⟨hused, h11⟩ := shortBandUsed_of_lt hk
    rw [← Nat.div_add_mod (shortScaleBase s.snap + k) 3]
    exact hshort _ _ h11 (Nat.mod_lt _ (by decide)) hused
  obtain ⟨long, hlong⟩ := Store.block_isSome (Store.rising_of_wf hsfl) hl
  obtain ⟨short, hshort⟩ := Store.block_isSome (Store.rising_of_wf hsfs) hh
  exact ⟨_, by rw [State.readScales, hlong, hshort]⟩

variable (hc : s.readScales s.snap = some c)

include hc

/-- A scalefactor of a long band that DEQ reads. -/
theorem get_longScale (hb : b ≤ 20) (hl : LongLine s.snap (longAt s.snap b)) :
    Store.get unspecified s.sfl b = some (c.long.getD b 0#6) := by
  obtain ⟨-, hsfl, -⟩ := memoryWf_iff.1 hs
  obtain ⟨hlong, -⟩ := readScales_some hc
  simpa using Store.get_of_block (Store.rising_of_wf hsfl) hlong ((lt_longScaleCount_iff ha hb).2 hl)

omit ha in
/-- A scalefactor of a short band that DEQ reads. -/
theorem get_shortScale (hb : b ≤ 11) (hw : w < 3) (hu : ShortBandUsed s.snap b) :
    Store.get unspecified s.sfs (3 * b + w) = some (c.short.getD (3 * b + w - c.sfsBase) 0#6) := by
  obtain ⟨-, -, hsfs, -⟩ := memoryWf_iff.1 hs
  obtain ⟨-, hshort, hbase⟩ := readScales_some hc
  obtain ⟨hle, hlt⟩ := shortScale_range hu hb hw
  have hget := Store.get_of_block (Store.rising_of_wf hsfs) hshort hlt
  rwa [Nat.add_sub_cancel' hle, ← hbase] at hget

theorem scalesWritten_of_readScales : ScalesWritten s :=
  ⟨fun _ hb hl => Option.isSome_iff_exists.2 ⟨_, get_longScale ha hs hc hb hl⟩,
    fun _ _ hb hw hu => Option.isSome_iff_exists.2 ⟨_, get_shortScale hs hc hb hw hu⟩⟩

theorem ofLong_eq_longScale (hl : LongLine s.snap (longAt s.snap b)) : c.ofLong b = longScale s b := by
  unfold Scales.ofLong longScale
  split
  · rw [get_longScale ha hs hc ‹_› hl, Option.getD_some]
  · rfl

omit ha in
theorem ofShort_eq_shortScale (hu : ShortBandUsed s.snap b) (hw : w < 3) : c.ofShort b w = shortScale s b w := by
  unfold Scales.ofShort shortScale
  split
  · rw [get_shortScale hs hc ‹_› hw hu, Option.getD_some]
  · rfl

end scales

/-! ### The values written (R255, R257) -/

theorem sfStep_eq (p : Params) : sfStep p = scaleStep p := by
  unfold sfStep scaleStep
  cases p.gain.ss <;> rfl

theorem subblockGain_eq (p : Params) (hw : w < 3) : subblockGain p w = windowGain p w := by
  interval_cases w <;> rfl

theorem preTerm_eq (p : Params) (b : Nat) :
    preTerm p b = if p.gain.pre = true ∧ b ≤ 20 then pretab.getD b 0 else 0 := by
  simp [preTerm]

/-- R259: DEQ refuses exactly the parameters that it does not accept. -/
theorem deqRefuses_eq_false_iff : deqRefuses p = false ↔ DeqAccepts p := by
  simp [deqRefuses, DeqAccepts]

/-- R255: the exponent of a long line of band b. -/
theorem exponent_long {c : Scales} (ha : DeqAccepts p) (hl : LongLine p i) (hb : b ≤ 21) (hlo : longAt p b ≤ i)
    (hhi : i < longAt p (b + 1)) :
    exponent p c i = (p.gain.gg.toNat : Int) - 210 - scaleStep p *
      (c.ofLong b + if p.gain.pre = true ∧ b ≤ 20 then pretab.getD b 0 else 0) := by
  rw [exponent, if_pos (isLongLine_iff.2 hl), longBand_eq ha hb hlo hhi, preTerm_eq, sfStep_eq]

/-- R255: the exponent of line k of short band b in window w. -/
theorem exponent_short {c : Scales} (ha : DeqAccepts p) (hu : ShortBandUsed p b) (hb : b ≤ 12) (hw : w < 3)
    (hk : k < shortAt p (b + 1) - shortAt p b) :
    exponent p c (3 * shortAt p b + w * (shortAt p (b + 1) - shortAt p b) + k) =
      (p.gain.gg.toNat : Int) - 210 - 8 * windowGain p w - scaleStep p * c.ofShort b w := by
  have hlong : isLongLine p (3 * shortAt p b + w * (shortAt p (b + 1) - shortAt p b) + k) = false :=
    isLongLine_short ha hu hb (by omega)
  rw [exponent, hlong, if_neg (by decide), shortBand_eq ha hb hw hk, shortWin_eq ha hb hw hk, subblockGain_eq p hw,
    sfStep_eq]

/-- R253: every line below a long line is long. -/
theorem LongLine.mono {j : Nat} (h : LongLine p i) (hj : j ≤ i) : LongLine p j :=
  h.imp_right fun ⟨hmix, hlt⟩ => ⟨hmix, hj.trans_lt hlt⟩

/-- The state that a completed DEQ on the spectrum `is` and the scalefactors `c` ends in. -/
def State.deqDone (s : State N) (ch : BitVec 1) (is : List (BitVec 16)) (c : Scales) : State N :=
  (s.setChan ch { s.chan ch with
    xr := Store.fill unspecified (s.chan ch).xr 0 ((List.range 576).map (dequantized s.snap c is)) }).complete

theorem execDeq_of_read {is : List (BitVec 16)} {c : Scales} (ha : DeqAccepts s.snap)
    (hi : Store.block unspecified s.isq 0 576 = some is) (hc : s.readScales s.snap = some c) :
    execDeq ch s = .next (s.deqDone ch is c) := by
  rw [execDeq, deqRefuses_eq_false_iff.2 ha, if_neg (by decide), hi, hc]
  rfl

theorem deqDone_chan (is : List (BitVec 16)) (c : Scales) : (s.deqDone ch is c).chan ch = { s.chan ch with
    xr := Store.fill unspecified (s.chan ch).xr 0 ((List.range 576).map (dequantized s.snap c is)) } := by
  rw [State.deqDone, State.complete_chan, State.setChan_chan_self]

/-- A command that replaces one channel's memories and completes changes nothing else but DONE and the latch. -/
theorem setChan_complete_frame (c : BitVec 1) (x : Channel N) :
    CompletesWithin s (s.setChan c x).complete ∧ NoOutput s (s.setChan c x).complete ∧
      (s.setChan c x).complete.free = s.free ∧ OnlyChannel s (s.setChan c x).complete c := by
  refine ⟨?_, by simp [NoOutput], by simp, fun c' hne => by rw [State.complete_chan, State.setChan_chan_ne s hne]⟩
  rcases channel_cases c with rfl | rfl
  · rfl
  · rfl

theorem deqDone_frame (s : State N) (ch : BitVec 1) (is : List (BitVec 16)) (c : Scales) :
    CompletesWithin s (s.deqDone ch is c) ∧ NoOutput s (s.deqDone ch is c) ∧ (s.deqDone ch is c).free = s.free ∧
      OnlyChannel s (s.deqDone ch is c) ch :=
  setChan_complete_frame ch _

/-- XR cell j holds the value of the line of IS that it takes, at that line's exponent. -/
theorem get_deqDone {is : List (BitVec 16)} {c : Scales} {j : Nat} {v : BitVec 16} (hs : s.memoryWf = true)
    (hi : Store.block unspecified s.isq 0 576 = some is) (hj : j < 576) (hlt : deqSource s.snap j < 576)
    (hv : Store.get unspecified s.isq (deqSource s.snap j) = some v) :
    Store.get unspecified ((s.deqDone ch is c).chan ch).xr j =
      some (N.ops.deq v.toInt (exponent s.snap c (deqSource s.snap j))) := by
  obtain ⟨-, -, -, hisq, -, hchan⟩ := memoryWf_iff.1 hs
  obtain ⟨hxr, -⟩ := channel_memoryWf_iff.1 (hchan ch)
  have hread := Store.get_of_block (Store.rising_of_wf hisq) hi hlt
  rw [Nat.zero_add, hv] at hread
  have hget := Store.get_fill_mem (d := unspecified) (Store.rising_of_wf hxr) 0
    ((List.range 576).map (dequantized s.snap c is)) (k := j) (by simpa using hj)
  rw [Nat.zero_add] at hget
  rw [deqDone_chan, hget, List.getElem_map, List.getElem_range, dequantized, ← Option.some.inj hread]

/-- Settles O43: each XR cell takes the line that goes to it, with the exponent of that line's band and window. -/
theorem deqDequantizesEveryLine : Obligations.DeqDequantizesEveryLine := by
  intro s ch hinv ha hwritten hscales
  obtain ⟨hs, -⟩ := inv_iff.1 hinv
  obtain ⟨-, -, -, hisq, -⟩ := memoryWf_iff.1 hs
  obtain ⟨is, hi⟩ := Store.block_isSome (d := unspecified) (base := 0) (n := 576) (Store.rising_of_wf hisq)
    fun k hk => by simpa using hwritten k hk
  obtain ⟨c, hc⟩ := readScales_isSome ha hs hscales
  obtain ⟨hcomplete, hout, hfree, honly⟩ := deqDone_frame s ch is c
  refine ⟨_, execDeq_of_read ha hi hc, hcomplete, hout, hfree, honly, ?_, fun i b v hl hb hlo hhi hv => ?_,
    fun b w k v hu hb hw hk hv => ?_⟩
  · rw [deqDone_chan]
  · have hsrc : deqSource s.snap i = i := if_pos (isLongLine_iff.2 hl)
    have hlt : i < 576 := hhi.trans_le (longAt_le ha (by omega))
    rw [get_deqDone hs hi hlt (hsrc.symm ▸ hlt) (hsrc.symm ▸ hv), hsrc, exponent_long ha hl hb hlo hhi,
      ofLong_eq_longScale ha hs hc (hl.mono hlo)]
  · have hsrc := deqSource_short ha hu hb hw hk
    have hle := shortAt_le ha (show b + 1 ≤ 13 by omega)
    have hwin : w * (shortAt s.snap (b + 1) - shortAt s.snap b) ≤ 2 * (shortAt s.snap (b + 1) - shortAt s.snap b) :=
      Nat.mul_le_mul_right _ (by omega)
    rw [get_deqDone hs hi (by omega) (by omega) (hsrc.symm ▸ hv), hsrc, exponent_short ha hu hb hw hk,
      ofShort_eq_shortScale hs hc hu hw]

end Sys2Proof.Machine
end

section
/-! PROOFS. HUFF's run over a granule (R200, R207, R212): after pairs and quadruples that decode one after the other, the
regions go on from there. The command then stops at a byte of BITBUF that holds no value (R57, R504). -/

namespace Sys2Proof.Machine

variable {N : NumImpl} {s : State N} {rs : Nat → Reader} {x y : Nat → Int} {qs : Nat → List Int}

/-- The progress of a granule after its first pairs have decoded: pair k to (x k, y k), with the reader `rs k` before
it. -/
def pairsDone (p : Params) (rs : Nat → Reader) (x y : Nat → Int) : Nat → Progress
  | 0 => ⟨[], rs 0, earlyWarns p⟩
  | k + 1 => ⟨BitVec.ofInt 16 (y k) :: BitVec.ofInt 16 (x k) :: (pairsDone p rs x y k).rev, rs (k + 1),
      (pairsDone p rs x y k).warns ||| Warn.table.maskIf (isReservedTable (pairTable p (2 * k)))⟩

theorem pairsDone_reader (p : Params) (k : Nat) : (pairsDone p rs x y k).reader = rs k := by cases k <;> rfl

/-- The big-values region after pairs that decode goes on with the rest of its pairs. -/
theorem bigValues_of_pairsDecode {k : Nat} (h : PairsDecode s k rs x y) (n : Nat) :
    bigValues s.bitSource s.snap (n + k) 0 ⟨[], ⟨s.snap.pos.toNat, 0⟩, earlyWarns s.snap⟩ =
      bigValues s.bitSource s.snap n k (pairsDone s.snap rs x y k) := by
  obtain ⟨hpos, hpairs⟩ := h
  induction k generalizing n with
  | zero => rw [pairsDone, hpos]; rfl
  | succ k ih =>
    have hpair : readPair s.bitSource (pairTable s.snap (2 * k)) (pairsDone s.snap rs x y k).reader =
        .ok (x k, y k) (rs (k + 1)) := by
      rw [pairsDone_reader]
      exact hpairs k (Nat.lt_succ_self k)
    rw [show n + (k + 1) = n + 1 + k by omega, ih _ (fun j hj => hpairs j (by omega)), bigValues, hpair]
    rfl

/-- The progress of a granule after its first whole quadruples have decoded: quadruple j to `qs j`. -/
def quadsDone (g : Progress) (rs : Nat → Reader) (qs : Nat → List Int) : Nat → Progress
  | 0 => g
  | m + 1 => ⟨((qs m).map (BitVec.ofInt 16)).reverse ++ (quadsDone g rs qs m).rev, rs (m + 1), g.warns⟩

theorem quadsDone_warns (g : Progress) (m : Nat) : (quadsDone g rs qs m).warns = g.warns := by cases m <;> rfl

theorem quadsDone_reader {g : Progress} (hg : g.reader = rs 0) (m : Nat) : (quadsDone g rs qs m).reader = rs m := by
  cases m with
  | zero => exact hg
  | succ m => rfl

/-- The count1 region after whole quadruples that decode goes on from the line after them. -/
theorem count1_of_quadsDecode {m : Nat} (h : QuadsDecode s m rs qs) {g : Progress}
    (hg : g.reader = rs (pairsOf s.snap)) (fuel : Nat) :
    count1 s.bitSource s.snap.gain.c1sel (budgetOf s.snap) (fuel + m) (2 * pairsOf s.snap) g =
      count1 s.bitSource s.snap.gain.c1sel (budgetOf s.snap) fuel (2 * pairsOf s.snap + 4 * m)
        (quadsDone g (fun j => rs (pairsOf s.snap + j)) qs m) := by
  induction m generalizing fuel with
  | zero => rfl
  | succ m ih =>
    obtain ⟨hstart, hquad⟩ := h m (Nat.lt_succ_self m)
    have hreader : (quadsDone g (fun j => rs (pairsOf s.snap + j)) qs m).reader = rs (pairsOf s.snap + m) :=
      quadsDone_reader (rs := fun j => rs (pairsOf s.snap + j)) hg m
    rw [nextQuad, ← hreader] at hquad
    rw [QuadStarts, ← hreader] at hstart
    rw [show fuel + (m + 1) = fuel + 1 + m by omega, ih (fun j hj => h j (by omega)), count1, if_pos hstart, hquad]
    simp [quadsDone, quadsDone_warns, Nat.mul_add, Nat.add_assoc]

/-! ### HUFF at a byte without a value -/

theorem execHuff_of_unwritten (ht : TablesUsable s.snap) (hd : (decodeSpectrum s.bitSource s.snap).2 = .unwritten) :
    execHuff s = .fault .unwritten := by
  rw [execHuff, if_pos (tablesUsable_iff.2 ht)]
  generalize decodeSpectrum s.bitSource s.snap = d at hd
  obtain ⟨⟨g, line⟩, verdict⟩ := d
  obtain rfl : verdict = .unwritten := hd
  rfl

/-- Pair k meets a byte of BITBUF that holds no value. -/
theorem decodeSpectrum_of_pair_unwritten {k : Nat} (hk : k < pairsOf s.snap) (h : PairsDecode s k rs x y)
    (hpair : readPair s.bitSource (tableOf s.snap k) (rs k) = .unwritten) :
    (decodeSpectrum s.bitSource s.snap).2 = .unwritten := by
  have hcount : pairCount s.snap = pairsOf s.snap - k - 1 + 1 + k := by
    rw [show pairCount s.snap = pairsOf s.snap from rfl]
    omega
  have hread : readPair s.bitSource (pairTable s.snap (2 * k)) (pairsDone s.snap rs x y k).reader = .unwritten := by
    rw [pairsDone_reader]
    exact hpair
  rw [decodeSpectrum, hcount, bigValues_of_pairsDecode h, bigValues, hread]

/-- Quadruple m meets a byte of BITBUF that holds no value. -/
theorem decodeSpectrum_of_quad_unwritten {m : Nat} (hp : PairsDecode s (pairsOf s.snap) rs x y)
    (hq : QuadsDecode s m rs qs)
    (hstart : QuadStarts s (2 * pairsOf s.snap + 4 * m) (rs (pairsOf s.snap + m)))
    (hquad : nextQuad s (rs (pairsOf s.snap + m)) = .unwritten) :
    (decodeSpectrum s.bitSource s.snap).2 = .unwritten := by
  have hfuel : maxQuads = 143 - m + 1 + m := by
    have := hstart.1
    rw [maxQuads]
    omega
  have hbig := bigValues_of_pairsDecode hp 0
  rw [Nat.zero_add, bigValues] at hbig
  have hg : (pairsDone s.snap rs x y (pairsOf s.snap)).reader = rs (pairsOf s.snap) := pairsDone_reader _ _
  have hreader := quadsDone_reader (rs := fun j => rs (pairsOf s.snap + j)) (qs := qs) hg m
  rw [QuadStarts, ← hreader] at hstart
  rw [nextQuad, ← hreader] at hquad
  have hcount := count1_of_quadsDecode hq hg (143 - m + 1)
  rw [count1, if_pos hstart, hquad, ← hfuel] at hcount
  rw [decodeSpectrum, show pairCount s.snap = pairsOf s.snap from rfl, hbig]
  exact congrArg Prod.snd hcount

end Sys2Proof.Machine
end

section
/-! PROOFS. Reads of cells that hold no value (R57, R504): a command that goes on has read every cell that R504 lists for
it, and a host read that is answered has read its cell. Settles O25. -/

namespace Sys2Proof.Machine

variable {N : NumImpl} {s t : State N} {ch : BitVec 1} {p : Params}

/-! ### Host reads -/

theorem answer_none (s : State N) : s.answer none = .fault .unwritten := rfl

theorem readPlace_of_cellUnwritten {place : Place} {i : Nat} (h : CellUnwritten s place i) :
    s.readPlace place i = none := by
  cases place with
  | register => cases h
  | bitbuf => cases h
  | sfl => exact congrArg (Option.map (BitVec.setWidth 32)) h
  | sfs => exact congrArg (Option.map (BitVec.setWidth 32)) h
  | isq => exact congrArg (Option.map (BitVec.signExtend 32)) h
  | xr c => exact congrArg (Option.map N.ops.enc) h
  | ovl c => cases h
  | sbs c => exact congrArg (Option.map N.ops.enc) h
  | vr c => cases h
  | pcm => exact h

section bitbuf

variable {m k : Nat} (hl : s.latch = none) (hm : m < 1024)

include hm

/-- R100: word m of BITBUF is located there. -/
theorem locate_bitbuf : locate (0x1000 + 4 * m) = some (.bitbuf, m) := by
  have ho : (⟨.bitbuf, 0x1000, 1024⟩ : MapRow).holds (0x1000 + 4 * m) = true := by
    simp only [MapRow.holds, Bool.and_eq_true, decide_eq_true_eq]
    omega
  rw [locate, find?_of_disjoint windowMap_disjoint (by decide) ho, Option.map_some]
  simp

theorem toNat_bitbufOffset (hk : k < 4) : (BitVec.ofNat 16 (0x1000 + 4 * m + k)).toNat = 0x1000 + 4 * m + k := by
  rw [BitVec.toNat_ofNat, Nat.mod_eq_of_lt (by omega)]

include hl

/-- Between commands, a word read of BITBUF answers its four bytes. -/
theorem hostAccess_read_bitbuf_word :
    hostAccess (.read .w32 (BitVec.ofNat 16 (0x1000 + 4 * m))) s = s.answer (s.bitbufWord m) := by
  have hbusy : s.busy = false := by rw [State.busy, hl]; rfl
  have hoff := toNat_bitbufOffset hm (show 0 < 4 by decide)
  have haccepts : accepts .w32 (0x1000 + 4 * m) = true := by simp only [accepts, decide_eq_true_eq]; omega
  rw [Nat.add_zero] at hoff
  simp [hostAccess, hoff, haccepts, State.readWord, locate_bitbuf hm, hbusy, State.readPlace]

/-- Between commands, a byte read of BITBUF answers its byte. -/
theorem hostAccess_read_bitbuf_byte (hk : k < 4) :
    hostAccess (.read .w8 (BitVec.ofNat 16 (0x1000 + 4 * m + k))) s =
      s.answer ((Store.get unspecified s.bitbuf (4 * m + k)).map (fun b => b.setWidth 32)) := by
  have hbusy : s.busy = false := by rw [State.busy, hl]; rfl
  have haccepts : accepts .w8 (0x1000 + 4 * m + k) = true := by
    simp only [accepts, Bool.and_eq_true, decide_eq_true_eq]
    omega
  simp [hostAccess, toNat_bitbufOffset hm hk, haccepts, State.readByte, hbusy,
    show 0x1000 + 4 * m + k - 0x1000 = 4 * m + k by omega]

end bitbuf

theorem bitbufWord_eq_none {m k : Nat} (hs : s.memoryWf = true) (hk : k < 4)
    (h : Store.get unspecified s.bitbuf (4 * m + k) = none) : s.bitbufWord m = none := by
  obtain ⟨hbit, -⟩ := memoryWf_iff.1 hs
  rw [State.bitbufWord, Store.block_eq_none (Store.rising_of_wf hbit) hk h]

/-! ### What a command that goes on has read -/

theorem Store.written_of_block {v n : Nat} {m : Store v} (hm : Store.Rising m) {vs : List (BitVec v)}
    (h : Store.block unspecified m 0 n = some vs) : Store.written m n := fun a ha => by
  have hget := Store.get_of_block hm h ha
  rw [Nat.zero_add] at hget
  exact Option.isSome_iff_exists.2 ⟨_, hget⟩

theorem mem_aaBoundaries {b : Nat} : b ∈ aaBoundaries p ↔ AaBoundary p b := by
  unfold aaBoundaries AaBoundary
  split
  next hbt =>
    split
    next hmix =>
      rw [List.mem_singleton]
      exact ⟨fun h => ⟨by omega, by omega, .inr ⟨hmix, h⟩⟩, fun ⟨_, _, h⟩ => (h.resolve_left fun hne => hne hbt).2⟩
    next hmix => exact iff_of_false List.not_mem_nil fun ⟨_, _, h⟩ => hmix (h.resolve_left fun hne => hne hbt).1
  next hbt =>
    rw [List.mem_range'_1]
    exact ⟨fun h => ⟨h.1, by omega, .inl hbt⟩, fun h => ⟨h.1, by omega⟩⟩

theorem pairwise_aaBoundaries (p : Params) : (aaBoundaries p).Pairwise (· < ·) := by
  unfold aaBoundaries
  split
  · split <;> simp
  · exact List.pairwise_lt_range'

@[simp] theorem length_butterflies (slot : Nat) (cells : List N.R) : (butterflies slot cells).length = 16 := by
  simp [butterflies]

/-- R301: AA reads all the cells of its boundaries as they were before it, since no two boundaries share one. -/
theorem antialias_reads {bs : List Nat} {slot : Nat} {xr xr' : Store N.bits} (h : antialias bs slot xr = some xr')
    (hx : Store.Rising xr) (hbs : bs.Pairwise (· < ·)) (hpos : ∀ b ∈ bs, 1 ≤ b) :
    ∀ b ∈ bs, ∀ k, k < 16 → (Store.get unspecified xr (18 * b - 8 + k)).isSome := by
  induction bs generalizing slot xr with
  | nil => simp
  | cons b bs ih =>
    obtain ⟨hlt, hbs⟩ := List.pairwise_cons.1 hbs
    rw [antialias] at h
    split at h
    next cells hcells =>
      intro b' hb' k hk
      rcases List.mem_cons.1 hb' with rfl | hb'
      · exact Option.isSome_iff_exists.2 ⟨_, Store.get_of_block hx hcells hk⟩
      · have hnext := ih h (Store.rising_writes hx (pairwise_cellsFrom _ _)) hbs
          (fun b hb => hpos b (List.mem_cons_of_mem _ hb)) b' hb' k hk
        have hb := hpos b List.mem_cons_self
        have hbb := hlt b' hb'
        rwa [Store.get_fill_not_mem hx _ _ (by rw [length_butterflies]; omega)] at hnext
    next => cases h

theorem StepKeeps.sbs_eq (h : StepKeeps s t ch) : (t.chan ch).sbs = (s.chan ch).sbs := by
  obtain ⟨-, -, -, -, -, -, -, -, -, -, -, -, -, -, -, -, -, -, hsbs⟩ := h
  exact hsbs

/-- R350: each step of a synthesis reads the 32 cells of its SBS row. -/
theorem synthSteps_reads {ks : List Nat} (h : synthSteps ch p ks s = some t) (hs : Store.Rising (s.chan ch).sbs) :
    ∀ k ∈ ks, ∀ a, a < 32 → (Store.get unspecified (s.chan ch).sbs (32 * k + a)).isSome := by
  induction ks generalizing s with
  | nil => simp
  | cons k ks ih =>
    obtain ⟨u, hu, h⟩ := synthSteps_cons.1 h
    obtain ⟨sb, _, hrow, -, hkeeps, -⟩ := synthStep_some hu
    have hsbs := hkeeps.sbs_eq
    intro k' hk' a ha
    rcases List.mem_cons.1 hk' with rfl | hk'
    · exact Option.isSome_iff_exists.2 ⟨_, Store.get_of_block hs hrow ha⟩
    · have hnext := ih h (hsbs ▸ hs) k' hk' a ha
      rwa [hsbs] at hnext

theorem synthRefuses_eq_false_iff : synthRefuses p ch = false ↔ SynthAccepts p ch := by
  unfold synthRefuses SynthAccepts
  rcases channel_cases ch with rfl | rfl <;> simp

/-! ### Commands that stop -/

theorem execDeq_of_unwritten (hs : s.memoryWf = true) (ha : DeqAccepts s.snap)
    (h : ¬(Store.written s.isq 576 ∧ ScalesWritten s)) : execDeq ch s = .fault .unwritten := by
  obtain ⟨-, -, -, hisq, -⟩ := memoryWf_iff.1 hs
  refine (execDeq_outcome ch s).resolve_left fun ⟨t, ht⟩ => ?_
  rcases execDeq_next ht with ⟨hr, -⟩ | ⟨-, is, c, hi, hc, -⟩
  · rw [deqRefuses_eq_false_iff.2 ha] at hr
    cases hr
  · exact h ⟨Store.written_of_block (Store.rising_of_wf hisq) hi, scalesWritten_of_readScales ha hs hc⟩

theorem execAa_of_unwritten {b k : Nat} (hs : s.memoryWf = true) (hb : AaBoundary s.snap b) (hk : k < 16)
    (h : Store.get unspecified (s.chan ch).xr (18 * b - 8 + k) = none) : execAa ch s = .fault .unwritten := by
  obtain ⟨-, -, -, -, -, hchan⟩ := memoryWf_iff.1 hs
  obtain ⟨hxr, -⟩ := channel_memoryWf_iff.1 (hchan ch)
  refine (execAa_outcome ch s).resolve_left fun ⟨t, ht⟩ => ?_
  obtain ⟨xr, hread, -⟩ := execAa_next ht
  have hsome := antialias_reads hread (Store.rising_of_wf hxr) (pairwise_aaBoundaries s.snap)
    (fun b hb => (mem_aaBoundaries.1 hb).1) b (mem_aaBoundaries.2 hb) k hk
  rw [h] at hsome
  cases hsome

theorem execImdct_of_unwritten (hs : s.memoryWf = true) (h : ¬Store.written (s.chan ch).xr 576) :
    execImdct ch s = .fault .unwritten := by
  obtain ⟨-, -, -, -, -, hchan⟩ := memoryWf_iff.1 hs
  obtain ⟨hxr, -⟩ := channel_memoryWf_iff.1 (hchan ch)
  refine (execImdct_outcome ch s).resolve_left fun ⟨t, ht⟩ => ?_
  obtain ⟨_, _, hread, -⟩ := execImdct_next ht
  exact h (Store.written_of_block (Store.rising_of_wf hxr) hread)

theorem synthesize_of_unwritten {ks : List Nat} {k a : Nat} (hs : s.memoryWf = true) (ha : SynthAccepts s.snap ch)
    (hk : k ∈ ks) (ha32 : a < 32) (h : Store.get unspecified (s.chan ch).sbs (32 * k + a) = none) :
    synthesize ch ks s = .fault .unwritten := by
  obtain ⟨-, -, -, -, -, hchan⟩ := memoryWf_iff.1 hs
  obtain ⟨-, -, hsbs, -⟩ := channel_memoryWf_iff.1 (hchan ch)
  refine (synthesize_outcome ch ks s).resolve_left fun ⟨t, ht⟩ => ?_
  rcases synthesize_next ht with ⟨hr, -⟩ | ⟨-, u, hu, -⟩
  · rw [synthRefuses_eq_false_iff.2 ha] at hr
    cases hr
  · have hsome := synthSteps_reads hu (Store.rising_of_wf hsbs) k hk a ha32
    rw [h] at hsome
    cases hsome

/-- A granule's SBS cell without a value lies in one of the 18 rows. -/
theorem exists_row_of_not_written {v : Nat} {m : Store v} (h : ¬Store.written m 576) :
    ∃ k a, k < 18 ∧ a < 32 ∧ Store.get unspecified m (32 * k + a) = none := by
  unfold Store.written at h
  push Not at h
  obtain ⟨a, ha, hnone⟩ := h
  exact ⟨a / 32, a % 32, by omega, Nat.mod_lt _ (by decide), by simpa [Nat.div_add_mod] using hnone⟩

/-- Settles O25: a read of a cell without a value gives none, and so each reader stops. -/
theorem unwrittenReadsFault : Obligations.UnwrittenReadsFault := by
  refine ⟨fun s place base n i hl hr hi h => ?_, fun s m k hinv hl hm hk h => ⟨?_, ?_⟩,
    fun src r hend hbuf h => ?_, fun s hinv => ?_⟩
  · rw [hostAccess_read_cell hr hi hl, readPlace_of_cellUnwritten h, answer_none]
  · rw [hostAccess_read_bitbuf_word hl hm, bitbufWord_eq_none (inv_iff.1 hinv).1 hk h, answer_none]
  · rw [hostAccess_read_bitbuf_byte hl hm hk, h, Option.map_none, answer_none]
  · rw [getBit, if_neg (by omega), h]
  · obtain ⟨hs, -⟩ := inv_iff.1 hinv
    refine ⟨fun k rs x y ht hk hp h => ?_, fun m rs x y qs ht hp hq hstart h => ?_, fun ch => ⟨?_, ?_, ?_, ?_, ?_⟩⟩
    · exact execHuff_of_unwritten ht (decodeSpectrum_of_pair_unwritten hk hp h)
    · exact execHuff_of_unwritten ht (decodeSpectrum_of_quad_unwritten hp hq hstart h)
    · exact execDeq_of_unwritten hs
    · exact fun b k => execAa_of_unwritten hs
    · exact execImdct_of_unwritten hs
    · exact fun k a ha => synthesize_of_unwritten hs ha (List.mem_singleton_self _)
    · intro ha h
      obtain ⟨k, a, hk, ha32, hnone⟩ := exists_row_of_not_written h
      exact synthesize_of_unwritten hs ha (List.mem_range.2 hk) ha32 hnone

end Sys2Proof.Machine
end

section
/-! PROOFS. Which accesses the host's window accepts and what the accepted ones do (R101, R103–R108, R404): reads and
ignored writes change nothing, and BITBUF's words are its bytes, little-endian. Settles O15, O20, O22 and O23. -/

namespace Sys2Proof.Machine

variable {N : NumImpl} {s : State N}

/-! ### Bus errors -/

/-- R105: the accepted accesses. -/
theorem accepts_iff {width : Width} {off : Nat} : accepts width off = true ↔
    (width = .w32 ∧ off % 4 = 0) ∨ (width = .w8 ∧ 0x1000 ≤ off ∧ off < 0x2000) := by
  cases width <;> simp [accepts]

theorem answer_ne_busErr (s : State N) (v : Option Word) : s.answer v ≠ .fault .hostBusErr := by
  cases v <;> simp [State.answer]

theorem readWord_ne_busErr (s : State N) (off : Nat) : s.readWord off ≠ .fault .hostBusErr := by
  unfold State.readWord
  split
  · exact answer_ne_busErr s _
  · split
    · simp
    · exact answer_ne_busErr s _

theorem writeWord_ne_busErr (s : State N) (off : Nat) (w : Word) : s.writeWord off w ≠ .fault .hostBusErr := by
  unfold State.writeWord
  split
  · simp
  · split <;> simp

theorem readByte_ne_busErr (s : State N) (off : Nat) : s.readByte off ≠ .fault .hostBusErr := by
  unfold State.readByte
  split
  · simp
  · exact answer_ne_busErr s _

theorem writeByte_ne_busErr (s : State N) (off : Nat) (w : Word) : s.writeByte off w ≠ .fault .hostBusErr := by
  unfold State.writeByte
  split <;> simp

/-- R106: a read faults with HOST_BUSERR when it is not accepted, and only then. -/
theorem hostAccess_read_eq_busErr_iff {width : Width} {off : BitVec 16} :
    hostAccess (.read width off) s = .fault .hostBusErr ↔ ¬accepts width off.toNat = true := by
  by_cases ha : accepts width off.toNat = true
  · by_cases hw : width = .w8
    · subst hw
      simp [hostAccess, ha, readByte_ne_busErr]
    · simp [hostAccess, ha, hw, readWord_ne_busErr]
  · simp [hostAccess, ha]

/-- R106: a write faults with HOST_BUSERR when it is not accepted, and only then. -/
theorem hostAccess_write_eq_busErr_iff {width : Width} {off : BitVec 16} {w : Word} :
    hostAccess (.write width off w) s = .fault .hostBusErr ↔ ¬accepts width off.toNat = true := by
  by_cases ha : accepts width off.toNat = true
  · by_cases hw : width = .w8
    · subst hw
      simp [hostAccess, ha, writeByte_ne_busErr]
    · simp [hostAccess, ha, hw, writeWord_ne_busErr]
  · simp [hostAccess, ha]

/-- Settles O20: an access is tested for its width and alignment first, and what follows has no such fault. -/
theorem busErrorsAreExactlyThese : Obligations.BusErrorsAreExactlyThese := by
  intro s op
  cases op with
  | read width off =>
    rw [hostAccess_read_eq_busErr_iff, accepts_iff, not_or]
    refine ⟨fun h => ⟨width, off, .inl rfl, h⟩, ?_⟩
    rintro ⟨_, _, h | ⟨_, h⟩, hnot⟩ <;> cases h
    exact hnot
  | write width off w =>
    rw [hostAccess_write_eq_busErr_iff, accepts_iff, not_or]
    refine ⟨fun h => ⟨width, off, .inr ⟨w, rfl⟩, h⟩, ?_⟩
    rintro ⟨_, _, h | ⟨_, h⟩, hnot⟩ <;> cases h
    exact hnot

/-! ### Accesses without an effect -/

theorem hostAccess_read_next {t : State N} {width : Width} {off : BitVec 16}
    (h : hostAccess (.read width off) s = .next t) : ∃ w, t = { s with rdata := some w } := by
  rcases hostAccess_next h with ⟨_, _, w, -, ht⟩ | ⟨_, _, hop, -⟩ | ⟨_, _, hop, -⟩
  · exact ⟨w, ht⟩
  · cases hop
  · cases hop

/-- R31, R404: ID, the results but CLIPCNT, SYNBO and the unlisted registers ignore writes. -/
theorem writeRegister_readOnly (s : State N) {k : Nat} (hk : k = 0 ∨ (14 ≤ k ∧ k ≠ 17)) (w : Word) :
    s.writeRegister k w = s := by
  unfold State.writeRegister
  split
  case h_15 => rfl
  all_goals omega

/-- Settles O15: a read sets the bus's data only, and a write to one of these registers is ignored or clears it. -/
theorem readsAndReadOnlyWritesHaveNoEffect : Obligations.ReadsAndReadOnlyWritesHaveNoEffect := by
  refine ⟨fun s t width off h => ?_, fun s w off halign hpage => ⟨fun hro => ?_, fun hclip => ?_⟩⟩
  · obtain ⟨w, rfl⟩ := hostAccess_read_next h
    rfl
  · rw [hostAccess_write_register (k := off.toNat / 4) (by omega) (by omega), writeRegister_readOnly s (by omega)]
  · exact hostAccess_write_register (k := 17) hclip (by decide) w

/-! ### Unmapped offsets -/

/-- An offset in a gap that no row of the map meets is located nowhere. -/
theorem locate_of_gap {lo hi off : Nat} (hgap : ∀ r ∈ windowMap, r.base + 4 * r.words ≤ lo ∨ hi ≤ r.base)
    (hlo : lo ≤ off) (hhi : off < hi) : locate off = none := by
  rw [locate, Option.map_eq_none_iff, List.find?_eq_none]
  intro r hr
  have := hgap r hr
  simp only [MapRow.holds, Bool.and_eq_true, decide_eq_true_eq]
  omega

theorem hostAccess_read_unmapped {off : BitVec 16} (halign : off.toNat % 4 = 0) (h : locate off.toNat = none) :
    hostAccess (.read .w32 off) s = .next { s with rdata := some 0#32 } := by
  simp [hostAccess, accepts, halign, State.readWord, h, State.answer]

theorem hostAccess_write_unmapped {off : BitVec 16} (halign : off.toNat % 4 = 0) (h : locate off.toNat = none)
    (w : Word) : hostAccess (.write .w32 off w) s = .next s := by
  simp [hostAccess, accepts, halign, State.writeWord, h]

/-- Settles O22: no row of the map meets one of the gaps listed. -/
theorem unmappedOffsetsReadZero : Obligations.UnmappedOffsetsReadZero := by
  rintro s off w halign ⟨lo, hi, hmem, hlo, hhi⟩
  have hgaps : ∀ g ∈ [(0x154, 0x160), (0x1F0, 0x1000), (0x2900, 0x4000), (0x4900, 0x5000), (0x5900, 0x6000),
      (0x6900, 0x7000), (0x7900, 0x8000), (0x8900, 0x9000), (0x9900, 0xA000), (0xD200, 0x10000)],
      ∀ r ∈ windowMap, r.base + 4 * r.words ≤ g.1 ∨ g.2 ≤ r.base := by decide
  have hnone := locate_of_gap (hgaps _ hmem) hlo hhi
  exact ⟨hostAccess_read_unmapped halign hnone, hostAccess_write_unmapped halign hnone w⟩

/-! ### BITBUF -/

/-- R103: four bytes as a word, the last one on top. -/
theorem wordOfBytes_eq_append (b0 b1 b2 b3 : Byte) : wordOfBytes b0 b1 b2 b3 = b3 ++ b2 ++ b1 ++ b0 := by
  apply BitVec.eq_of_getLsbD_eq
  intro i hi
  simp only [wordOfBytes, BitVec.getLsbD_or, getLsbD_atBit _ i _ hi, BitVec.getLsbD_append]
  grind

/-- R103: a word is its four bytes, bits 7:0 last. -/
theorem append_bytes (w : Word) :
    w.extractLsb' 24 8 ++ w.extractLsb' 16 8 ++ w.extractLsb' 8 8 ++ w.extractLsb' 0 8 = w := by
  rw [BitVec.extractLsb'_append_extractLsb'_eq_extractLsb' (by rfl),
    BitVec.extractLsb'_append_extractLsb'_eq_extractLsb' (by rfl),
    BitVec.extractLsb'_append_extractLsb'_eq_extractLsb' (by rfl)]
  exact BitVec.extractLsb'_eq_self

theorem length_bytesOfWord (w : Word) : (bytesOfWord w).length = 4 := rfl

theorem getElem_bytesOfWord (w : Word) {k : Nat} (hk : k < 4) : (bytesOfWord w)[k] = w.extractLsb' (8 * k) 8 := by
  interval_cases k <;> rfl

/-- R103: the word of four bytes that hold values. -/
theorem bitbufWord_of_bytes (hs : s.memoryWf = true) {m : Nat} {b0 b1 b2 b3 : Byte}
    (h0 : Store.get unspecified s.bitbuf (4 * m) = some b0)
    (h1 : Store.get unspecified s.bitbuf (4 * m + 1) = some b1)
    (h2 : Store.get unspecified s.bitbuf (4 * m + 2) = some b2)
    (h3 : Store.get unspecified s.bitbuf (4 * m + 3) = some b3) : s.bitbufWord m = some (b3 ++ b2 ++ b1 ++ b0) := by
  obtain ⟨hbit, -⟩ := memoryWf_iff.1 hs
  have hblock : Store.block unspecified s.bitbuf (4 * m) 4 = some [b0, b1, b2, b3] := by
    refine (Store.block_eq_some_iff (Store.rising_of_wf hbit)).2 ⟨rfl, fun k hk => ?_⟩
    have hk : k < 4 := hk
    interval_cases k
    exacts [h0, h1, h2, h3]
  rw [State.bitbufWord, hblock]
  exact congrArg some (wordOfBytes_eq_append b0 b1 b2 b3)

section accesses

variable {m k : Nat} (hl : s.latch = none) (hm : m < 1024)

include hl hm

/-- Between commands, a word read of four bytes that hold values answers their word. -/
theorem hostAccess_read_bitbuf_word_of_bytes (hs : s.memoryWf = true) {b0 b1 b2 b3 : Byte}
    (h0 : Store.get unspecified s.bitbuf (4 * m) = some b0)
    (h1 : Store.get unspecified s.bitbuf (4 * m + 1) = some b1)
    (h2 : Store.get unspecified s.bitbuf (4 * m + 2) = some b2)
    (h3 : Store.get unspecified s.bitbuf (4 * m + 3) = some b3) :
    hostAccess (.read .w32 (BitVec.ofNat 16 (0x1000 + 4 * m))) s =
      .next { s with rdata := some (b3 ++ b2 ++ b1 ++ b0) } := by
  rw [hostAccess_read_bitbuf_word hl hm, bitbufWord_of_bytes hs h0 h1 h2 h3]
  rfl

/-- Between commands, a byte read of a byte that holds a value answers it. -/
theorem hostAccess_read_bitbuf_byte_of_get (hk : k < 4) {b : Byte}
    (h : Store.get unspecified s.bitbuf (4 * m + k) = some b) :
    hostAccess (.read .w8 (BitVec.ofNat 16 (0x1000 + 4 * m + k))) s =
      .next { s with rdata := some (b.setWidth 32) } := by
  rw [hostAccess_read_bitbuf_byte hl hm hk, h]
  rfl

/-- Between commands, a word write to BITBUF writes its four bytes. -/
theorem hostAccess_write_bitbuf_word (w : Word) :
    hostAccess (.write .w32 (BitVec.ofNat 16 (0x1000 + 4 * m)) w) s = .next (s.writePlace .bitbuf m w) := by
  have hbusy : s.busy = false := by rw [State.busy, hl]; rfl
  have hoff := toNat_bitbufOffset hm (show 0 < 4 by decide)
  have haccepts : accepts .w32 (0x1000 + 4 * m) = true := accepts_iff.2 (.inl ⟨rfl, by omega⟩)
  rw [Nat.add_zero] at hoff
  simp [hostAccess, hoff, haccepts, State.writeWord, locate_bitbuf hm, hbusy]

/-- Between commands, a byte write to BITBUF writes its byte. -/
theorem hostAccess_write_bitbuf_byte (hk : k < 4) (w : Word) :
    hostAccess (.write .w8 (BitVec.ofNat 16 (0x1000 + 4 * m + k)) w) s =
      .next { s with bitbuf := Store.set unspecified s.bitbuf (4 * m + k) (fieldOf w 0 8) } := by
  have hbusy : s.busy = false := by rw [State.busy, hl]; rfl
  have haccepts : accepts .w8 (0x1000 + 4 * m + k) = true := accepts_iff.2 (.inr ⟨rfl, by omega, by omega⟩)
  simp [hostAccess, toNat_bitbufOffset hm hk, haccepts, State.writeByte, hbusy,
    show 0x1000 + 4 * m + k - 0x1000 = 4 * m + k by omega]

end accesses

/-- The bytes of BITBUF after a word write: the word's four, and every other as it was. -/
theorem get_writePlace_bitbuf (hs : s.memoryWf = true) (m : Nat) (w : Word) :
    (∀ k, k < 4 → Store.get unspecified (s.writePlace .bitbuf m w).bitbuf (4 * m + k) =
      some (w.extractLsb' (8 * k) 8)) ∧
    ∀ a, a < 4 * m ∨ 4 * m + 4 ≤ a →
      Store.get unspecified (s.writePlace .bitbuf m w).bitbuf a = Store.get unspecified s.bitbuf a := by
  obtain ⟨hbit, -⟩ := memoryWf_iff.1 hs
  refine ⟨fun k hk => ?_, fun a ha => Store.get_fill_not_mem (Store.rising_of_wf hbit) _ _ ha⟩
  rw [← getElem_bytesOfWord w hk]
  exact Store.get_fill_mem (Store.rising_of_wf hbit) _ _ _

theorem memoryWf_writePlace_bitbuf (hs : s.memoryWf = true) {m : Nat} (hm : m < 1024) (w : Word) :
    (s.writePlace .bitbuf m w).memoryWf = true := by
  obtain ⟨hbit, hrest⟩ := memoryWf_iff.1 hs
  refine memoryWf_iff.2 ⟨Store.wf_fill hbit ?_, hrest⟩
  rw [length_bytesOfWord]
  omega

/-- Settles O23: a word's bytes are written one by one and read together, and a byte is written and read alone. -/
theorem bitbufIsLittleEndian : Obligations.BitbufIsLittleEndian := by
  intro s w m hinv hl hm
  obtain ⟨hs, -⟩ := inv_iff.1 hinv
  refine ⟨?_, fun k hk => ?_, fun k b hk => hostAccess_read_bitbuf_byte_of_get hl hm hk,
    fun b0 b1 b2 b3 => hostAccess_read_bitbuf_word_of_bytes hl hm hs⟩
  · obtain ⟨hbytes, hother⟩ := get_writePlace_bitbuf hs m w
    have hread := hostAccess_read_bitbuf_word_of_bytes (s := s.writePlace .bitbuf m w) hl hm
      (memoryWf_writePlace_bitbuf hs hm w) (hbytes 0 (by decide)) (hbytes 1 (by decide)) (hbytes 2 (by decide))
      (hbytes 3 (by decide))
    rw [append_bytes] at hread
    exact ⟨_, hostAccess_write_bitbuf_word hl hm w, rfl, hbytes, hother, hread⟩
  · obtain ⟨hbit, -⟩ := memoryWf_iff.1 hs
    have hself := Store.get_set_self (d := unspecified) (Store.rising_of_wf hbit) (4 * m + k) (fieldOf w 0 8)
    have hread := hostAccess_read_bitbuf_byte_of_get (s := { s with bitbuf := Store.set _ _ _ _ }) hl hm hk hself
    rw [setWidth_fieldOf] at hread
    exact ⟨_, hostAccess_write_bitbuf_byte hl hm hk w, rfl, hself,
      fun a ha => Store.get_set_ne (Store.rising_of_wf hbit) (Ne.symm ha) _, hread⟩

end Sys2Proof.Machine
end

section
/-! PROOFS. HUFF's bit readers (R104, R201, R202, R207, R211, R212): each reads the bits it is given to the last, or
underflows where they end, and two in a row do so too. Settles O33 and O34. -/

namespace Sys2Proof.Machine

variable {src : BitSource} {r : Reader}

/-! ### The bits at a reader -/

theorem Reader.after_after (r : Reader) (m n : Nat) : (r.after m).after n = r.after (m + n) := by
  simp [Reader.after, Nat.add_assoc]

/-- The first bits are there, and the others are there for the reader after them. -/
theorem bitsAt_append {as bs : List Bool} :
    BitsAt src r (as ++ bs) ↔ BitsAt src r as ∧ BitsAt src (r.after as.length) bs := by
  constructor
  · intro h
    refine ⟨fun k hk => ?_, fun k hk => ?_⟩
    · have hbit := h k (by rw [List.length_append]; omega)
      rwa [List.getElem_append_left hk] at hbit
    · have hbit := h (as.length + k) (by rw [List.length_append]; omega)
      simp only [List.getElem_append_right (Nat.le_add_right _ _), Nat.add_sub_cancel_left, ← Nat.add_assoc] at hbit
      exact hbit
  · rintro ⟨ha, hb⟩ k hk
    by_cases hka : k < as.length
    · have h := ha k hka
      rwa [List.getElem_append_left hka]
    · have h := hb (k - as.length) (by rw [List.length_append] at hk; omega)
      have hpos : (r.after as.length).pos + (k - as.length) = r.pos + k := by simp only [Reader.after]; omega
      rw [hpos] at h
      rwa [List.getElem_append_right (by omega)]

theorem getBit_of_pastEnd (h : PastEnd src r.pos) : getBit src r = .underflow r := by
  rw [getBit, if_pos h]

theorem getBit_of_get {b : Byte} (hend : ¬PastEnd src r.pos)
    (hb : Store.get unspecified src.bitbuf (r.pos / 8) = some b) :
    getBit src r = .ok (b.getLsbD (7 - r.pos % 8)) (r.after 1) := by
  rw [getBit, if_neg hend, hb]
  rfl

/-! ### Decoding a list of bits -/

/-- `x`, what a decoder answers at the reader `r`, comes of the bits `bits`: where they all are there it is `v`, after
exactly these bits, and where BITBUF ends before the last of them it is an underflow at its end. -/
def Decodes {α : Type} (src : BitSource) (r : Reader) (bits : List Bool) (x : Read α) (v : α) : Prop :=
  (BitsAt src r bits → x = .ok v (r.after bits.length)) ∧
  ∀ n, n < bits.length → BitsAt src r (bits.take n) → PastEnd src (r.pos + n) → x = .underflow (r.after n)

section decodes

variable {α β : Type} {x : Read α} {v : α}

theorem decodes_nil (src : BitSource) (r : Reader) (v : α) : Decodes src r [] (.ok v r) v :=
  ⟨fun _ => rfl, fun _ hn => absurd hn (Nat.not_lt_zero _)⟩

theorem decodes_getBit (src : BitSource) (r : Reader) (bit : Bool) : Decodes src r [bit] (getBit src r) bit := by
  refine ⟨fun h => ?_, fun n hn _ hend => ?_⟩
  · obtain ⟨hend, b, hget, hbit⟩ := h 0 (by simp)
    rw [getBit_of_get hend hget]
    exact congrArg (Read.ok · (r.after 1)) hbit
  · obtain rfl : n = 0 := Nat.lt_one_iff.1 hn
    exact getBit_of_pastEnd hend

/-- Two decoders, the second at the reader after the first, decode the bits of both. -/
theorem Decodes.andThen {as bs : List Bool} {f : α → Reader → Read β} {u : β} (hx : Decodes src r as x v)
    (hf : Decodes src (r.after as.length) bs (f v (r.after as.length)) u) :
    Decodes src r (as ++ bs) (x.andThen f) u := by
  obtain ⟨hok, hunder⟩ := hx
  obtain ⟨hok', hunder'⟩ := hf
  refine ⟨fun h => ?_, fun n hn h hend => ?_⟩
  · obtain ⟨ha, hb⟩ := bitsAt_append.1 h
    rw [hok ha, Read.andThen, hok' hb, Reader.after_after, List.length_append]
  · by_cases hna : n < as.length
    · rw [List.take_append_of_le_length (Nat.le_of_lt hna)] at h
      rw [hunder n hna h hend, Read.andThen]
    · obtain ⟨m, rfl⟩ := Nat.exists_eq_add_of_le (Nat.le_of_not_lt hna)
      rw [List.take_length_add_append] at h
      obtain ⟨ha, hb⟩ := bitsAt_append.1 h
      rw [List.length_append] at hn
      rw [hok ha, Read.andThen, hunder' m (by omega) hb (by rwa [Reader.after, Nat.add_assoc]), Reader.after_after]

/-- A decoder whose value is used without reading on. -/
theorem Decodes.map {bits : List Bool} (hx : Decodes src r bits x v) (f : α → β) :
    Decodes src r bits (x.andThen fun a r' => .ok (f a) r') (f v) := by
  have h := hx.andThen (f := fun a r' => .ok (f a) r') (decodes_nil src _ (f v))
  rwa [List.append_nil] at h

end decodes

/-! ### A pair (R202, R207, R211) -/

/-- R202: the bits of a codeword are decoded to its value. -/
theorem decodes_readCode {α : Type} (src : BitSource) {c : Code α} {word : List Bool} {a : α}
    (h : follow c word = some (.leaf a)) (r : Reader) : Decodes src r word (readCode src c r) a := by
  induction word generalizing c r with
  | nil =>
    obtain rfl : c = .leaf a := by simpa [follow] using h
    exact decodes_nil src r a
  | cons b bs ih =>
    cases c with
    | leaf => cases h
    | node zero one =>
      refine (decodes_getBit src r b).andThen ?_
      cases b with
      | false => exact ih h _
      | true => exact ih h _

theorem bitsMsb_succ (n v : Nat) : bitsMsb (n + 1) v = v.testBit n :: bitsMsb n v := by
  simp [bitsMsb, List.range_succ]

/-- R201: the low bits of e, most significant first, are appended to the number read so far. -/
theorem decodes_getBits (src : BitSource) (n e v : Nat) (r : Reader) :
    Decodes src r (bitsMsb n e) (getBits src n v r) (v * 2 ^ n + e % 2 ^ n) := by
  induction n generalizing v r with
  | zero =>
    rw [Nat.pow_zero, Nat.mul_one, Nat.mod_one, Nat.add_zero]
    exact decodes_nil src r v
  | succ n ih =>
    have hvalue : v * 2 ^ (n + 1) + e % 2 ^ (n + 1) = (2 * v + (e.testBit n).toNat) * 2 ^ n + e % 2 ^ n := by
      rw [Nat.mod_pow_succ, Nat.toNat_testBit]
      ring
    rw [bitsMsb_succ, hvalue]
    exact (decodes_getBit src r _).andThen (ih _ _)

theorem decodes_readEscape (src : BitSource) (t : BitVec 5) (v : Nat) {e : Nat} (he : e < 2 ^ linbits t) (r : Reader) :
    Decodes src r (escapeBits t v e) (readEscape src t v r) (escaped t v e) := by
  unfold escapeBits readEscape escaped
  split
  · have hbits := decodes_getBits src (linbits t) e 0 r
    rw [Nat.zero_mul, Nat.zero_add, Nat.mod_eq_of_lt he] at hbits
    exact hbits.map (v + ·)
  · exact decodes_nil src r v

theorem decodes_readSign (src : BitSource) (m : Nat) (neg : Bool) (r : Reader) :
    Decodes src r (signBits m neg) (readSign src m r) (withSign m neg) := by
  unfold signBits readSign
  split
  next hm =>
    have hzero : withSign m neg = 0 := by simp [withSign, hm]
    rw [hzero]
    exact decodes_nil src r 0
  next => exact (decodes_getBit src r neg).map fun b => if b then -(m : Int) else m

/-- R207: the bits of a pair in their order. -/
theorem decodes_readPair (src : BitSource) {t : BitVec 5} {word : List Bool} {x y : BitVec 4} {ex ey : Nat}
    (nx ny : Bool) (h : follow (codebook t) word = some (.leaf (x, y))) (hx : ex < 2 ^ linbits t)
    (hy : ey < 2 ^ linbits t) (r : Reader) :
    Decodes src r
      (word ++ (escapeBits t x.toNat ex ++ (signBits (escaped t x.toNat ex) nx ++
        (escapeBits t y.toNat ey ++ signBits (escaped t y.toNat ey) ny))))
      (readPair src t r) (withSign (escaped t x.toNat ex) nx, withSign (escaped t y.toNat ey) ny) :=
  (decodes_readCode src h r).andThen <| (decodes_readEscape src t x.toNat hx _).andThen <|
    (decodes_readSign src _ nx _).andThen <| (decodes_readEscape src t y.toNat hy _).andThen <|
      (decodes_readSign src _ ny _).map fun v => (withSign (escaped t x.toNat ex) nx, v)

/-- Settles O33: GetBit by its cases, and a pair by its five decoders one after the other. -/
theorem pairBitsDecodeInOrder : Obligations.PairBitsDecodeInOrder :=
  ⟨fun _ => rfl, fun _ _ => getBit_of_pastEnd, fun _ _ _ => getBit_of_get,
    fun src r _ _ _ _ _ _ nx ny h hx hy => decodes_readPair src nx ny h hx hy r⟩

/-! ### A quadruple (R206, R212) -/

/-- R202, R212 (a): of a codeword's bits those within the budget are read, and a cut codeword has no value. -/
theorem decodes_readCodeWithin {α : Type} (src : BitSource) (budget : Nat) {c : Code α} {word : List Bool} {a : α}
    (h : follow c word = some (.leaf a)) (r : Reader) :
    Decodes src r (word.take (budget - r.used)) (readCodeWithin src budget c r)
      (if word.length ≤ budget - r.used then some a else none) := by
  induction word generalizing c r with
  | nil =>
    obtain rfl : c = .leaf a := by simpa [follow] using h
    rw [List.take_nil, List.length_nil, if_pos (Nat.zero_le _)]
    exact decodes_nil src r (some a)
  | cons b bs ih =>
    cases c with
    | leaf => cases h
    | node zero one =>
      rw [readCodeWithin]
      by_cases hroom : budget ≤ r.used
      · rw [if_pos hroom, Nat.sub_eq_zero_of_le hroom]
        exact decodes_nil src r none
      · have hbudget : budget - r.used = budget - (r.after 1).used + 1 := by simp only [Reader.after]; omega
        rw [if_neg hroom, hbudget, List.take_succ_cons]
        simp only [List.length_cons, Nat.add_le_add_iff_right]
        refine (decodes_getBit src r b).andThen ?_
        cases b with
        | false => exact ih h _
        | true => exact ih h _

/-- R212 (b): value j of a quadruple, nonzero where `nz` says so, with room for `room` sign bits: 0 from the first sign
on that has none. -/
def keptValue (nz neg : Nat → Bool) (room j : Nat) : Int :=
  if (List.range j).countP nz < room then (if nz j then (if neg j then -1 else 1) else 0) else 0

theorem keptValue_zero (nz neg : Nat → Bool) (j : Nat) : keptValue nz neg 0 j = 0 := if_neg (Nat.not_lt_zero _)

/-- The first `n + 1` values are the first one and the `n` after it. -/
theorem map_range_succ {α : Type} (f : Nat → α) (n : Nat) :
    (List.range (n + 1)).map f = f 0 :: (List.range n).map (fun j => f (j + 1)) := by
  simp [List.range_succ_eq_map]

theorem countP_range_succ (nz : Nat → Bool) (n : Nat) :
    (List.range (n + 1)).countP nz = (List.range n).countP (fun j => nz (j + 1)) + (nz 0).toNat := by
  rw [List.range_succ_eq_map, List.countP_cons, List.countP_map]
  cases nz 0 <;> rfl

/-- The sign bits of the nonzero values among the first `n`, first value first. -/
def signsOf (nz neg : Nat → Bool) (n : Nat) : List Bool := ((List.range n).filter nz).map neg

theorem length_signsOf (nz neg : Nat → Bool) (n : Nat) : (signsOf nz neg n).length = (List.range n).countP nz := by
  rw [signsOf, List.length_map, List.countP_eq_length_filter]

theorem signsOf_succ (nz neg : Nat → Bool) (n : Nat) : signsOf nz neg (n + 1) =
    if nz 0 then neg 0 :: signsOf (fun j => nz (j + 1)) (fun j => neg (j + 1)) n
    else signsOf (fun j => nz (j + 1)) (fun j => neg (j + 1)) n := by
  cases h : nz 0 <;> simp [signsOf, List.range_succ_eq_map, List.filter_map, h, Function.comp_def]

/-- A value after the first has the room that the first one's sign bit leaves. -/
theorem keptValue_succ (nz neg : Nat → Bool) (room j : Nat) : keptValue nz neg (room + (nz 0).toNat) (j + 1) =
    keptValue (fun j => nz (j + 1)) (fun j => neg (j + 1)) room j := by
  simp only [keptValue, countP_range_succ, Nat.add_lt_add_iff_right]

/-- R212 (b): of the sign bits of `n` values those within the budget are read; a value without its bit is 0. -/
theorem decodes_readQuadSigns (src : BitSource) (budget : Nat) (nz neg : Nat → Bool) (n : Nat) (r : Reader) :
    Decodes src r ((signsOf nz neg n).take (budget - r.used)) (readQuadSigns src budget ((List.range n).map nz) r)
      ((List.range n).map (keptValue nz neg (budget - r.used)),
        decide (budget - r.used < (List.range n).countP nz)) := by
  induction n generalizing nz neg r with
  | zero =>
    rw [signsOf, List.range_zero, List.filter_nil, List.map_nil, List.take_nil]
    exact decodes_nil src r ([], false)
  | succ n ih =>
    have hkept := keptValue_succ nz neg
    rw [signsOf_succ, map_range_succ, map_range_succ, countP_range_succ]
    cases hz : nz 0 with
    | false =>
      have hfirst : keptValue nz neg (budget - r.used) 0 = 0 := by simp [keptValue, hz]
      simp only [hz, Bool.toNat_false, Nat.add_zero] at hkept
      simp only [hfirst, hkept]
      exact (ih _ _ r).map fun e => (0 :: e.1, e.2)
    | true =>
      rw [readQuadSigns, if_pos rfl]
      by_cases hroom : budget ≤ r.used
      · rw [if_pos hroom, Nat.sub_eq_zero_of_le hroom, List.take_zero]
        simpa [keptValue_zero, List.replicate_succ] using decodes_nil src r (0 :: List.replicate n (0 : Int), true)
      · have hbudget : budget - r.used = budget - (r.after 1).used + 1 := by simp only [Reader.after]; omega
        have hfirst (room : Nat) : keptValue nz neg (room + 1) 0 = if neg 0 then -1 else 1 := by simp [keptValue, hz]
        simp only [hz, Bool.toNat_true] at hkept
        rw [if_neg hroom, hbudget, List.take_succ_cons]
        simp only [hfirst, hkept, Bool.toNat_true, Nat.add_lt_add_iff_right]
        exact (decodes_getBit src r _).andThen ((ih _ _ _).map fun e => ((if neg 0 then -1 else 1) :: e.1, e.2))

/-- R212: a quadruple q with room for `room` bits, of which its codeword takes `length`: none where the codeword is cut,
else its values, cut where a sign is. -/
def quadWithin (q : BitVec 4) (neg : Nat → Bool) (length room : Nat) : Option (List Int × Bool) :=
  if length ≤ room then
    some ((List.range 4).map (keptValue (fun j => q.getLsbD (3 - j)) neg (room - length)),
      decide (room - length < (List.range 4).countP (fun j => q.getLsbD (3 - j))))
  else none

/-- R212: of the bits of a quadruple those within the budget are read. -/
theorem decodes_readQuad (src : BitSource) {sel : Bool} (budget : Nat) {word : List Bool} {q : BitVec 4}
    (neg : Nat → Bool) (h : follow (quadBook sel) word = some (.leaf q)) (r : Reader) :
    Decodes src r ((word ++ signsOf (fun j => q.getLsbD (3 - j)) neg 4).take (budget - r.used))
      (readQuad src sel budget r) (quadWithin q neg word.length (budget - r.used)) := by
  have hcode := decodes_readCodeWithin src budget h r
  rw [quadWithin]
  by_cases hword : word.length ≤ budget - r.used
  · rw [List.take_of_length_le hword, if_pos hword] at hcode
    rw [List.take_append, List.take_of_length_le hword, if_pos hword]
    refine hcode.andThen ?_
    have hused : budget - r.used - word.length = budget - (r.after word.length).used := by
      rw [Reader.after, Nat.sub_sub]
    rw [hused]
    exact (decodes_readQuadSigns src budget _ neg 4 _).map some
  · rw [if_neg hword] at hcode ⊢
    rw [List.take_append_of_le_length (by omega)]
    rw [← List.append_nil (word.take _)]
    exact hcode.andThen (decodes_nil src _ none)

/-- With room for every sign bit each value is kept. -/
theorem keptValue_of_room {nz : Nat → Bool} (neg : Nat → Bool) {n room j : Nat} (hj : j < n)
    (hroom : (List.range n).countP nz ≤ room) :
    keptValue nz neg room j = if nz j then (if neg j then -1 else 1) else 0 := by
  have hmono : (List.range (j + 1)).countP nz ≤ (List.range n).countP nz :=
    (List.range_sublist.2 (by omega)).countP_le
  rw [List.range_succ, List.countP_append] at hmono
  unfold keptValue
  cases hz : nz j <;> simp [hz] at hmono ⊢
  omega

theorem quadWithin_whole {q : BitVec 4} (neg : Nat → Bool) {length room : Nat}
    (h : length + (List.range 4).countP (fun j => q.getLsbD (3 - j)) ≤ room) :
    quadWithin q neg length room = some ((List.range 4).map (quadValue q neg), false) := by
  have hvalues : (List.range 4).map (keptValue (fun j => q.getLsbD (3 - j)) neg (room - length)) =
      (List.range 4).map (quadValue q neg) :=
    List.map_congr_left fun j hj => keptValue_of_room neg (List.mem_range.1 hj) (by omega)
  rw [quadWithin, if_pos (by omega), hvalues, decide_eq_false (by omega)]

theorem quadWithin_cut {q : BitVec 4} (neg : Nat → Bool) {length room : Nat} (hword : length ≤ room)
    (h : room < length + (List.range 4).countP (fun j => q.getLsbD (3 - j))) :
    quadWithin q neg length room =
      some ((List.range 4).map (keptValue (fun j => q.getLsbD (3 - j)) neg (room - length)), true) := by
  rw [quadWithin, if_pos hword, decide_eq_true (by omega)]

theorem quadWithin_none (q : BitVec 4) (neg : Nat → Bool) {length room : Nat} (h : room < length) :
    quadWithin q neg length room = none :=
  if_neg (Nat.not_le_of_lt h)

/-- Settles O34: a quadruple's bits within the budget are decoded, to what the budget leaves of it. -/
theorem quadBitsDecodeWithinBudget : Obligations.QuadBitsDecodeWithinBudget := by
  intro src r sel budget word q neg hq bits room
  obtain ⟨hok, hunder⟩ := decodes_readQuad src budget neg hq r
  have hlen : bits.length = word.length + (List.range 4).countP (fun j => q.getLsbD (3 - j)) := by
    rw [← length_signsOf _ neg, ← List.length_append]
    rfl
  refine ⟨fun n hn hnroom h hend => hunder n ?_ ?_ hend, fun h => ?_⟩
  · rw [List.length_take]
    exact lt_min hnroom hn
  · rwa [List.take_take, min_eq_left (Nat.le_of_lt hnroom)]
  · have hread : readQuad src sel budget r =
        .ok (quadWithin q neg word.length room) (r.after (min room bits.length)) := by
      rw [← List.length_take]
      exact hok h
    rw [hread]
    refine ⟨fun hroom => ?_, fun hword hroom => ?_, fun hword => ?_⟩
    · rw [quadWithin_whole neg (by omega), min_eq_right hroom]
    · rw [quadWithin_cut neg hword (by omega), min_eq_left (Nat.le_of_lt hroom)]
      rfl
    · rw [quadWithin_none q neg hword, min_eq_left (by omega)]

end Sys2Proof.Machine
end

section
/-! PROOFS. The command words (R140, R141, R143, R144, R145, R147): what the decoder accepts and refuses, and the field
masks as the fields in place. Settles O1, O2, O3 and O4. -/

namespace Sys2Proof.Machine

variable {w : Word} {op : Opcode} {i : Instr}

/-! ### The opcode map -/

theorem ofByte_byte (op : Opcode) : Opcode.ofByte op.byte = some op := by
  cases op <;> rfl

theorem ofByte_eq_some_iff {b : BitVec 8} : Opcode.ofByte b = some op ↔ b = op.byte := by
  constructor
  · intro h
    simp only [Opcode.ofByte] at h
    split_ifs at h <;> cases h <;> assumption
  · rintro rfl
    exact ofByte_byte op

/-- R143: the reserved opcodes are 0x08 to 0xFF. -/
theorem ofByte_eq_none_iff {b : BitVec 8} : Opcode.ofByte b = none ↔ 8 ≤ b.toNat := by
  revert b
  decide

theorem toNat_op (w : Word) : (Word.op w).toNat = w.toNat % 256 := by
  rw [Word.op, BitVec.extractLsb'_toNat, Nat.shiftRight_zero]

theorem toNat_slot (w : Word) : (Word.slot w).toNat = w.toNat / 2 ^ 12 % 32 := by
  rw [Word.slot, BitVec.extractLsb'_toNat, Nat.shiftRight_eq_div_pow]

/-! ### The decoder's tests -/

/-- R144's tests on a word whose opcode byte is listed. -/
theorem decode_of_op (h : Word.op w = op.byte) :
    decode w =
      if w &&& ~~~(op.format.fieldMask) ≠ 0#32 then .error .reservedBit
      else if op = .synth ∧ 17 < (Word.slot w).toNat then .error .slotRange
      else .ok (op.command w) := by
  rw [decode, ofByte_eq_some_iff.2 h]

theorem opcode_command (op : Opcode) (w : Word) : (op.command w).opcode = op := by
  cases op <;> rfl

/-- R145 (c) is what keeps the command of a word from being well-formed. -/
theorem wellFormed_command : (op.command w).wellFormed = true ↔ ¬(op = .synth ∧ 17 < (Word.slot w).toNat) := by
  cases op <;> simp [Opcode.command, Instr.wellFormed, Instr.slotOk]

/-- R144: a word decodes to `i` exactly when it has the opcode of `i`, no bit outside the field mask and the operands
of `i`, and `i` is well-formed. -/
theorem decode_eq_ok_iff : decode w = .ok i ↔
    Word.op w = i.opcode.byte ∧ w &&& ~~~(i.opcode.format.fieldMask) = 0#32 ∧ i.wellFormed = true ∧
      i.opcode.command w = i := by
  constructor
  · intro h
    cases hop : Opcode.ofByte (Word.op w) with
    | none => simp [decode, hop] at h
    | some op =>
      have hbyte := ofByte_eq_some_iff.1 hop
      rw [decode_of_op hbyte] at h
      split_ifs at h with hbits hslot
      obtain rfl := Except.ok.inj h
      rw [opcode_command]
      exact ⟨hbyte, not_not.1 hbits, wellFormed_command.2 hslot, rfl⟩
  · rintro ⟨hop, hbits, hwf, hcmd⟩
    rw [← hcmd, wellFormed_command] at hwf
    rw [decode_of_op hop, if_neg (not_not.2 hbits), if_neg hwf, hcmd]

/-- R145: a word is refused for its opcode, for a bit outside the field mask of its opcode's format, or for the slot of
a SYNTH. -/
theorem decode_eq_error_iff : (∃ e, decode w = .error e) ↔
    8 ≤ w.toNat % 256 ∨ ∃ op : Opcode, w.toNat % 256 = op.byte.toNat ∧
      (w &&& ~~~(op.format.fieldMask) ≠ 0#32 ∨ op = .synth ∧ 18 ≤ w.toNat / 2 ^ 12 % 32) := by
  rw [← toNat_op, ← toNat_slot]
  cases hop : Opcode.ofByte (Word.op w) with
  | none => simp [decode, hop, ofByte_eq_none_iff.1 hop]
  | some op =>
    have hbyte := ofByte_eq_some_iff.1 hop
    have hlisted : ¬8 ≤ (Word.op w).toNat := by simp [← ofByte_eq_none_iff, hop]
    have honly : ∀ op' : Opcode, (Word.op w).toNat = op'.byte.toNat ↔ op' = op := fun op' => by
      rw [BitVec.toNat_inj, ← ofByte_eq_some_iff, hop, Option.some_inj, eq_comm]
    simp only [honly, exists_eq_left, hlisted, false_or, decode_of_op hbyte]
    split_ifs with hbits hslot
    · simp [hbits]
    · simp [hslot.1, Nat.succ_le_of_lt hslot.2]
    · simp only [exists_false, false_iff, not_or]
      exact ⟨hbits, hslot⟩

/-! ### The encoder and the fields of a word -/

/-- A field put back in place is the word under the field's mask. -/
theorem setWidth_extractLsb'_shiftLeft (w : Word) (lo n : Nat) :
    (w.extractLsb' lo n).setWidth 32 <<< lo = w &&& (BitVec.allOnes n).setWidth 32 <<< lo := by
  refine BitVec.eq_of_getLsbD_eq fun k hk => ?_
  by_cases hlo : k < lo
  · simp [hlo]
  · simp [hlo, hk, show lo + (k - lo) = k by omega, Bool.and_comm]

theorem setWidth_op (w : Word) : (Word.op w).setWidth 32 = w &&& 0x000000FF#32 :=
  (BitVec.shiftLeft_zero _).symm.trans (setWidth_extractLsb'_shiftLeft w 0 8)

theorem setWidth_ch_shiftLeft (w : Word) : (Word.ch w).setWidth 32 <<< 8 = w &&& 0x00000100#32 :=
  setWidth_extractLsb'_shiftLeft w 8 1

theorem setWidth_mask_shiftLeft (w : Word) : (Word.mask w).setWidth 32 <<< 8 = w &&& 0x00000300#32 :=
  setWidth_extractLsb'_shiftLeft w 8 2

theorem setWidth_slot_shiftLeft (w : Word) : (Word.slot w).setWidth 32 <<< 12 = w &&& 0x0001F000#32 :=
  setWidth_extractLsb'_shiftLeft w 12 5

/-- R141: the operands of a word are its bits under the field mask, but for the opcode's. -/
theorem operandBits_command (op : Opcode) (w : Word) :
    (op.command w).operandBits = w &&& (op.format.fieldMask &&& 0xFFFFFF00#32) := by
  cases op with
  | nop | huff => exact BitVec.and_zero.symm
  | deq | aa | imdct | synthg => exact setWidth_ch_shiftLeft w
  | synth =>
    show (Word.ch w).setWidth 32 <<< 8 ||| (Word.slot w).setWidth 32 <<< 12 = _
    rw [setWidth_ch_shiftLeft, setWidth_slot_shiftLeft, ← BitVec.and_or_distrib_left]
    rfl
  | clrh => exact setWidth_mask_shiftLeft w

theorem fieldMask_eq (f : Format) : 0x000000FF#32 ||| f.fieldMask &&& 0xFFFFFF00#32 = f.fieldMask := by
  cases f <;> rfl

/-- R147: encoding the command of a word keeps the word's bits under the field mask, and no others. -/
theorem encode_command (h : Word.op w = op.byte) : encode (op.command w) = w &&& op.format.fieldMask := by
  rw [encode, opcode_command, ← h, setWidth_op, operandBits_command, ← BitVec.and_or_distrib_left, fieldMask_eq]

/-- A word with no bit outside a mask is itself under the mask. -/
theorem and_eq_self_of_and_not_eq_zero {m : Word} (h : w &&& ~~~m = 0#32) : w &&& m = w := by
  calc w &&& m = w &&& m ||| w &&& ~~~m := by rw [h, BitVec.or_zero]
    _ = w := by rw [← BitVec.and_or_distrib_left, BitVec.or_not_self, BitVec.and_allOnes]

/-- The law of the encoded fields holds of every command. -/
theorem encodedFields (i : Instr) : Laws.EncodedFields.Statement i := by
  cases i with
  | nop => exact Laws.EncodedFields.nop
  | huff => exact Laws.EncodedFields.huff
  | deq ch => exact Laws.EncodedFields.deq ch
  | aa ch => exact Laws.EncodedFields.aa ch
  | imdct ch => exact Laws.EncodedFields.imdct ch
  | synth ch t => exact Laws.EncodedFields.synth ch t
  | synthg ch => exact Laws.EncodedFields.synthg ch
  | clrh mask => exact Laws.EncodedFields.clrh mask

/-- R142: the operands read from a command's encoding are the command's, as written. -/
theorem command_encode (i : Instr) : i.opcode.command (encode i) = i := by
  cases i with
  | nop | huff => rfl
  | deq ch | aa ch | imdct ch | synthg ch => revert ch; decide
  | synth ch t => revert ch t; decide
  | clrh mask => revert mask; decide

/-! ### Obligations -/

/-- Settles O2: the encoding passes each test of the decoder. -/
theorem decodeOfEncodeIsIdentity : Obligations.DecodeOfEncodeIsIdentity := by
  intro i hwf
  obtain ⟨hop, -, hbits⟩ := encodedFields i
  exact decode_eq_ok_iff.2 ⟨hop, hbits, hwf, command_encode i⟩

/-- Settles O3: an accepted word is its own bits under the field mask, which is what the encoder puts back. -/
theorem acceptedWordsAreEncodings : Obligations.AcceptedWordsAreEncodings := by
  intro w i h
  obtain ⟨hop, hbits, hwf, hcmd⟩ := decode_eq_ok_iff.1 h
  have henc := encode_command hop
  rw [hcmd, and_eq_self_of_and_not_eq_zero hbits] at henc
  exact ⟨hwf, henc⟩

/-- Settles O4: the decoder's two refusals of a listed opcode, opcode by opcode, are those of its format. -/
theorem illegalWordsAreExactlyThese : Obligations.IllegalWordsAreExactlyThese := by
  intro w
  rw [decode_eq_error_iff]
  refine or_congr_right ?_
  constructor
  · rintro ⟨op, hop, h⟩
    cases op with
    | nop | huff => exact .inl ⟨hop.trans_le (by decide), h.resolve_right (by simp)⟩
    | deq | aa | imdct | synthg => exact .inr (.inl ⟨hop ▸ (by decide), h.resolve_right (by simp)⟩)
    | synth => exact .inr (.inr (.inl ⟨hop, h.imp_right And.right⟩))
    | clrh => exact .inr (.inr (.inr ⟨hop, h.resolve_right (by simp)⟩))
  · rintro (⟨hop, h⟩ | ⟨hop, h⟩ | ⟨hop, h⟩ | ⟨hop, h⟩)
    · obtain hop | hop := Nat.le_one_iff_eq_zero_or_eq_one.1 hop
      · exact ⟨.nop, hop, .inl h⟩
      · exact ⟨.huff, hop, .inl h⟩
    · simp only [List.mem_cons, List.not_mem_nil, or_false] at hop
      obtain hop | hop | hop | hop := hop
      · exact ⟨.deq, hop, .inl h⟩
      · exact ⟨.aa, hop, .inl h⟩
      · exact ⟨.imdct, hop, .inl h⟩
      · exact ⟨.synthg, hop, .inl h⟩
    · exact ⟨.synth, hop, h.imp_right fun ht => ⟨rfl, ht⟩⟩
    · exact ⟨.clrh, hop, .inl h⟩

/-- Settles O1, by running the decoder on each word. -/
theorem specWordsDecode : Obligations.SpecWordsDecode := by
  unfold Obligations.SpecWordsDecode
  decide

end Sys2Proof.Machine
end

section
/-! PROOFS. How many bits HUFF's readers read and what they may answer (R201, R202, R207, R211, R212): each reads at
most a known number of bits, all before BITEND, and stops early only where BITBUF ends or holds no value. -/

namespace Sys2Proof.Machine

variable {src : BitSource} {r r' : Reader} {α β : Type}

/-! ### The bits between two readers -/

/-- R201: the reader `r'` comes `n` bits after `r`, and each of these bits may be read. -/
def Reaches (src : BitSource) (r : Reader) (n : Nat) (r' : Reader) : Prop :=
  r' = r.after n ∧ ∀ k, k < n → ¬PastEnd src (r.pos + k)

theorem Reaches.refl (src : BitSource) (r : Reader) : Reaches src r 0 r :=
  ⟨rfl, fun _ hk => absurd hk (Nat.not_lt_zero _)⟩

theorem Reaches.trans {m n : Nat} {r'' : Reader} (h : Reaches src r m r') (h' : Reaches src r' n r'') :
    Reaches src r (m + n) r'' := by
  obtain ⟨rfl, hm⟩ := h
  obtain ⟨rfl, hn⟩ := h'
  refine ⟨Reader.after_after r m n, fun k hk => ?_⟩
  by_cases hkm : k < m
  · exact hm k hkm
  · have := hn (k - m) (by omega)
    rwa [Reader.after, Nat.add_assoc, Nat.add_sub_cancel' (Nat.le_of_not_lt hkm)] at this

theorem Reaches.pos_eq {n : Nat} (h : Reaches src r n r') : r'.pos = r.pos + n := by
  rw [h.1, Reader.after]

theorem Reaches.used_eq {n : Nat} (h : Reaches src r n r') : r'.used = r.used + n := by
  rw [h.1, Reader.after]

/-- R201: no more bits can be read than BITBUF holds. -/
theorem Reaches.le_buffer {n : Nat} (h : Reaches src r n r') : n ≤ 32768 := by
  obtain ⟨-, hread⟩ := h
  cases n with
  | zero => exact Nat.zero_le _
  | succ n =>
    have := hread n (Nat.lt_succ_self n)
    omega

/-- R212: bits that are left of a budget keep within it. -/
theorem Reaches.used_le {n budget : Nat} (h : Reaches src r n r') (hn : n ≤ budget - r.used) :
    r'.used ≤ max budget r.used := by
  have := h.used_eq
  omega

/-! ### What a decoder may answer -/

/-- `x`, what a decoder answers at the reader `r`, takes at most `n` bits: it is a value with `P` after at most `n`
bits, or it stops before one of them, where BITBUF ends (R201) or holds no value (R57). -/
def Reads (src : BitSource) (r : Reader) (n : Nat) (P : α → Prop) (x : Read α) : Prop :=
  match x with
  | .ok a r' => P a ∧ ∃ m, m ≤ n ∧ Reaches src r m r'
  | .underflow r' => PastEnd src r'.pos ∧ ∃ m, m < n ∧ Reaches src r m r'
  | .unwritten => ∃ r', ¬PastEnd src r'.pos ∧ Store.get unspecified src.bitbuf (r'.pos / 8) = none ∧
      ∃ m, m < n ∧ Reaches src r m r'

theorem reads_ok {n : Nat} {P : α → Prop} {a : α} (h : P a) : Reads src r n P (.ok a r) :=
  ⟨h, 0, Nat.zero_le n, Reaches.refl src r⟩

/-- Two decoders, the second at the reader after the first, take at most `N` bits when the second takes at most those
that the first leaves of them. -/
theorem Reads.andThen {x : Read α} {f : α → Reader → Read β} {m N : Nat} {P : α → Prop} {Q : β → Prop}
    (hx : Reads src r m P x) (hmN : m ≤ N)
    (hf : ∀ a k, k ≤ m → P a → Reads src (r.after k) (N - k) Q (f a (r.after k))) : Reads src r N Q (x.andThen f) := by
  cases x with
  | underflow r' =>
    obtain ⟨hend, k, hk, hr⟩ := hx
    exact ⟨hend, k, by omega, hr⟩
  | unwritten =>
    obtain ⟨r', hend, hnone, k, hk, hr⟩ := hx
    exact ⟨r', hend, hnone, k, by omega, hr⟩
  | ok a r' =>
    obtain ⟨hP, k, hk, hr⟩ := hx
    obtain rfl := hr.1
    have h := hf a k hk hP
    rw [Read.andThen]
    generalize f a (r.after k) = y at h
    cases y with
    | ok b r'' =>
      obtain ⟨hQ, j, hj, hr'⟩ := h
      exact ⟨hQ, k + j, by omega, hr.trans hr'⟩
    | underflow r'' =>
      obtain ⟨hend, j, hj, hr'⟩ := h
      exact ⟨hend, k + j, by omega, hr.trans hr'⟩
    | unwritten =>
      obtain ⟨r'', hend, hnone, j, hj, hr'⟩ := h
      exact ⟨r'', hend, hnone, k + j, by omega, hr.trans hr'⟩

/-- A decoder takes at most any larger number of bits. -/
theorem Reads.mono {x : Read α} {m n : Nat} {P Q : α → Prop} (hx : Reads src r m P x) (hmn : m ≤ n)
    (hPQ : ∀ a, P a → Q a) : Reads src r n Q x := by
  have h : x = x.andThen .ok := by cases x <;> rfl
  rw [h]
  exact hx.andThen hmn fun a k _ ha => reads_ok (hPQ a ha)

/-- Two decoders take together at most the sum of the bits that each takes. -/
theorem Reads.andThen_add {x : Read α} {f : α → Reader → Read β} {m n : Nat} {P : α → Prop} {Q : β → Prop}
    (hx : Reads src r m P x) (hf : ∀ a r', P a → Reads src r' n Q (f a r')) : Reads src r (m + n) Q (x.andThen f) :=
  hx.andThen (Nat.le_add_right m n) fun a k hk ha => (hf a _ ha).mono (by omega) fun _ h => h

/-- R201, R57: a decoder whose bits all lie before BITEND in bytes that hold values answers a value. -/
theorem Reads.exists_ok {x : Read α} {n : Nat} {P : α → Prop} (hx : Reads src r n P x)
    (hw : Store.written src.bitbuf 4096) (hroom : r.pos + n ≤ min src.bitEnd 32768) : ∃ a r', x = .ok a r' := by
  cases x with
  | ok a r' => exact ⟨a, r', rfl⟩
  | underflow r' =>
    obtain ⟨hend, m, hm, hr⟩ := hx
    have := hr.pos_eq
    omega
  | unwritten =>
    obtain ⟨r', hend, hnone, -⟩ := hx
    have hsome := hw (r'.pos / 8) (by omega)
    rw [hnone] at hsome
    cases hsome

/-! ### The readers of a pair (R202, R207, R211) -/

theorem reads_getBit (src : BitSource) (r : Reader) : Reads src r 1 (fun _ => True) (getBit src r) := by
  by_cases hend : PastEnd src r.pos
  · rw [getBit_of_pastEnd hend]
    exact ⟨hend, 0, Nat.one_pos, Reaches.refl src r⟩
  · cases hget : Store.get unspecified src.bitbuf (r.pos / 8) with
    | none =>
      rw [getBit, if_neg hend, hget]
      exact ⟨r, hend, hget, 0, Nat.one_pos, Reaches.refl src r⟩
    | some b =>
      rw [getBit_of_get hend hget]
      refine ⟨trivial, 1, Nat.le_refl 1, rfl, fun k hk => ?_⟩
      rwa [Nat.lt_one_iff.1 hk]

/-- R201: n bits read after the bits of v make a number of n more bits. -/
theorem reads_getBits (src : BitSource) (n v : Nat) (r : Reader) :
    Reads src r n (· < (v + 1) * 2 ^ n) (getBits src n v r) := by
  induction n generalizing v r with
  | zero => exact reads_ok (by omega)
  | succ n ih =>
    rw [getBits, Nat.add_comm n 1]
    refine (reads_getBit src r).andThen_add fun b r' _ => (ih (2 * v + b.toNat) r').mono (Nat.le_refl n) fun e he => ?_
    have hb := b.toNat_le
    calc e < (2 * v + b.toNat + 1) * 2 ^ n := he
      _ ≤ (2 * (v + 1)) * 2 ^ n := Nat.mul_le_mul_right _ (by omega)
      _ = (v + 1) * 2 ^ (1 + n) := by ring

/-- R202: a codeword has at most as many bits as its codebook is deep. -/
theorem reads_readCode (src : BitSource) (c : Code α) (r : Reader) :
    Reads src r (codeDepth c) (fun _ => True) (readCode src c r) := by
  induction c generalizing r with
  | leaf a => exact reads_ok trivial
  | node zero one ihz iho =>
    rw [codeDepth, Nat.add_comm]
    refine (reads_getBit src r).andThen_add fun b r' _ => ?_
    cases b with
    | false => exact (ihz r').mono (Nat.le_max_left _ _) fun _ h => h
    | true => exact (iho r').mono (Nat.le_max_right _ _) fun _ h => h

theorem linbits_le (t : BitVec 5) : linbits t ≤ 13 := by
  revert t
  decide

/-- R211: an escaped coordinate is at most 15 + 2^13 − 1. -/
theorem reads_readEscape (src : BitSource) (t : BitVec 5) (v : BitVec 4) (r : Reader) :
    Reads src r 13 (· ≤ 8206) (readEscape src t v.toNat r) := by
  have hv := v.isLt
  have hpow : 2 ^ linbits t ≤ 2 ^ 13 := Nat.pow_le_pow_right (by decide) (linbits_le t)
  rw [readEscape]
  split
  next h =>
    refine (reads_getBits src (linbits t) 0 r).andThen (linbits_le t) fun n k hk hn => reads_ok ?_
    show v.toNat + n ≤ 8206
    omega
  next h => exact reads_ok (by omega)

theorem reads_readSign (src : BitSource) (v : Nat) (r : Reader) :
    Reads src r 1 (fun x => x.natAbs ≤ v) (readSign src v r) := by
  rw [readSign]
  split
  · exact reads_ok (by simp)
  · refine (reads_getBit src r).andThen (Nat.le_refl 1) fun b k _ _ => reads_ok ?_
    cases b <;> simp

/-- R207: a pair takes its codeword, two escapes and two signs, 28 bits at most beside the codeword. -/
theorem reads_readPair (src : BitSource) (t : BitVec 5) (r : Reader) :
    Reads src r (codeDepth (codebook t) + 28) (fun v => v.1.natAbs ≤ 8206 ∧ v.2.natAbs ≤ 8206) (readPair src t r) :=
  (reads_readCode src (codebook t) r).andThen_add (n := 13 + (1 + (13 + 1))) fun xy r _ =>
    (reads_readEscape src t xy.1 r).andThen_add fun x r hx =>
      (reads_readSign src x r).andThen_add fun _ r hx' =>
        (reads_readEscape src t xy.2 r).andThen_add fun y r hy =>
          (reads_readSign src y r).andThen (Nat.le_refl 1) fun _ _ _ hy' =>
            reads_ok ⟨hx'.trans hx, hy'.trans hy⟩

/-! ### The readers of a quadruple (R202, R212) -/

theorem Reader.budget_after (r : Reader) (budget k : Nat) : budget - (r.after k).used = budget - r.used - k := by
  rw [Reader.after, Nat.sub_sub]

/-- R212 (a): no bit of a codeword is read beyond the budget. -/
theorem reads_readCodeWithin (src : BitSource) (budget : Nat) (c : Code α) (r : Reader) :
    Reads src r (budget - r.used) (fun _ => True) (readCodeWithin src budget c r) := by
  induction c generalizing r with
  | leaf a => exact reads_ok trivial
  | node zero one ihz iho =>
    rw [readCodeWithin]
    split
    · exact reads_ok trivial
    next hroom =>
      refine (reads_getBit src r).andThen (by omega) fun b k _ _ => ?_
      rw [← r.budget_after]
      cases b with
      | false => exact ihz _
      | true => exact iho _

/-- R212 (b): no sign bit is read beyond the budget. -/
theorem reads_readQuadSigns (src : BitSource) (budget : Nat) (qs : List Bool) (r : Reader) :
    Reads src r (budget - r.used) (fun e => e.1.length = qs.length ∧ ∀ v ∈ e.1, v.natAbs ≤ 1)
      (readQuadSigns src budget qs r) := by
  induction qs generalizing r with
  | nil => exact reads_ok (by simp)
  | cons q qs ih =>
    cases q with
    | false =>
      refine (ih r).andThen (Nat.le_refl _) fun e k _ ⟨hlen, hsmall⟩ => reads_ok ?_
      simpa [hlen] using hsmall
    | true =>
      rw [readQuadSigns]
      split
      · exact reads_ok (by simp +contextual [List.mem_replicate])
      next hroom =>
        refine (reads_getBit src r).andThen (by omega) fun b k _ _ => ?_
        rw [← r.budget_after]
        refine (ih _).andThen (Nat.le_refl _) fun e k _ ⟨hlen, hsmall⟩ => reads_ok ?_
        cases b <;> simpa [hlen] using hsmall

/-- R212: a quadruple takes no bit beyond the budget, and one that counts has four values of magnitude at most 1. -/
theorem reads_readQuad (src : BitSource) (sel : Bool) (budget : Nat) (r : Reader) :
    Reads src r (budget - r.used) (fun q => ∀ e, q = some e → e.1.length = 4 ∧ ∀ v ∈ e.1, v.natAbs ≤ 1)
      (readQuad src sel budget r) := by
  refine (reads_readCodeWithin src budget (quadBook sel) r).andThen (Nat.le_refl _) fun q k _ _ => ?_
  rw [← r.budget_after]
  cases q with
  | none => exact reads_ok (by simp)
  | some q =>
    refine (reads_readQuadSigns src budget (quadValues q) _).andThen (Nat.le_refl _) fun e k _ he => reads_ok ?_
    rintro _ ⟨⟩
    exact he

end Sys2Proof.Machine
end

section
/-! PROOFS. A granule's decoding from its first bit to its end (R200, R207, R212, R217): what HUFF's working state holds
after the pairs and quadruples that decode, and that every HUFF ends in one of these ways. -/

namespace Sys2Proof.Machine

variable {N : NumImpl} {s t : State N} {rs : Nat → Reader} {x y : Nat → Int} {qs : Nat → List Int} {last : List Int}
  {n m : Nat} {r : Reader} {cut : Bool}

/-! ### The values of a granule -/

/-- The values of `n` pairs, of `m` quadruples and `last`, first line first (R207, R212). -/
def decodedValues (n m : Nat) (x y : Nat → Int) (qs : Nat → List Int) (last : List Int) : List Int :=
  (List.range n).flatMap (fun k => [x k, y k]) ++ ((List.range m).flatMap qs ++ last)

section groups

variable {f : Nat → List Int} {c : Nat} (hf : ∀ k, k < n → (f k).length = c)

include hf

theorem length_flatMap_range : ((List.range n).flatMap f).length = c * n := by
  induction n with
  | zero => simp
  | succ n ih =>
    rw [List.range_succ, List.flatMap_append, List.length_append, ih fun k hk => hf k (by omega),
      List.flatMap_singleton, hf n (Nat.lt_succ_self n), Nat.mul_succ]

/-- In a list of groups of `c` values, the values of group k begin at c·k. -/
theorem getD_flatMap_range {k i : Nat} (hk : k < n) (hi : i < c) :
    ((List.range n).flatMap f).getD (c * k + i) 0 = (f k).getD i 0 := by
  induction n with
  | zero => omega
  | succ n ih =>
    have hlen := length_flatMap_range (n := n) fun k hk => hf k (by omega)
    rw [List.range_succ, List.flatMap_append, List.flatMap_singleton]
    by_cases hkn : k < n
    · have hlt : c * k + i < c * n :=
        calc c * k + i < c * (k + 1) := by rw [Nat.mul_succ]; omega
          _ ≤ c * n := Nat.mul_le_mul_left c hkn
      rw [List.getD_append _ _ _ _ (by omega), ih (fun k hk => hf k (by omega)) hkn]
    · obtain rfl : k = n := by omega
      rw [List.getD_append_right _ _ _ _ (by omega), hlen, Nat.add_sub_cancel_left]

end groups

theorem length_pairs (n : Nat) (x y : Nat → Int) : ((List.range n).flatMap fun k => [x k, y k]).length = 2 * n :=
  length_flatMap_range (f := fun k => [x k, y k]) fun _ _ => rfl

/-- The working state that holds the values `vs` and the warnings `w`, with the reader `r`. -/
def progressOf (vs : List Int) (r : Reader) (w : BitVec 8) : Progress := ⟨(vs.map (BitVec.ofInt 16)).reverse, r, w⟩

theorem pairsDone_eq (p : Params) (rs : Nat → Reader) (x y : Nat → Int) (n : Nat) : pairsDone p rs x y n =
    progressOf ((List.range n).flatMap (fun k => [x k, y k])) (rs n) (pairsDone p rs x y n).warns := by
  induction n with
  | zero => rfl
  | succ n ih => simp [pairsDone, progressOf, List.range_succ, congrArg Progress.rev ih]

theorem quadsDone_eq (vs : List Int) (rs : Nat → Reader) (w : BitVec 8) (qs : Nat → List Int) (m : Nat) :
    quadsDone (progressOf vs (rs 0) w) rs qs m = progressOf (vs ++ (List.range m).flatMap qs) (rs m) w := by
  induction m with
  | zero => simp [quadsDone]
  | succ m ih =>
    rw [quadsDone, congrArg Progress.rev ih]
    simp [progressOf, List.range_succ]

/-- R213, R217: IS takes the values and then 0. -/
theorem get_storeSpectrum (hs : Store.Rising s.isq) {vs : List Int} (hlen : vs.length ≤ 576) (r : Reader) (w : BitVec 8)
    {i : Nat} (hi : i < 576) : Store.get unspecified (s.storeSpectrum (progressOf vs r w)).isq i =
      some (BitVec.ofInt 16 (vs.getD i 0)) := by
  have hspec : spectrum (progressOf vs r w) =
      vs.map (BitVec.ofInt 16) ++ List.replicate (576 - vs.length) 0#16 := by
    simp [spectrum, progressOf]
  have hi' : i < (spectrum (progressOf vs r w)).length := by
    rw [hspec, List.length_append, List.length_map, List.length_replicate]
    omega
  have hget := Store.get_fill_mem (d := unspecified) hs 0 (spectrum (progressOf vs r w)) hi'
  rw [Nat.zero_add] at hget
  rw [State.storeSpectrum, hget]
  simp only [hspec, List.getElem_append, List.length_map, List.getElem_map, List.getElem_replicate]
  split
  next h => rw [List.getD_eq_getElem _ _ h]
  next h =>
    rw [List.getD_eq_default _ _ (by omega)]
    rfl

/-! ### What decoding bounds -/

/-- `n` pairs, `m` quadruples and `last` have been decoded from BITPOS on, up to the reader `r`: they fit in the granule
and no magnitude exceeds 8206 (R211). -/
structure Decoded (s : State N) (n m : Nat) (x y : Nat → Int) (qs : Nat → List Int) (last : List Int) (r : Reader) :
    Prop where
  pair_le : ∀ k, k < n → (x k).natAbs ≤ 8206 ∧ (y k).natAbs ≤ 8206
  quad_length : ∀ j, j < m → (qs j).length = 4
  quad_le : ∀ j, j < m → ∀ v ∈ qs j, v.natAbs ≤ 8206
  last_le : ∀ v ∈ last, v.natAbs ≤ 8206
  fits : 2 * n + 4 * m + last.length ≤ 576
  reached : ∃ j, Reaches s.bitSource ⟨s.snap.pos.toNat, 0⟩ j r

theorem pairsOf_le (p : Params) : pairsOf p ≤ 288 := Nat.min_le_right _ _

/-- R207: pairs that decode take at most the sum of their bits. -/
theorem PairsDecode.reaches (h : PairsDecode s n rs x y) {depth : Nat}
    (hd : ∀ k, k < n → codeDepth (codebook (tableOf s.snap k)) ≤ depth) :
    ∃ j, j ≤ n * (depth + 28) ∧ Reaches s.bitSource ⟨s.snap.pos.toNat, 0⟩ j (rs n) := by
  obtain ⟨hpos, hpairs⟩ := h
  induction n with
  | zero => exact ⟨0, Nat.zero_le _, hpos ▸ Reaches.refl _ _⟩
  | succ n ih =>
    obtain ⟨j, hj, hr⟩ := ih (fun k hk => hd k (by omega)) fun k hk => hpairs k (by omega)
    have hread := reads_readPair s.bitSource (tableOf s.snap n) (rs n)
    rw [hpairs n (Nat.lt_succ_self n)] at hread
    obtain ⟨-, i, hi, hr'⟩ := hread
    have := hd n (Nat.lt_succ_self n)
    exact ⟨j + i, by rw [Nat.succ_mul]; omega, hr.trans hr'⟩

/-- Every codebook is finite, the open ones too. -/
theorem exists_codeDepth_le : ∃ depth, ∀ t, codeDepth (codebook t) ≤ depth :=
  ⟨Finset.univ.sup fun t => codeDepth (codebook t), fun t =>
    Finset.le_sup (f := fun t => codeDepth (codebook t)) (Finset.mem_univ t)⟩

theorem PairsDecode.decoded (h : PairsDecode s n rs x y) (hn : n ≤ pairsOf s.snap) (qs : Nat → List Int) :
    Decoded s n 0 x y qs [] (rs n) where
  pair_le k hk := by
    have hread := reads_readPair s.bitSource (tableOf s.snap k) (rs k)
    rw [h.2 k hk] at hread
    exact hread.1
  quad_length _ hj := absurd hj (Nat.not_lt_zero _)
  quad_le _ hj := absurd hj (Nat.not_lt_zero _)
  last_le _ hv := absurd hv List.not_mem_nil
  fits := by
    have := pairsOf_le s.snap
    rw [List.length_nil]
    omega
  reached := by
    obtain ⟨depth, hd⟩ := exists_codeDepth_le
    obtain ⟨j, -, hr⟩ := h.reaches fun k _ => hd _
    exact ⟨j, hr⟩

/-- R201: the reader goes on to a later bit. -/
theorem Decoded.reaches (h : Decoded s n m x y qs last r) {j : Nat} {r' : Reader} (hr : Reaches s.bitSource r j r') :
    Decoded s n m x y qs last r' :=
  { h with reached := h.reached.elim fun i hi => ⟨i + j, hi.trans hr⟩ }

/-- R212: a quadruple that counts, whole or cut, has four values of magnitude at most 1, after bits that may be read. -/
theorem nextQuad_some {vs : List Int} {r' : Reader} (h : nextQuad s r = .ok (some (vs, cut)) r') :
    vs.length = 4 ∧ (∀ v ∈ vs, v.natAbs ≤ 8206) ∧ ∃ j, Reaches s.bitSource r j r' := by
  have hread := reads_readQuad s.bitSource s.snap.gain.c1sel (budgetOf s.snap) r
  rw [← nextQuad, h] at hread
  obtain ⟨hval, j, -, hr⟩ := hread
  obtain ⟨hlen, hle⟩ := hval _ rfl
  exact ⟨hlen, fun v hv => (hle v hv).trans (by decide), j, hr⟩

theorem Decoded.quads (h : Decoded s (pairsOf s.snap) 0 x y qs [] (rs (pairsOf s.snap))) (hq : QuadsDecode s m rs qs) :
    Decoded s (pairsOf s.snap) m x y qs [] (rs (pairsOf s.snap + m)) := by
  induction m with
  | zero => exact h
  | succ m ih =>
    have hm := ih fun j hj => hq j (by omega)
    obtain ⟨⟨hline, -⟩, hquad⟩ := hq m (Nat.lt_succ_self m)
    obtain ⟨hlen, hle, j, hr⟩ := nextQuad_some hquad
    refine { hm.reaches hr with quad_length := fun j hj => ?_, quad_le := fun j hj => ?_, fits := ?_ }
    · rcases Nat.lt_succ_iff_lt_or_eq.1 hj with hj | rfl
      · exact hm.quad_length j hj
      · exact hlen
    · rcases Nat.lt_succ_iff_lt_or_eq.1 hj with hj | rfl
      · exact hm.quad_le j hj
      · exact hle
    · rw [List.length_nil]
      omega

theorem Decoded.ends {r' : Reader} (h : Decoded s n m x y qs [] r)
    (hend : CountOneEnds s (2 * n + 4 * m) r last r' cut) : Decoded s n m x y qs last r' := by
  obtain ⟨-, rfl, rfl, -⟩ | ⟨⟨hline, -⟩, -, hquad | ⟨hnone, rfl⟩⟩ := hend
  · exact h
  · obtain ⟨hlen, hle, j, hr⟩ := nextQuad_some hquad
    exact { h.reaches hr with last_le := hle, fits := by omega }
  · have hread := reads_readQuad s.bitSource s.snap.gain.c1sel (budgetOf s.snap) r
    rw [← nextQuad, hnone] at hread
    obtain ⟨-, j, -, hr⟩ := hread
    exact h.reaches hr

section decoded

variable (h : Decoded s n m x y qs last r)

include h

theorem Decoded.length_values : (decodedValues n m x y qs last).length = 2 * n + 4 * m + last.length := by
  rw [decodedValues, List.length_append, List.length_append, length_pairs, length_flatMap_range h.quad_length,
    Nat.add_assoc]

theorem Decoded.natAbs_le {v : Int} (hv : v ∈ decodedValues n m x y qs last) : v.natAbs ≤ 8206 := by
  simp only [decodedValues, List.mem_append, List.mem_flatMap, List.mem_range] at hv
  obtain ⟨k, hk, hv⟩ | ⟨j, hj, hv⟩ | hv := hv
  · obtain ⟨hx, hy⟩ := h.pair_le k hk
    obtain rfl | rfl : v = x k ∨ v = y k := by simpa using hv
    · exact hx
    · exact hy
  · exact h.quad_le j hj v hv
  · exact h.last_le v hv

/-- R51: HUFFUSED holds the number of bits read, since BITBUF holds no more than 32768. -/
theorem Decoded.toNat_used : (BitVec.ofNat 16 r.used).toNat = r.used ∧ r.pos = s.snap.pos.toNat + r.used := by
  obtain ⟨j, hr⟩ := h.reached
  have hle := hr.le_buffer
  have hpos := hr.pos_eq
  have hused := hr.used_eq
  simp only [Nat.zero_add] at hpos hused
  rw [BitVec.toNat_ofNat]
  omega

/-- R213, R217: what IS holds after the granule. -/
theorem Decoded.get_isq (hs : Store.Rising s.isq) (w : BitVec 8) {i : Nat} (hi : i < 576) :
    Store.get unspecified (s.storeSpectrum (progressOf (decodedValues n m x y qs last) r w)).isq i =
      some (BitVec.ofInt 16 ((decodedValues n m x y qs last).getD i 0)) :=
  get_storeSpectrum hs (h.length_values.trans_le h.fits) r w hi

/-- R213, R217: every line holds a value. -/
theorem Decoded.written_isq (hs : Store.Rising s.isq) (w : BitVec 8) :
    Store.written (s.storeSpectrum (progressOf (decodedValues n m x y qs last) r w)).isq 576 := fun _ hi =>
  Option.isSome_iff_exists.2 ⟨_, h.get_isq hs w hi⟩

/-- R207, R212, R213: the pairs and the quadruples stand at their lines. -/
theorem Decoded.spectrumIs (hs : Store.Rising s.isq) {w : BitVec 8}
    (ht : t.isq = (s.storeSpectrum (progressOf (decodedValues n m x y qs last) r w)).isq) :
    SpectrumIs s t n m x y qs last := by
  have hfits := h.fits
  have hpairs := length_pairs n x y
  have hquads := length_flatMap_range h.quad_length
  have hpair {k i : Nat} (hk : k < n) (hi : i < 2) :
      (decodedValues n m x y qs last).getD (2 * k + i) 0 = [x k, y k].getD i 0 := by
    rw [decodedValues, List.getD_append _ _ _ _ (by omega),
      getD_flatMap_range (f := fun k => [x k, y k]) (fun _ _ => rfl) hk hi]
  rw [SpectrumIs, ht]
  refine ⟨fun k hk => ⟨?_, ?_⟩, fun j i hj hi => ?_, fun i hi => ?_, fun a ha => ?_⟩
  · rw [h.get_isq hs w (by omega)]
    exact congrArg (fun v => some (BitVec.ofInt 16 v)) (hpair hk (i := 0) (by decide))
  · rw [h.get_isq hs w (by omega)]
    exact congrArg (fun v => some (BitVec.ofInt 16 v)) (hpair hk (i := 1) (by decide))
  · rw [h.get_isq hs w (by omega), decodedValues, List.getD_append_right _ _ _ _ (by omega), hpairs,
      show 2 * n + 4 * j + i - 2 * n = 4 * j + i by omega, List.getD_append _ _ _ _ (by omega),
      getD_flatMap_range h.quad_length hj hi]
  · rw [h.get_isq hs w hi, decodedValues, List.getD_append_right _ _ _ _ (by omega), hpairs,
      List.getD_append_right _ _ _ _ (by omega), hquads, show 2 * n + 4 * m + i - 2 * n - 4 * m = i by omega]
  · refine Store.get_fill_not_mem hs 0 _ (.inr ?_)
    have := h.length_values
    simp [spectrum, progressOf]
    omega

end decoded

/-! ### The run of a granule -/

/-- Pair k underflows after the pairs before it. -/
theorem decodeSpectrum_of_pair_underflow (hn : n < pairsOf s.snap) (h : PairsDecode s n rs x y)
    (hpair : readPair s.bitSource (tableOf s.snap n) (rs n) = .underflow r) :
    decodeSpectrum s.bitSource s.snap =
      ((progressOf (decodedValues n 0 x y qs []) r (pairsDone s.snap rs x y (n + 1)).warns, 0), .underflow) := by
  have hcount : pairCount s.snap = pairsOf s.snap - n - 1 + 1 + n := by
    rw [show pairCount s.snap = pairsOf s.snap from rfl]
    omega
  have hread : readPair s.bitSource (pairTable s.snap (2 * n)) (pairsDone s.snap rs x y n).reader = .underflow r := by
    rw [pairsDone_reader]
    exact hpair
  rw [decodeSpectrum, hcount, bigValues_of_pairsDecode h, bigValues, hread]
  simp [pairsDone, progressOf, decodedValues, congrArg Progress.rev (pairsDone_eq s.snap rs x y n)]

/-- After all the pairs the granule goes on with its count1 region. -/
theorem decodeSpectrum_of_pairs (hp : PairsDecode s (pairsOf s.snap) rs x y) : decodeSpectrum s.bitSource s.snap =
    count1 s.bitSource s.snap.gain.c1sel (budgetOf s.snap) maxQuads (2 * pairsOf s.snap)
      (pairsDone s.snap rs x y (pairsOf s.snap)) := by
  have hbig := bigValues_of_pairsDecode hp 0
  rw [Nat.zero_add, bigValues] at hbig
  rw [decodeSpectrum, show pairCount s.snap = pairsOf s.snap from rfl, hbig]
  rfl

section quads

variable (hp : PairsDecode s (pairsOf s.snap) rs x y) (hq : QuadsDecode s m rs qs)

include hp hq

/-- After whole quadruples the count1 region goes on from the line after them. -/
theorem decodeSpectrum_of_quads {fuel : Nat} (hfuel : fuel + m = maxQuads) : decodeSpectrum s.bitSource s.snap =
    count1 s.bitSource s.snap.gain.c1sel (budgetOf s.snap) fuel (2 * pairsOf s.snap + 4 * m)
      (progressOf (decodedValues (pairsOf s.snap) m x y qs []) (rs (pairsOf s.snap + m))
        (pairsDone s.snap rs x y (pairsOf s.snap)).warns) := by
  have hquads := quadsDone_eq ((List.range (pairsOf s.snap)).flatMap fun k => [x k, y k])
    (fun j => rs (pairsOf s.snap + j)) (pairsDone s.snap rs x y (pairsOf s.snap)).warns qs m
  rw [Nat.add_zero, ← pairsDone_eq] at hquads
  rw [decodeSpectrum_of_pairs hp, ← hfuel, count1_of_quadsDecode hq (pairsDone_reader _ _), hquads, decodedValues,
    List.append_nil]

/-- Quadruple m underflows after the quadruples before it. -/
theorem decodeSpectrum_of_quad_underflow (hstart : QuadStarts s (2 * pairsOf s.snap + 4 * m) (rs (pairsOf s.snap + m)))
    (hquad : nextQuad s (rs (pairsOf s.snap + m)) = .underflow r) :
    decodeSpectrum s.bitSource s.snap =
      ((progressOf (decodedValues (pairsOf s.snap) m x y qs []) r (pairsDone s.snap rs x y (pairsOf s.snap)).warns,
        2 * pairsOf s.snap + 4 * m), .underflow) := by
  have hfuel : 143 - m + 1 + m = maxQuads := by
    have := hstart.1
    rw [maxQuads]
    omega
  rw [QuadStarts] at hstart
  rw [nextQuad] at hquad
  rw [decodeSpectrum_of_quads hp hq hfuel, count1, if_pos (by exact hstart)]
  simp only [progressOf, hquad]

/-- The count1 region ends after the quadruples before it. -/
theorem decodeSpectrum_of_ends
    (hend : CountOneEnds s (2 * pairsOf s.snap + 4 * m) (rs (pairsOf s.snap + m)) last r cut) :
    decodeSpectrum s.bitSource s.snap =
      ((progressOf (decodedValues (pairsOf s.snap) m x y qs last) r
        ((pairsDone s.snap rs x y (pairsOf s.snap)).warns ||| Warn.trunc.maskIf cut),
        2 * pairsOf s.snap + 4 * m + last.length), .goesOn) := by
  have hfits := (((hp.decoded (Nat.le_refl _) qs).quads hq).ends hend).fits
  obtain ⟨hstop, rfl, rfl, rfl⟩ | ⟨hstart, rfl, hquad⟩ := hend
  · have hfuel : 144 - m + m = maxQuads := by
      rw [maxQuads]
      omega
    rw [decodeSpectrum_of_quads hp hq hfuel]
    rw [QuadStarts] at hstop
    cases 144 - m with
    | zero => simp [count1]
    | succ fuel =>
      rw [count1, if_neg (by exact hstop)]
      simp
  · have hfuel : 143 - m + 1 + m = maxQuads := by
      have := hstart.1
      rw [maxQuads]
      omega
    rw [QuadStarts] at hstart
    rw [decodeSpectrum_of_quads hp hq hfuel, count1, if_pos (by exact hstart)]
    obtain hquad | ⟨hquad, rfl⟩ := hquad
    · have hlen := (nextQuad_some hquad).1
      rw [nextQuad] at hquad
      simp only [progressOf, hquad]
      simp [decodedValues, hlen, ← List.map_reverse]
    · rw [nextQuad] at hquad
      simp [progressOf, hquad]

end quads

end Sys2Proof.Machine
end

section
/-! PROOFS. HUFF's completion and abort (R200–R217): every HUFF that goes on is the run of a granule to its end, to
which IS, the result registers and the warnings belong. Settles O32 and O35 to O42. -/

namespace Sys2Proof.Machine

variable {N : NumImpl} {s t : State N} {rs : Nat → Reader} {x y : Nat → Int} {qs : Nat → List Int} {last : List Int}
  {n m : Nat} {r : Reader} {cut : Bool}

/-! ### The run of every granule -/

/-- What a decoder answered, or `d` where it stopped. -/
def Read.resultD {α : Type} (z : Read α) (d : α × Reader) : α × Reader :=
  match z with
  | .ok a r => (a, r)
  | _ => d

/-- The readers of a granule: before each of its pairs, and then before each quadruple. -/
def readerAt (s : State N) : Nat → Reader
  | 0 => ⟨s.snap.pos.toNat, 0⟩
  | k + 1 =>
    if k < pairsOf s.snap then
      ((readPair s.bitSource (tableOf s.snap k) (readerAt s k)).resultD ((0, 0), readerAt s k)).2
    else ((nextQuad s (readerAt s k)).resultD (none, readerAt s k)).2

/-- The values of pair k. -/
def pairAt (s : State N) (k : Nat) : Int × Int :=
  ((readPair s.bitSource (tableOf s.snap k) (readerAt s k)).resultD ((0, 0), readerAt s k)).1

/-- The values of quadruple j. -/
def quadAt (s : State N) (j : Nat) : List Int :=
  match (nextQuad s (readerAt s (pairsOf s.snap + j))).resultD (none, readerAt s 0) with
  | (some (vs, _), _) => vs
  | _ => []

/-- A property holds below `n`, or there is a first number there without it. -/
theorem forall_lt_or_exists_first (P : Nat → Prop) (n : Nat) :
    (∀ k, k < n → P k) ∨ ∃ k, k < n ∧ (∀ j, j < k → P j) ∧ ¬P k := by
  induction n with
  | zero => exact .inl fun k hk => absurd hk (Nat.not_lt_zero k)
  | succ n ih =>
    obtain hall | ⟨k, hk, hfirst⟩ := ih
    · by_cases hn : P n
      · exact .inl fun k hk => (Nat.lt_succ_iff_lt_or_eq.1 hk).elim (hall k) (· ▸ hn)
      · exact .inr ⟨n, Nat.lt_succ_self n, hall, hn⟩
    · exact .inr ⟨k, hk.trans (Nat.lt_succ_self n), hfirst⟩

theorem pairsDecode_readerAt (hn : n ≤ pairsOf s.snap)
    (h : ∀ k, k < n → ∃ v r, readPair s.bitSource (tableOf s.snap k) (readerAt s k) = .ok v r) :
    PairsDecode s n (readerAt s) (fun k => (pairAt s k).1) (fun k => (pairAt s k).2) := by
  refine ⟨rfl, fun k hk => ?_⟩
  obtain ⟨v, r, hread⟩ := h k hk
  simp [pairAt, readerAt, hread, Read.resultD, hk.trans_le hn]

theorem quadsDecode_readerAt
    (h : ∀ j, j < m → QuadStarts s (2 * pairsOf s.snap + 4 * j) (readerAt s (pairsOf s.snap + j)) ∧
      ∃ vs r, nextQuad s (readerAt s (pairsOf s.snap + j)) = .ok (some (vs, false)) r) :
    QuadsDecode s m (readerAt s) (quadAt s) := by
  intro j hj
  obtain ⟨hstart, vs, r, hquad⟩ := h j hj
  refine ⟨hstart, ?_⟩
  simp [quadAt, readerAt, hquad, Read.resultD]

/-- R200: a granule stops in a pair, or in a quadruple after all the pairs, or its count1 region ends. -/
theorem granule_cases (s : State N) : ∃ rs x y qs,
    (∃ k, k < pairsOf s.snap ∧ PairsDecode s k rs x y ∧
      ¬∃ v r, readPair s.bitSource (tableOf s.snap k) (rs k) = .ok v r) ∨
    (PairsDecode s (pairsOf s.snap) rs x y ∧ ∃ m, QuadsDecode s m rs qs ∧
      ((QuadStarts s (2 * pairsOf s.snap + 4 * m) (rs (pairsOf s.snap + m)) ∧
        ¬∃ v r, nextQuad s (rs (pairsOf s.snap + m)) = .ok v r) ∨
      ∃ last r cut, CountOneEnds s (2 * pairsOf s.snap + 4 * m) (rs (pairsOf s.snap + m)) last r cut)) := by
  refine ⟨readerAt s, fun k => (pairAt s k).1, fun k => (pairAt s k).2, quadAt s, ?_⟩
  obtain hall | ⟨k, hk, hfirst, hstop⟩ := forall_lt_or_exists_first
    (fun k => ∃ v r, readPair s.bitSource (tableOf s.snap k) (readerAt s k) = .ok v r) (pairsOf s.snap)
  swap
  · exact .inl ⟨k, hk, pairsDecode_readerAt (Nat.le_of_lt hk) hfirst, hstop⟩
  refine .inr ⟨pairsDecode_readerAt (Nat.le_refl _) hall, ?_⟩
  obtain hall | ⟨m, -, hfirst, hstop⟩ := forall_lt_or_exists_first
    (fun j => QuadStarts s (2 * pairsOf s.snap + 4 * j) (readerAt s (pairsOf s.snap + j)) ∧
      ∃ vs r, nextQuad s (readerAt s (pairsOf s.snap + j)) = .ok (some (vs, false)) r) 145
  · obtain ⟨⟨hline, -⟩, -⟩ := hall 144 (by decide)
    omega
  refine ⟨m, quadsDecode_readerAt hfirst, ?_⟩
  by_cases hstart : QuadStarts s (2 * pairsOf s.snap + 4 * m) (readerAt s (pairsOf s.snap + m))
  swap
  · exact .inr ⟨[], _, false, .inl ⟨hstart, rfl, rfl, rfl⟩⟩
  by_cases hok : ∃ v r, nextQuad s (readerAt s (pairsOf s.snap + m)) = .ok v r
  swap
  · exact .inl ⟨hstart, hok⟩
  obtain ⟨_ | ⟨vs, _ | _⟩, r, hquad⟩ := hok
  · exact .inr ⟨[], r, true, .inr ⟨hstart, rfl, .inr ⟨hquad, rfl⟩⟩⟩
  · exact absurd ⟨hstart, vs, r, hquad⟩ hstop
  · exact .inr ⟨vs, r, true, .inr ⟨hstart, rfl, .inl hquad⟩⟩

/-! ### What completion and abort write (R216, R217) -/

section ends

variable (s : State N) (p : Params) (g : Progress) (line : Nat)

theorem huffDone_isq : (s.huffDone p g line).isq = (s.storeSpectrum g).isq := rfl

theorem huffDone_pos : (s.huffDone p g line).par.pos = BitVec.ofNat 16 (p.pos.toNat + budgetOf p) := rfl

theorem huffDone_huffused : (s.huffDone p g line).huffused = BitVec.ofNat 16 g.reader.used := rfl

theorem huffDone_overrun : (s.huffDone p g line).overrun = BitVec.ofNat 16 (g.reader.used - budgetOf p) := rfl

theorem huffDone_c1end : (s.huffDone p g line).c1end = BitVec.ofNat 10 line := rfl

theorem huffDone_done : (s.huffDone p g line).status.done = true := rfl

theorem huffDone_err : (s.huffDone p g line).status.err = s.status.err := rfl

theorem huffDone_warns :
    (s.huffDone p g line).status.warns = s.status.warns ||| (g.warns ||| lateWarns p g.reader.used line) := rfl

theorem huffAbort_isq : (s.huffAbort g).isq = (s.storeSpectrum g).isq := rfl

theorem huffAbort_huffused : (s.huffAbort g).huffused = BitVec.ofNat 16 g.reader.used := rfl

theorem huffAbort_warns : (s.huffAbort g).status.warns = s.status.warns ||| g.warns := rfl

/-- R217, R451: what an abort leaves of the registers and of STATUS. -/
theorem huffAbort_registers : (s.huffAbort g).par = s.par ∧ (s.huffAbort g).overrun = s.overrun ∧
    (s.huffAbort g).c1end = s.c1end ∧ (s.huffAbort g).status.done = s.status.done ∧
    (s.huffAbort g).status.err = true ∧ (s.huffAbort g).status.errcode = (errorStatus s.status 3#4).errcode :=
  ⟨rfl, rfl, rfl, rfl, rfl, rfl⟩

end ends

/-! ### The command -/

theorem execHuff_of_goesOn {g : Progress} {line : Nat} (ht : TablesUsable s.snap)
    (hd : decodeSpectrum s.bitSource s.snap = ((g, line), .goesOn)) :
    execHuff s = .next (s.huffDone s.snap g line) := by
  rw [execHuff, if_pos (tablesUsable_iff.2 ht), hd]

theorem execHuff_of_underflow {g : Progress} {line : Nat} (ht : TablesUsable s.snap)
    (hd : decodeSpectrum s.bitSource s.snap = ((g, line), .underflow)) : execHuff s = .next (s.huffAbort g) := by
  rw [execHuff, if_pos (tablesUsable_iff.2 ht), hd]

/-- Where a decoder that answers no value stopped, if not at a byte without a value. -/
theorem Read.underflow_of_not_ok {α : Type} {z : Read α} (h : ¬∃ v r, z = .ok v r) (hw : z ≠ .unwritten) :
    ∃ r, z = .underflow r := by
  cases z with
  | ok v r => exact absurd ⟨v, r, rfl⟩ h
  | underflow r => exact ⟨r, rfl⟩
  | unwritten => exact absurd rfl hw

/-- R201, R217: a decoder that underflows stops at a bit address that may not be read. -/
theorem Decoded.underflow {α : Type} {z : Read α} {bits : Nat} {P : α → Prop} {r' : Reader}
    (h : Decoded s n m x y qs last r) (hz : Reads s.bitSource r bits P z) (hstop : z = .underflow r') :
    Decoded s n m x y qs last r' ∧ PastEnd s.bitSource r'.pos := by
  subst hstop
  obtain ⟨hend, j, -, hr⟩ := hz
  exact ⟨h.reaches hr, hend⟩

/-- R200, R217: a HUFF that goes on has decoded a granule to the end of its count1 region, and completes, or to a bit
address that may not be read, and aborts. -/
theorem execHuff_decoded (h : execHuff s = .next t) : ∃ n m x y qs last r, Decoded s n m x y qs last r ∧
    ((n = pairsOf s.snap ∧ ∃ rs cut, t = s.huffDone s.snap
        (progressOf (decodedValues n m x y qs last) r ((pairsDone s.snap rs x y n).warns ||| Warn.trunc.maskIf cut))
        (2 * n + 4 * m + last.length)) ∨
      (PastEnd s.bitSource r.pos ∧ ∃ w, t = s.huffAbort (progressOf (decodedValues n m x y qs last) r w))) := by
  have ht : TablesUsable s.snap := tablesUsable_iff.1 (execHuff_next h).1
  have hwritten : (decodeSpectrum s.bitSource s.snap).2 ≠ .unwritten := fun hd => by
    rw [execHuff_of_unwritten ht hd] at h
    cases h
  obtain ⟨rs, x, y, qs, ⟨k, hk, hp, hstop⟩ | ⟨hp, m, hq, ⟨hstart, hstop⟩ | ⟨last, r, cut, hend⟩⟩⟩ := granule_cases s
  · obtain ⟨r, hpair⟩ := Read.underflow_of_not_ok hstop fun hu => hwritten (decodeSpectrum_of_pair_unwritten hk hp hu)
    obtain ⟨hdec, hend⟩ := (hp.decoded (Nat.le_of_lt hk) qs).underflow (reads_readPair _ _ _) hpair
    rw [execHuff_of_underflow ht (decodeSpectrum_of_pair_underflow (qs := qs) hk hp hpair)] at h
    cases h
    exact ⟨k, 0, x, y, qs, [], r, hdec, .inr ⟨hend, _, rfl⟩⟩
  · obtain ⟨r, hquad⟩ := Read.underflow_of_not_ok hstop fun hu =>
      hwritten (decodeSpectrum_of_quad_unwritten hp hq hstart hu)
    obtain ⟨hdec, hend⟩ := ((hp.decoded (Nat.le_refl _) qs).quads hq).underflow (reads_readQuad _ _ _ _) hquad
    rw [execHuff_of_underflow ht (decodeSpectrum_of_quad_underflow hp hq hstart hquad)] at h
    cases h
    exact ⟨_, m, x, y, qs, [], r, hdec, .inr ⟨hend, _, rfl⟩⟩
  · rw [execHuff_of_goesOn ht (decodeSpectrum_of_ends hp hq hend)] at h
    cases h
    exact ⟨_, m, x, y, qs, last, r, ((hp.decoded (Nat.le_refl _) qs).quads hq).ends hend, .inl ⟨rfl, rs, cut, rfl⟩⟩

/-! ### The warnings, by cause -/

theorem Warn.getLsbD_maskIf_iff (f : Warn) (c : Bool) (b : Nat) :
    (f.maskIf c).getLsbD b = true ↔ c = true ∧ b = f.bit := by
  rw [f.getLsbD_maskIf, Bool.and_eq_true, decide_eq_true_eq]

/-- R209, R210, R200: the warnings from before the first bit. -/
theorem getLsbD_earlyWarns (p : Params) (b : Nat) : (earlyWarns p).getLsbD b = true ↔ earlyCause p b := by
  simp only [earlyWarns, earlyCause, BitVec.getLsbD_or, Bool.or_eq_true, Warn.getLsbD_maskIf_iff, Warn.bit,
    decide_eq_true_eq]
  tauto

theorem reservedAmong_succ (p : Params) (n : Nat) :
    ReservedAmong p (n + 1) ↔ ReservedAmong p n ∨ tableOf p n = 4#5 ∨ tableOf p n = 14#5 := by
  constructor
  · rintro ⟨k, hk, htab⟩
    rcases Nat.lt_succ_iff_lt_or_eq.1 hk with hk | rfl
    · exact .inl ⟨k, hk, htab⟩
    · exact .inr htab
  · rintro (⟨k, hk, htab⟩ | htab)
    · exact ⟨k, by omega, htab⟩
    · exact ⟨n, by omega, htab⟩

/-- R205: W_TABLE is found in a pair that selects table 4 or 14. -/
theorem getLsbD_pairsDone_warns (p : Params) (rs : Nat → Reader) (x y : Nat → Int) (n b : Nat) :
    (pairsDone p rs x y n).warns.getLsbD b = true ↔ earlyCause p b ∨ (b = 3 ∧ ReservedAmong p n) := by
  induction n with
  | zero =>
    have hnone : ¬ReservedAmong p 0 := fun ⟨k, hk, _⟩ => absurd hk (Nat.not_lt_zero k)
    simp [pairsDone, getLsbD_earlyWarns, hnone]
  | succ n ih =>
    have htab : isReservedTable (pairTable p (2 * n)) = true ↔ tableOf p n = 4#5 ∨ tableOf p n = 14#5 := by
      rw [isReservedTable, Bool.or_eq_true, decide_eq_true_eq, decide_eq_true_eq]
      rfl
    rw [pairsDone, BitVec.getLsbD_or, Bool.or_eq_true, ih, Warn.getLsbD_maskIf_iff, htab, reservedAmong_succ,
      Warn.bit]
    tauto

/-- A command that ors warnings in. -/
theorem warnsAre_of_or {w : BitVec 8} {cause : Nat → Prop} (ht : t.status.warns = s.status.warns ||| w)
    (hw : ∀ b, w.getLsbD b = true ↔ cause b) : WarnsAre s t cause := fun b _ => by
  rw [ht, BitVec.getLsbD_or, Bool.or_eq_true, hw]

/-- R454: the warnings of a HUFF that completes. -/
theorem warnsAre_huffDone (s : State N) (rs : Nat → Reader) (x y : Nat → Int) (vs : List Int) (r : Reader) (cut : Bool)
    (line : Nat) :
    WarnsAre s (s.huffDone s.snap (progressOf vs r
      ((pairsDone s.snap rs x y (pairsOf s.snap)).warns ||| Warn.trunc.maskIf cut)) line)
      (huffCause s.snap r.used line cut) := by
  refine warnsAre_of_or (w := (pairsDone s.snap rs x y (pairsOf s.snap)).warns ||| Warn.trunc.maskIf cut |||
    lateWarns s.snap r.used line) (huffDone_warns _ _ _ _) fun b => ?_
  have hbudget : spectralBudget s.snap = budgetOf s.snap := rfl
  simp only [BitVec.getLsbD_or, lateWarns, Bool.or_eq_true, Warn.getLsbD_maskIf_iff, getLsbD_pairsDone_warns, huffCause,
    Warn.bit, Bool.and_eq_true, decide_eq_true_eq, hbudget]
  tauto

/-- R200, R454: the warnings that HUFF adds to the early ones, whether it completes or aborts. -/
theorem execHuff_warns_eq (h : execHuff s = .next t) : ∃ a b c d, t.status.warns = s.status.warns |||
    (earlyWarns s.snap ||| Warn.table.maskIf a ||| Warn.trunc.maskIf b |||
      (Warn.leftover.maskIf c ||| Warn.overrun.maskIf d)) := by
  obtain ⟨a, b, hg⟩ := decodeSpectrum_warns s.bitSource s.snap
  obtain ⟨-, g, line, ⟨hd, rfl⟩ | ⟨hd, rfl⟩⟩ := execHuff_next h
  · rw [hd] at hg
    exact ⟨a, b, _, _, by rw [huffDone_warns, hg, lateWarns]⟩
  · rw [hd] at hg
    exact ⟨a, b, false, false, by rw [huffAbort_warns, hg]; simp⟩

/-! ### The statements -/

theorem rising_isq_of_inv (h : s.inv = true) : Store.Rising s.isq := by
  obtain ⟨-, -, -, hisq, -⟩ := memoryWf_iff.1 (inv_iff.1 h).1
  exact Store.rising_of_wf hisq

/-- Settles O35: the run of a granule to the end of its count1 region. -/
theorem huffStoresPairsThenQuads : Obligations.HuffStoresPairsThenQuads := by
  intro s m rs x y qs last r cut n line hinv ht hp hq hend
  have hdec := ((hp.decoded (Nat.le_refl _) qs).quads hq).ends hend
  have hfits := hdec.fits
  refine ⟨_, execHuff_of_goesOn ht (decodeSpectrum_of_ends hp hq hend), huffDone_done _ _ _ _, huffDone_err _ _ _ _,
    ?_, ?_, hdec.spectrumIs (rising_isq_of_inv hinv) (huffDone_isq _ _ _ _), warnsAre_huffDone s rs x y _ r cut _⟩
  · rw [huffDone_huffused]
    exact hdec.toNat_used.1
  · rw [huffDone_c1end, BitVec.toNat_ofNat, Nat.mod_eq_of_lt (by omega)]

/-- Settles O36: with room for them no pair and no quadruple stops, so the count1 region ends. -/
theorem huffCompletesWithinTheBuffer : Obligations.HuffCompletesWithinTheBuffer := by
  intro s depth hinv hw ht hdepth hroom
  obtain ⟨rs, x, y, qs, ⟨k, hk, hp, hstop⟩ | ⟨hp, m, hq, ⟨hstart, hstop⟩ | ⟨last, r, cut, hend⟩⟩⟩ := granule_cases s
  · refine absurd ((reads_readPair s.bitSource (tableOf s.snap k) (rs k)).exists_ok hw ?_) hstop
    obtain ⟨j, hj, hr⟩ := hp.reaches fun i hi => hdepth i (hi.trans hk)
    have hpos := hr.pos_eq
    have hd := hdepth k hk
    have hpairs : (k + 1) * (depth + 28) ≤ pairsOf s.snap * (depth + 28) := Nat.mul_le_mul_right _ hk
    rw [Nat.succ_mul] at hpairs
    show _ ≤ min s.snap.bitEnd.toNat 32768
    simp only at hpos
    omega
  · refine absurd ((reads_readQuad s.bitSource s.snap.gain.c1sel (budgetOf s.snap) _).exists_ok hw ?_) hstop
    have hpos := ((hp.decoded (Nat.le_refl _) qs).quads hq).toNat_used.2
    have hbudget := hstart.2
    show _ ≤ min s.snap.bitEnd.toNat 32768
    generalize pairsOf s.snap * (depth + 28) = pairBits at hroom
    omega
  · obtain ⟨t, hexec, hdone, herr, -⟩ := huffStoresPairsThenQuads s m rs x y qs last r cut hinv ht hp hq hend
    exact ⟨t, hexec, hdone, herr⟩

/-- Settles O37: of the two ends only completion sets DONE. -/
theorem huffCompletionResults : Obligations.HuffCompletionResults := by
  intro s t hinv hdone h htdone
  have hs := rising_isq_of_inv hinv
  obtain ⟨n, m, x, y, qs, last, r, hdec, ⟨rfl, rs, cut, ht⟩ | ⟨-, w, rfl⟩⟩ := execHuff_decoded h
  swap
  · exact absurd (hdone.symm.trans htdone) (by decide)
  have hfits := hdec.fits
  have hused : t.huffused.toNat = r.used := by
    rw [ht, huffDone_huffused]
    exact hdec.toNat_used.1
  have hline : t.c1end.toNat = 2 * pairsOf s.snap + 4 * m + last.length := by
    rw [ht, huffDone_c1end, BitVec.toNat_ofNat, Nat.mod_eq_of_lt (by omega)]
  have hwarns : WarnsAre s t (huffCause s.snap r.used (2 * pairsOf s.snap + 4 * m + last.length) cut) := by
    rw [ht]
    exact warnsAre_huffDone s rs x y _ r cut _
  have hwritten : Store.written t.isq 576 := by
    rw [ht, huffDone_isq]
    exact hdec.written_isq hs _
  obtain ⟨-, -, hrest, -⟩ : SpectrumIs s t (pairsOf s.snap) m x y qs last :=
    hdec.spectrumIs hs (by rw [ht, huffDone_isq])
  rw [hused, hline]
  refine ⟨by rw [ht, huffDone_pos], ?_, by omega, hfits, fun i hi hi' => ?_, hwritten, ?_, ?_, ?_⟩
  · have hle : r.used < 2 ^ 16 := hused ▸ t.huffused.isLt
    rw [ht, huffDone_overrun, BitVec.toNat_ofNat]
    exact Nat.mod_eq_of_lt ((Nat.sub_le _ _).trans_lt hle)
  · obtain ⟨j, rfl⟩ := Nat.exists_eq_add_of_le hi
    rw [Nat.add_assoc, hrest _ (by omega), List.getD_eq_default _ _ (Nat.le_add_right _ _)]
    rfl
  · simpa [huffCause, earlyCause] using hwarns 2 (by decide)
  · simpa [huffCause, earlyCause] using hwarns 3 (by decide)
  · simpa [huffCause, earlyCause] using hwarns 5 (by decide)

/-- Settles O38: an abort by its pair or its quadruple. -/
theorem huffAbortResults : Obligations.HuffAbortResults := by
  intro s hinv
  have hs := rising_isq_of_inv hinv
  refine ⟨fun t hdone h htdone => ?_, fun k rs x y r ht hk hp hpair => ?_,
    fun m rs x y qs r ht hp hq hstart hquad => ?_⟩
  · obtain ⟨n, m, x, y, qs, last, r, hdec, ⟨-, rs, cut, rfl⟩ | ⟨hend, w, rfl⟩⟩ := execHuff_decoded h
    · cases htdone
    obtain ⟨hused, hpos⟩ := hdec.toNat_used
    obtain ⟨hpar, hover, hc1end, -, herr, hcode⟩ := huffAbort_registers s
      (progressOf (decodedValues n m x y qs last) r w)
    rw [huffAbort_huffused, huffAbort_isq, progressOf, hused, ← hpos]
    exact ⟨hend, hpar, hover, hc1end, hdec.written_isq hs w, herr, hcode⟩
  · have hdec := ((hp.decoded (Nat.le_of_lt hk) fun _ => []).underflow (reads_readPair _ _ _) hpair).1
    obtain ⟨-, -, -, hdone, herr, -⟩ := huffAbort_registers s
      (progressOf (decodedValues k 0 x y (fun _ => []) []) r (pairsDone s.snap rs x y (k + 1)).warns)
    exact ⟨_, execHuff_of_underflow ht (decodeSpectrum_of_pair_underflow hk hp hpair), hdone, herr,
      hdec.toNat_used.1, hdec.spectrumIs hs (huffAbort_isq _ _),
      warnsAre_of_or (huffAbort_warns _ _) (getLsbD_pairsDone_warns s.snap rs x y (k + 1))⟩
  · have hdec := (((hp.decoded (Nat.le_refl _) qs).quads hq).underflow (reads_readQuad _ _ _ _) hquad).1
    obtain ⟨-, -, -, hdone, herr, -⟩ := huffAbort_registers s
      (progressOf (decodedValues (pairsOf s.snap) m x y qs []) r (pairsDone s.snap rs x y (pairsOf s.snap)).warns)
    exact ⟨_, execHuff_of_underflow ht (decodeSpectrum_of_quad_underflow hp hq hstart hquad), hdone, herr,
      hdec.toNat_used.1, hdec.spectrumIs hs (huffAbort_isq _ _),
      warnsAre_of_or (huffAbort_warns _ _) (getLsbD_pairsDone_warns s.snap rs x y _)⟩

/-- Settles O39: the decoding adds only W_TABLE and W_TRUNC to the early warnings, and completion only W_LEFTOVER and
W_OVERRUN. -/
theorem huffEarlyWarnings : Obligations.HuffEarlyWarnings := by
  intro s t h
  obtain ⟨a, c, d, e, hw⟩ := execHuff_warns_eq h
  have hbit (b : Nat) (hb : b = 0 ∨ b = 1 ∨ b = 4) :
      t.status.warns.getLsbD b = true ↔ s.status.warns.getLsbD b = true ∨ earlyCause s.snap b := by
    rw [hw]
    simp only [BitVec.getLsbD_or, Bool.or_eq_true, Warn.getLsbD_maskIf_iff, getLsbD_earlyWarns, Warn.bit]
    rcases hb with rfl | rfl | rfl <;> simp
  refine ⟨?_, ?_, ?_⟩
  · simpa [earlyCause] using hbit 4 (by decide)
  · simpa [earlyCause] using hbit 0 (by decide)
  · simpa [earlyCause] using hbit 1 (by decide)

/-- R212: no count1 bit is read beyond the budget. -/
theorem count1_used_le (src : BitSource) (sel : Bool) (budget fuel line : Nat) (g : Progress) :
    (count1 src sel budget fuel line g).1.1.reader.used ≤ max budget g.reader.used := by
  induction fuel generalizing line g with
  | zero => exact Nat.le_max_right _ _
  | succ fuel ih =>
    rw [count1]
    split
    swap
    · exact Nat.le_max_right _ _
    have hread := reads_readQuad src sel budget g.reader
    generalize readQuad src sel budget g.reader = z at hread
    match z, hread with
    | .ok none _, ⟨_, _, hj, hr⟩ => exact hr.used_le hj
    | .ok (some (_, true)) _, ⟨_, _, hj, hr⟩ => exact hr.used_le hj
    | .ok (some (_, false)) _, ⟨_, _, hj, hr⟩ => exact (ih _ _).trans (max_le (le_max_left _ _) (hr.used_le hj))
    | .underflow _, ⟨_, _, hj, hr⟩ => exact hr.used_le (Nat.le_of_lt hj)
    | .unwritten, _ => exact Nat.le_max_right _ _

/-- Settles O40: the count1 region begins at the reader after the pairs. -/
theorem countOneStaysWithinBudget : Obligations.CountOneStaysWithinBudget := by
  intro s t rs x y hp h
  have hused := count1_used_le s.bitSource s.snap.gain.c1sel (budgetOf s.snap) maxQuads (2 * pairsOf s.snap)
    (pairsDone s.snap rs x y (pairsOf s.snap))
  rw [← decodeSpectrum_of_pairs hp, pairsDone_reader] at hused
  have hmod (k : Nat) : (BitVec.ofNat 16 k).toNat ≤ k := (BitVec.toNat_ofNat _ _).trans_le (Nat.mod_le _ _)
  obtain ⟨-, g, line, ⟨hd, rfl⟩ | ⟨hd, rfl⟩⟩ := execHuff_next h
  · rw [hd] at hused
    exact (hmod _).trans hused
  · rw [hd] at hused
    exact (hmod _).trans hused

/-- A line's value is the one decoded, which the 16 bits of the line hold. -/
theorem Decoded.natAbs_isq_le (h : Decoded s n m x y qs last r) (i : Nat) :
    (BitVec.ofInt 16 ((decodedValues n m x y qs last).getD i 0)).toInt.natAbs ≤ 8206 := by
  have hle : ((decodedValues n m x y qs last).getD i 0).natAbs ≤ 8206 := by
    by_cases hi : i < (decodedValues n m x y qs last).length
    · rw [List.getD_eq_getElem _ _ hi]
      exact h.natAbs_le (List.getElem_mem hi)
    · rw [List.getD_eq_default _ _ (Nat.le_of_not_lt hi)]
      decide
  rw [BitVec.toInt_ofInt, Int.bmod_eq_of_le (by omega) (by omega)]
  exact hle

/-- Settles O41: every line holds a decoded value or 0. -/
theorem huffMagnitudeBound : Obligations.HuffMagnitudeBound := by
  intro s t i v hinv h hi hv
  have hs := rising_isq_of_inv hinv
  obtain ⟨n, m, x, y, qs, last, r, hdec, ⟨-, rs, cut, rfl⟩ | ⟨-, w, rfl⟩⟩ := execHuff_decoded h
  · rw [huffDone_isq, hdec.get_isq hs _ hi] at hv
    cases hv
    exact hdec.natAbs_isq_le i
  · rw [huffAbort_isq, hdec.get_isq hs w hi] at hv
    cases hv
    exact hdec.natAbs_isq_le i

/-- R203: tables 16 to 23 and 24 to 31 take the two shared open codebooks. -/
theorem codebook_of_le {t : BitVec 5} (ht : 16 ≤ t.toNat) :
    codebook t = if t.toNat < 24 then Config.huffRom16 else Config.huffRom24 := by
  obtain ⟨k, hk⟩ := Nat.exists_eq_add_of_le' ht
  rw [codebook, hk]
  rfl

/-- Settles O32: each listed codeword is followed down its tree. -/
theorem listedCodewordsDecode : Obligations.ListedCodewordsDecode := by
  refine ⟨by decide +kernel, by decide +kernel, rfl, rfl, fun t h1 h2 => ?_, fun t h => ?_, by decide, by decide,
    fun t ht => ?_⟩
  · rw [codebook_of_le h1, if_pos (by omega)]
  · rw [codebook_of_le (by omega), if_neg (by omega)]
  · simp only [List.mem_cons, List.not_mem_nil, or_false] at ht
    rcases ht with rfl | rfl | rfl <;> exact ⟨rfl, fun _ _ => rfl⟩

/-- Settles O42, at each of HUFF's two ends. -/
theorem huffFrame : Obligations.HuffFrame := by
  intro s t h
  obtain ⟨-, g, line, ⟨-, rfl⟩ | ⟨-, rfl⟩⟩ := execHuff_next h
  · rfl
  · rfl

end Sys2Proof.Machine
end

section
/-! PROOFS. DEQ's placement and refusal (R257, R259): every line of IS and every cell of XR is long, or lies in a short
band of a window, where reading and writing name the same pair of them. Settles O44 and O45. -/

namespace Sys2Proof.Machine

variable {p : Params} {b f i j k w : Nat}

/-! ### The band of a line (R251, R253) -/

/-- R251: the short bands cover the 192 lines of a window. -/
theorem exists_shortBand (ha : DeqAccepts p) (hf : f < 192) :
    ∃ b, b ≤ 12 ∧ shortAt p b ≤ f ∧ f < shortAt p (b + 1) := by
  obtain ⟨hfirst, hlast⟩ : shortAt p 0 = 0 ∧ shortAt p 13 = 192 :=
    (by decide : ∀ r, r ≤ 8 → (shortRowOf r).getD 0 0 = 0 ∧ (shortRowOf r).getD 13 0 = 192) _ ha.1
  have hle : Nat.findGreatest (shortAt p · ≤ f) 12 ≤ 12 := Nat.findGreatest_le 12
  refine ⟨_, hle, Nat.findGreatest_spec (P := (shortAt p · ≤ f)) (Nat.zero_le 12) (hfirst.le.trans f.zero_le), ?_⟩
  rcases hle.lt_or_eq with hlt | heq
  · exact not_le.1 (Nat.findGreatest_is_greatest (P := (shortAt p · ≤ f)) (Nat.lt_succ_self _) hlt)
  · rwa [heq, hlast]

/-- R253: a band that ends above a line that is not long holds short lines. -/
theorem shortBandUsed_of_not_longLine (ha : DeqAccepts p) (hl : ¬LongLine p i) (hi : i < 3 * shortAt p (b + 1)) :
    ShortBandUsed p b := by
  obtain ⟨hbt, hmixed⟩ := not_or.1 hl
  have hbt : p.block.bt = 2#2 := not_not.1 hbt
  refine ⟨hbt, fun hmix => not_lt.1 fun hb => hmixed ⟨hmix, ?_⟩⟩
  have hrate : p.cfg.sfreq.toNat < 8 := lt_of_le_of_ne ha.1 fun h8 => ha.2 ⟨h8, hbt, hmix⟩
  have hend : shortAt p (b + 1) ≤ 12 :=
    (by decide : ∀ r, r < 8 → ∀ b, b < 3 → (shortRowOf r).getD (b + 1) 0 ≤ 12) _ hrate b hb
  omega

/-! ### The places of the short lines (R257) -/

/-- Line k of short band b in window w is one of the block's short lines. -/
structure ShortPlace (p : Params) (b w k : Nat) : Prop where
  used : ShortBandUsed p b
  band : b ≤ 12
  window : w < 3
  line : k < shortAt p (b + 1) - shortAt p b

/-- Where IS holds line k of short band b in window w: window after window within the band. -/
def isPlace (p : Params) (b w k : Nat) : Nat :=
  3 * shortAt p b + w * (shortAt p (b + 1) - shortAt p b) + k

/-- Where XR holds it: line after line, the three windows together. -/
def xrPlace (p : Params) (b w k : Nat) : Nat := 3 * (shortAt p b + k) + w

theorem exists_isPlace (ha : DeqAccepts p) (hl : ¬LongLine p i) (hi : i < 576) :
    ∃ b w k, ShortPlace p b w k ∧ i = isPlace p b w k := by
  obtain ⟨b, hb, hlo, hhi⟩ := exists_shortBand ha (show i / 3 < 192 by omega)
  have hwidth : 0 < shortAt p (b + 1) - shortAt p b := by omega
  refine ⟨b, (i - 3 * shortAt p b) / (shortAt p (b + 1) - shortAt p b),
    (i - 3 * shortAt p b) % (shortAt p (b + 1) - shortAt p b),
    ⟨shortBandUsed_of_not_longLine ha hl (by omega), hb, ?_, Nat.mod_lt _ hwidth⟩, ?_⟩
  · rw [Nat.div_lt_iff_lt_mul hwidth]
    omega
  · rw [isPlace, Nat.add_assoc, Nat.div_add_mod']
    omega

theorem exists_xrPlace (ha : DeqAccepts p) (hl : ¬LongLine p j) (hj : j < 576) :
    ∃ b w k, ShortPlace p b w k ∧ j = xrPlace p b w k := by
  obtain ⟨b, hb, hlo, hhi⟩ := exists_shortBand ha (show j / 3 < 192 by omega)
  refine ⟨b, j % 3, j / 3 - shortAt p b,
    ⟨shortBandUsed_of_not_longLine ha hl (by omega), hb, Nat.mod_lt _ (by decide), by omega⟩, ?_⟩
  rw [xrPlace]
  omega

namespace ShortPlace

variable (ha : DeqAccepts p) (h : ShortPlace p b w k)

include ha h

theorem isPlace_lt : isPlace p b w k < 576 := by
  obtain ⟨-, hb, hw, hk⟩ := h
  have hend := shortAt_le ha (show b + 1 ≤ 13 by omega)
  have hwin : w * (shortAt p (b + 1) - shortAt p b) ≤ 2 * (shortAt p (b + 1) - shortAt p b) :=
    Nat.mul_le_mul_right _ (by omega)
  rw [isPlace]
  omega

theorem xrPlace_lt : xrPlace p b w k < 576 := by
  obtain ⟨-, hb, hw, hk⟩ := h
  have hend := shortAt_le ha (show b + 1 ≤ 13 by omega)
  rw [xrPlace]
  omega

/-- R257: an XR cell takes the IS line that is placed in it. -/
theorem deqSource_xrPlace : deqSource p (xrPlace p b w k) = isPlace p b w k :=
  deqSource_short ha h.used h.band h.window h.line

theorem shortLine_isPlace : shortLine p (isPlace p b w k) = k := by
  rw [shortLine, isPlace, shortBand_eq ha h.band h.window h.line]
  show (3 * shortAt p b + w * (shortAt p (b + 1) - shortAt p b) + k - 3 * shortAt p b) %
    (shortAt p (b + 1) - shortAt p b) = k
  rw [Nat.add_assoc, Nat.add_sub_cancel_left, Nat.mul_add_mod_self_right, Nat.mod_eq_of_lt h.line]

/-- R257: an IS line goes to its place in XR. -/
theorem deqDest_isPlace : deqDest p (isPlace p b w k) = xrPlace p b w k := by
  have hshort : isLongLine p (isPlace p b w k) = false :=
    isLongLine_short ha h.used h.band (by rw [isPlace]; omega)
  have hband : shortBand p (isPlace p b w k) = b := shortBand_eq ha h.band h.window h.line
  have hwin : shortWin p (isPlace p b w k) = w := shortWin_eq ha h.band h.window h.line
  rw [deqDest, hshort, if_neg (by decide), hband, hwin, h.shortLine_isPlace ha]
  rfl

end ShortPlace

/-! ### The long lines (R257) -/

theorem deqSource_long (h : LongLine p i) : deqSource p i = i := if_pos (isLongLine_iff.2 h)

theorem deqDest_long (h : LongLine p i) : deqDest p i = i := if_pos (isLongLine_iff.2 h)

/-- Settles O44: a long line is its own place, and a short one has its two places in IS and XR. -/
theorem deqPlacementIsBijection : Obligations.DeqPlacementIsBijection := by
  intro p ha
  refine ⟨fun j hj => ?_, fun i hi => ?_, fun i hl => deqSource_long hl,
    fun b w k hu hb hw hk => deqSource_short ha hu hb hw hk⟩
  · by_cases hl : LongLine p j
    · rw [deqSource_long hl]
      exact ⟨hj, deqDest_long hl⟩
    · obtain ⟨b, w, k, h, rfl⟩ := exists_xrPlace ha hl hj
      rw [h.deqSource_xrPlace ha]
      exact ⟨h.isPlace_lt ha, h.deqDest_isPlace ha⟩
  · by_cases hl : LongLine p i
    · rw [deqDest_long hl]
      exact ⟨hi, deqSource_long hl⟩
    · obtain ⟨b, w, k, h, rfl⟩ := exists_isPlace ha hl hi
      rw [h.deqDest_isPlace ha]
      exact ⟨h.xrPlace_lt ha, h.deqSource_xrPlace ha⟩

/-! ### The refusal (R259) -/

/-- Settles O45: DEQ refuses what it does not accept, before it reads anything. -/
theorem deqRefusesBadParameters : Obligations.DeqRefusesBadParameters := by
  intro s ch h
  have hrefuse : deqRefuses s.snap = true := eq_true_of_ne_false (mt deqRefuses_eq_false_iff.1 h)
  show execDeq ch s = _
  rw [execDeq, if_pos hrefuse]
  rfl

end Sys2Proof.Machine
end

section
/-! PROOFS. DEQ's value in REF32 (R13, R256): `iroot` is the integer part of a root, so `roundRoot` rounds the real root
once. DEQ's value is the twelfth root of |v|^16·2^(3E). Settles O46. -/

namespace Sys2Proof.Machine

/-! ### The integer root -/

section iroot

variable {k n : ℕ}

/-- The search keeps r^k ≤ n < (r + 2^bits)^k, down to r^k ≤ n < (r + 1)^k. -/
theorem irootFrom_spec (bits : ℕ) {r : ℕ} (hlow : r ^ k ≤ n) (hhigh : n < (r + 2 ^ bits) ^ k) :
    irootFrom k n bits r ^ k ≤ n ∧ n < (irootFrom k n bits r + 1) ^ k := by
  induction bits generalizing r with
  | zero => exact ⟨hlow, hhigh⟩
  | succ bits ih =>
    rw [irootFrom]
    split
    next hle =>
      refine ih hle ?_
      rwa [add_assoc, ← two_mul, ← pow_succ']
    next hlt => exact ih hlow (not_le.1 hlt)

theorem iroot_spec (hk : k ≠ 0) (n : ℕ) : iroot k n ^ k ≤ n ∧ n < (iroot k n + 1) ^ k := by
  refine irootFrom_spec _ (by rw [zero_pow hk]; exact n.zero_le) ?_
  calc n < 2 ^ (Nat.log2 n + 1) := Nat.lt_log2_self
    _ ≤ 2 ^ ((Nat.log2 n / k + 1) * k) :=
      Nat.pow_le_pow_right (by decide) (Nat.lt_mul_of_div_lt (Nat.lt_succ_self _) (Nat.pos_of_ne_zero hk))
    _ = (0 + 2 ^ (Nat.log2 n / k + 1)) ^ k := by rw [zero_add, pow_mul]

/-- The root of the integer quotient is the real root cut to an integer. -/
theorem cutTo_iroot {x : ℝ} {num den : ℕ} (hk : k ≠ 0) (hden : 0 < den) (hx : 0 ≤ x) (h : x ^ k * den = num) :
    CutTo x (iroot k (num / den)) (decide (iroot k (num / den) ^ k * den ≠ num)) := by
  obtain ⟨hlow, hhigh⟩ := iroot_spec hk (num / den)
  rw [Nat.le_div_iff_mul_le hden] at hlow
  rw [Nat.div_lt_iff_lt_mul hden] at hhigh
  generalize iroot k (num / den) = r at *
  have hden : (0 : ℝ) < den := by exact_mod_cast hden
  have hpow (m : ℕ) : ((m ^ k * den : ℕ) : ℝ) = (m : ℝ) ^ k * den := by push_cast; rfl
  have hlt : x < r + 1 := by
    refine lt_of_pow_lt_pow_left₀ k (by positivity) (lt_of_mul_lt_mul_right ?_ hden.le)
    rw [h]
    exact_mod_cast hhigh
  by_cases hexact : r ^ k * den = num
  · rw [decide_eq_false (not_not.2 hexact)]
    refine (pow_left_inj₀ hx r.cast_nonneg hk).1 (mul_right_cancel₀ hden.ne' ?_)
    rw [h, ← hexact, hpow]
  · rw [decide_eq_true hexact]
    refine ⟨lt_of_pow_lt_pow_left₀ k hx (lt_of_mul_lt_mul_right ?_ hden.le), hlt⟩
    rw [h, ← hpow, Nat.cast_lt]
    exact lt_of_le_of_ne hlow hexact

end iroot

/-- R13: `roundRoot` rounds a real once whose magnitude, in units of 2^−150, is a k-th root of num / den. -/
theorem roundsTo_roundRoot {x : ℝ} {k num den : ℕ} {neg : Bool} (hk : k ≠ 0) (hden : 0 < den)
    (h : (|x| * 2 ^ (149 + 1)) ^ k * den = num) (hneg : x ≠ 0 → (neg = true ↔ x < 0)) :
    RoundsTo x (roundRoot k neg num den) :=
  roundsTo_round32 le_rfl (cutTo_iroot hk hden (by positivity) h) hneg

/-! ### DEQ's reference value (R256) -/

/-- |v|^(4/3)·2^(E/4). -/
noncomputable def deqMagnitude (v e : ℤ) : ℝ := |(v : ℝ)| ^ ((4 : ℝ) / 3) * (2 : ℝ) ^ ((e : ℝ) / 4)

theorem deqMagnitude_nonneg (v e : ℤ) : 0 ≤ deqMagnitude v e := by unfold deqMagnitude; positivity

theorem deqMagnitude_zero (e : ℤ) : deqMagnitude 0 e = 0 := by
  rw [deqMagnitude, Int.cast_zero, abs_zero, Real.zero_rpow (by norm_num), zero_mul]

theorem deqReal_eq (v e : ℤ) : deqReal v e = v.sign * deqMagnitude v e := mul_assoc _ _ _

theorem abs_deqReal (v e : ℤ) : |deqReal v e| = deqMagnitude v e := by
  rw [deqReal_eq, abs_mul, abs_of_nonneg (deqMagnitude_nonneg v e)]
  rcases eq_or_ne v 0 with rfl | hv
  · rw [deqMagnitude_zero, mul_zero]
  · rw [← Int.cast_abs, Int.abs_sign_of_ne_zero hv, Int.cast_one, one_mul]

theorem deqReal_neg_iff {v e : ℤ} (h : deqReal v e ≠ 0) : deqReal v e < 0 ↔ v < 0 := by
  rw [deqReal_eq] at h ⊢
  have hpos : 0 < deqMagnitude v e := (deqMagnitude_nonneg v e).lt_of_ne' (right_ne_zero_of_mul h)
  rw [← not_le, mul_nonneg_iff_of_pos_right hpos, not_le, Int.cast_lt_zero, Int.sign_neg_iff]

theorem deqMagnitude_pow_twelve (v e : ℤ) : deqMagnitude v e ^ 12 = (v.natAbs : ℝ) ^ 16 * 2 ^ (3 * e) := by
  have hroot : (|(v : ℝ)| ^ ((4 : ℝ) / 3)) ^ 12 = (v.natAbs : ℝ) ^ 16 := by
    rw [← Real.rpow_mul_natCast (abs_nonneg _), Nat.cast_natAbs, Int.cast_abs, ← Real.rpow_natCast]
    norm_num
  have hscale : ((2 : ℝ) ^ ((e : ℝ) / 4)) ^ 12 = 2 ^ (3 * e) := by
    rw [← Real.rpow_mul_natCast two_pos.le, ← Real.rpow_intCast]
    congr 1
    push_cast
    ring
  rw [deqMagnitude, mul_pow, hroot, hscale]

/-- An integer power of 2 as a quotient of two natural ones. -/
theorem two_zpow_mul_toNat (m : ℤ) : (2 : ℝ) ^ m * 2 ^ (-m).toNat = 2 ^ m.toNat := by
  rw [← zpow_natCast, ← zpow_natCast, ← zpow_add₀ two_ne_zero]
  congr 1
  omega

/-- Settles O46: the twelfth power of the value, in units of 2^−150, is the radicand of `ref32Deq`. -/
theorem deqValueIsRoundedOnce : Obligations.DeqValueIsRoundedOnce := by
  intro v e
  refine roundsTo_roundRoot (by decide) (by positivity) ?_ fun h => ?_
  · have hunit : ((2 : ℝ) ^ (149 + 1)) ^ 12 = 2 ^ (1800 : ℤ) := by rw [← pow_mul, ← zpow_natCast]; rfl
    rw [abs_deqReal, mul_pow, deqMagnitude_pow_twelve, hunit, mul_assoc _ (_ ^ _) (_ ^ _),
      ← zpow_add₀ two_ne_zero]
    push_cast
    rw [mul_assoc, two_zpow_mul_toNat]
  · rw [decide_eq_true_eq, deqReal_neg_iff h]

end Sys2Proof.Machine
end

section
/-! PROOFS. AA (R300–R305): each boundary's sixteen cells are its own, so the boundaries are rotated one after the other from
the old values. And the values of a butterfly in REF32. Settles O47 and O48. -/

namespace Sys2Proof.Machine

variable {N : NumImpl} {b i a : Nat} {m m' : Store N.bits}

/-! ### The butterflies of one boundary (R303) -/

/-- Cell a lies outside the sixteen cells of boundary b. -/
def OutsideBoundary (a b : Nat) : Prop := a < 18 * b - 8 ∨ 18 * b + 8 ≤ a

/-- In `m'` the butterflies of boundary b have their outputs on the values of `m`. -/
def Rotated (m m' : Store N.bits) (b : Nat) : Prop :=
  ∀ i u d, i < 8 → Store.get unspecified m (18 * b - 1 - i) = some u → Store.get unspecified m (18 * b + i) = some d →
    ∃ n n', Store.get unspecified m' (18 * b - 1 - i) = some (settled n (N.ops.aa u d i).1) ∧
      Store.get unspecified m' (18 * b + i) = some (settled n' (N.ops.aa u d i).2)

/-- `Rotated` looks at the cells of its boundary only. -/
theorem Rotated.congr {m₁ m₁' : Store N.bits} (hb : 1 ≤ b) (h : Rotated m m' b)
    (hm : ∀ a, ¬OutsideBoundary a b → Store.get unspecified m₁ a = Store.get unspecified m a)
    (hm' : ∀ a, ¬OutsideBoundary a b → Store.get unspecified m₁' a = Store.get unspecified m' a) :
    Rotated m₁ m₁' b := by
  intro i u d hi hu hd
  have hin : ¬OutsideBoundary (18 * b - 1 - i) b ∧ ¬OutsideBoundary (18 * b + i) b := by
    unfold OutsideBoundary
    omega
  rw [hm _ hin.1] at hu
  rw [hm _ hin.2] at hd
  rw [hm' _ hin.1, hm' _ hin.2]
  exact h i u d hi hu hd

/-- The upper output of butterfly i stands seven minus i cells into the boundary's. -/
theorem getElem_butterflies_upper (slot : Nat) (cells : List N.R) (hi : i < 8) :
    (butterflies slot cells)[7 - i]'(by rw [length_butterflies]; omega) = settled (slot + (7 - i))
      (N.ops.aa (cells.getD (7 - i) N.ops.zero) (cells.getD (8 + i) N.ops.zero) i).1 := by
  have hback : 7 - (7 - i) = i := by omega
  simp only [butterflies]
  rw [List.getElem_append_left (by simp; omega), List.getElem_map, List.getElem_range, hback]

/-- The lower output of butterfly i stands eight plus i cells into the boundary's. -/
theorem getElem_butterflies_lower (slot : Nat) (cells : List N.R) (hi : i < 8) :
    (butterflies slot cells)[8 + i]'(by rw [length_butterflies]; omega) = settled (slot + 8 + i)
      (N.ops.aa (cells.getD (7 - i) N.ops.zero) (cells.getD (8 + i) N.ops.zero) i).2 := by
  have hsub : 8 + i - 8 = i := by omega
  simp only [butterflies]
  rw [List.getElem_append_right (by simp)]
  simp [hsub]

theorem getD_of_block {cells : List N.R} {base n k : Nat} {v z : N.R} (hm : Store.Rising m)
    (hc : Store.block unspecified m base n = some cells) (hk : k < n)
    (hv : Store.get unspecified m (base + k) = some v) : cells.getD k z = v := by
  obtain ⟨hlen, hget⟩ := (Store.block_eq_some_iff hm).1 hc
  rw [hget k (hlen ▸ hk)] at hv
  rw [List.getD_eq_getElem _ _ (hlen ▸ hk)]
  exact Option.some.inj hv

/-- Filling a boundary's cells with its butterflies rotates it. -/
theorem rotated_fill {cells : List N.R} (hm : Store.Rising m) (hb : 1 ≤ b)
    (hc : Store.block unspecified m (18 * b - 8) 16 = some cells) (slot : Nat) :
    Rotated m (Store.fill unspecified m (18 * b - 8) (butterflies slot cells)) b := by
  intro i u d hi hu hd
  have hup : 18 * b - 1 - i = 18 * b - 8 + (7 - i) := by omega
  have hlo : 18 * b + i = 18 * b - 8 + (8 + i) := by omega
  rw [hup] at hu ⊢
  rw [hlo] at hd ⊢
  have hlen := length_butterflies slot cells
  rw [Store.get_fill_mem hm _ _ (by omega), Store.get_fill_mem hm _ _ (by omega), getElem_butterflies_upper _ _ hi,
    getElem_butterflies_lower _ _ hi, getD_of_block hm hc (by omega) hu, getD_of_block hm hc (by omega) hd]
  exact ⟨_, _, rfl, rfl⟩

theorem get_fill_outside {cells : List N.R} (hm : Store.Rising m) (h : OutsideBoundary a b) (hb : 1 ≤ b) (slot : Nat) :
    Store.get unspecified (Store.fill unspecified m (18 * b - 8) (butterflies slot cells)) a =
      Store.get unspecified m a := by
  unfold OutsideBoundary at h
  exact Store.get_fill_not_mem hm _ _ (by rw [length_butterflies]; omega)

/-! ### The boundaries in order -/

/-- The cells of boundary b all hold values. -/
def BoundaryWritten (m : Store N.bits) (b : Nat) : Prop :=
  ∀ k, k < 16 → (Store.get unspecified m (18 * b - 8 + k)).isSome

/-- The cells of one boundary lie outside every other. -/
theorem outsideBoundary_of_ne {b' : Nat} (hne : b ≠ b') (ha : ¬OutsideBoundary a b) : OutsideBoundary a b' := by
  unfold OutsideBoundary at *
  omega

/-- R303: distinct boundaries whose cells hold values are rotated, each on its old values, and no other cell changes. -/
theorem antialias_rotates {bs : List Nat} (hm : Store.Rising m) (hnodup : bs.Nodup) (hpos : ∀ b ∈ bs, 1 ≤ b)
    (hw : ∀ b ∈ bs, BoundaryWritten m b) (slot : Nat) :
    ∃ m', antialias bs slot m = some m' ∧ (∀ b ∈ bs, Rotated m m' b) ∧
      ∀ a, (∀ b ∈ bs, OutsideBoundary a b) → Store.get unspecified m' a = Store.get unspecified m a := by
  induction bs generalizing m slot with
  | nil => exact ⟨m, rfl, by simp, fun _ _ => rfl⟩
  | cons b bs ih =>
    obtain ⟨hnot, hnodup⟩ := List.nodup_cons.1 hnodup
    obtain ⟨hb, hpos⟩ := List.forall_mem_cons.1 hpos
    obtain ⟨hwb, hw⟩ := List.forall_mem_cons.1 hw
    obtain ⟨cells, hc⟩ := Store.block_isSome hm hwb
    have hkeep {a : Nat} (ha : OutsideBoundary a b) := get_fill_outside (cells := cells) hm ha hb slot
    have hrest {b' a : Nat} (hb' : b' ∈ bs) (ha : ¬OutsideBoundary a b') : OutsideBoundary a b :=
      outsideBoundary_of_ne (fun h => hnot (h ▸ hb')) ha
    obtain ⟨m', hm', hrot, hout⟩ := ih (m := Store.fill unspecified m (18 * b - 8) (butterflies slot cells))
      (Store.rising_writes hm (pairwise_cellsFrom _ _)) hnodup hpos
      (fun b' hb' k hk => by
        rw [hkeep (hrest hb' (by unfold OutsideBoundary; have := hpos b' hb'; omega))]
        exact hw b' hb' k hk) (slot + 16)
    refine ⟨m', by rw [antialias, hc]; exact hm', List.forall_mem_cons.2 ⟨?_, fun b' hb' => ?_⟩, fun a ha => ?_⟩
    · exact (rotated_fill hm hb hc slot).congr hb (fun _ _ => rfl) fun a ha => hout a fun b' hb' =>
        outsideBoundary_of_ne (fun h => hnot (by rwa [h])) ha
    · exact (hrot b' hb').congr (hpos b' hb') (fun a ha => (hkeep (hrest hb' ha)).symm) fun _ _ => rfl
    · obtain ⟨hab, ha⟩ := List.forall_mem_cons.1 ha
      rw [hout a ha, hkeep hab]

/-! ### The command -/

/-- A command that replaces one channel's memories, passes over free slots and completes changes nothing else but DONE
and the latch. -/
theorem setChan_skipFree_complete_frame (s : State N) (c : BitVec 1) (x : Channel N) (n : Nat) :
    let t := ((s.setChan c x).skipFree n).complete
    CompletesWithin s t ∧ NoOutput s t ∧ OnlyChannel s t c ∧ t.chan c = x := by
  refine ⟨?_, by simp [NoOutput], fun c' hne => ?_, ?_⟩
  · rcases channel_cases c with rfl | rfl <;> rfl
  · rw [State.complete_chan, State.skipFree_chan, State.setChan_chan_ne s hne]
  · rw [State.complete_chan, State.skipFree_chan, State.setChan_chan_self]

/-- Settles O47: the boundaries of R301 are the listed ones, and each is rotated on its own cells. -/
theorem aaRotatesSelectedBoundaries : Obligations.AaRotatesSelectedBoundaries := by
  intro s ch hinv hw
  obtain ⟨hs, -⟩ := inv_iff.1 hinv
  obtain ⟨-, -, -, -, -, hchan⟩ := memoryWf_iff.1 hs
  obtain ⟨hxr, -⟩ := channel_memoryWf_iff.1 (hchan ch)
  obtain ⟨xr, hxr', hrot, hout⟩ := antialias_rotates (Store.rising_of_wf hxr) (pairwise_aaBoundaries s.snap).nodup
    (fun b hb => (mem_aaBoundaries.1 hb).1) (fun b hb k hk => hw b k (mem_aaBoundaries.1 hb) hk) s.free
  obtain ⟨hcomplete, hnoOut, honly, hself⟩ := setChan_skipFree_complete_frame s ch { s.chan ch with xr := xr }
    (16 * (aaBoundaries s.snap).length)
  refine ⟨_, by rw [exec, execAa, hxr'], hcomplete, hnoOut, honly, by rw [hself], fun b i u d hb hi hu hd => ?_,
    fun a ha => ?_⟩
  · rw [hself]
    exact hrot b (mem_aaBoundaries.2 hb) i u d hi hu hd
  · rw [hself]
    exact hout a fun b hb => ha b (mem_aaBoundaries.1 hb)

/-! ### A butterfly's values (R302, R305) -/

/-- R302: the rotation's coefficients share the root of 10^8 + c², c = −10^4·Ci. -/
theorem aaC_eq (hi : i < 8) : aaC i = -(aaCoeff i : ℝ) / 10000 := by
  interval_cases i <;> norm_num [aaC, aaCoeff]

/-- R13: p / √q, in units of 2^−149, rounded once. -/
theorem roundsTo_roundOverSqrt (p : ℤ) {q : ℕ} (hq : 0 < q) :
    RoundsTo ((p : ℝ) / 2 ^ 149 / √q) (roundOverSqrt p q) := by
  have hroot : (0 : ℝ) < √q := Real.sqrt_pos.2 (by exact_mod_cast hq)
  have hsq : √(q : ℝ) ^ 2 = q := Real.sq_sqrt q.cast_nonneg
  refine roundsTo_roundRoot (by decide) hq ?_ fun _ => ?_
  · have habs : |(p : ℝ) / 2 ^ 149 / √q| * 2 ^ (149 + 1) = 2 * |(p : ℝ)| / √q := by
      rw [abs_div, abs_div, abs_of_pos hroot, abs_of_pos (by positivity : (0 : ℝ) < 2 ^ 149)]
      field_simp
    rw [habs, div_pow, hsq, div_mul_cancel₀ _ (by positivity), mul_pow]
    push_cast
    rw [Nat.cast_natAbs, Int.cast_abs]
    norm_num
  · rw [decide_eq_true_eq, div_lt_iff₀ hroot, zero_mul, div_lt_iff₀ (by positivity), zero_mul, Int.cast_lt_zero]

/-- R302: √(1 + Ci²), over 10^4. -/
theorem sqrt_one_add_aaC_sq (hi : i < 8) :
    √(1 + aaC i ^ 2) = √((10 ^ 8 + (aaCoeff i).natAbs ^ 2 : ℕ) : ℝ) / 10000 := by
  have h : 1 + aaC i ^ 2 = ((10 ^ 8 + (aaCoeff i).natAbs ^ 2 : ℕ) : ℝ) / 10000 ^ 2 := by
    rw [aaC_eq hi]
    push_cast
    rw [Nat.cast_natAbs, Int.cast_abs, sq_abs]
    ring
  rw [h, Real.sqrt_div' _ (by positivity), Real.sqrt_sq (by norm_num)]

/-- Settles O48: over the common root the two outputs are the numerators that `ref32Aa` rounds. -/
theorem aaValuesAreRoundedOnce : Obligations.AaValuesAreRoundedOnce := by
  intro u d i hu hd hi
  have hq : 0 < 10 ^ 8 + (aaCoeff i).natAbs ^ 2 := by positivity
  have hroot : (0 : ℝ) < √((10 ^ 8 + (aaCoeff i).natAbs ^ 2 : ℕ) : ℝ) := Real.sqrt_pos.2 (by exact_mod_cast hq)
  refine ⟨_, _, by rw [ref32Aa, if_pos (by rw [hu, hd]; rfl)], ?_, ?_⟩
  · convert roundsTo_roundOverSqrt (10000 * fix u + aaCoeff i * fix d) hq using 1
    rw [aaCS, aaCA, sqrt_one_add_aaC_sq hi, aaC_eq hi, val32, val32]
    push_cast
    field_simp
    ring
  · convert roundsTo_roundOverSqrt (10000 * fix d - aaCoeff i * fix u) hq using 1
    rw [aaCS, aaCA, sqrt_one_add_aaC_sq hi, aaC_eq hi, val32, val32]
    push_cast
    field_simp
    ring

end Sys2Proof.Machine
end

section
/-! PROOFS. IMDCT (R310–R319): where the outputs of each subband go, and that they are NUM_IMPL's on the subband's own cells.
Settles O49. -/

namespace Sys2Proof.Machine

variable {N : NumImpl} {s : State N} {ch : BitVec 1} {p : Params} {xs os : List N.R} {sb k slot : Nat}

/-! ### Lists of rows -/

/-- Entry k of row t of rows of one length. -/
theorem getElem?_flatMap_row {α β : Type} {l : List α} {f : α → List β} {n : Nat} (hlen : ∀ a, (f a).length = n)
    {t : Nat} (ht : t < l.length) (hk : k < n) : (l.flatMap f)[n * t + k]? = (f l[t])[k]? := by
  induction l generalizing t with
  | nil => cases ht
  | cons a l ih =>
    rw [List.flatMap_cons]
    cases t with
    | zero => rw [Nat.mul_zero, Nat.zero_add, List.getElem?_append_left (by rwa [hlen]), List.getElem_cons_zero]
    | succ t =>
      have hsub : n * (t + 1) + k - (f a).length = n * t + k := by rw [hlen, Nat.mul_succ]; omega
      rw [List.getElem?_append_right (by rw [hlen, Nat.mul_succ]; omega), hsub, ih (by simpa using ht),
        List.getElem_cons_succ]

/-! ### The cells that IMDCT writes (R318, R319) -/

@[simp] theorem length_settledAll (slot n : Nat) (f : Nat → Option N.R) : (settledAll slot n f).length = n := by
  simp [settledAll]

@[simp] theorem length_ovlCells (p : Params) (slot : Nat) (xs os : List N.R) : (ovlCells p slot xs os).length = 576 := by
  simp [ovlCells, List.length_flatMap]

/-- R319: sample k of subband sb. -/
theorem getElem?_sbsCells (hsb : sb < 32) (hk : k < 18) : (sbsCells p slot xs os)[32 * k + sb]? =
    some (settled (slot + 36 * sb + k) ((subbandOutputs p xs os sb).1 k)) := by
  rw [sbsCells, getElem?_flatMap_row (by simp) (by simpa using hk) hsb]
  simp [hsb]

/-- R318: overlap entry k of subband sb. -/
theorem getElem?_ovlCells (hsb : sb < 32) (hk : k < 18) : (ovlCells p slot xs os)[18 * sb + k]? =
    some (settled (slot + 36 * sb + 18 + k) ((subbandOutputs p xs os sb).2 k)) := by
  rw [ovlCells, getElem?_flatMap_row (by simp) (by simpa using hsb) hk]
  simp [settledAll, hk]

/-! ### The cells of one subband -/

/-- The cells of a subband in a block of 576 are those that the memory holds from its first one on. -/
theorem subbandCells_eq {d : Option N.R} {m : Store N.bits} {cells vs : List N.R} (hm : Store.Rising m)
    (hc : Store.block d m 0 576 = some cells) (hsb : sb < 32) (hlen : vs.length = 18) (hv : Holds d m (18 * sb) vs) :
    subbandCells cells sb = vs := by
  obtain ⟨hcells, hget⟩ := (Store.block_eq_some_iff hm).1 hc
  refine List.ext_getElem (by simp [subbandCells]; omega) fun k h1 h2 => Option.some.inj ?_
  rw [← hv k h2, ← Nat.zero_add (18 * sb + k), hget _ (by omega)]
  simp [subbandCells]

theorem windowType_eq (p : Params) (sb : Nat) : windowType p sb = subbandType p sb := by
  simp [windowType, subbandType]

/-! ### The command -/

/-- The state that a completed IMDCT on the spectrum `xs` and the overlap `os` ends in. -/
def State.imdctDone (s : State N) (ch : BitVec 1) (xs os : List N.R) : State N :=
  ((s.setChan ch { s.chan ch with
    sbs := Store.fill unspecified (s.chan ch).sbs 0 (sbsCells s.snap s.free xs os)
    ovl := Store.fill N.zeroed (s.chan ch).ovl 0 (ovlCells s.snap s.free xs os) }).skipFree 1152).complete

theorem imdctDone_frame (s : State N) (ch : BitVec 1) (xs os : List N.R) :
    CompletesWithin s (s.imdctDone ch xs os) ∧ NoOutput s (s.imdctDone ch xs os) ∧
      OnlyChannel s (s.imdctDone ch xs os) ch ∧ (s.imdctDone ch xs os).chan ch = { s.chan ch with
        sbs := Store.fill unspecified (s.chan ch).sbs 0 (sbsCells s.snap s.free xs os)
        ovl := Store.fill N.zeroed (s.chan ch).ovl 0 (ovlCells s.snap s.free xs os) } :=
  setChan_skipFree_complete_frame s ch _ 1152

theorem imdctDone_sbs : ((s.imdctDone ch xs os).chan ch).sbs =
    Store.fill unspecified (s.chan ch).sbs 0 (sbsCells s.snap s.free xs os) := by
  obtain ⟨-, -, -, hself⟩ := imdctDone_frame s ch xs os
  rw [hself]

theorem imdctDone_ovl : ((s.imdctDone ch xs os).chan ch).ovl =
    Store.fill N.zeroed (s.chan ch).ovl 0 (ovlCells s.snap s.free xs os) := by
  obtain ⟨-, -, -, hself⟩ := imdctDone_frame s ch xs os
  rw [hself]

/-- A cell that a fill from cell 0 on writes. -/
theorem Store.get_fill_zero {v a : Nat} {d : Option (BitVec v)} {m : Store v} (hm : Store.Rising m)
    {vs : List (BitVec v)} {x : BitVec v} (h : vs[a]? = some x) : Store.get d (Store.fill d m 0 vs) a = some x := by
  obtain ⟨ha, rfl⟩ := List.getElem?_eq_some_iff.1 h
  simpa using Store.get_fill_mem (d := d) hm 0 vs ha

/-- R313, R318, R319: with XR written, IMDCT reads its blocks, and each cell it writes holds its subband's output. -/
theorem execImdct_transforms (hs : s.memoryWf = true) (hx : Store.written (s.chan ch).xr 576) :
    ∃ xs os, execImdct ch s = .next (s.imdctDone ch xs os) ∧
      ∀ sb k x o, sb < 32 → k < 18 → x.length = 18 → o.length = 18 →
        Holds unspecified (s.chan ch).xr (18 * sb) x → Holds N.zeroed (s.chan ch).ovl (18 * sb) o →
        ∃ n n', Store.get unspecified ((s.imdctDone ch xs os).chan ch).sbs (32 * k + sb) =
            some (settled n ((N.ops.imdct x o (subbandType s.snap sb) sb).1 k)) ∧
          Store.get N.zeroed ((s.imdctDone ch xs os).chan ch).ovl (18 * sb + k) =
            some (settled n' ((N.ops.imdct x o (subbandType s.snap sb) sb).2 k)) := by
  obtain ⟨-, -, -, -, -, hchan⟩ := memoryWf_iff.1 hs
  obtain ⟨hxr, hovl, hsbs, -⟩ := channel_memoryWf_iff.1 (hchan ch)
  obtain ⟨xs, hxs⟩ := Store.block_isSome (d := unspecified) (base := 0) (n := 576) (Store.rising_of_wf hxr)
    fun k hk => by simpa using hx k hk
  obtain ⟨os, hos, hexec⟩ := execImdct_of_block hxs
  refine ⟨xs, os, hexec, fun sb k x o hsb hk hxl hol hxh hoh => ?_⟩
  have hout : subbandOutputs s.snap xs os sb = N.ops.imdct x o (subbandType s.snap sb) sb := by
    rw [subbandOutputs, subbandCells_eq (Store.rising_of_wf hxr) hxs hsb hxl hxh,
      subbandCells_eq (Store.rising_of_wf hovl) hos hsb hol hoh, windowType_eq]
  rw [imdctDone_sbs, imdctDone_ovl, ← hout]
  exact ⟨_, _, Store.get_fill_zero (Store.rising_of_wf hsbs) (getElem?_sbsCells hsb hk),
    Store.get_fill_zero (Store.rising_of_wf hovl) (getElem?_ovlCells hsb hk)⟩

/-- Settles O49: IMDCT ends in `imdctDone`, whose frame is that of one channel's SBS and OVL. -/
theorem imdctTransformsEverySubband : Obligations.ImdctTransformsEverySubband := by
  intro s ch hinv hx
  obtain ⟨hs, -⟩ := inv_iff.1 hinv
  obtain ⟨xs, os, hexec, hcells⟩ := execImdct_transforms hs hx
  obtain ⟨hcomplete, hnoOut, honly, hself⟩ := imdctDone_frame s ch xs os
  exact ⟨_, hexec, hcomplete, hnoOut, honly, by rw [hself],
    fun sb x o k hsb hk => hcells sb k x o hsb hk⟩

end Sys2Proof.Machine
end

section
/-! PROOFS. The cosines of REF32's linear formulas (R13, R310, R350): the integer table that `roundAt` takes its enclosures
from holds each cosine of a multiple of the unit angle, scaled by a power of two, within 2. -/

namespace Sys2Proof.Machine

/-- The unit angle, as a real. -/
noncomputable def Unit.angle : Unit → ℝ
  | .pi72 => Real.pi / 72
  | .pi64 => Real.pi / 64

theorem Unit.right_mul_angle (u : Unit) : (u.right : ℝ) * u.angle = Real.pi / 2 := by
  cases u <;> simp only [Unit.right, Unit.angle] <;> push_cast <;> ring

/-! ### The cosine of the unit angle -/

/-- `n` lies below `x`, by at most 4. -/
def CloseBelow (x : ℝ) (n : ℕ) : Prop := (n : ℝ) ≤ x ∧ x ≤ n + 4

/-- The root of A is within 4 below y where A falls short of y² = (2P + x)·P by at most 4·P. -/
theorem closeBelow_sqrt {P y x : ℝ} {r c : ℕ} (hP : 0 < P) (hy : 0 ≤ y) (hc : CloseBelow x c)
    (hsq : y ^ 2 = (2 * P + x) * P) (hlow : (r : ℝ) ^ 2 ≤ (2 * P + c) * P)
    (hhigh : (2 * P + c) * P < ((r : ℝ) + 1) ^ 2) : CloseBelow y r := by
  obtain ⟨hcx, hxc⟩ := hc
  have hr : (0 : ℝ) ≤ r := r.cast_nonneg
  constructor
  · refine (pow_le_pow_iff_left₀ hr hy two_ne_zero).1 (hlow.trans ?_)
    rw [hsq]
    gcongr
  · by_contra hlt
    rw [not_le] at hlt
    have hgap : y ^ 2 < ((r : ℝ) + 1) ^ 2 + 4 * P := by nlinarith
    have hsmall : 3 * y < 4 * P := by nlinarith
    nlinarith

/-- cos(α/2) from cos α. -/
theorem closeBelow_halfAngle {q c : ℕ} {α : ℝ} (hq : 1 ≤ q) (h0 : 0 ≤ α) (h1 : α ≤ Real.pi / 2)
    (h : CloseBelow (2 ^ q * Real.cos α) c) : CloseBelow (2 ^ q * Real.cos (α / 2)) (halfAngle q c) := by
  have hpi := Real.pi_pos
  have hpow : (2 : ℝ) ^ q = 2 * 2 ^ (q - 1) := by rw [← pow_succ', Nat.sub_add_cancel hq]
  have hcos : 0 ≤ Real.cos α := Real.cos_nonneg_of_mem_Icc ⟨by linarith, h1⟩
  have hhalf : 0 ≤ Real.cos (α / 2) := Real.cos_nonneg_of_mem_Icc ⟨by linarith, by linarith⟩
  obtain ⟨hlow, hhigh⟩ := iroot_spec (k := 2) two_ne_zero ((2 ^ q + c) * 2 ^ (q - 1))
  have hcast : (((2 ^ q + c) * 2 ^ (q - 1) : ℕ) : ℝ) = (2 * 2 ^ (q - 1) + c) * 2 ^ (q - 1) := by
    push_cast
    rw [hpow]
  refine closeBelow_sqrt (P := 2 ^ (q - 1)) (by positivity) (by positivity) h ?_ ?_ ?_
  · rw [mul_pow, Real.cos_sq, mul_div_cancel₀ _ two_ne_zero, hpow]
    ring
  · rw [← hcast]
    exact_mod_cast hlow
  · rw [← hcast]
    exact_mod_cast hhigh

/-- The search keeps the test of the cubic at r and its failure at r + 2^bits. -/
theorem cosNinth_spec {q : ℕ} (bits : ℕ) {r : ℕ} (hlow : 8 * r ^ 3 ≤ 6 * r * 4 ^ q + 8 ^ q)
    (hhigh : 6 * (r + 2 ^ bits) * 4 ^ q + 8 ^ q < 8 * (r + 2 ^ bits) ^ 3) :
    8 * cosNinth q bits r ^ 3 ≤ 6 * cosNinth q bits r * 4 ^ q + 8 ^ q ∧
      6 * (cosNinth q bits r + 1) * 4 ^ q + 8 ^ q < 8 * (cosNinth q bits r + 1) ^ 3 := by
  induction bits generalizing r with
  | zero => exact ⟨hlow, hhigh⟩
  | succ bits ih =>
    rw [cosNinth]
    split
    next hle =>
      refine ih hle ?_
      rwa [add_assoc, ← two_mul, ← pow_succ']
    next hlt => exact ih hlow (not_le.1 hlt)

/-- cos(π/9) is the root of 8x³ − 6x − 1 above √3/2. -/
theorem cos_pi_div_nine : 8 * Real.cos (Real.pi / 9) ^ 3 = 6 * Real.cos (Real.pi / 9) + 1 ∧
    3 / 4 ≤ Real.cos (Real.pi / 9) ^ 2 := by
  have hpi := Real.pi_pos
  constructor
  · have h := Real.cos_three_mul (Real.pi / 9)
    rw [show 3 * (Real.pi / 9) = Real.pi / 3 by ring, Real.cos_pi_div_three] at h
    linarith
  · have hle : Real.cos (Real.pi / 6) ≤ Real.cos (Real.pi / 9) :=
      Real.cos_le_cos_of_nonneg_of_le_pi (by positivity) (by linarith) (by linarith)
    rw [← Real.sq_cos_pi_div_six]
    exact pow_le_pow_left₀ (by rw [Real.cos_pi_div_six]; positivity) hle 2

theorem closeBelow_cosNinth (q : ℕ) : CloseBelow (2 ^ q * Real.cos (Real.pi / 9)) (cosNinth q q 0) := by
  have h4 : (4 : ℕ) ^ q = (2 ^ q) ^ 2 := by rw [← pow_mul, mul_comm, pow_mul]; norm_num
  have h8 : (8 : ℕ) ^ q = (2 ^ q) ^ 3 := by rw [← pow_mul, mul_comm, pow_mul]; norm_num
  have hpos : 0 < (2 : ℕ) ^ q := by positivity
  obtain ⟨hlow, hhigh⟩ := cosNinth_spec (q := q) q (r := 0) (by simp) (by
    rw [h4, h8, zero_add]
    have := pow_pos hpos 3
    nlinarith)
  rw [h4, h8] at hlow hhigh
  generalize cosNinth q q 0 = r at *
  have hlow : 8 * (r : ℝ) ^ 3 ≤ 6 * r * (2 ^ q) ^ 2 + (2 ^ q) ^ 3 := by exact_mod_cast hlow
  have hhigh : 6 * ((r : ℝ) + 1) * (2 ^ q) ^ 2 + (2 ^ q) ^ 3 < 8 * ((r : ℝ) + 1) ^ 3 := by exact_mod_cast hhigh
  have hQ : (0 : ℝ) < 2 ^ q := by positivity
  generalize (2 : ℝ) ^ q = Q at *
  obtain ⟨hroot, hsq⟩ := cos_pi_div_nine
  have hc : 0 ≤ Real.cos (Real.pi / 9) :=
    Real.cos_nonneg_of_mem_Icc ⟨by linarith [Real.pi_pos], by linarith [Real.pi_pos]⟩
  have hX : 0 ≤ Q * Real.cos (Real.pi / 9) := by positivity
  have hcube : 8 * (Q * Real.cos (Real.pi / 9)) ^ 3 = 6 * (Q * Real.cos (Real.pi / 9)) * Q ^ 2 + Q ^ 3 := by
    linear_combination Q ^ 3 * hroot
  have hX2 : 3 / 4 * Q ^ 2 ≤ (Q * Real.cos (Real.pi / 9)) ^ 2 := by
    rw [mul_pow]
    nlinarith [sq_nonneg Q]
  generalize Q * Real.cos (Real.pi / 9) = X at *
  have hr : (0 : ℝ) ≤ r := r.cast_nonneg
  constructor
  · by_contra hlt
    rw [not_le] at hlt
    nlinarith [mul_pos (sub_pos.2 hlt) (by nlinarith [mul_nonneg hr hX] :
      0 < 8 * (r ^ 2 + r * X + X ^ 2) - 6 * Q ^ 2)]
  · suffices X ≤ r + 1 by linarith
    by_contra hlt
    rw [not_le] at hlt
    nlinarith [mul_nonneg (sub_nonneg.2 hlt.le) (by nlinarith [mul_nonneg hr hX] :
      0 ≤ 8 * (((r : ℝ) + 1) ^ 2 + (r + 1) * X + X ^ 2) - 6 * Q ^ 2)]

theorem closeBelow_unitCos {q : ℕ} (hq : 1 ≤ q) (u : Unit) :
    CloseBelow (2 ^ q * Real.cos u.angle) (unitCos q u) := by
  have hpi := Real.pi_pos
  have half {α β : ℝ} {c : ℕ} (hβ : α / 2 = β) (h0 : 0 ≤ α) (h1 : α ≤ Real.pi / 2)
      (h : CloseBelow (2 ^ q * Real.cos α) c) : CloseBelow (2 ^ q * Real.cos β) (halfAngle q c) :=
    hβ ▸ closeBelow_halfAngle hq h0 h1 h
  cases u with
  | pi72 =>
    have h18 := half (β := Real.pi / 18) (by ring) (by linarith) (by linarith) (closeBelow_cosNinth q)
    have h36 := half (β := Real.pi / 36) (by ring) (by linarith) (by linarith) h18
    exact half (by rw [Unit.angle]; ring) (by linarith) (by linarith) h36
  | pi64 =>
    have h2 : CloseBelow (2 ^ q * Real.cos (Real.pi / 2)) 0 := by
      rw [Real.cos_pi_div_two]
      norm_num [CloseBelow]
    have h4 := half (β := Real.pi / 4) (by ring) (by linarith) (by linarith) h2
    have h8 := half (β := Real.pi / 8) (by ring) (by linarith) (by linarith) h4
    have h16 := half (β := Real.pi / 16) (by ring) (by linarith) (by linarith) h8
    have h32 := half (β := Real.pi / 32) (by ring) (by linarith) (by linarith) h16
    exact half (by rw [Unit.angle]; ring) (by linarith) (by linarith) h32

/-! ### The series of cosines -/

/-- The unit complex number at angle φ, which a step of the recurrence turns by. -/
noncomputable def turn (φ : ℝ) : ℂ := Complex.exp (φ * Complex.I)

@[simp] theorem norm_turn (φ : ℝ) : ‖turn φ‖ = 1 := Complex.norm_exp_ofReal_mul_I φ

theorem turn_mul_turn_neg (φ : ℝ) : turn φ * turn (-φ) = 1 := by
  rw [turn, turn, ← Complex.exp_add, Complex.ofReal_neg, ← add_mul, add_neg_cancel, zero_mul, Complex.exp_zero]

theorem turn_add_turn_neg (φ : ℝ) : turn φ + turn (-φ) = ((2 * Real.cos φ : ℝ) : ℂ) := by
  rw [turn, turn]
  push_cast
  rw [Complex.two_cos]

/-- The errors e' and e of two neighbours at place j: e is small, and so is its distance from e' turned. -/
def ErrorAt (φ D : ℝ) (j : ℕ) (e' e : ℝ) : Prop := |e| ≤ j ^ 2 * D ∧ ‖(e : ℂ) - turn φ * e'‖ ≤ j * D

/-- A step of the recurrence with a further error of at most D: the turned distance grows by D, so that the error grows
as the square of the place only. -/
theorem ErrorAt.succ {φ D e' e next : ℝ} {j : ℕ} (hD : 0 ≤ D) (h : ErrorAt φ D j e' e)
    (hnext : |next - (2 * Real.cos φ * e - e')| ≤ D) : ErrorAt φ D (j + 1) e next := by
  obtain ⟨herr, hturn⟩ := h
  have hsplit : (next : ℂ) - turn φ * e =
      turn (-φ) * (e - turn φ * e') + ((next - (2 * Real.cos φ * e - e') : ℝ) : ℂ) := by
    have hone := turn_mul_turn_neg φ
    have hsum := turn_add_turn_neg φ
    push_cast at hsum ⊢
    linear_combination (-(e : ℂ)) * hsum + (e' : ℂ) * hone
  have hturn' : ‖(next : ℂ) - turn φ * e‖ ≤ ((j + 1 : ℕ) : ℝ) * D := by
    rw [hsplit]
    refine (norm_add_le _ _).trans ?_
    rw [norm_mul, norm_turn, one_mul, Complex.norm_real, Real.norm_eq_abs]
    push_cast
    linarith
  refine ⟨?_, hturn'⟩
  have htri : |next| ≤ ‖(next : ℂ) - turn φ * e‖ + |e| := by
    have h := norm_add_le ((next : ℂ) - turn φ * e) (turn φ * e)
    rw [sub_add_cancel, norm_mul, norm_turn, one_mul, Complex.norm_real, Complex.norm_real] at h
    exact h
  push_cast at hturn' ⊢
  nlinarith [mul_nonneg (Nat.cast_nonneg j : (0 : ℝ) ≤ j) hD]

/-- The error of integer division by a power of two. -/
theorem ediv_two_pow_bounds (x : ℤ) (q : ℕ) :
    (x : ℝ) / 2 ^ q - 1 < ((x / 2 ^ q : ℤ) : ℝ) ∧ ((x / 2 ^ q : ℤ) : ℝ) ≤ (x : ℝ) / 2 ^ q := by
  have hpos : (0 : ℤ) < 2 ^ q := by positivity
  have hle : x / 2 ^ q * 2 ^ q ≤ x := Int.ediv_mul_le x hpos.ne'
  have hlt : x < (x / 2 ^ q + 1) * 2 ^ q := Int.lt_ediv_add_one_mul_self x hpos
  rw [sub_lt_iff_lt_add, div_lt_iff₀ (by positivity), le_div_iff₀ (by positivity)]
  exact ⟨by exact_mod_cast hlt, by exact_mod_cast hle⟩

theorem cos_succ_mul (θ : ℝ) (j : ℕ) : Real.cos ((j + 2 : ℕ) * θ) =
    2 * Real.cos θ * Real.cos ((j + 1 : ℕ) * θ) - Real.cos (j * θ) := by
  have h := Real.cos_add_cos ((j + 2 : ℕ) * θ) (j * θ)
  have hsum : (((j + 2 : ℕ) : ℝ) * θ + j * θ) / 2 = (j + 1 : ℕ) * θ := by push_cast; ring
  have hdiff : (((j + 2 : ℕ) : ℝ) * θ - j * θ) / 2 = θ := by push_cast; ring
  rw [hsum, hdiff] at h
  linarith

section series

variable {q c : ℕ} {θ φ : ℝ} (hc : CloseBelow (2 ^ q * Real.cos θ) c) (hφ : 2 ^ q * Real.cos φ = c)

include hc hφ

/-- One step of the series from the cosines at j and j + 1: its error but for the recurrence's own is at most 9. -/
theorem errorAt_next {j : ℕ} {a b : ℤ}
    (h : ErrorAt φ 9 (j + 1) (a - 2 ^ q * Real.cos (j * θ)) (b - 2 ^ q * Real.cos ((j + 1 : ℕ) * θ))) :
    ErrorAt φ 9 (j + 2) (b - 2 ^ q * Real.cos ((j + 1 : ℕ) * θ))
      (((2 * c * b / 2 ^ q - a : ℤ) : ℝ) - 2 ^ q * Real.cos ((j + 2 : ℕ) * θ)) := by
  refine h.succ (by norm_num) ?_
  obtain ⟨hlow, hhigh⟩ := hc
  obtain ⟨hfloor, hfloor'⟩ := ediv_two_pow_bounds (2 * c * b) q
  have hquot : ((2 * c * b : ℤ) : ℝ) / 2 ^ q = 2 * Real.cos φ * b := by
    push_cast
    rw [← hφ]
    field_simp
  rw [hquot] at hfloor hfloor'
  have hcos := abs_le.1 (Real.abs_cos_le_one ((j + 1 : ℕ) * θ))
  have hangle : |(c - 2 ^ q * Real.cos θ) * Real.cos ((j + 1 : ℕ) * θ)| ≤ 4 := by
    rw [abs_mul]
    exact (mul_le_mul (abs_le.2 ⟨by linarith, by linarith⟩) (abs_le.2 hcos) (abs_nonneg _) (by norm_num)).trans_eq
      (mul_one 4)
  obtain ⟨hangle, hangle'⟩ := abs_le.1 hangle
  rw [cos_succ_mul, Int.cast_sub, abs_le]
  generalize Real.cos ((j + 1 : ℕ) * θ) = y at *
  generalize ((2 * c * b / 2 ^ q : ℤ) : ℝ) = d at *
  have hsplit : d - a - 2 ^ q * (2 * Real.cos θ * y - Real.cos (j * θ)) -
      (2 * Real.cos φ * (b - 2 ^ q * y) - (a - 2 ^ q * Real.cos (j * θ))) =
      (d - 2 * Real.cos φ * b) + 2 * ((c - 2 ^ q * Real.cos θ) * y) := by
    linear_combination (2 * y) * hφ
  rw [hsplit]
  constructor <;> linarith

/-- The entries of the series, from place j + 1 on. -/
theorem cosSeries_error (n : ℕ) {j : ℕ} {a b : ℤ}
    (h : ErrorAt φ 9 (j + 1) (a - 2 ^ q * Real.cos (j * θ)) (b - 2 ^ q * Real.cos ((j + 1 : ℕ) * θ)))
    {k : ℕ} {x : ℤ} (hx : (cosSeries q c n a b)[k]? = some x) :
    |(x : ℝ) - 2 ^ q * Real.cos ((j + 1 + k : ℕ) * θ)| ≤ (j + 1 + k : ℕ) ^ 2 * 9 := by
  induction n generalizing j a b k with
  | zero => cases hx
  | succ n ih =>
    rw [cosSeries] at hx
    cases k with
    | zero =>
      obtain rfl : b = x := by simpa using hx
      exact h.1
    | succ k =>
      rw [List.getElem?_cons_succ] at hx
      have hk : j + 1 + (k + 1) = j + 1 + 1 + k := by omega
      rw [hk]
      exact ih (errorAt_next hc hφ h) hx

end series

@[simp] theorem length_cosSeries (q : ℕ) (c : ℤ) (n : ℕ) (a b : ℤ) : (cosSeries q c n a b).length = n := by
  induction n generalizing a b with
  | zero => rfl
  | succ n ih => rw [cosSeries, List.length_cons, ih]

/-! ### The table -/

@[simp] theorem length_cosTable (u : Unit) (p : ℕ) : (cosTable u p).length = u.right := by
  cases u <;> simp [cosTable, Unit.right]

/-- Every entry but the first of the finer series, for both units. -/
theorem unitSeries_error {u : Unit} {q k : ℕ} (hq : 1 ≤ q) {x : ℤ}
    (hx : (cosSeries q (unitCos q u) (u.right - 1) (2 ^ q) (unitCos q u))[k]? = some x) :
    |(x : ℝ) - 2 ^ q * Real.cos ((k + 1 : ℕ) * u.angle)| ≤ (k + 1 : ℕ) ^ 2 * 9 := by
  obtain ⟨hlow, hhigh⟩ := closeBelow_unitCos hq u
  have hpos : (0 : ℝ) < 2 ^ q := by positivity
  have hle : (unitCos q u : ℝ) / 2 ^ q ≤ 1 := by
    rw [div_le_one hpos]
    exact hlow.trans (mul_le_of_le_one_right hpos.le (Real.cos_le_one _))
  have hφ : 2 ^ q * Real.cos (Real.arccos ((unitCos q u : ℝ) / 2 ^ q)) = unitCos q u := by
    rw [Real.cos_arccos (by linarith [div_nonneg (Nat.cast_nonneg (unitCos q u) : (0 : ℝ) ≤ _) hpos.le]) hle,
      mul_div_cancel₀ _ hpos.ne']
  have hfirst : ErrorAt (Real.arccos ((unitCos q u : ℝ) / 2 ^ q)) 9 (0 + 1)
      (((2 ^ q : ℤ) : ℝ) - 2 ^ q * Real.cos ((0 : ℕ) * u.angle))
      (((unitCos q u : ℤ) : ℝ) - 2 ^ q * Real.cos ((0 + 1 : ℕ) * u.angle)) := by
    have habs : |(unitCos q u : ℝ) - 2 ^ q * Real.cos u.angle| ≤ 9 := abs_le.2 ⟨by linarith, by linarith⟩
    constructor
    · simpa using habs
    · have hzero : ((((2 ^ q : ℤ) : ℝ) - 2 ^ q * Real.cos ((0 : ℕ) * u.angle) : ℝ) : ℂ) = 0 := by simp
      rw [hzero, mul_zero, sub_zero, Complex.norm_real, Real.norm_eq_abs]
      simpa using habs
  have herr := cosSeries_error (closeBelow_unitCos hq u) hφ _ hfirst hx
  rwa [show 0 + 1 + k = k + 1 by omega] at herr

/-- Entry j of the table is the cosine of j units, scaled by 2^p, within 2. -/
theorem cosTable_error {u : Unit} {p j : ℕ} {x : ℤ} (hx : (cosTable u p)[j]? = some x) :
    |(x : ℝ) - 2 ^ p * Real.cos (j * u.angle)| ≤ 2 := by
  have hj : j < u.right := by
    have := (List.getElem?_eq_some_iff.1 hx).1
    rwa [length_cosTable] at this
  rw [cosTable] at hx
  cases j with
  | zero =>
    obtain rfl : 2 ^ p = x := by simpa using hx
    simp
  | succ k =>
    rw [List.getElem?_cons_succ, List.getElem?_map, Option.map_eq_some_iff] at hx
    obtain ⟨y, hy, rfl⟩ := hx
    have herr := unitSeries_error (by rw [guardBits]; omega) hy
    have hk : ((k + 1 : ℕ) : ℝ) ^ 2 * 9 ≤ 2 ^ guardBits := by
      have hk36 : k + 1 ≤ 36 := hj.le.trans (by cases u <;> decide)
      have hsq : (k + 1) ^ 2 * 9 ≤ 36 ^ 2 * 9 := Nat.mul_le_mul_right 9 (Nat.pow_le_pow_left hk36 2)
      exact_mod_cast hsq.trans (by rw [guardBits]; norm_num : 36 ^ 2 * 9 ≤ 2 ^ guardBits)
    have hscale : (y : ℝ) / 2 ^ guardBits - 2 ^ p * Real.cos ((k + 1 : ℕ) * u.angle) =
        (y - 2 ^ (p + guardBits) * Real.cos ((k + 1 : ℕ) * u.angle)) / 2 ^ guardBits := by
      rw [pow_add]
      field_simp
    have hfine : |(y : ℝ) / 2 ^ guardBits - 2 ^ p * Real.cos ((k + 1 : ℕ) * u.angle)| ≤ 1 := by
      rw [hscale, abs_div, abs_of_pos (by positivity : (0 : ℝ) < 2 ^ guardBits), div_le_one (by positivity)]
      exact herr.trans hk
    obtain ⟨hfloor, hfloor'⟩ := ediv_two_pow_bounds y guardBits
    obtain ⟨hfine, hfine'⟩ := abs_le.1 hfine
    exact abs_le.2 ⟨by linarith, by linarith⟩

end Sys2Proof.Machine
end

section
/-! PROOFS. REF32's linear formulas (R13, R310, R350; log entry 12): the real value of a sum of cosines is kept by the
folding of angles and the change of basis, lies in the enclosure of each precision, and so is what a decided form rounds. -/

namespace Sys2Proof.Machine

/-! ### The value of a sum of cosines -/

/-- Σ b_j·cos((i + j)·θ) over a list of coefficients. -/
noncomputable def cosSum (θ : ℝ) : ℕ → List ℤ → ℝ
  | _, [] => 0
  | i, b :: v => b * Real.cos (i * θ) + cosSum θ (i + 1) v

/-- Σ c·cos(m·θ) over the terms (c, m) of a row. -/
noncomputable def rowValue (θ : ℝ) (row : List CosTerm) : ℝ := (row.map fun c => (c.1 : ℝ) * Real.cos (c.2 * θ)).sum

/-- Σ fix(word)·row over the terms of a form. -/
noncomputable def formValue (θ : ℝ) (ts : List (Word × List CosTerm)) : ℝ :=
  (ts.map fun t => (fix t.1 : ℝ) * rowValue θ t.2).sum

section sums

variable {θ : ℝ}

@[simp] theorem rowValue_nil : rowValue θ [] = 0 := rfl

@[simp] theorem rowValue_cons (c : CosTerm) (row : List CosTerm) :
    rowValue θ (c :: row) = c.1 * Real.cos (c.2 * θ) + rowValue θ row := List.sum_cons

@[simp] theorem formValue_nil : formValue θ [] = 0 := rfl

@[simp] theorem formValue_cons (t : Word × List CosTerm) (ts : List (Word × List CosTerm)) :
    formValue θ (t :: ts) = fix t.1 * rowValue θ t.2 + formValue θ ts := List.sum_cons

theorem cosSum_replicate_zero (i n : ℕ) : cosSum θ i (List.replicate n 0) = 0 := by
  induction n generalizing i with
  | zero => rfl
  | succ n ih => rw [List.replicate_succ, cosSum, ih, Int.cast_zero, zero_mul, zero_add]

theorem cosSum_eq_sum (i : ℕ) (v : List ℤ) :
    cosSum θ i v = ∑ j ∈ Finset.range v.length, (v.getD j 0 : ℝ) * Real.cos ((i + j : ℕ) * θ) := by
  induction v generalizing i with
  | nil => rfl
  | cons b v ih =>
    rw [List.length_cons, Finset.sum_range_succ', cosSum, ih, add_comm]
    simp only [List.getD_cons_succ, List.getD_cons_zero, Nat.add_zero, Nat.add_assoc, Nat.add_comm 1]

/-! ### The coefficients of a form -/

/-- A right angle is at least one unit. -/
theorem pos_of_rightAngle {h : ℕ} (hθ : (h : ℝ) * θ = Real.pi / 2) : 0 < h := Nat.pos_of_ne_zero fun h0 => by
  rw [h0, Nat.cast_zero, zero_mul] at hθ
  exact (div_pos Real.pi_pos two_pos).ne hθ

/-- R310, R350: an angle is folded to at most a right angle, with a sign. -/
theorem cos_foldAngle {h : ℕ} (hθ : (h : ℝ) * θ = Real.pi / 2) (m : ℕ) :
    Real.cos (m * θ) = (foldAngle h m).1 * Real.cos ((foldAngle h m).2 * θ) := by
  have hmod : Real.cos (m * θ) = Real.cos ((m % (4 * h) : ℕ) * θ) := by
    have hm : (m : ℝ) * θ = (m % (4 * h) : ℕ) * θ + (m / (4 * h) : ℕ) * (2 * Real.pi) := by
      have hdiv : ((m % (4 * h) : ℕ) : ℝ) + 4 * h * (m / (4 * h) : ℕ) = m := by exact_mod_cast Nat.mod_add_div m (4 * h)
      linear_combination -θ * hdiv + 4 * (m / (4 * h) : ℕ) * hθ
    rw [hm, Real.cos_add_nat_mul_two_pi]
  rw [hmod, foldAngle]
  have hpos := pos_of_rightAngle hθ
  have hlt := Nat.mod_lt m (show 0 < 4 * h by omega)
  generalize m % (4 * h) = r at *
  split_ifs with h1 h2 h3
  · simp
  · have hr : ((2 * h - r : ℕ) : ℝ) * θ = Real.pi - r * θ := by
      rw [Nat.cast_sub h2]
      push_cast
      linear_combination 2 * hθ
    rw [hr, Real.cos_pi_sub]
    simp
  · have hr : ((r - 2 * h : ℕ) : ℝ) * θ = r * θ - Real.pi := by
      rw [Nat.cast_sub (by omega)]
      push_cast
      linear_combination -2 * hθ
    rw [hr, Real.cos_sub_pi]
    simp
  · have hr : ((4 * h - r : ℕ) : ℝ) * θ = 2 * Real.pi - r * θ := by
      rw [Nat.cast_sub hlt.le]
      push_cast
      linear_combination 4 * hθ
    rw [hr, Real.cos_two_pi_sub]
    simp

theorem foldAngle_le {h : ℕ} (hpos : 0 < h) (m : ℕ) : (foldAngle h m).2 ≤ h := by
  have hlt := Nat.mod_lt m (show 0 < 4 * h by omega)
  unfold foldAngle
  generalize m % (4 * h) = r at *
  dsimp only
  split_ifs <;> dsimp only <;> omega

@[simp] theorem length_addAt (v : List ℤ) (j : ℕ) (x : ℤ) : (addAt v j x).length = v.length := by
  induction v generalizing j with
  | nil => rfl
  | cons b v ih =>
    cases j with
    | zero => rfl
    | succ j => rw [addAt, List.length_cons, ih, List.length_cons]

theorem cosSum_addAt {v : List ℤ} {j : ℕ} (hj : j < v.length) (i : ℕ) (x : ℤ) :
    cosSum θ i (addAt v j x) = cosSum θ i v + x * Real.cos ((i + j : ℕ) * θ) := by
  induction v generalizing i j with
  | nil => cases hj
  | cons b v ih =>
    cases j with
    | zero =>
      rw [addAt, cosSum, cosSum, Nat.add_zero i]
      push_cast
      ring
    | succ j =>
      rw [addAt, cosSum, cosSum, ih (by simpa using hj), show i + 1 + j = i + (j + 1) by omega]
      ring

theorem addAt_of_length_le {v : List ℤ} {j : ℕ} (hj : v.length ≤ j) (x : ℤ) : addAt v j x = v := by
  induction v generalizing j with
  | nil => rfl
  | cons b v ih =>
    cases j with
    | zero => simp at hj
    | succ j => rw [addAt, ih (by simpa using hj)]

variable {h : ℕ} (hθ : (h : ℝ) * θ = Real.pi / 2)

include hθ

/-- A folded angle beyond the list is a right angle, whose cosine is 0. -/
theorem cosSum_addAt_fold {v : List ℤ} (hv : v.length = h) (x c : ℤ) (m : ℕ) :
    cosSum θ 0 (addAt v (foldAngle h m).2 (x * c * (foldAngle h m).1)) =
      cosSum θ 0 v + x * (c * Real.cos (m * θ)) := by
  rw [cos_foldAngle hθ m]
  by_cases hj : (foldAngle h m).2 < v.length
  · rw [cosSum_addAt hj, Nat.zero_add]
    push_cast
    ring
  · have hright : (foldAngle h m).2 = h := le_antisymm (foldAngle_le (pos_of_rightAngle hθ) m) (by omega)
    rw [addAt_of_length_le (by omega), hright, hθ, Real.cos_pi_div_two]
    ring

theorem addRow_spec (x : ℤ) (row : List CosTerm) {v : List ℤ} (hv : v.length = h) :
    (addRow h x row v).length = h ∧ cosSum θ 0 (addRow h x row v) = cosSum θ 0 v + x * rowValue θ row := by
  induction row generalizing v with
  | nil => exact ⟨hv, by rw [addRow, rowValue_nil, mul_zero, add_zero]⟩
  | cons c row ih =>
    obtain ⟨c, m⟩ := c
    obtain ⟨hlen, hsum⟩ := ih (v := addAt v (foldAngle h m).2 (x * c * (foldAngle h m).1)) (by simpa using hv)
    refine ⟨hlen, ?_⟩
    rw [addRow, hsum, cosSum_addAt_fold hθ hv, rowValue_cons]
    ring

theorem coefficients_spec (ts : List (Word × List CosTerm)) {v : List ℤ} (hv : v.length = h) :
    (coefficients h ts v).length = h ∧ cosSum θ 0 (coefficients h ts v) = cosSum θ 0 v + formValue θ ts := by
  induction ts generalizing v with
  | nil => exact ⟨hv, by rw [coefficients, formValue_nil, add_zero]⟩
  | cons t ts ih =>
    obtain ⟨w, row⟩ := t
    rw [coefficients, formValue_cons]
    split
    next hw =>
      obtain ⟨hlen, hsum⟩ := ih hv
      exact ⟨hlen, by rw [hsum, hw, Int.cast_zero, zero_mul, zero_add]⟩
    next hw =>
      obtain ⟨hlen, hrow⟩ := addRow_spec hθ (fix w) row hv
      obtain ⟨hlen, hsum⟩ := ih hlen
      exact ⟨hlen, by rw [hsum, hrow, add_assoc]⟩

end sums

/-! ### The basis -/

/-- cos(24 + i) = cos i − cos(24 − i) in units of π/72, since cos 24 = 1/2. -/
theorem cos_pi72_reduce (i : ℕ) (hi : i ≤ 24) : Real.cos ((24 + i : ℕ) * Unit.pi72.angle) =
    Real.cos (i * Unit.pi72.angle) - Real.cos ((24 - i : ℕ) * Unit.pi72.angle) := by
  have hsum : ((24 + i : ℕ) : ℝ) * Unit.pi72.angle = Real.pi / 3 + i * Unit.pi72.angle := by
    rw [Unit.angle]
    push_cast
    ring
  have hdiff : ((24 - i : ℕ) : ℝ) * Unit.pi72.angle = Real.pi / 3 - i * Unit.pi72.angle := by
    rw [Nat.cast_sub hi, Unit.angle]
    push_cast
    ring
  rw [hsum, hdiff, Real.cos_add, Real.cos_sub, Real.cos_pi_div_three]
  ring

theorem cosSum_map_double (θ : ℝ) (i : ℕ) (v : List ℤ) :
    cosSum θ i (v.map fun a => 2 * a) = 2 * cosSum θ i v := by
  induction v generalizing i with
  | nil => rw [List.map_nil, cosSum, mul_zero]
  | cons b v ih =>
    rw [List.map_cons, cosSum, cosSum, ih]
    push_cast
    ring

theorem length_doubled_le {u : Unit} {v : List ℤ} (hv : v.length = u.right) : (doubled u v).length ≤ u.right := by
  cases u with
  | pi64 => simpa [doubled] using hv.le
  | pi72 => simp [doubled, Unit.right]

/-- The change of basis doubles the value: for π/72 the cosines 24…35 are eliminated by `cos_pi72_reduce`. -/
theorem cosSum_doubled {u : Unit} {v : List ℤ} (hv : v.length = u.right) :
    cosSum u.angle 0 (doubled u v) = 2 * cosSum u.angle 0 v := by
  cases u with
  | pi64 => exact cosSum_map_double _ 0 v
  | pi72 =>
    have hlen : (doubled .pi72 v).length = 24 := by simp [doubled]
    have hzero : (doubled .pi72 v).getD 0 0 = 2 * v.getD 0 0 + v.getD 24 0 := rfl
    have hsucc (j : ℕ) (hj : j < 23) : (doubled .pi72 v).getD (j + 1) 0 = 2 * (v.getD (j + 1) 0 +
        (if j + 1 ≤ 11 then v.getD (j + 1 + 24) 0 else 0) - (if 13 ≤ j + 1 then v.getD (48 - (j + 1)) 0 else 0)) := by
      simp [doubled, hj, Nat.add_comm 1]
    have hlow := Finset.sum_congr (rfl : Finset.range 23 = Finset.range 23) fun j hj =>
      congrArg (fun d : ℤ => (d : ℝ) * Real.cos ((j + 1 : ℕ) * Unit.pi72.angle)) (hsucc j (Finset.mem_range.1 hj))
    have hhigh := Finset.sum_congr (rfl : Finset.range 12 = Finset.range 12) fun i hi =>
      congrArg (fun c : ℝ => (v.getD (24 + i) 0 : ℝ) * c)
        (cos_pi72_reduce i ((Finset.mem_range.1 hi).le.trans (by decide)))
    have h24 : Real.cos (24 * Unit.pi72.angle) = 1 / 2 := by
      rw [← Real.cos_pi_div_three, Unit.angle]
      congr 1
      ring
    rw [cosSum_eq_sum 0 v, hv, cosSum_eq_sum 0 (doubled _ _), hlen, Unit.right,
      show Finset.range 36 = Finset.range (24 + 12) from rfl, Finset.sum_range_add _ 24 12]
    simp only [Nat.zero_add]
    rw [hhigh, Finset.sum_range_succ', hlow, hzero]
    norm_num [Finset.sum_range_succ, h24]
    ring

/-! ### The enclosures -/

/-- What `slack` bounds: each entry but the first may be off by 2. -/
theorem dot_error {θ : ℝ} {p : ℕ} {v t : List ℤ} {i : ℕ} (hlen : v.length ≤ t.length)
    (ht : ∀ (j : ℕ) (x : ℤ), t[j]? = some x → |(x : ℝ) - 2 ^ p * Real.cos ((i + j : ℕ) * θ)| ≤ 2) :
    |(dot v t : ℝ) - 2 ^ p * cosSum θ i v| ≤ 2 * ((v.map fun b => (b.natAbs : ℤ)).sum : ℤ) := by
  induction v generalizing t i with
  | nil => simp [dot, cosSum]
  | cons b v ih =>
    cases t with
    | nil => simp at hlen
    | cons x t =>
      have hhead := ht 0 x rfl
      have htail := ih (t := t) (i := i + 1) (by simpa using hlen) fun j y hy => by
        rw [Nat.add_assoc, Nat.add_comm 1]
        exact ht (j + 1) y hy
      rw [Nat.add_zero] at hhead
      have hterm : |(b : ℝ) * (x - 2 ^ p * Real.cos (i * θ))| ≤ 2 * (b.natAbs : ℝ) := by
        rw [abs_mul, Nat.cast_natAbs, Int.cast_abs, mul_comm]
        exact mul_le_mul_of_nonneg_right hhead (abs_nonneg _)
      have hsplit : (dot (b :: v) (x :: t) : ℝ) - 2 ^ p * cosSum θ i (b :: v) =
          b * (x - 2 ^ p * Real.cos (i * θ)) + (dot v t - 2 ^ p * cosSum θ (i + 1) v) := by
        rw [dot, cosSum]
        push_cast
        ring
      rw [hsplit, List.map_cons, List.sum_cons, Int.cast_add, Int.cast_natCast, mul_add]
      exact (abs_add_le _ _).trans (add_le_add hterm htail)

/-- The value of a form, scaled by 2^p, lies within the slack of the table's sum. -/
theorem dot_cosTable_error {u : Unit} {v : List ℤ} (hv : v.length ≤ u.right) (p : ℕ) :
    |(dot v (cosTable u p) : ℝ) - 2 ^ p * cosSum u.angle 0 v| ≤ slack v := by
  cases v with
  | nil => simp [dot, cosSum, slack]
  | cons b v =>
    obtain ⟨t, ht⟩ : ∃ t, cosTable u p = 2 ^ p :: t := ⟨_, rfl⟩
    have htail (j : ℕ) (x : ℤ) (hx : t[j]? = some x) :
        |(x : ℝ) - 2 ^ p * Real.cos ((0 + 1 + j : ℕ) * u.angle)| ≤ 2 := by
      rw [Nat.zero_add, Nat.add_comm]
      exact cosTable_error (by rw [ht, List.getElem?_cons_succ, hx])
    have hlen : v.length ≤ t.length := by
      have := length_cosTable u p
      rw [ht, List.length_cons] at this
      rw [List.length_cons] at hv
      omega
    have herr := dot_error hlen htail
    have hsplit : (dot (b :: v) (2 ^ p :: t) : ℝ) - 2 ^ p * cosSum u.angle 0 (b :: v) =
        dot v t - 2 ^ p * cosSum u.angle (0 + 1) v := by
      rw [dot, cosSum, Nat.cast_zero, zero_mul, Real.cos_zero]
      push_cast
      ring
    rw [ht, hsplit, slack, Int.cast_mul, Int.cast_ofNat]
    exact herr

/-! ### Rounding an enclosed value -/

/-- Between two values that round to one magnitude every value does. -/
theorem NearestMagnitude.between {a b x : ℝ} {n : ℕ} (ha : NearestMagnitude a n) (hb : NearestMagnitude b n)
    (hax : a ≤ x) (hxb : x ≤ b) : NearestMagnitude x n := by
  refine ⟨fun hx => hb.1 (hx.trans_le hxb), fun hx => ?_⟩
  obtain ⟨hn, hbelow, -⟩ := ha.2 (hax.trans hx)
  have hb' : b ≤ maxReal := not_lt.1 fun h => hn.ne (hb.1 h)
  obtain ⟨-, -, habove⟩ := hb.2 hb'
  refine ⟨hn, fun hpos => ?_, fun hlast => ?_⟩
  · obtain ⟨hle, heven⟩ := hbelow hpos
    exact ⟨hle.trans hax, fun h => heven (le_antisymm hle (h ▸ hax))⟩
  · obtain ⟨hle, heven⟩ := habove hlast
    exact ⟨hxb.trans hle, fun h => heven (le_antisymm hle (h ▸ hxb))⟩

/-- A value's rounding has the magnitude nearest to it, also where it is 0. -/
theorem RoundsTo.nearestMagnitude {x : ℝ} {w : Word} (h : RoundsTo x w) : NearestMagnitude |x| (w.toNat % 2 ^ 31) := by
  rcases eq_or_ne x 0 with rfl | hx
  · rw [h.1 rfl, abs_zero, ← magnitude_zero]
    exact nearestMagnitude_self (by norm_num)
  · exact (h.2 hx).2

/-- Only a negative value rounds to a word with its sign bit set. -/
theorem RoundsTo.isNeg_iff {x : ℝ} {w : Word} (h : RoundsTo x w) : isNeg w = true ↔ x < 0 := by
  rcases eq_or_ne x 0 with rfl | hx
  · rw [h.1 rfl]
    exact iff_of_false (by decide) (lt_irrefl 0)
  · exact (h.2 hx).1

/-- Between two values that round to one word every value does. -/
theorem RoundsTo.between {a b x : ℝ} {w : Word} (ha : RoundsTo a w) (hb : RoundsTo b w) (hax : a ≤ x) (hxb : x ≤ b) :
    RoundsTo x w := by
  have hsign : a < 0 ↔ b < 0 := ha.isNeg_iff.symm.trans hb.isNeg_iff
  have hna := ha.nearestMagnitude
  have hnb := hb.nearestMagnitude
  rcases lt_or_ge a 0 with hneg | hpos
  · have hb0 : b < 0 := hsign.1 hneg
    have hx0 : x < 0 := hxb.trans_lt hb0
    rw [abs_of_neg hneg] at hna
    rw [abs_of_neg hb0] at hnb
    refine ⟨fun hx => absurd hx hx0.ne, fun _ => ⟨iff_of_true (ha.isNeg_iff.2 hneg) hx0, ?_⟩⟩
    rw [abs_of_neg hx0]
    exact hnb.between hna (neg_le_neg hxb) (neg_le_neg hax)
  · have hx0 : 0 ≤ x := hpos.trans hax
    have hnot : ¬isNeg w = true := fun h => absurd (ha.isNeg_iff.1 h) (not_lt.2 hpos)
    rw [abs_of_nonneg hpos] at hna
    rw [abs_of_nonneg (hx0.trans hxb)] at hnb
    refine ⟨fun hx => ha.1 (le_antisymm (hx ▸ hax) hpos), fun _ => ⟨iff_of_false hnot (not_lt.2 hx0), ?_⟩⟩
    rw [abs_of_nonneg hx0]
    exact hna.between hnb hax hxb

/-! ### A form's rounding -/

/-- Where both ends of the enclosure round to one word, the value does. -/
theorem roundsTo_roundAt {u : Unit} {v : List ℤ} (hv : v.length ≤ u.right) {p : ℕ} {w : Word}
    (h : roundAt u v p = some w) : RoundsTo (cosSum u.angle 0 v / 2 ^ 151) w := by
  have hends : roundFix (p + 2) (dot v (cosTable u p) - slack v) = w ∧
      roundFix (p + 2) (dot v (cosTable u p) + slack v) = w := by
    unfold roundAt at h
    dsimp only at h
    split at h
    next heq =>
      obtain rfl := Option.some.inj h
      exact ⟨rfl, heq.symm⟩
    next => cases h
  obtain ⟨hlo, hhi⟩ := hends
  have hlo := hlo ▸ roundsTo_roundFix (by omega : 1 ≤ p + 2) (dot v (cosTable u p) - slack v)
  have hhi := hhi ▸ roundsTo_roundFix (by omega : 1 ≤ p + 2) (dot v (cosTable u p) + slack v)
  obtain ⟨hbelow, habove⟩ := abs_le.1 (dot_cosTable_error hv p)
  have hscale : cosSum u.angle 0 v / 2 ^ 151 = 2 ^ p * cosSum u.angle 0 v / 2 ^ (149 + (p + 2)) := by
    rw [show 149 + (p + 2) = p + 151 by omega, pow_add, mul_div_mul_left _ _ (by positivity)]
  rw [hscale]
  refine hlo.between hhi ?_ ?_
  · gcongr
    push_cast
    linarith
  · gcongr
    push_cast
    linarith

/-- Without an irrational part the value is the first entry. -/
theorem cosSum_of_tail_zero {θ : ℝ} {v : List ℤ} (h : v.tail.all (fun b => decide (b = 0)) = true) :
    cosSum θ 0 v = (v.headD 0 : ℝ) := by
  cases v with
  | nil => simp [cosSum]
  | cons b v =>
    have hzero : v = List.replicate v.length 0 :=
      List.eq_replicate_of_mem fun c hc => by simpa using List.all_eq_true.1 h c hc
    rw [cosSum, hzero, cosSum_replicate_zero]
    simp

theorem roundsTo_roundCos {u : Unit} {v : List ℤ} (hv : v.length ≤ u.right) {w : Word} (h : roundCos u v = some w) :
    RoundsTo (cosSum u.angle 0 v / 2 ^ 151) w := by
  unfold roundCos at h
  split at h
  next hrat =>
    rw [cosSum_of_tail_zero hrat, ← Option.some.inj h]
    exact roundsTo_roundFix (k := 2) (by norm_num) (v.headD 0)
  next =>
    obtain ⟨p, -, hp⟩ := List.exists_of_findSome?_eq_some h
    exact roundsTo_roundAt hv hp

/-- The value of a form's entries, on which `roundCos` works: twice its own. -/
theorem cosSum_form (u : Unit) (ts : List (Word × List CosTerm)) :
    (doubled u (coefficients u.right ts (List.replicate u.right 0))).length ≤ u.right ∧
    cosSum u.angle 0 (doubled u (coefficients u.right ts (List.replicate u.right 0))) = 2 * formValue u.angle ts := by
  obtain ⟨hlen, hsum⟩ := coefficients_spec u.right_mul_angle ts (List.length_replicate (n := u.right) (a := (0 : ℤ)))
  refine ⟨length_doubled_le hlen, ?_⟩
  rw [cosSum_doubled hlen, hsum, cosSum_replicate_zero, zero_add]

/-- R13: a form that is given a word has the value that the word rounds, in units of 2^−150. -/
theorem roundsTo_roundForm {u : Unit} {ts : List (Word × List CosTerm)} {w : Word} (h : roundForm u ts = some w) :
    RoundsTo (formValue u.angle ts / 2 ^ 150) w := by
  obtain ⟨hlen, hsum⟩ := cosSum_form u ts
  unfold roundForm at h
  split at h
  next =>
    have hround := roundsTo_roundCos hlen h
    rwa [hsum, pow_succ' (2 : ℝ) 150, mul_div_mul_left _ _ two_ne_zero] at hround
  next => cases h

/-- A form of finite inputs is given a word unless no precision decides it (log entry 12). -/
theorem roundForm_some_or_undecided {u : Unit} {ts : List (Word × List CosTerm)}
    (h : ∀ t ∈ ts, isFinite t.1 = true) : (∃ w, roundForm u ts = some w) ∨ Undecided u ts := by
  rw [roundForm, if_pos (List.all_eq_true.2 h), roundCos]
  split
  next => exact .inl ⟨_, rfl⟩
  next =>
    cases hfind : precisions.findSome? (roundAt u (doubled u (coefficients u.right ts (List.replicate u.right 0)))) with
    | some w => exact .inl ⟨w, rfl⟩
    | none => exact .inr (List.findSome?_eq_none_iff.1 hfind)

end Sys2Proof.Machine
end

section
/-! PROOFS. IMDCT's values in REF32 (R13, R310–R316): the rows of each output sum to twice its reference value. Settles
O50. -/

namespace Sys2Proof.Machine

/-! ### The windows (R311) -/

/-- The value of a window coefficient. -/
noncomputable def WinCoeff.value : WinCoeff → ℝ
  | .zero => 0
  | .one => 1
  | .sin b => Real.sin (b * Unit.pi72.angle)

/-- The angle of a window coefficient is at most 450 degrees, for which `windowed` has its turn added. -/
def WinCoeff.InRange (c : WinCoeff) : Prop := ∀ b, c = .sin b → b ≤ 180

/-- cos A·sin B as the two cosines of its row. -/
theorem rowValue_windowed (a : ℕ) {c : WinCoeff} (hc : c.InRange) :
    rowValue Unit.pi72.angle (windowed a c) = 2 * (Real.cos (a * Unit.pi72.angle) * c.value) := by
  cases c with
  | zero => simp [windowed, WinCoeff.value]
  | one => simp [windowed, WinCoeff.value]
  | sin b =>
    have hsum : Real.cos ((a + b + 108 : ℕ) * Unit.pi72.angle) =
        Real.sin (a * Unit.pi72.angle + b * Unit.pi72.angle) := by
      rw [← Real.cos_sub_pi_div_two, ← Real.cos_add_two_pi (_ - _), Unit.angle]
      congr 1
      push_cast
      ring
    have hdiff : Real.cos ((a + 180 - b : ℕ) * Unit.pi72.angle) =
        -Real.sin (a * Unit.pi72.angle - b * Unit.pi72.angle) := by
      rw [← Real.cos_add_pi_div_two, ← Real.cos_add_two_pi (_ + _), Nat.cast_sub ((hc b rfl).trans (by omega)),
        Unit.angle]
      congr 1
      push_cast
      ring
    rw [windowed, rowValue_cons, rowValue_cons, rowValue_nil, hsum, hdiff, WinCoeff.value, Real.sin_add, Real.sin_sub]
    push_cast
    ring

theorem inRange_sin {b : ℕ} (hb : b ≤ 180) : (WinCoeff.sin b).InRange := fun _ h => WinCoeff.sin.inj h ▸ hb

theorem inRange_longWindow (wt : BitVec 2) {i : ℕ} (hi : i < 36) : (longWindow wt i).InRange := by
  unfold longWindow
  split_ifs
  · exact inRange_sin (by omega)
  · exact nofun
  · exact inRange_sin (by omega)
  · exact nofun
  · exact nofun
  · exact inRange_sin (by omega)
  · exact nofun
  · exact inRange_sin (by omega)
  · exact inRange_sin (by omega)

/-- The window's value at an angle of 2j + 1 halves of π/36, and of π/12. -/
theorem value_sin_long (i : ℕ) : (WinCoeff.sin (2 * i + 1)).value = Real.sin (Real.pi / 36 * (i + 1 / 2)) := by
  rw [WinCoeff.value, Unit.angle]
  congr 1
  push_cast
  ring

theorem value_sin_short (i : ℕ) : (WinCoeff.sin (3 * (2 * i + 1))).value = win2Real i := by
  rw [WinCoeff.value, Unit.angle, win2Real]
  congr 1
  push_cast
  ring

theorem value_longWindow (wt : BitVec 2) (i : ℕ) : (longWindow wt i).value = winReal wt i := by
  unfold longWindow winReal
  split_ifs
  · exact value_sin_long i
  · rfl
  · rw [value_sin_short, win2Real, Nat.cast_sub (by omega)]
    rfl
  · rfl
  · rfl
  · rw [value_sin_short, win2Real, Nat.cast_sub (by omega)]
    rfl
  · rfl
  · exact value_sin_long i
  · exact value_sin_long i

/-! ### The forms (R310, R314, R315, R316) -/

theorem formValue_map {θ : ℝ} {α : Type} (l : List α) (f : α → Word × List CosTerm) :
    formValue θ (l.map f) = (l.map fun a => (fix (f a).1 : ℝ) * rowValue θ (f a).2).sum := by
  rw [formValue, List.map_map]
  rfl

theorem formValue_flatMap {θ : ℝ} {α : Type} (l : List α) (f : α → List (Word × List CosTerm)) :
    formValue θ (l.flatMap f) = (l.map fun a => formValue θ (f a)).sum := by
  induction l with
  | nil => rfl
  | cons a l ih =>
    rw [List.flatMap_cons, List.map_cons, List.sum_cons, ← ih]
    simp only [formValue, List.map_append, List.sum_append]

theorem sum_map_range (n : ℕ) (f : ℕ → ℝ) : ((List.range n).map f).sum = ∑ k ∈ Finset.range n, f k := rfl

/-- A row of an input and a window coefficient, in units of 2^−150. -/
theorem windowed_term (x : List Word) (j a : ℕ) {c : WinCoeff} (hc : c.InRange) :
    (fix (x.getD j 0#32) : ℝ) * rowValue Unit.pi72.angle (windowed a c) =
      2 ^ 150 * (cellReal x j * Real.cos (a * Unit.pi72.angle) * c.value) := by
  rw [rowValue_windowed a hc, cellReal, val32]
  field_simp

theorem formValue_longTerms (x : List Word) (wt : BitVec 2) {i : ℕ} (hi : i < 36) :
    formValue Unit.pi72.angle (longTerms x wt i) = 2 ^ 150 * ((∑ k ∈ Finset.range 18, cellReal x k *
      Real.cos (Real.pi / 72 * (2 * i + 19) * (2 * k + 1))) * winReal wt i) := by
  rw [longTerms, formValue_map, sum_map_range, Finset.sum_mul, Finset.mul_sum]
  refine Finset.sum_congr rfl fun k _ => ?_
  have hangle : (((2 * i + 19) * (2 * k + 1) : ℕ) : ℝ) * Unit.pi72.angle =
      Real.pi / 72 * (2 * i + 19) * (2 * k + 1) := by
    rw [Unit.angle]
    push_cast
    ring
  rw [longRow, windowed_term x k _ (inRange_longWindow wt hi), hangle, value_longWindow]

theorem formValue_shortWindow (x : List Word) (w : ℕ) {j : ℕ} (hj : j < 12) :
    formValue Unit.pi72.angle ((List.range 6).map fun k => (x.getD (3 * k + w) 0#32, shortRow j k)) =
      2 ^ 150 * ((∑ k ∈ Finset.range 6, cellReal x (3 * k + w) *
        Real.cos (Real.pi / 24 * (2 * (j : ℝ) + 7) * (2 * k + 1))) * win2Real j) := by
  rw [formValue_map, sum_map_range, Finset.sum_mul, Finset.mul_sum]
  refine Finset.sum_congr rfl fun k _ => ?_
  have hangle : ((3 * (2 * j + 7) * (2 * k + 1) : ℕ) : ℝ) * Unit.pi72.angle =
      Real.pi / 24 * (2 * j + 7) * (2 * k + 1) := by
    rw [Unit.angle]
    push_cast
    ring
  rw [shortRow, shortWindow, windowed_term x _ _ (inRange_sin (by omega)), hangle, value_sin_short]

theorem formValue_shortTerms (x : List Word) (i : ℕ) :
    formValue Unit.pi72.angle (shortTerms x i) = 2 ^ 150 * ∑ w ∈ Finset.range 3,
      if 6 + 6 * w ≤ i ∧ i < 18 + 6 * w then
        (∑ k ∈ Finset.range 6, cellReal x (3 * k + w) *
          Real.cos (Real.pi / 24 * (2 * ((i - 6 - 6 * w : ℕ) : ℝ) + 7) * (2 * k + 1))) * win2Real (i - 6 - 6 * w)
      else 0 := by
  rw [shortTerms, formValue_flatMap, sum_map_range, Finset.mul_sum]
  refine Finset.sum_congr rfl fun w _ => ?_
  split_ifs
  · exact formValue_shortWindow x w (by omega)
  · rw [formValue_nil, mul_zero]

/-- R310: the terms of z[i] sum to it, in units of 2^−150. -/
theorem formValue_blockTerms (x : List Word) (wt : BitVec 2) {i : ℕ} (hi : i < 36) :
    formValue Unit.pi72.angle (blockTerms x wt i) = 2 ^ 150 * blockReal x wt i := by
  unfold blockTerms blockReal
  split_ifs
  · exact formValue_shortTerms x i
  · exact formValue_longTerms x wt hi

theorem rowValue_neg (θ : ℝ) (row : List CosTerm) :
    rowValue θ (row.map fun c => (-c.1, c.2)) = -rowValue θ row := by
  induction row with
  | nil => simp
  | cons c row ih =>
    rw [List.map_cons, rowValue_cons, rowValue_cons, ih]
    push_cast
    ring

theorem formValue_negateTerms (θ : ℝ) (neg : Bool) (ts : List (Word × List CosTerm)) :
    formValue θ (negateTerms neg ts) = (if neg then -1 else 1) * formValue θ ts := by
  cases neg with
  | false => simp [negateTerms]
  | true =>
    simp only [negateTerms, if_true]
    induction ts with
    | nil => simp
    | cons t ts ih =>
      rw [List.map_cons, formValue_cons, formValue_cons, ih, rowValue_neg]
      ring

/-- R316: the terms of Y[t] sum to it, in units of 2^−150. -/
theorem formValue_outputTerms (x o : List Word) (wt : BitVec 2) (sb : ℕ) {t : ℕ} (ht : t < 18) :
    formValue Unit.pi72.angle (outputTerms x o wt sb t) = 2 ^ 150 * outputReal x o wt sb t := by
  have hover : (fix (o.getD t 0#32) : ℝ) * rowValue Unit.pi72.angle [(2, 0)] = 2 ^ 150 * cellReal o t := by
    rw [rowValue_cons, rowValue_nil, Nat.cast_zero, zero_mul, Real.cos_zero, cellReal, val32]
    push_cast
    field_simp
    ring
  rw [outputTerms, formValue_negateTerms, formValue_cons, hover, formValue_blockTerms x wt (by omega), outputReal]
  simp only [inverted, Bool.and_eq_true, decide_eq_true_eq]
  ring

/-! ### The inputs of a form -/

section inputs

variable {P : Word → Prop} {x o : List Word}

/-- What holds of the inputs and of the word 0 holds of every entry that a form takes. -/
theorem getD_of_forall (h0 : P 0#32) (hx : ∀ v ∈ x, P v) (k : ℕ) : P (x.getD k 0#32) := by
  rw [List.getD_eq_getElem?_getD]
  cases h : x[k]? with
  | none => exact h0
  | some v => exact hx v (List.mem_of_getElem? h)

theorem blockTerms_inputs (h0 : P 0#32) (hx : ∀ v ∈ x, P v) (wt : BitVec 2) (i : ℕ) :
    ∀ t ∈ blockTerms x wt i, P t.1 := by
  intro t ht
  unfold blockTerms at ht
  split at ht
  · obtain ⟨w, -, ht⟩ := List.mem_flatMap.1 ht
    split at ht
    · obtain ⟨k, -, rfl⟩ := List.mem_map.1 ht
      exact getD_of_forall h0 hx _
    · cases ht
  · obtain ⟨k, -, rfl⟩ := List.mem_map.1 ht
    exact getD_of_forall h0 hx k

theorem negateTerms_inputs {neg : Bool} {ts : List (Word × List CosTerm)} (h : ∀ t ∈ ts, P t.1) :
    ∀ t ∈ negateTerms neg ts, P t.1 := by
  cases neg with
  | false => exact h
  | true =>
    intro t ht
    obtain ⟨t', ht', rfl⟩ := List.mem_map.1 ht
    exact h t' ht'

theorem outputTerms_inputs (h0 : P 0#32) (hx : ∀ v ∈ x, P v) (ho : ∀ v ∈ o, P v) (wt : BitVec 2) (sb i : ℕ) :
    ∀ t ∈ outputTerms x o wt sb i, P t.1 :=
  negateTerms_inputs (List.forall_mem_cons.2 ⟨getD_of_forall h0 ho i, blockTerms_inputs h0 hx wt i⟩)

end inputs

/-! ### The outputs -/

theorem roundsTo_imdct_output {x o : List Word} {wt : BitVec 2} {sb t : ℕ} (ht : t < 18) {w : Word}
    (h : (ref32Imdct x o wt sb).1 t = some w) : RoundsTo (outputReal x o wt sb t) w := by
  have hround := roundsTo_roundForm h
  rwa [formValue_outputTerms x o wt sb ht, mul_div_cancel_left₀ _ (by positivity)] at hround

theorem roundsTo_imdct_overlap {x o : List Word} {wt : BitVec 2} {sb t : ℕ} (ht : t < 18) {w : Word}
    (h : (ref32Imdct x o wt sb).2 t = some w) : RoundsTo (blockReal x wt (18 + t)) w := by
  have hround := roundsTo_roundForm h
  rwa [formValue_blockTerms x wt (by omega), mul_div_cancel_left₀ _ (by positivity)] at hround

/-- Settles O50: each output is the form of its reference value, of finite inputs where x and o are finite. -/
theorem imdctValuesAreRoundedOnce : Obligations.ImdctValuesAreRoundedOnce := by
  intro x o wt sb t _ _ ht
  refine ⟨fun w => roundsTo_imdct_output ht, fun w => roundsTo_imdct_overlap ht, fun hfin => ?_⟩
  obtain ⟨hx, ho⟩ := List.forall_mem_append.1 hfin
  exact ⟨roundForm_some_or_undecided (outputTerms_inputs (by decide) hx ho wt sb t),
    roundForm_some_or_undecided (blockTerms_inputs (by decide) hx wt (18 + t))⟩

end Sys2Proof.Machine
end

section
/-! PROOFS. IMDCT on a zero spectrum in REF32 (R310, R316, R318): the block is 0, so that each form is rational and its one
rounding exact. Settles O51. -/

namespace Sys2Proof.Machine

/-! ### Values that binary32 holds -/

/-- A finite magnitude is the one magnitude nearest to itself. -/
theorem NearestMagnitude.eq_of_magnitude {n m : ℕ} (hn : n < 255 * 2 ^ 23) (h : NearestMagnitude (magnitude n) m) :
    m = n := by
  obtain ⟨-, hbelow, habove⟩ := h.2 (magnitude_le_maxReal hn)
  rcases lt_trichotomy m n with hlt | heq | hgt
  · obtain ⟨hle, -⟩ := habove (by omega)
    have hnext : magnitude (m + 1) ≤ magnitude n := magnitude_strictMono.monotone hlt
    exact absurd (hnext.trans hle) (not_le.2 (midpoint_lt_magnitude m))
  · exact heq
  · obtain ⟨hle, -⟩ := hbelow (by omega)
    have hprev : magnitude n ≤ magnitude (m - 1) := magnitude_strictMono.monotone (by omega)
    have hmid := magnitude_lt_midpoint (m - 1)
    rw [midpoint, Nat.sub_add_cancel (by omega)] at hmid
    exact absurd (hle.trans hprev) (not_le.2 hmid)

/-- A value of a finite magnitude is the value of the word that it rounds to. -/
theorem RoundsTo.exact {x : ℝ} {w : Word} {n : ℕ} (h : RoundsTo x w) (hn : n < 255 * 2 ^ 23) (hx : |x| = magnitude n) :
    isFinite w = true ∧ val32 w = x := by
  have hnear := h.nearestMagnitude
  rw [hx] at hnear
  have hbits := hnear.eq_of_magnitude hn
  have habs : |val32 w| = |x| := by rw [abs_val32_eq_magnitude, hbits, hx]
  refine ⟨(isFinite_iff w).2 (hbits ▸ hn), ?_⟩
  rw [abs_val32] at habs
  cases hneg : isNeg w with
  | true => rw [val32_of_neg hneg, habs, abs_of_neg (h.isNeg_iff.1 hneg), neg_neg]
  | false =>
    have hnonneg : 0 ≤ x := not_lt.1 fun hlt => Bool.false_ne_true (hneg.symm.trans (h.isNeg_iff.2 hlt))
    rw [val32_of_nonneg hneg, habs, abs_of_nonneg hnonneg]

/-- A finite word's value rounds to a word of the same value, and so does its negative. -/
theorem RoundsTo.fix_eq {v w : Word} {σ : ℤ} (hσ : |σ| = 1) (hv : isFinite v = true)
    (h : RoundsTo ((σ : ℝ) * val32 v) w) : isFinite w = true ∧ fix w = σ * fix v := by
  have habs : |(σ : ℝ) * val32 v| = magnitude (v.toNat % 2 ^ 31) := by
    rw [abs_mul, ← Int.cast_abs, hσ, Int.cast_one, one_mul, abs_val32_eq_magnitude]
  obtain ⟨hfin, hval⟩ := h.exact ((isFinite_iff v).1 hv) habs
  refine ⟨hfin, ?_⟩
  rw [val32, val32, ← mul_div_assoc, div_left_inj' (by positivity)] at hval
  exact_mod_cast hval

/-! ### Forms of zeros -/

/-- An input that is a finite zero, +0.0 or −0.0. -/
def IsZero (v : Word) : Prop := isFinite v = true ∧ fix v = 0

theorem coefficients_of_zero {h : ℕ} {ts : List (Word × List CosTerm)} (hz : ∀ t ∈ ts, IsZero t.1) (v : List ℤ) :
    coefficients h ts v = v := by
  induction ts generalizing v with
  | nil => rfl
  | cons t ts ih =>
    obtain ⟨w, row⟩ := t
    obtain ⟨⟨-, hw⟩, hz⟩ := List.forall_mem_cons.1 hz
    rw [coefficients, if_pos hw, ih hz]

/-- A form of zeros is +0.0. -/
theorem roundForm_of_zero (u : Unit) {ts : List (Word × List CosTerm)} (hz : ∀ t ∈ ts, IsZero t.1) :
    roundForm u ts = some 0#32 := by
  rw [roundForm, if_pos (List.all_eq_true.2 fun t ht => (hz t ht).1), coefficients_of_zero hz]
  cases u
  · rfl
  · rfl

/-- A form of zeros but for one finite input with an integer factor is rational, and so is given a word. -/
theorem roundForm_cons_isSome {v : Word} {c : ℤ} {ts : List (Word × List CosTerm)} (hv : isFinite v = true)
    (hz : ∀ t ∈ ts, IsZero t.1) : ∃ w, roundForm .pi72 ((v, [(c, 0)]) :: ts) = some w := by
  have hfin : ∀ t ∈ (v, [(c, 0)]) :: ts, isFinite t.1 = true :=
    List.forall_mem_cons.2 ⟨hv, fun t ht => (hz t ht).1⟩
  have hcoeff : ∃ a, coefficients Unit.pi72.right ((v, [(c, 0)]) :: ts) (List.replicate Unit.pi72.right 0) =
      a :: List.replicate 35 0 := by
    rw [coefficients, coefficients_of_zero hz]
    split
    · exact ⟨0, rfl⟩
    · exact ⟨_, rfl⟩
  obtain ⟨a, ha⟩ := hcoeff
  rw [roundForm, if_pos (List.all_eq_true.2 hfin), ha]
  exact ⟨_, if_pos rfl⟩

/-! ### IMDCT's outputs -/

section outputs

variable {x o : List Word} {wt : BitVec 2} {sb t : ℕ} (hx : ∀ v ∈ x, IsZero v)

include hx

/-- R310: z = 0. -/
theorem imdct_overlap_of_zero : (ref32Imdct x o wt sb).2 t = some 0#32 :=
  roundForm_of_zero .pi72 (blockTerms_inputs ⟨by decide, by decide⟩ hx wt (18 + t))

theorem outputReal_of_zero : outputReal x o wt sb t =
    ((if sb % 2 = 1 ∧ t % 2 = 1 then -1 else 1 : ℤ) : ℝ) * val32 (o.getD t 0#32) := by
  have hcell (k : ℕ) : cellReal x k = 0 := by
    obtain ⟨-, hfix⟩ := getD_of_forall (P := IsZero) ⟨by decide, by decide⟩ hx k
    rw [cellReal, val32, hfix, Int.cast_zero, zero_div]
  have hblock : blockReal x wt t = 0 := by simp [blockReal, hcell]
  rw [outputReal, hblock, zero_add, cellReal]
  push_cast
  rfl

/-- R316: Y[t] is the old overlap entry, negated at odd t of odd sb. -/
theorem imdct_output_of_zero (ht : t < 18) (ho : isFinite (o.getD t 0#32) = true) :
    ∃ w, (ref32Imdct x o wt sb).1 t = some w ∧ isFinite w = true ∧
      fix w = (if sb % 2 = 1 ∧ t % 2 = 1 then -1 else 1) * fix (o.getD t 0#32) := by
  have hzero := blockTerms_inputs (P := IsZero) ⟨by decide, by decide⟩ hx wt t
  have hsome : ∃ w, (ref32Imdct x o wt sb).1 t = some w := by
    show ∃ w, roundForm .pi72 (outputTerms x o wt sb t) = some w
    unfold outputTerms
    cases inverted sb t with
    | false => exact roundForm_cons_isSome ho hzero
    | true => exact roundForm_cons_isSome ho (negateTerms_inputs (neg := true) hzero)
  obtain ⟨w, hw⟩ := hsome
  have hround := roundsTo_imdct_output ht hw
  rw [outputReal_of_zero hx] at hround
  exact ⟨w, hw, hround.fix_eq (by split <;> rfl) ho⟩

end outputs

/-! ### The command -/

/-- The 18 cells of subband sb, read as a block. -/
theorem exists_subband {n : ℕ} {d : Option (BitVec n)} {m : Store n} (hm : Store.Rising m) {sb : ℕ}
    (h : ∀ k, k < 18 → (Store.get d m (18 * sb + k)).isSome) : ∃ vs, vs.length = 18 ∧ Holds d m (18 * sb) vs := by
  obtain ⟨vs, hvs⟩ := Store.block_isSome hm h
  exact ⟨vs, (Store.block_eq_some_iff hm).1 hvs⟩

/-- What holds of each cell's value holds of the values listed. -/
theorem forall_mem_of_holds {n base : ℕ} {d : Option (BitVec n)} {m : Store n} {vs : List (BitVec n)}
    {P : BitVec n → Prop} (h : Holds d m base vs)
    (hP : ∀ k v, k < vs.length → Store.get d m (base + k) = some v → P v) : ∀ v ∈ vs, P v := by
  intro v hv
  obtain ⟨k, hk, rfl⟩ := List.getElem_of_mem hv
  exact hP k _ hk (h k hk)

/-- Settles O51: each subband's outputs are those on a zero spectrum. -/
theorem zeroSpectrumFlushesOverlap : Obligations.ZeroSpectrumFlushesOverlap := by
  intro s ch hinv hzero hfin
  obtain ⟨hs, -⟩ := inv_iff.1 hinv
  obtain ⟨-, -, -, -, -, hchan⟩ := memoryWf_iff.1 hs
  obtain ⟨hxr, hovl, -⟩ := channel_memoryWf_iff.1 (hchan ch)
  have hwritten : Store.written (s.chan ch).xr 576 := fun a ha => by
    obtain ⟨v, hv, -⟩ := hzero a ha
    exact Option.isSome_iff_exists.2 ⟨v, hv⟩
  obtain ⟨xs, os, hexec, hcells⟩ := execImdct_transforms hs hwritten
  have hsub (sb : ℕ) (hsb : sb < 32) : ∃ x o : List Word, x.length = 18 ∧ o.length = 18 ∧
      Holds unspecified (s.chan ch).xr (18 * sb) x ∧ Holds ref32.zeroed (s.chan ch).ovl (18 * sb) o ∧
      ∀ v ∈ x, IsZero v := by
    obtain ⟨x, hxl, hx⟩ := exists_subband (Store.rising_of_wf hxr) fun k hk => hwritten (18 * sb + k) (by omega)
    obtain ⟨o, hob⟩ := Store.block_zeroed (s.chan ch).ovl (18 * sb) 18
    obtain ⟨hol, ho⟩ := (Store.block_eq_some_iff (Store.rising_of_wf hovl)).1 hob
    refine ⟨x, o, hxl, hol, hx, ho, forall_mem_of_holds hx fun k v hk hv => ?_⟩
    obtain ⟨v', hv', hz⟩ := hzero (18 * sb + k) (by omega)
    obtain rfl : v' = v := Option.some.inj (hv'.symm.trans hv)
    exact hz
  refine ⟨_, hexec, fun a => ?_, fun sb k v hsb hk hv => ?_⟩
  · by_cases ha : a < 576
    · obtain ⟨x, o, hxl, hol, hx, ho, hz⟩ := hsub (a / 18) (by omega)
      obtain ⟨-, n, -, hget⟩ := hcells (a / 18) (a % 18) x o (by omega) (by omega) hxl hol hx ho
      rw [Nat.div_add_mod] at hget
      rw [hget]
      exact congrArg (fun y => some (settled (N := ref32) n y)) (imdct_overlap_of_zero hz)
    · rw [imdctDone_ovl, Store.get_fill_not_mem (Store.rising_of_wf hovl) _ _ (by rw [length_ovlCells]; omega)]
      refine Store.get_of_not_mem fun e he => ?_
      have := ((Store.wf_iff.1 hovl).2 e he).1
      omega
  · obtain ⟨x, o, hxl, hol, hx, ho, hz⟩ := hsub sb hsb
    obtain ⟨n, -, hget, -⟩ := hcells sb k x o hsb hk hxl hol hx ho
    have hov : o.getD k 0#32 = v := by
      rw [List.getD_eq_getElem _ _ (hol ▸ hk)]
      exact Option.some.inj ((ho k (hol ▸ hk)).symm.trans hv)
    obtain ⟨w, hw, hwfin, hwfix⟩ := imdct_output_of_zero (wt := subbandType s.snap sb) (sb := sb) hz hk
      (hov ▸ hfin (18 * sb + k) v (by omega) hv)
    refine ⟨w, hget.trans ?_, hwfin, hov ▸ hwfix⟩
    exact congrArg (fun y => some (settled (N := ref32) n y)) hw

end Sys2Proof.Machine
end

section
/-! PROOFS. SYNTH's values in REF32 (R13, R350, R352, R355, R356) and the rounding of a clipped sample (R357): the terms of
each output sum to its reference value, and a sample's nearest integer is an integer quotient. Settles O54 and O57. -/

namespace Sys2Proof.Machine

/-! ### Clipped samples (R357) -/

theorem intCast_lt_ratCast_iff (n : ℤ) (r : ℚ) : (n : ℝ) < r ↔ n * (r.den : ℤ) < r.num := by
  rw [Rat.cast_def, lt_div_iff₀ (by exact_mod_cast r.den_pos)]
  exact_mod_cast Iff.rfl

theorem ratCast_lt_intCast_iff (n : ℤ) (r : ℚ) : (r : ℝ) < n ↔ r.num < n * (r.den : ℤ) := by
  rw [Rat.cast_def, div_lt_iff₀ (by exact_mod_cast r.den_pos)]
  exact_mod_cast Iff.rfl

theorem sign_ratCast (r : ℚ) : ((SignType.sign (r : ℝ) : SignType) : ℝ) = (r.num.sign : ℝ) := by
  rcases lt_trichotomy r 0 with h | rfl | h
  · rw [sign_neg (Rat.cast_lt_zero.2 h), Int.sign_eq_neg_one_of_neg (Rat.num_neg.2 h)]
    simp
  · simp
  · rw [sign_pos (Rat.cast_pos.2 h), Int.sign_eq_one_of_pos (Rat.num_pos.2 h)]
    simp

/-- The integer quotient in `pcm16` is ⌊|r| + ½⌋. -/
theorem floor_abs_add_half (r : ℚ) :
    ⌊|(r : ℝ)| + 1 / 2⌋ = (((2 * r.num.natAbs + r.den) / (2 * r.den) : ℕ) : ℤ) := by
  have hden : (r.den : ℝ) ≠ 0 := by exact_mod_cast r.den_pos.ne'
  have hquot : |(r : ℝ)| + 1 / 2 = ((2 * r.num.natAbs + r.den : ℕ) : ℝ) / (2 * r.den : ℕ) := by
    rw [Rat.cast_def, abs_div, Nat.abs_cast]
    push_cast [Nat.cast_natAbs]
    field_simp
  rw [hquot, Int.floor_div_natCast, Int.floor_natCast]
  rfl

/-- A sample in the 16-bit range is its sixteen bits' value. -/
theorem toInt_pcm16_sample {r : ℚ} (hlow : -32768 * (r.den : ℤ) ≤ r.num) (hhigh : r.num ≤ 32767 * (r.den : ℤ)) :
    (BitVec.ofInt 16 (r.num.sign * ((2 * r.num.natAbs + r.den) / (2 * r.den) : ℕ))).toInt =
      r.num.sign * ((2 * r.num.natAbs + r.den) / (2 * r.den) : ℕ) := by
  have hden := r.den_pos
  generalize hq : (2 * r.num.natAbs + r.den) / (2 * r.den) = q
  have hbound (b : ℕ) (hb : r.num.natAbs ≤ b * r.den) : q ≤ b := by
    rw [← hq, ← Nat.lt_succ_iff, Nat.div_lt_iff_lt_mul (by omega)]
    nlinarith
  rw [BitVec.toInt_ofInt]
  rcases lt_trichotomy r.num 0 with h | h | h
  · have := hbound 32768 (by omega)
    rw [Int.sign_eq_neg_one_of_neg h]
    exact Int.bmod_eq_of_le (by omega) (by omega)
  · rw [h, Int.sign_zero, zero_mul]
    rfl
  · have := hbound 32767 (by omega)
    rw [Int.sign_eq_one_of_pos h]
    exact Int.bmod_eq_of_le (by omega) (by omega)

/-- Settles O54: the three tests of `pcm16` are those of R357, on the numerator and the denominator. -/
theorem pcmSampleRounding : Obligations.PcmSampleRounding := by
  intro r x
  have hhigh : 32767 < x ↔ 32767 * (r.den : ℤ) < r.num := by
    rw [← intCast_lt_ratCast_iff, Int.cast_ofNat]
  have hlow : x < -32768 ↔ r.num < -32768 * (r.den : ℤ) := by
    rw [← ratCast_lt_intCast_iff, Int.cast_neg, Int.cast_ofNat]
  have hden := r.den_pos
  refine ⟨fun h => ?_, fun h => ?_, fun h1 h2 => ?_⟩
  · rw [pcm16, if_pos (hhigh.1 h)]
  · have := hlow.1 h
    rw [pcm16, if_neg (by omega), if_pos this]
  · have h1 := not_lt.1 (hlow.not.1 (not_lt.2 h1))
    have h2 := not_lt.1 (hhigh.not.1 (not_lt.2 h2))
    rw [pcm16, if_neg (not_lt.2 h2), if_neg (not_lt.2 h1)]
    refine ⟨rfl, ?_⟩
    rw [toInt_pcm16_sample h1 h2, sign_ratCast, floor_abs_add_half, Int.cast_mul]

/-! ### The forms of SYNTH (R350, R355) -/

theorem formValue_append (θ : ℝ) (ts us : List (Word × List CosTerm)) :
    formValue θ (ts ++ us) = formValue θ ts + formValue θ us := by
  simp only [formValue, List.map_append, List.sum_append]

/-- An input with one cosine, in units of 2^−149. -/
theorem single_term (θ : ℝ) (x : List Word) (k : ℕ) (c : ℤ) (m : ℕ) :
    (fix (x.getD k 0#32) : ℝ) * rowValue θ [(c, m)] = 2 ^ 149 * c * (Real.cos (m * θ) * cellReal x k) := by
  rw [rowValue_cons, rowValue_nil, cellReal, val32]
  field_simp
  ring

/-- The 32 subband samples with one factor: that many times Vn[i]. -/
theorem formValue_samples (sb : List Word) (c : ℤ) (i : ℕ) :
    formValue Unit.pi64.angle ((List.range 32).map fun k => (sb.getD k 0#32, [(c, (16 + i) * (2 * k + 1))])) =
      2 ^ 149 * c * matrixReal sb i := by
  rw [formValue_map, sum_map_range, matrixReal, Finset.mul_sum]
  refine Finset.sum_congr rfl fun k _ => ?_
  have hangle : (((16 + i) * (2 * k + 1) : ℕ) : ℝ) * Unit.pi64.angle = (16 + i) * (2 * k + 1) * Real.pi / 64 := by
    rw [Unit.angle]
    push_cast
    ring
  rw [single_term, hangle]

/-- R350: the terms of Vn[i] sum to it, in units of 2^−150. -/
theorem formValue_matrixTerms (sb : List Word) (i : ℕ) :
    formValue Unit.pi64.angle (matrixTerms sb i) = 2 ^ 150 * matrixReal sb i := by
  rw [matrixTerms, formValue_samples]
  push_cast
  ring

/-- Delay-line entries with a window coefficient each. -/
theorem formValue_entries (vo : List Word) (l : List ℕ) (m d : ℕ → ℕ) :
    formValue Unit.pi64.angle (l.map fun i => (vo.getD (m i) 0#32, [(synthD (d i), 0)])) =
      2 ^ 165 * (l.map fun i => cellReal vo (m i) * windowD (d i)).sum := by
  rw [formValue_map, ← List.sum_map_mul_left]
  refine congrArg List.sum (List.map_congr_left fun i _ => ?_)
  rw [single_term, Nat.cast_zero, zero_mul, Real.cos_zero, windowD]
  ring

/-- R355: V(m) of the first summand, a new entry at i = 0 and an old one from i = 1 on. -/
theorem sum_lineReal_first (sb vo : List Word) {j : ℕ} (hj : j < 32) :
    ∑ i ∈ Finset.range 8, lineReal sb vo (128 * i + j) * windowD (64 * i + j) = matrixReal sb j * windowD j +
      ((List.range' 1 7).map fun i => cellReal vo (128 * i + j - 64) * windowD (64 * i + j)).sum := by
  have hold (i : ℕ) : lineReal sb vo (128 * (i + 1) + j) = cellReal vo (128 * (i + 1) + j - 64) := if_neg (by omega)
  have hnew : lineReal sb vo (128 * 0 + j) = matrixReal sb j := by
    rw [Nat.mul_zero, Nat.zero_add]
    exact if_pos (by omega)
  rw [Finset.sum_range_succ', hnew, Nat.mul_zero, Nat.zero_add, add_comm, List.range'_eq_map_range, List.map_map,
    ← sum_map_range]
  simp only [hold, Function.comp_def, Nat.add_comm 1]

/-- R355: V(m) of the second summand, always an old entry. -/
theorem sum_lineReal_second (sb vo : List Word) (j : ℕ) :
    ∑ i ∈ Finset.range 8, lineReal sb vo (128 * i + 96 + j) * windowD (64 * i + 32 + j) =
      ((List.range 8).map fun i => cellReal vo (128 * i + 32 + j) * windowD (64 * i + 32 + j)).sum := by
  have hold (i : ℕ) : lineReal sb vo (128 * i + 96 + j) = cellReal vo (128 * i + 32 + j) := by
    rw [lineReal, if_neg (by omega), show 128 * i + 96 + j - 64 = 128 * i + 32 + j by omega]
  simp only [hold, sum_map_range]

/-- R355: the terms of y[j] sum to it, in units of 2^−150. -/
theorem formValue_windowTerms (sb vo : List Word) {j : ℕ} (hj : j < 32) :
    formValue Unit.pi64.angle (windowTerms sb vo j) = 2 ^ 150 * sampleReal sb vo j := by
  rw [windowTerms, formValue_append, formValue_append, formValue_samples, formValue_entries, formValue_entries,
    sampleReal, Finset.sum_add_distrib, sum_lineReal_first sb vo hj, sum_lineReal_second, windowD]
  ring

/-! ### The inputs of SYNTH's forms -/

section inputs

variable {P : Word → Prop} {sb vo : List Word} (h0 : P 0#32) (hs : ∀ v ∈ sb, P v)

include h0 hs

theorem matrixTerms_inputs (i : ℕ) : ∀ t ∈ matrixTerms sb i, P t.1 := by
  intro t ht
  obtain ⟨k, -, rfl⟩ := List.mem_map.1 ht
  exact getD_of_forall h0 hs k

theorem windowTerms_inputs (hv : ∀ v ∈ vo, P v) (j : ℕ) : ∀ t ∈ windowTerms sb vo j, P t.1 := by
  intro t ht
  rcases List.mem_append.1 ht with ht | ht
  · obtain ⟨k, -, rfl⟩ := List.mem_map.1 ht
    exact getD_of_forall h0 hs k
  · rcases List.mem_append.1 ht with ht | ht
    all_goals
      obtain ⟨i, -, rfl⟩ := List.mem_map.1 ht
      exact getD_of_forall h0 hv _

end inputs

/-! ### The outputs -/

theorem roundsTo_synth_line {sb vo : List Word} {i : ℕ} {w : Word} (h : (ref32Synth sb vo).1 i = some w) :
    RoundsTo (matrixReal sb i) w := by
  have hround := roundsTo_roundForm h
  rwa [formValue_matrixTerms, mul_div_cancel_left₀ _ (by positivity)] at hround

theorem roundsTo_synth_sample {sb vo : List Word} {j : ℕ} (hj : j < 32) {w : Word}
    (h : (ref32Synth sb vo).2 j = some w) : RoundsTo (sampleReal sb vo j) w := by
  have hround := roundsTo_roundForm h
  rwa [formValue_windowTerms sb vo hj, mul_div_cancel_left₀ _ (by positivity)] at hround

/-- Settles O57: each output is the form of its reference value, of finite inputs where S and Vo are finite. -/
theorem synthValuesAreRoundedOnce : Obligations.SynthValuesAreRoundedOnce := by
  intro sb vo _ _
  refine ⟨fun i w _ => roundsTo_synth_line, fun j w hj => roundsTo_synth_sample hj, fun hfin => ?_⟩
  obtain ⟨hs, hv⟩ := List.forall_mem_append.1 hfin
  exact ⟨fun i _ => roundForm_some_or_undecided (matrixTerms_inputs (by decide) hs i),
    fun j _ => roundForm_some_or_undecided (windowTerms_inputs (by decide) hs hv j)⟩

end Sys2Proof.Machine
end

section
/-! PROOFS. One step of SYNTH (R350–R359): the delay line before and after it, the cells and the marks of its samples, and
when it is refused. Settles O52, O53 and O55. -/

namespace Sys2Proof.Machine

variable {N : NumImpl} {s t : State N} {ch : BitVec 1} {p : Params} {k j slot : Nat} {sb vo : List N.R}

/-! ### What a synthesis leaves as it was -/

theorem StepKeeps.onlyChannel (h : StepKeeps s t ch) : OnlyChannel s t ch := by
  obtain ⟨-, -, -, -, -, -, -, -, -, -, -, -, -, -, -, honly, -⟩ := h
  exact honly

theorem StepKeeps.latch_eq (h : StepKeeps s t ch) : t.latch = s.latch := by
  obtain ⟨-, -, -, -, -, hlatch, -⟩ := h
  exact hlatch

theorem StepKeeps.snap_eq (h : StepKeeps s t ch) : t.snap = s.snap := by
  have hlatch := h.latch_eq
  obtain ⟨-, hpar, -⟩ := h
  rw [State.snap, State.snap, hlatch, hpar]

/-- R35: a step sets neither DONE nor an error. -/
theorem StepKeeps.status_eq (h : StepKeeps s t ch) :
    t.status.done = s.status.done ∧ t.status.err = s.status.err ∧ t.status.errcode = s.status.errcode := by
  obtain ⟨-, -, -, -, -, -, -, -, -, -, -, -, hdone, herr, hcode, -⟩ := h
  exact ⟨hdone, herr, hcode⟩

theorem StepKeeps.chan_eq (h : StepKeeps s t ch) {b : BitVec 4} (hbo : (t.chan ch).bo = b) :
    t.chan ch = { s.chan ch with vr := (t.chan ch).vr, bo := b } := by
  obtain ⟨-, -, -, -, -, -, -, -, -, -, -, -, -, -, -, -, hxr, hovl, hsbs⟩ := h
  show t.chan ch = ⟨(s.chan ch).xr, (s.chan ch).ovl, (s.chan ch).sbs, (t.chan ch).vr, b⟩
  rw [← hxr, ← hovl, ← hsbs, ← hbo]

theorem StepKeeps.completesWithin (h : StepKeeps s t ch) : CompletesWithin s t.complete := by
  obtain ⟨h1, h2, h3, h4, h5, -, h6, h7, h8, h9, h10, h11, -, h12, h13, -⟩ := h
  simp only [CompletesWithin, State.complete, h1, h2, h3, h4, h5, h6, h7, h8, h9, h10, h11, h12, h13]

/-! ### Refusal (R351) -/

theorem synthesize_of_refuses {ks : List Nat} (h : synthRefuses s.snap ch = true) :
    synthesize ch ks s = .next { s with latch := none, status := errorStatus s.status 4#4 } := by
  rw [synthesize, if_pos h]
  rfl

theorem synthesize_next_status {ks : List Nat} (ha : synthRefuses s.snap ch = false)
    (h : synthesize ch ks s = .next t) :
    t.status.done = true ∧ t.status.err = s.status.err ∧ t.status.errcode = s.status.errcode := by
  rcases synthesize_next h with ⟨hr, -⟩ | ⟨-, u, hu, rfl⟩
  · rw [ha] at hr
    cases hr
  · exact ⟨rfl, (synthSteps_keeps hu).status_eq.2⟩

/-- Settles O55: the one test of R351 comes before any step, and no step raises an error. -/
theorem synthRefusesOnlyMonoChannelOne : Obligations.SynthRefusesOnlyMonoChannelOne := by
  intro s ch k
  have hiff : synthRefuses s.snap ch = true ↔ ch = 1#1 ∧ s.snap.cfg.stereo = false := by simp [synthRefuses]
  refine ⟨fun h => ?_, fun h t ht => ?_⟩
  · exact ⟨synthesize_of_refuses (hiff.2 h), synthesize_of_refuses (hiff.2 h)⟩
  · have ha := Bool.eq_false_iff.2 (hiff.not.2 h)
    exact ht.elim (synthesize_next_status ha) (synthesize_next_status ha)

/-! ### SYNTH as one step -/

theorem synthSteps_singleton : synthSteps ch p [k] s = some t ↔ synthStep ch p k s = some t := by
  rw [synthSteps_cons]
  simp [synthSteps]

theorem execSynth_next_of_accepts {k : BitVec 5} (ha : SynthAccepts s.snap ch) (h : execSynth ch k s = .next t) :
    ∃ u, synthStep ch s.snap k.toNat s = some u ∧ t = u.complete := by
  rcases synthesize_next h with ⟨hr, -⟩ | ⟨-, u, hu, ht⟩
  · rw [synthRefuses_eq_false_iff.2 ha] at hr
    cases hr
  · exact ⟨u, synthSteps_singleton.1 hu, ht⟩

theorem execSynth_completes {k : BitVec 5} (hs : s.memoryWf = true) (ha : SynthAccepts s.snap ch)
    (hrow : ∀ a, a < 32 → (Store.get unspecified (s.chan ch).sbs (32 * k.toNat + a)).isSome) :
    ∃ u, synthStep ch s.snap k.toNat s = some u ∧ execSynth ch k s = .next u.complete := by
  obtain ⟨-, -, -, -, -, hchan⟩ := memoryWf_iff.1 hs
  obtain ⟨-, -, hsbs, -⟩ := channel_memoryWf_iff.1 (hchan ch)
  obtain ⟨u, hu, hexec⟩ := synthesize_isSome (ks := [k.toNat]) (synthRefuses_eq_false_iff.2 ha)
    (Store.rising_of_wf hsbs) (by simpa using hrow)
  exact ⟨u, synthSteps_singleton.1 hu, hexec⟩

/-! ### The delay line (R353) -/

/-- Entry m of the logical line is a cell of the ring. -/
theorem getElem?_logicalLine {ring : List N.R} (hlen : ring.length = 1024) (bo : BitVec 4) {m : Nat} (hm : m < 1024) :
    (logicalLine ring bo)[m]? = ring[(64 * bo.toNat + m) % 1024]? := by
  have hbo := bo.isLt
  rw [logicalLine]
  by_cases h : 64 * bo.toNat + m < 1024
  · rw [List.getElem?_append_left (by rw [List.length_drop]; omega), List.getElem?_drop, Nat.mod_eq_of_lt h]
  · rw [List.getElem?_append_right (by rw [List.length_drop]; omega), List.length_drop,
      List.getElem?_take_of_lt (by omega)]
    congr 1
    omega

/-- The old entries that a step takes are those that the channel's line holds. -/
theorem take_logicalLine_eq {ring : List N.R} (hm : Store.Rising (s.chan ch).vr)
    (hring : Store.block N.zeroed (s.chan ch).vr 0 1024 = some ring) (hvo : vo.length = 960)
    (hline : ∀ m (hm : m < vo.length), lineEntry s ch m = some vo[m]) :
    (logicalLine ring (s.chan ch).bo).take 960 = vo := by
  obtain ⟨hlen, hget⟩ := (Store.block_eq_some_iff hm).1 hring
  refine List.ext_getElem? fun m => ?_
  by_cases h : m < 960
  · have hcell := hget ((64 * (s.chan ch).bo.toNat + m) % 1024) (by omega)
    rw [Nat.zero_add] at hcell
    rw [List.getElem?_take_of_lt h, getElem?_logicalLine hlen _ (by omega), List.getElem?_eq_getElem (by omega), ← hcell,
      List.getElem?_eq_getElem (by omega)]
    exact hline m (by omega)
  · rw [List.getElem?_take_eq_none (by omega), List.getElem?_eq_none (by omega)]

/-- R353, R354: with the offset one less and 64 cells written at it, the line has moved up by 64 entries, and the new
ones are those written. -/
theorem lineEntry_shifted {vn : List N.R} (hm : Store.Rising (s.chan ch).vr) (hlen : vn.length = 64)
    (hbo : (t.chan ch).bo = (s.chan ch).bo - 1#4)
    (hvr : (t.chan ch).vr = Store.fill N.zeroed (s.chan ch).vr (64 * ((s.chan ch).bo - 1#4).toNat) vn) :
    (∀ m, m < 960 → lineEntry t ch (m + 64) = lineEntry s ch m) ∧ ∀ i, i < 64 → lineEntry t ch i = vn[i]? := by
  have hlt := ((s.chan ch).bo - 1#4).isLt
  have hprev : (s.chan ch).bo.toNat = (((s.chan ch).bo - 1#4).toNat + 1) % 16 := by
    have := (s.chan ch).bo.isLt
    rw [BitVec.toNat_sub, BitVec.toNat_ofNat]
    omega
  refine ⟨fun m hm960 => ?_, fun i hi => ?_⟩
  · have hcell : (64 * ((s.chan ch).bo - 1#4).toNat + (m + 64)) % 1024 = (64 * (s.chan ch).bo.toNat + m) % 1024 := by
      omega
    rw [lineEntry, lineEntry, hvr, hbo, hcell, Store.get_fill_not_mem hm]
    omega
  · rw [lineEntry, hvr, hbo, Nat.mod_eq_of_lt (by omega), Store.get_fill_mem hm _ _ (by omega),
      List.getElem?_eq_getElem (by omega)]

theorem getElem_settledAll (slot n : Nat) (f : Nat → Option N.R) {i : Nat} (hi : i < (settledAll slot n f).length) :
    (settledAll slot n f)[i] = settled (slot + i) (f i) := by simp [settledAll]

/-! ### The samples (R357, R358) -/

/-- The PCM word of output j of a step, and whether it counts as clipped. -/
def stepWord (s : State N) (p : Params) (sb vo : List N.R) (j : Nat) : Word × Bool :=
  pcmSample p (s.free + 64 + j) (stepOutput s sb vo j)

theorem stepSamples_settledAll (s : State N) (p : Params) (sb vo : List N.R) :
    stepSamples p (s.free + 64) (settledAll (s.free + 64) 32 (N.ops.synth sb vo).2) =
      (List.range 32).map (stepWord s p sb vo) := by
  refine List.ext_getElem (by simp [stepSamples]) fun j h1 h2 => ?_
  simp [stepSamples, getElem_settledAll, stepWord, stepOutput]

theorem stepCells_map (p : Params) (ch : BitVec 1) (k n : Nat) (f : Nat → Word × Bool) :
    stepCells p ch k ((List.range n).map f) = (List.range n).map fun j => (pcmCell p ch (32 * k + j), (f j).1) := by
  refine List.ext_getElem (by simp [stepCells]) fun j h1 h2 => ?_
  simp [stepCells, pcmIndex, pcmCell]

theorem pcmCell_lt {a b : Nat} (h : a < b) : pcmCell p ch a < pcmCell p ch b := by
  unfold pcmCell
  split <;> omega

/-- The cells of one time slot, rising. -/
theorem pairwise_pcmCells (p : Params) (ch : BitVec 1) (k n : Nat) (f : Nat → Word) :
    ((List.range n).map fun j => (pcmCell p ch (32 * k + j), f j)).Pairwise (fun e e' => e.1 < e'.1) :=
  List.pairwise_map.2 (List.pairwise_lt_range.imp fun h => pcmCell_lt (by omega))

theorem pcmSample_unclipped (h : p.cfg.unclip = true) (y : N.R) : pcmSample p slot y = (N.ops.enc y, false) := if_pos h

theorem pcmSample_clipped (h : p.cfg.unclip = false) (y : N.R) : pcmSample p slot y = clippedSample slot y :=
  if_neg (by simp [h])

theorem clippedSample_of_val {y : N.R} {r : ℚ} (h : N.ops.val y = some r) :
    clippedSample slot y = ((pcm16 r).1.signExtend 32, (pcm16 r).2) := by
  rw [clippedSample, h]

/-- U2: also a free sample is a 16-bit one. -/
theorem clippedSample_isSample (slot : Nat) (y : N.R) : ∃ v : BitVec 16, (clippedSample slot y).1 = v.signExtend 32 := by
  unfold clippedSample
  split
  · exact ⟨_, rfl⟩
  · exact ⟨_, rfl⟩

/-- A step that reads the row `sb` and the old entries `vo` writes NUM_IMPL's outputs on them: Vn, the words and their
marks. -/
def StepWrites (s t : State N) (ch : BitVec 1) (p : Params) (k : Nat) (sb vo : List N.R) : Prop :=
  (t.chan ch).vr = Store.fill N.zeroed (s.chan ch).vr (64 * ((s.chan ch).bo - 1#4).toNat)
    (settledAll s.free 64 (N.ops.synth sb vo).1) ∧
  t.pcm = Store.writes unspecified s.pcm
    ((List.range 32).map fun j => (pcmCell p ch (32 * k + j), (stepWord s p sb vo j).1)) ∧
  t.clipcnt = s.clipcnt + BitVec.ofNat 32 ((List.range 32).countP fun j => (stepWord s p sb vo j).2) ∧
  t.status.warns = s.status.warns |||
    Warn.clip.maskIf (decide (0 < (List.range 32).countP fun j => (stepWord s p sb vo j).2))

theorem synthStep_writes (h : synthStep ch p k s = some t) :
    ∃ sb ring, Store.block unspecified (s.chan ch).sbs (32 * k) 32 = some sb ∧
      Store.block N.zeroed (s.chan ch).vr 0 1024 = some ring ∧
      StepWrites s t ch p k sb ((logicalLine ring (s.chan ch).bo).take 960) := by
  obtain ⟨sb, ring, hsb, hring, -, -, hfill, hpcm, hcnt, hwarns, -⟩ := synthStep_some h
  rw [stepSamples_settledAll] at hpcm hcnt hwarns
  rw [stepCells_map] at hpcm
  rw [List.countP_map] at hcnt hwarns
  exact ⟨sb, ring, hsb, hring, hfill, hpcm, hcnt, hwarns⟩

/-- What a step reads is what its SBS row and its channel's line hold. -/
theorem stepWrites_of_inputs (hs : s.memoryWf = true) (h : synthStep ch p k s = some t) (hsb : sb.length = 32)
    (hvo : vo.length = 960) (hrow : Holds unspecified (s.chan ch).sbs (32 * k) sb)
    (hline : ∀ m (hm : m < vo.length), lineEntry s ch m = some vo[m]) : StepWrites s t ch p k sb vo := by
  obtain ⟨-, -, -, -, -, hchan⟩ := memoryWf_iff.1 hs
  obtain ⟨-, -, hsbs, hvr⟩ := channel_memoryWf_iff.1 (hchan ch)
  obtain ⟨row, ring, hblock, hring, hwrites⟩ := synthStep_writes h
  obtain rfl : row = sb :=
    Option.some.inj (hblock.symm.trans ((Store.block_eq_some_iff (Store.rising_of_wf hsbs)).2 ⟨hsb, hrow⟩))
  rwa [take_logicalLine_eq (Store.rising_of_wf hvr) hring hvo hline] at hwrites

theorem StepWrites.get_pcm (h : StepWrites s t ch p k sb vo) (hm : Store.Rising s.pcm) (hj : j < 32) :
    Store.get unspecified t.pcm (pcmCell p ch (32 * k + j)) = some (stepWord s p sb vo j).1 := by
  obtain ⟨-, hpcm, -⟩ := h
  rw [hpcm]
  exact Store.get_writes_of_mem hm (pairwise_pcmCells p ch k 32 _) (List.mem_map.2 ⟨j, List.mem_range.2 hj, rfl⟩)

theorem StepWrites.get_pcm_ne (h : StepWrites s t ch p k sb vo) (hm : Store.Rising s.pcm) {a : Nat}
    (hne : ∀ j, j < 32 → a ≠ pcmCell p ch (32 * k + j)) :
    Store.get unspecified t.pcm a = Store.get unspecified s.pcm a := by
  obtain ⟨-, hpcm, -⟩ := h
  rw [hpcm]
  refine Store.get_writes_of_not_mem hm (pairwise_pcmCells p ch k 32 _) fun e he => ?_
  obtain ⟨j, hj, rfl⟩ := List.mem_map.1 he
  exact (hne j (List.mem_range.1 hj)).symm

/-- R359: without a mark the count and the warnings stay. -/
theorem StepWrites.of_no_marks (h : StepWrites s t ch p k sb vo) (hmark : ∀ j, (stepWord s p sb vo j).2 = false) :
    t.clipcnt = s.clipcnt ∧ t.status.warns = s.status.warns := by
  obtain ⟨-, -, hcnt, hwarns⟩ := h
  simp only [hmark, List.countP_false] at hcnt hwarns
  exact ⟨by simpa using hcnt, by simpa using hwarns⟩

/-! ### The obligations on one step -/

/-- Settles O52: the step moves the offset and fills the 64 cells that the new line begins with. -/
theorem synthShiftsDelayLine : Obligations.SynthShiftsDelayLine := by
  intro s ch k hinv _ ha hrow
  obtain ⟨hs, -⟩ := inv_iff.1 hinv
  obtain ⟨-, -, -, -, -, hchan⟩ := memoryWf_iff.1 hs
  obtain ⟨-, -, -, hvr⟩ := channel_memoryWf_iff.1 (hchan ch)
  have hrise := Store.rising_of_wf hvr
  obtain ⟨u, hu, hexec⟩ := execSynth_completes hs ha hrow
  obtain ⟨_, _, -, -, hkeeps, hbo, hfill, -, -, hwarns, -⟩ := synthStep_some hu
  refine ⟨u.complete, hexec, hkeeps.completesWithin, hkeeps.onlyChannel, hkeeps.chan_eq hbo, fun b hb => ?_,
    (lineEntry_shifted hrise (length_settledAll ..) hbo hfill).1, fun sb vo i hsb hvo hi hh hline => ⟨s.free + i, ?_⟩⟩
  · have hclip : b ≠ Warn.clip.bit := hb.ne
    rw [State.complete_warns, hwarns, BitVec.getLsbD_or, Warn.getLsbD_maskIf, decide_eq_false hclip, Bool.and_false,
      Bool.or_false]
  · obtain ⟨hnew, -⟩ := stepWrites_of_inputs hs hu hsb hvo hh hline
    rw [(lineEntry_shifted (t := u.complete) hrise (length_settledAll ..) hbo hnew).2 i hi,
      List.getElem?_eq_getElem (by rwa [length_settledAll]), getElem_settledAll]

/-- Settles O53: the step writes `stepWord`'s words, and its marks are what the clip count adds up. -/
theorem synthWritesPcm : Obligations.SynthWritesPcm := by
  intro s t ch k sb vo hinv ha _ hsb hvo hrow hline h value
  obtain ⟨hs, -⟩ := inv_iff.1 hinv
  obtain ⟨-, -, -, -, hpcmWf, -⟩ := memoryWf_iff.1 hs
  have hrise := Store.rising_of_wf hpcmWf
  obtain ⟨u, hu, rfl⟩ := execSynth_next_of_accepts ha h
  have hwrites := stepWrites_of_inputs hs hu hsb hvo hrow hline
  refine ⟨rfl, fun j hj => ⟨_, hwrites.get_pcm hrise hj, fun hc => ?_, fun r hc hr => ?_, fun hc => ?_⟩,
    fun a => hwrites.get_pcm_ne hrise, fun hc => hwrites.of_no_marks fun j => ?_,
    fun hc => ⟨fun j => (stepWord s s.snap sb vo j).2, fun j _ hsome => ?_, ?_⟩⟩
  · rw [stepWord, pcmSample_unclipped hc]
  · rw [stepWord, pcmSample_clipped hc, clippedSample_of_val hr]
  · rw [stepWord, pcmSample_clipped hc]
    exact clippedSample_isSample _ _
  · rw [stepWord, pcmSample_unclipped hc]
  · show (stepWord s s.snap sb vo j).2 = clips (value j)
    obtain ⟨r, hr⟩ := Option.isSome_iff_exists.1 hsome
    rw [stepWord, pcmSample_clipped hc, clippedSample_of_val hr, hr, clips]
  · obtain ⟨-, -, hcnt, hwarns⟩ := hwrites
    refine ⟨hcnt, ?_⟩
    rw [State.complete_warns, hwarns, BitVec.getLsbD_or, Warn.getLsbD_maskIf]
    simp [Warn.bit]

end Sys2Proof.Machine
end

section
/-! PROOFS. The steps of a granule (R360) and silence (R362): SYNTHG runs through the states that eighteen SYNTHs with one
snapshot run through, and a step on zeros gives zeros in REF32. Settles O56 and O58. -/

namespace Sys2Proof.Machine

variable {N : NumImpl} {s t u : State N} {ch : BitVec 1} {p : Params}

/-! ### Eighteen steps (R360) -/

/-- The state after the steps at time slots 0 … n − 1, and `s` itself where one of them cannot be done. -/
def synthChain (ch : BitVec 1) (p : Params) (s : State N) (n : Nat) : State N :=
  (synthSteps ch p (List.range n) s).getD s

theorem synthChain_of_steps {n : Nat} (h : synthSteps ch p (List.range n) s = some u) : synthChain ch p s n = u := by
  rw [synthChain, h, Option.getD_some]

/-- A state is its completion with the latch and DONE put back. -/
theorem restored_complete (u : State N) :
    u = { u.complete with latch := u.latch, status := { u.complete.status with done := u.status.done } } := rfl

/-- From a state that differs from `s` by steps only, SYNTH takes one step more with the snapshot of `s`. -/
theorem execSynth_of_step {k : BitVec 5} (ha : SynthAccepts s.snap ch) (hkeeps : StepKeeps s t ch)
    (h : synthStep ch s.snap k.toNat t = some u) : execSynth ch k t = .next u.complete := by
  rw [← hkeeps.snap_eq] at ha h
  rw [execSynth, synthesize, if_neg (by rw [synthRefuses_eq_false_iff.2 ha]; decide), synthSteps_singleton.2 h]

/-- Settles O56: the chain is that of SYNTHG's own steps. -/
theorem synthgIsEighteenSteps : Obligations.SynthgIsEighteenSteps := by
  intro s ch hinv ha hrow
  obtain ⟨hs, -⟩ := inv_iff.1 hinv
  obtain ⟨-, -, -, -, -, hchan⟩ := memoryWf_iff.1 hs
  obtain ⟨-, -, hsbs, -⟩ := channel_memoryWf_iff.1 (hchan ch)
  have hdone (n : Nat) (hn : n ≤ 18) : ∃ u, synthSteps ch s.snap (List.range n) s = some u ∧
      synthesize ch (List.range n) s = .next u.complete :=
    synthesize_isSome (synthRefuses_eq_false_iff.2 ha) (Store.rising_of_wf hsbs) fun k hk a ha =>
      hrow _ (by have := List.mem_range.1 hk; omega)
  obtain ⟨last, hlast, hexec⟩ := hdone 18 le_rfl
  have hkeeps := synthSteps_keeps hlast
  refine ⟨synthChain ch s.snap s, rfl, fun k hk => ?_, ?_⟩
  · obtain ⟨u, hu, -⟩ := hdone (k + 1) hk
    obtain ⟨v, hv, hstep⟩ := synthSteps_append.1 (List.range_succ ▸ hu)
    have hslot : (BitVec.ofNat 5 k).toNat = k := by rw [BitVec.toNat_ofNat, Nat.mod_eq_of_lt (by omega)]
    have hukeeps := synthSteps_keeps hu
    obtain ⟨hudone, -⟩ := hukeeps.status_eq
    rw [synthChain_of_steps hu, synthChain_of_steps hv, ← hukeeps.latch_eq, ← hudone]
    exact ⟨u.complete, execSynth_of_step ha (synthSteps_keeps hv) (hslot.symm ▸ synthSteps_singleton.1 hstep),
      restored_complete u⟩
  · rw [synthChain_of_steps hlast]
    exact ⟨hexec, hkeeps.onlyChannel, hkeeps.completesWithin, hkeeps.chan_eq (synthSteps_bo hlast)⟩

/-! ### Silence in REF32 (R362) -/

section silence

variable {sb vo : List Word} (hsb : ∀ v ∈ sb, IsZero v)

include hsb

theorem synth_line_of_zero (i : Nat) : (ref32Synth sb vo).1 i = some 0#32 :=
  roundForm_of_zero .pi64 (matrixTerms_inputs ⟨by decide, by decide⟩ hsb i)

theorem synth_sample_of_zero (hvo : ∀ v ∈ vo, IsZero v) (j : Nat) : (ref32Synth sb vo).2 j = some 0#32 :=
  roundForm_of_zero .pi64 (windowTerms_inputs ⟨by decide, by decide⟩ hsb hvo j)

end silence

/-- R357: a zero y is a zero word, clipped or not, and does not clip. -/
theorem pcmSample_zero (p : Params) (slot : Nat) : pcmSample (N := ref32) p slot 0#32 = (0#32, false) := by
  cases hc : p.cfg.unclip with
  | true => exact pcmSample_unclipped hc _
  | false =>
    have hval : ref32.ops.val 0#32 = some 0 := by
      simp [isFinite, expField, fix, isNeg, fixMag, fracField]
    rw [pcmSample_clipped hc, clippedSample_of_val hval]
    decide

/-- What holds of every entry of the ring holds of every entry of the line. -/
theorem forall_mem_logicalLine {ring : List N.R} {P : N.R → Prop} (h : ∀ v ∈ ring, P v) (bo : BitVec 4) :
    ∀ v ∈ logicalLine ring bo, P v := by
  intro v hv
  rcases List.mem_append.1 hv with hv | hv
  · exact h v (List.mem_of_mem_drop hv)
  · exact h v (List.mem_of_mem_take hv)

/-- A block whose cells all hold zeros. -/
theorem isZero_of_block {d : Option Word} {m : Store 32} (hm : Store.Rising m) {base n : ℕ} {vs : List Word}
    (h : Store.block d m base n = some vs)
    (hz : ∀ a, a < n → ∃ v : Word, Store.get d m (base + a) = some v ∧ isFinite v = true ∧ fix v = 0) :
    ∀ v ∈ vs, IsZero v := by
  obtain ⟨hlen, hholds⟩ := (Store.block_eq_some_iff hm).1 h
  refine forall_mem_of_holds hholds fun k v hk hv => ?_
  obtain ⟨v', hv', hzero⟩ := hz k (hlen ▸ hk)
  obtain rfl : v' = v := Option.some.inj (hv'.symm.trans hv)
  exact hzero

/-- Settles O58: on zeros every form is +0.0, so each word is 0 without a mark and each new line entry +0.0. -/
theorem silenceStaysSilent : Obligations.SilenceStaysSilent := by
  intro s ch k hinv _ ha hrow hring
  obtain ⟨hs, -⟩ := inv_iff.1 hinv
  obtain ⟨-, -, -, -, hpcm, hchan⟩ := memoryWf_iff.1 hs
  obtain ⟨-, -, hsbs, hvr⟩ := channel_memoryWf_iff.1 (hchan ch)
  obtain ⟨u, hu, hexec⟩ := execSynth_completes hs ha fun a ha => by
    obtain ⟨v, hv, -⟩ := hrow a ha
    exact Option.isSome_iff_exists.2 ⟨v, hv⟩
  obtain ⟨sb, ring, hblock, hringBlock, hwrites⟩ := synthStep_writes hu
  have hsb := isZero_of_block (Store.rising_of_wf hsbs) hblock hrow
  have hvo : ∀ v ∈ (logicalLine ring (s.chan ch).bo).take 960, IsZero v := fun v hv =>
    forall_mem_logicalLine (isZero_of_block (Store.rising_of_wf hvr) hringBlock (by simpa using hring)) _ v
      (List.mem_of_mem_take hv)
  have hword (j : ℕ) : stepWord s s.snap sb ((logicalLine ring (s.chan ch).bo).take 960) j = (0#32, false) := by
    rw [stepWord, stepOutput, synth_sample_of_zero hsb hvo j]
    exact pcmSample_zero _ _
  obtain ⟨hclipcnt, hwarns⟩ := hwrites.of_no_marks fun j => by rw [hword j]
  refine ⟨u.complete, hexec, fun j hj => ?_, hclipcnt, hwarns, fun a _ => ?_⟩
  · have hget := hwrites.get_pcm (Store.rising_of_wf hpcm) hj
    rwa [hword j] at hget
  · obtain ⟨hfill, -⟩ := hwrites
    rw [State.complete_chan, hfill]
    by_cases hnew : 64 * ((s.chan ch).bo - 1#4).toNat ≤ a ∧ a < 64 * ((s.chan ch).bo - 1#4).toNat + 64
    · obtain ⟨i, rfl⟩ := Nat.exists_eq_add_of_le hnew.1
      rw [Store.get_fill_mem (Store.rising_of_wf hvr) _ _ (by rw [length_settledAll]; omega), getElem_settledAll]
      exact .inl (congrArg (fun y => some (settled (N := ref32) (s.free + i) y)) (synth_line_of_zero hsb i))
    · exact .inr (Store.get_fill_not_mem (Store.rising_of_wf hvr) _ _ (by rw [length_settledAll]; omega))

end Sys2Proof.Machine
end

section
/-! PROOFS. The synthesis counters BOc and CLIPCNT (R52, R53, R354): which step can change them, by its cause. Settles O29. -/

namespace Sys2Proof.Machine

variable {N : NumImpl} {s t : State N}

/-! ### What a step is caused by -/

/-- A step is a power-on reset, a host access, a latched command, or changes nothing but the events to come and the data
read. -/
theorem step_causes {s t : State} (h : step s = .next t) :
    (∃ es, s.pending = .powerOn :: es ∧ t = ({ s with pending := es } : State).powerOn) ∨
    (∃ op es, NextHost s op ∧ hostAccess op { s with pending := es } = .next t) ∨
    (∃ i es, NextCommand s i ∧ exec i { s with pending := es } = .next t) ∨
    ∃ es d, t = { s with pending := es, rdata := d } := by
  rcases step_next h with ⟨hp, h⟩ | ⟨es, hp, h⟩ | ⟨op, es, hp, h⟩ | ⟨op, es, hp, h⟩ | ⟨es, hp, h⟩ | ⟨es, hp, h⟩
  · rcases sequencerStep_next h with ⟨-, rfl⟩ | ⟨l, i, hl, hi, h⟩
    · exact .inr (.inr (.inr ⟨_, _, rfl⟩))
    · exact .inr (.inr (.inl ⟨i, s.pending, ⟨.inl hp, l, hl, hi⟩, h⟩))
  · rcases sequencerStep_next h with ⟨-, rfl⟩ | ⟨l, i, hl, hi, h⟩
    · exact .inr (.inr (.inr ⟨_, _, rfl⟩))
    · exact .inr (.inr (.inl ⟨i, es, ⟨.inr ⟨es, hp⟩, l, hl, hi⟩, h⟩))
  · exact .inr (.inl ⟨op, es, ⟨es, .inl hp⟩, h⟩)
  · rcases busAccess_next h with ⟨-, rfl⟩ | ⟨access, hw, h⟩
    · exact .inr (.inr (.inr ⟨_, _, rfl⟩))
    · exact .inr (.inl ⟨access, es, ⟨es, .inr ⟨op, hp, hw⟩⟩, h⟩)
  · rw [waitAccess_eq] at h
    obtain rfl := Host.Outcome.next.inj h
    split
    · exact .inr (.inr (.inr ⟨_, _, rfl⟩))
    · exact .inr (.inr (.inr ⟨_, _, rfl⟩))
  · exact .inl ⟨es, hp, h⟩

/-! ### The counters -/

/-- BO0 and BO1 are as they were. -/
def SameOffsets (s t : State N) : Prop := ∀ c, (t.chan c).bo = (s.chan c).bo

/-- BO0, BO1 and CLIPCNT are as they were. -/
def SameCounters (s t : State N) : Prop := t.clipcnt = s.clipcnt ∧ SameOffsets s t

/-- BO0, BO1 and CLIPCNT are 0. -/
def CountersZero (t : State N) : Prop := t.clipcnt = 0#32 ∧ ∀ c, (t.chan c).bo = 0#4

theorem SameCounters.refl : SameCounters s s := ⟨rfl, fun _ => rfl⟩

theorem sameCounters_setChan {c : BitVec 1} {x : Channel N} (h : x.bo = (s.chan c).bo) :
    SameCounters s (s.setChan c x) := by
  refine ⟨s.setChan_clipcnt c x, fun c' => ?_⟩
  by_cases hc : c' = c
  · rw [hc, State.setChan_chan_self, h]
  · rw [State.setChan_chan_ne s hc]

/-- R501: a soft reset. -/
theorem countersZero_softReset (s : State N) : CountersZero s.softReset := by
  refine ⟨rfl, fun c => ?_⟩
  rcases channel_cases c with rfl | rfl
  · rfl
  · rfl

/-- R500: a power-on reset. -/
theorem countersZero_powerOn (s : State N) : CountersZero s.powerOn := by
  refine ⟨rfl, fun c => ?_⟩
  rcases channel_cases c with rfl | rfl
  · rfl
  · rfl

/-! ### Host accesses -/

/-- R100: the registers are the words from offset 0 on. -/
theorem index_of_locate_register {off n : Nat} (h : locate off = some (.register, n)) : n = off / 4 := by
  have hbase : ∀ r ∈ windowMap, r.place = .register → r.base = 0 := by decide
  obtain ⟨r, hr, heq⟩ := Option.map_eq_some_iff.1 h
  obtain ⟨hplace, rfl⟩ := Prod.mk.inj heq
  rw [hbase r (List.mem_of_find?_eq_some hr) hplace, Nat.sub_zero]

theorem sameCounters_issue (s : State N) (w : Word) : SameCounters s (s.issue w) := by
  unfold State.issue
  split
  · exact .refl
  · split
    · exact .refl
    · split
      · exact .refl
      · exact .refl

/-- R33, R52: of the register writes, a soft reset and one to CLIPCNT change a counter. -/
theorem writeRegister_counters (s : State N) (n : Nat) (w : Word) :
    (n = 1 ∧ w.getLsbD 0 = true ∧ CountersZero (s.writeRegister n w)) ∨
    (n = 17 ∧ (s.writeRegister n w).clipcnt = 0#32 ∧ SameOffsets s (s.writeRegister n w)) ∨
    SameCounters s (s.writeRegister n w) := by
  unfold State.writeRegister
  split
  case h_1 =>
    unfold State.writeCtrl
    split
    next h => exact .inl ⟨rfl, h, countersZero_softReset s⟩
    next => exact .inr (.inr .refl)
  case h_3 => exact .inr (.inr (sameCounters_issue s w))
  case h_14 => exact .inr (.inl ⟨rfl, rfl, fun _ => rfl⟩)
  all_goals exact .inr (.inr .refl)

/-- No memory holds a counter. -/
theorem sameCounters_writePlace {place : Place} (hp : place ≠ .register) (n : Nat) (w : Word) :
    SameCounters s (s.writePlace place n w) := by
  cases place with
  | register => exact absurd rfl hp
  | sfl => exact .refl
  | sfs => exact .refl
  | bitbuf => exact .refl
  | isq => exact .refl
  | pcm => exact .refl
  | xr c => exact sameCounters_setChan rfl
  | ovl c => exact sameCounters_setChan rfl
  | sbs c => exact sameCounters_setChan rfl
  | vr c => exact sameCounters_setChan rfl

/-- A host access that changes a counter is a soft reset or a write to CLIPCNT. -/
theorem hostAccess_counters {op : HostOp} (h : hostAccess op s = .next t) :
    (∃ w, op = .write .w32 0x0004#16 w ∧ w.getLsbD 0 = true ∧ CountersZero t) ∨
    (∃ off w, op = .write .w32 off w ∧ off.toNat = 0x44 ∧ t.clipcnt = 0#32 ∧ SameOffsets s t) ∨ SameCounters s t := by
  rcases hostAccess_next h with ⟨_, _, _, -, rfl⟩ | ⟨_, _, -, h⟩ | ⟨off, w, hop, halign, h⟩
  · exact .inr (.inr .refl)
  · obtain ⟨-, rfl⟩ := writeByte_next h
    exact .inr (.inr .refl)
  · rcases writeWord_next h with ⟨-, rfl⟩ | ⟨place, n, hloc, -, rfl⟩
    · exact .inr (.inr .refl)
    · by_cases hp : place = .register
      · subst hp
        have hn := index_of_locate_register hloc
        rcases writeRegister_counters s n w with ⟨h1, hw, hzero⟩ | ⟨h17, hzero, hsame⟩ | hsame
        · have hoff : off = 0x0004#16 := BitVec.eq_of_toNat_eq (show off.toNat = 4 by omega)
          exact .inl ⟨w, hoff ▸ hop, hw, hzero⟩
        · exact .inr (.inl ⟨off, w, hop, by omega, hzero, hsame⟩)
        · exact .inr (.inr hsame)
      · exact .inr (.inr (sameCounters_writePlace hp n w))

/-! ### Commands -/

/-- SYNTH and SYNTHG lower their channel's offset by the number of their steps, or are refused. -/
theorem synthesize_offsets {ch : BitVec 1} {ks : List Nat} (h : synthesize ch ks s = .next t) {c : BitVec 1}
    (hne : (t.chan c).bo ≠ (s.chan c).bo) : c = ch ∧ (t.chan c).bo = (s.chan c).bo - BitVec.ofNat 4 ks.length := by
  rcases synthesize_next h with ⟨-, rfl⟩ | ⟨-, u, hu, rfl⟩
  · exact absurd rfl hne
  · obtain rfl : c = ch := by
      by_contra hc
      exact hne (congrArg Channel.bo ((synthSteps_keeps hu).onlyChannel c hc))
    exact ⟨rfl, synthSteps_bo (t := u) hu⟩

/-- R402: the offsets after CLRH. -/
theorem execClrh_bo {mask : BitVec 2} (h : execClrh mask s = .next t) (c : BitVec 1) :
    (t.chan c).bo = if mask.getLsbD c.toNat then 0#4 else (s.chan c).bo := by
  obtain rfl := Host.Outcome.next.inj h
  rcases channel_cases c with rfl | rfl
  · exact apply_ite Channel.bo _ s.ch0.clear s.ch0
  · exact apply_ite Channel.bo _ s.ch1.clear s.ch1

/-- A command other than CLRH, SYNTH and SYNTHG changes no counter, and CLRH no CLIPCNT. -/
theorem exec_counters {i : Instr} {s t : State} (h : exec i s = .next t) :
    (∃ ch k, i = .synth ch k) ∨ (∃ ch, i = .synthg ch) ∨ (∃ mask, i = .clrh mask ∧ t.clipcnt = s.clipcnt) ∨
      SameCounters s t := by
  cases i with
  | nop => cases h; exact .inr (.inr (.inr .refl))
  | huff =>
    obtain ⟨-, g, line, ⟨-, rfl⟩ | ⟨-, rfl⟩⟩ := execHuff_next h
    · exact .inr (.inr (.inr .refl))
    · exact .inr (.inr (.inr .refl))
  | deq ch =>
    rcases execDeq_next h with ⟨-, rfl⟩ | ⟨-, _, _, -, -, rfl⟩
    · exact .inr (.inr (.inr .refl))
    · exact .inr (.inr (.inr (sameCounters_setChan rfl)))
  | aa ch =>
    obtain ⟨_, -, rfl⟩ := execAa_next h
    exact .inr (.inr (.inr (sameCounters_setChan rfl)))
  | imdct ch =>
    obtain ⟨_, _, -, -, rfl⟩ := execImdct_next h
    exact .inr (.inr (.inr (sameCounters_setChan rfl)))
  | synth ch k => exact .inl ⟨ch, k, rfl⟩
  | synthg ch => exact .inr (.inl ⟨ch, rfl⟩)
  | clrh mask => cases h; exact .inr (.inr (.inl ⟨mask, rfl, rfl⟩))

/-- R354: a command that changes BOc is CLRH of the channel, or SYNTH or SYNTHG on it. -/
theorem exec_offsets {i : Instr} {s t : State} (h : exec i s = .next t) {c : BitVec 1}
    (hne : (t.chan c).bo ≠ (s.chan c).bo) :
    (∃ m : BitVec 2, i = .clrh m ∧ m.getLsbD c.toNat = true ∧ (t.chan c).bo = 0#4) ∨
    (∃ k, i = .synth c k ∧ (t.chan c).bo = (s.chan c).bo - 1#4) ∨
    (i = .synthg c ∧ (t.chan c).bo = (s.chan c).bo - 18#4) := by
  rcases exec_counters h with ⟨ch, k, rfl⟩ | ⟨ch, rfl⟩ | ⟨mask, rfl, -⟩ | ⟨-, hsame⟩
  · obtain ⟨rfl, hbo⟩ := synthesize_offsets (ch := ch) h hne
    exact .inr (.inl ⟨k, rfl, hbo⟩)
  · obtain ⟨rfl, hbo⟩ := synthesize_offsets (ch := ch) h hne
    exact .inr (.inr ⟨rfl, hbo⟩)
  · have hbo := execClrh_bo h c
    by_cases hm : mask.getLsbD c.toNat = true
    · exact .inl ⟨mask, rfl, hm, by rw [hbo, if_pos hm]⟩
    · exact absurd (by rw [hbo, if_neg hm]) hne
  · exact absurd (hsame c) hne

/-- Settles O29: the cause of the step is a reset, a host write or a command, each of which says what it changes. -/
theorem synthCountersChangeOnlyBy : Obligations.SynthCountersChangeOnlyBy := by
  refine ⟨fun s t c h hne => ?_, fun s t h hne => ?_⟩
  · rcases step_causes h with ⟨es, hp, rfl⟩ | ⟨op, es, hop, h⟩ | ⟨i, es, hi, h⟩ | ⟨_, _, rfl⟩
    · exact .inl ⟨.inl ⟨es, hp⟩, (countersZero_powerOn _).2 c⟩
    · rcases hostAccess_counters h with ⟨w, rfl, hw, -, hzero⟩ | ⟨_, _, -, -, -, hsame⟩ | ⟨-, hsame⟩
      · exact .inl ⟨.inr ⟨w, hop, hw⟩, hzero c⟩
      · exact absurd (hsame c) hne
      · exact absurd (hsame c) hne
    · rcases exec_offsets h hne with ⟨m, rfl, hm, hbo⟩ | ⟨k, rfl, hbo⟩ | ⟨rfl, hbo⟩
      · exact .inr (.inl ⟨m, hi, hm, hbo⟩)
      · exact .inr (.inr (.inl ⟨k, hi, hbo⟩))
      · exact .inr (.inr (.inr ⟨hi, hbo⟩))
    · exact absurd rfl hne
  · rcases step_causes h with ⟨es, hp, rfl⟩ | ⟨op, es, hop, h⟩ | ⟨i, es, hi, h⟩ | ⟨_, _, rfl⟩
    · exact .inl ⟨.inl ⟨es, hp⟩, rfl⟩
    · rcases hostAccess_counters h with ⟨w, rfl, hw, hzero, -⟩ | ⟨off, w, rfl, hoff, hzero, -⟩ | ⟨hsame, -⟩
      · exact .inl ⟨.inr ⟨w, hop, hw⟩, hzero⟩
      · exact .inr (.inl ⟨⟨off, w, hop, by omega, by omega⟩, hzero⟩)
      · exact absurd hsame hne
    · rcases exec_counters h with ⟨ch, k, rfl⟩ | ⟨ch, rfl⟩ | ⟨_, -, hsame⟩ | ⟨hsame, -⟩
      · exact .inr (.inr (.inl ⟨ch, k, hi⟩))
      · exact .inr (.inr (.inr ⟨ch, hi⟩))
      · exact absurd hsame hne
      · exact absurd hsame hne
    · exact absurd rfl hne

end Sys2Proof.Machine
end

section
/-! PROOFS. The control commands NOP (R400) and CLRH (R402): what each leaves of the state. Settles O30 and O31. -/

namespace Sys2Proof.Machine

variable {N : NumImpl} {s t : State N}

/-! ### CLRH -/

/-- With nothing listed, every cell of OVL and VR is ZERO. -/
theorem filterCleared_clear (c : Channel N) : FilterCleared c.clear :=
  ⟨fun _ => rfl, fun _ => rfl, rfl⟩

/-- R402: a channel after CLRH is the cleared one if its mask bit is 1, and the old one otherwise. -/
theorem execClrh_chan {mask : BitVec 2} (h : execClrh mask s = .next t) (c : BitVec 1) :
    t.chan c = if mask.getLsbD c.toNat then (s.chan c).clear else s.chan c := by
  obtain rfl := Host.Outcome.next.inj h
  rcases channel_cases c with rfl | rfl
  · rfl
  · rfl

/-- R402: CLRH changes nothing but the channels, DONE and the latch. -/
theorem execClrh_frame {mask : BitVec 2} (h : execClrh mask s = .next t) :
    CompletesWithin s t ∧ NoOutput s t ∧ t.free = s.free := by
  obtain rfl := Host.Outcome.next.inj h
  exact ⟨rfl, ⟨rfl, rfl, rfl⟩, rfl⟩

/-! ### Obligations -/

/-- Settles O31: the word is CLRH's encoding, and each channel is cleared or kept by its own mask bit. -/
theorem clrhClearsMaskedChannels : Obligations.ClrhClearsMaskedChannels := by
  intro mask s
  obtain ⟨t, h⟩ : ∃ t, exec (.clrh mask) s = .next t := ⟨_, rfl⟩
  obtain ⟨hcompletes, hout, hfree⟩ := execClrh_frame h
  refine ⟨decodeOfEncodeIsIdentity (.clrh mask) rfl, t, h, hcompletes, hout, hfree, fun c => ⟨?_, ?_⟩⟩
  · intro hm
    rw [execClrh_chan h, if_pos hm]
    exact ⟨filterCleared_clear _, rfl, rfl⟩
  · intro hm
    rw [execClrh_chan h, hm, if_neg Bool.false_ne_true]

/-- Settles O30: the word is NOP's encoding, and NOP is the end of a command with nothing before it. -/
theorem nopOnlySetsDone : Obligations.NopOnlySetsDone :=
  ⟨decodeOfEncodeIsIdentity .nop rfl, fun _ => rfl⟩

end Sys2Proof.Machine
end

section
/-! PROOFS. A command's issue and its end (R54, R450, R451, R453, R458, R466): what each host write does to the latch,
and how each command leaves it. Settles O6, O8, O9 and O11. -/

namespace Sys2Proof.Machine

variable {N : NumImpl} {s t u : State N} {ch : BitVec 1} {w : Word}

/-! ### The issue (R450) -/

theorem recordError_eq (s : State N) (e : ErrorCode) :
    s.recordError e = { s with status := errorStatus s.status e.value } := rfl

theorem issue_of_busy (hb : s.busy = true) : s.issue w = s.recordError .cmdBusy := if_pos hb

theorem issue_of_err (hb : s.busy = false) (he : s.status.err = true) : s.issue w = s := by
  simp [State.issue, hb, he]

theorem issue_of_decode_error (hb : s.busy = false) (he : s.status.err = false) (hw : ∃ e, decode w = .error e) :
    s.issue w = s.recordError .badCmd := by
  obtain ⟨e, hw⟩ := hw
  simp [State.issue, hb, he, hw]

theorem issue_of_decode_ok {i : Instr} (hb : s.busy = false) (he : s.status.err = false) (hw : decode w = .ok i) :
    s.issue w = { s with status := { s.status with done := false }, latch := some ⟨w, s.par⟩ } := by
  simp [State.issue, hb, he, hw]

/-- Everything a CMD write can do: an error recorded or not, or the word latched. -/
theorem issue_cases (s : State N) (w : Word) :
    (∃ e, s.issue w = s.recordError e) ∨ s.issue w = s ∨
    (∃ i, s.busy = false ∧ s.status.err = false ∧ decode w = .ok i ∧
      s.issue w = { s with status := { s.status with done := false }, latch := some ⟨w, s.par⟩ }) := by
  by_cases hb : s.busy = true
  · exact .inl ⟨_, issue_of_busy hb⟩
  rw [Bool.not_eq_true] at hb
  by_cases he : s.status.err = true
  · exact .inr (.inl (issue_of_err hb he))
  rw [Bool.not_eq_true] at he
  cases hw : decode w with
  | error e => exact .inl ⟨_, issue_of_decode_error hb he ⟨e, hw⟩⟩
  | ok i => exact .inr (.inr ⟨i, hb, he, rfl, issue_of_decode_ok hb he hw⟩)

/-- R450: a host write to CMD, BUSY or not, is the issue of its word. -/
theorem hostAccess_write_cmd (s : State N) (w : Word) :
    hostAccess (.write .w32 0x000C#16 w) s = .next (s.issue w) :=
  hostAccess_write_register (k := 3) rfl (by decide) w

/-- Settles O9: the issue's three tests, each with those before it passed; an encoding passes the last. -/
theorem issueTestsThenLatches : Obligations.IssueTestsThenLatches := by
  intro s w
  refine ⟨fun hb => ?_, fun hb he => ?_, fun hb he hw => ?_, fun i hb he hi => ?_⟩
  · rw [hostAccess_write_cmd, issue_of_busy hb, recordError_eq, ErrorCode.value]
  · rw [hostAccess_write_cmd, issue_of_err hb he]
  · rw [hostAccess_write_cmd, issue_of_decode_error hb he hw, recordError_eq, ErrorCode.value]
  · rw [hostAccess_write_cmd, issue_of_decode_ok hb he (decodeOfEncodeIsIdentity i hi)]

/-- Settles O8: the encoding placed in the latch is that command's, and the sequencer's event is the next one. -/
theorem placedCommandRunsNext : Obligations.PlacedCommandRunsNext := by
  intro s i hi
  have hword : BitVec.ofNat 32 ((encode i).toNat % 2 ^ 32) = encode i := by
    rw [Nat.mod_eq_of_lt (encode i).isLt, BitVec.ofNat_toNat, BitVec.setWidth_eq]
  have hplaced : s.withFetchWord 32 (encode i).toNat =
      { s with latch := some ⟨encode i, s.par⟩, pending := .sequencer :: s.pending } := by
    rw [State.withFetchWord, hword]
  obtain ⟨-, hrun⟩ := stepRunsLatchedCommand _ _ i (congrArg State.latch hplaced) (decodeOfEncodeIsIdentity i hi)
  rw [hrun s.pending (congrArg State.pending hplaced), hplaced]

/-! ### What a host write can do -/

/-- R404: a register write is an issue, a soft reset, a clearing of STATUS bits, or changes only CTRL, the parameter
registers and CLIPCNT. -/
theorem writeRegister_cases (s : State N) (n : Nat) (w : Word) :
    (n = 3 ∧ s.writeRegister n w = s.issue w) ∨ s.writeRegister n w = s.softReset ∨
    s.writeRegister n w = { s with status := s.status.clear w } ∨
    ∃ ctrl par clipcnt, s.writeRegister n w = { s with ctrl := ctrl, par := par, clipcnt := clipcnt } := by
  unfold State.writeRegister
  split
  case h_1 =>
    unfold State.writeCtrl
    split
    · exact .inr (.inl rfl)
    · exact .inr (.inr (.inr ⟨_, _, _, rfl⟩))
  case h_2 => exact .inr (.inr (.inl rfl))
  case h_3 => exact .inl ⟨rfl, rfl⟩
  all_goals exact .inr (.inr (.inr ⟨_, _, _, rfl⟩))

/-- Nothing but the memories and the offsets of the channels differs. -/
def OnlyMemories (s t : State N) : Prop :=
  t = { s with
    bitbuf := t.bitbuf, sfl := t.sfl, sfs := t.sfs, isq := t.isq, pcm := t.pcm, ch0 := t.ch0, ch1 := t.ch1 }

theorem OnlyMemories.latch_eq (h : OnlyMemories s t) : t.latch = s.latch := (congrArg State.latch h :)

theorem onlyMemories_setChan (s : State N) (c : BitVec 1) (x : Channel N) : OnlyMemories s (s.setChan c x) := by
  rcases channel_cases c with rfl | rfl
  · rfl
  · rfl

theorem onlyMemories_writePlace {place : Place} (hp : place ≠ .register) (n : Nat) (w : Word) :
    OnlyMemories s (s.writePlace place n w) := by
  cases place with
  | register => exact absurd rfl hp
  | sfl => rfl
  | sfs => rfl
  | bitbuf => rfl
  | isq => rfl
  | pcm => rfl
  | xr c => exact onlyMemories_setChan s c _
  | ovl c => exact onlyMemories_setChan s c _
  | sbs c => exact onlyMemories_setChan s c _
  | vr c => exact onlyMemories_setChan s c _

/-- R466: a host access keeps the latch or empties it, or is a write to CMD that latches its word. -/
theorem hostAccess_latch {op : HostOp} (h : hostAccess op s = .next t) :
    t.latch = s.latch ∨ t.latch = none ∨ ∃ w i, op = .write .w32 0x000C#16 w ∧ decode w = .ok i ∧
      s.status.err = false ∧ t.latch = some ⟨w, s.par⟩ := by
  rcases hostAccess_next h with ⟨_, _, _, -, rfl⟩ | ⟨_, _, -, h⟩ | ⟨off, w, hop, halign, h⟩
  · exact .inl rfl
  · obtain ⟨-, rfl⟩ := writeByte_next h
    exact .inl rfl
  rcases writeWord_next h with ⟨-, rfl⟩ | ⟨place, n, hloc, -, rfl⟩
  · exact .inl rfl
  by_cases hp : place = .register
  swap
  · exact .inl (onlyMemories_writePlace hp n w).latch_eq
  subst hp
  rw [State.writePlace]
  rcases writeRegister_cases s n w with ⟨h3, hw⟩ | hw | hw | ⟨_, _, _, hw⟩
  · have hn := index_of_locate_register hloc
    have hoff : off = 0x000C#16 := BitVec.eq_of_toNat_eq (show off.toNat = 12 by omega)
    rcases issue_cases s w with ⟨_, hi⟩ | hi | ⟨i, -, he, hdec, hi⟩
    · exact .inl (by rw [hw, hi, State.recordError_latch])
    · exact .inl (by rw [hw, hi])
    · exact .inr (.inr ⟨w, i, hoff ▸ hop, hdec, he, by rw [hw, hi]⟩)
  · exact .inr (.inl (by rw [hw]; rfl))
  · exact .inl (by rw [hw])
  · exact .inl (by rw [hw])

/-- Settles O6: with the latch empty the sequencer's step is idle, and of what else a step can do only a CMD write
latches a command. -/
theorem idleKeepsState : Obligations.IdleKeepsState := by
  intro s hl
  refine ⟨fun hp => ?_, fun es hp => ?_, fun t h hne => ?_⟩
  · rw [step_of_pending_nil hp, sequencerStep, hl]
  · rw [step_of_pending_cons hp, takeEvent, sequencerStep, hl]
  rcases step_causes h with ⟨_, -, rfl⟩ | ⟨op, es, hop, h⟩ | ⟨_, _, ⟨-, l, hlatch, -⟩, -⟩ | ⟨_, _, rfl⟩
  · exact absurd rfl hne
  · rcases hostAccess_latch h with hsame | hnone | ⟨w, i, rfl, hdec, he, hlatch⟩
    · exact absurd (hsame.trans hl) hne
    · exact absurd hnone hne
    · exact ⟨w, i, hop, hdec, he, hlatch⟩
  · rw [hl] at hlatch
    cases hlatch
  · exact absurd hl hne

/-! ### The end of a command (R450, R451, R453) -/

/-- The latch is empty, DONE is set and no error is recorded. -/
def EndsDone (s t : State N) : Prop :=
  t.latch = none ∧ t.status.done = true ∧ t.status.err = s.status.err ∧ t.status.errcode = s.status.errcode

/-- A command ends done when what it did before its end recorded no error. -/
theorem endsDone_complete (h : u.status.err = s.status.err ∧ u.status.errcode = s.status.errcode) :
    EndsDone s u.complete := ⟨rfl, rfl, h⟩

theorem endsDone_setChan_complete (s : State N) (c : BitVec 1) (x : Channel N) :
    EndsDone s (s.setChan c x).complete :=
  endsDone_complete (by rw [State.setChan_status]; exact ⟨rfl, rfl⟩)

theorem endsDone_setChan_skipFree_complete (s : State N) (c : BitVec 1) (x : Channel N) (n : Nat) :
    EndsDone s ((s.setChan c x).skipFree n).complete := endsDone_setChan_complete s c x

theorem synthesize_ends {ks : List Nat} (h : synthesize ch ks s = .next t) :
    EndsDone s t ∨ t = s.raiseError .badParam := by
  rcases synthesize_next h with ⟨-, rfl⟩ | ⟨-, u, hu, rfl⟩
  · exact .inr rfl
  · exact .inl (endsDone_complete (synthSteps_keeps hu).status_eq.2)

/-- Every command ends done, or is a HUFF that aborts, or is refused with BADPARAM before it changes anything. -/
theorem exec_ends {i : Instr} {s t : State} (h : exec i s = .next t) :
    EndsDone s t ∨ (i = .huff ∧ ∃ g, t = s.huffAbort g) ∨
    (((∃ ch, i = .deq ch) ∨ (∃ ch k, i = .synth ch k) ∨ (∃ ch, i = .synthg ch)) ∧ t = s.raiseError .badParam) := by
  cases i with
  | nop => cases h; exact .inl (endsDone_complete ⟨rfl, rfl⟩)
  | huff =>
    obtain ⟨-, g, line, ⟨-, rfl⟩ | ⟨-, rfl⟩⟩ := execHuff_next h
    · exact .inl (endsDone_complete ⟨rfl, rfl⟩)
    · exact .inr (.inl ⟨rfl, g, rfl⟩)
  | deq ch =>
    rcases execDeq_next h with ⟨-, rfl⟩ | ⟨-, _, _, -, -, rfl⟩
    · exact .inr (.inr ⟨.inl ⟨ch, rfl⟩, rfl⟩)
    · exact .inl (endsDone_setChan_complete s ch _)
  | aa ch =>
    obtain ⟨_, -, rfl⟩ := execAa_next h
    exact .inl (endsDone_setChan_skipFree_complete s ch _ _)
  | imdct ch =>
    obtain ⟨_, _, -, -, rfl⟩ := execImdct_next h
    exact .inl (endsDone_setChan_skipFree_complete s ch _ _)
  | synth ch k => exact (synthesize_ends h).imp_right fun ht => .inr ⟨.inr (.inl ⟨ch, k, rfl⟩), ht⟩
  | synthg ch => exact (synthesize_ends h).imp_right fun ht => .inr ⟨.inr (.inr ⟨ch, rfl⟩), ht⟩
  | clrh mask => cases h; exact .inl (endsDone_complete ⟨rfl, rfl⟩)

/-- Settles O11: what an abort and a refusal record is `errorStatus` of their code. -/
theorem commandsEndDoneOrWithOneError : Obligations.CommandsEndDoneOrWithOneError := by
  intro i s t h
  rcases exec_ends h with ⟨hlatch, hdone⟩ | ⟨hi, g, rfl⟩ | ⟨hi, rfl⟩
  · exact ⟨hlatch, .inl hdone⟩
  · obtain ⟨-, -, -, hstatus⟩ := huffAbort_registers s g
    exact ⟨rfl, .inr (.inl ⟨hi, hstatus⟩)⟩
  · exact ⟨rfl, .inr (.inr ⟨hi, rfl⟩)⟩

end Sys2Proof.Machine
end

section
/-! PROOFS. The invariant of a run (R35, R40–R48, R450, R452): each access and each command keeps the memories in
canonical form, the error record legal, the latch decodable and C1END a line number. Settles O26. -/

namespace Sys2Proof.Machine

variable {N : NumImpl} {s t u : State N} {ch : BitVec 1} {p : Params} {w : Word}

/-! ### The parts of the invariant -/

/-- A state that differs in its memories only has the invariant with them in canonical form. -/
theorem inv_of_onlyMemories (hs : s.inv = true) (h : OnlyMemories s t) (hm : t.memoryWf = true) : t.inv = true := by
  obtain ⟨-, hstatus, hlatch, hc1end⟩ := inv_iff.1 hs
  rw [OnlyMemories] at h
  rw [h] at hm ⊢
  exact inv_iff.2 ⟨hm, hstatus, hlatch, hc1end⟩

theorem latchLegal_of_latch_none (h : s.latch = none) : s.latchLegal = true := by rw [State.latchLegal, h]

theorem latchLegal_of_decode {l : Latch} {i : Instr} (h : s.latch = some l) (hi : decode l.word = .ok i) :
    s.latchLegal = true := by simp only [State.latchLegal, h, hi]

theorem legal_iff {r : Status} : r.legal = true ↔ r.errcode.toNat ≤ 4 ∧ (r.err = true ↔ r.errcode ≠ 0#4) := by
  rw [Status.legal, Bool.and_eq_true, decide_eq_true_eq, decide_eq_true_eq, Bool.eq_iff_iff, decide_eq_true_eq]

/-- R450, R452: recording one of the four codes keeps the error record legal. -/
theorem legal_of_recorded {r r' : Status} (hr : r.legal = true) (e : ErrorCode) (herr : r'.err = true)
    (hcode : r'.errcode = (errorStatus r e.value).errcode) : r'.legal = true := by
  obtain ⟨hle, hiff⟩ := legal_iff.1 hr
  have hvalue : e.value.toNat ≤ 4 ∧ e.value ≠ 0#4 := by cases e <;> decide
  rw [legal_iff, herr, hcode, errorStatus]
  cases he : r.err with
  | true => exact ⟨hle, iff_of_true rfl (hiff.1 he)⟩
  | false => exact ⟨hvalue.1, iff_of_true rfl hvalue.2⟩

/-- R35: clearing ERR clears ERRCODE with it. -/
theorem legal_clear {r : Status} (hr : r.legal = true) (w : Word) : (r.clear w).legal = true := by
  by_cases hw : w.getLsbD 2 = true
  · have herr : (r.clear w).err = false := by simp [Status.clear, hw]
    have hcode : (r.clear w).errcode = 0#4 := if_pos hw
    rw [legal_iff, herr, hcode]
    decide
  · rw [Bool.not_eq_true] at hw
    simpa only [legal_iff, Status.clear, hw, Bool.not_false, Bool.and_true, Bool.false_eq_true, if_false] using hr

theorem channel_memoryWf_softReset {x : Channel N} (hx : x.memoryWf = true) : x.softReset.memoryWf = true := by
  obtain ⟨hxr, -, hsbs, -⟩ := channel_memoryWf_iff.1 hx
  exact channel_memoryWf_iff.2 ⟨hxr, Store.wf_nil _, hsbs, Store.wf_nil _⟩

/-- Replacing the XR of a channel by one in canonical form. -/
theorem memoryWf_setXr (hs : s.memoryWf = true) (c : BitVec 1) {xr : Store N.bits}
    (hxr : Store.wf unspecified 576 xr = true) : (s.setChan c { s.chan c with xr := xr }).memoryWf = true := by
  obtain ⟨-, -, -, -, -, hchan⟩ := memoryWf_iff.1 hs
  obtain ⟨-, hrest⟩ := channel_memoryWf_iff.1 (hchan c)
  exact memoryWf_setChan hs (channel_memoryWf_iff.2 ⟨hxr, hrest⟩)

theorem wf_xr (hs : s.memoryWf = true) (c : BitVec 1) : Store.wf unspecified 576 (s.chan c).xr = true := by
  obtain ⟨-, -, -, -, -, hchan⟩ := memoryWf_iff.1 hs
  exact (channel_memoryWf_iff.1 (hchan c)).1

/-! ### Resets -/

/-- R501: making cells unspecified keeps the memories in canonical form. -/
theorem memoryWf_discard (hs : s.memoryWf = true) (i : Instr) : (s.discard i).memoryWf = true := by
  obtain ⟨hbit, hsfl, hsfs, hisq, hpcm, hchan⟩ := memoryWf_iff.1 hs
  have hpcm' (stereo : Bool) (ch : BitVec 1) :
      ({ s with pcm := s.pcm.forget (pcmOfChannel stereo ch) } : State N).memoryWf = true :=
    memoryWf_iff.2 ⟨hbit, hsfl, hsfs, hisq, Store.wf_forget hpcm _, hchan⟩
  cases i with
  | nop => exact hs
  | clrh mask => exact hs
  | huff => exact memoryWf_iff.2 ⟨hbit, hsfl, hsfs, Store.wf_forget hisq (fun _ => true), hpcm, hchan⟩
  | deq ch => exact memoryWf_setXr hs ch (Store.wf_forget (wf_xr hs ch) _)
  | aa ch => exact memoryWf_setXr hs ch (Store.wf_forget (wf_xr hs ch) _)
  | imdct ch =>
    obtain ⟨hxr, hovl, hsbs, hvr⟩ := channel_memoryWf_iff.1 (hchan ch)
    exact memoryWf_setChan hs (channel_memoryWf_iff.2 ⟨hxr, hovl, Store.wf_forget hsbs (fun _ => true), hvr⟩)
  | synth ch k => exact hpcm' _ ch
  | synthg ch => exact hpcm' _ ch

theorem memoryWf_discardLatched (hs : s.memoryWf = true) : s.discardLatched.memoryWf = true := by
  unfold State.discardLatched
  split
  · exact hs
  · split
    · exact memoryWf_discard hs _
    · exact hs

theorem inv_softReset (hs : s.memoryWf = true) : s.softReset.inv = true := by
  obtain ⟨hbit, hsfl, hsfs, hisq, hpcm, hchan⟩ := memoryWf_iff.1 (memoryWf_discardLatched hs)
  refine inv_iff.2 ⟨memoryWf_iff.2 ⟨hbit, hsfl, hsfs, hisq, hpcm, fun c => ?_⟩, rfl, rfl, Nat.zero_le 576⟩
  rcases channel_cases c with rfl | rfl
  · exact channel_memoryWf_softReset (hchan 0#1)
  · exact channel_memoryWf_softReset (hchan 1#1)

theorem inv_powerOn (s : State N) : s.powerOn.inv = true := by
  refine inv_iff.2 ⟨memoryWf_iff.2 ⟨rfl, rfl, rfl, rfl, rfl, fun c => ?_⟩, rfl, rfl, Nat.zero_le 576⟩
  rcases channel_cases c with rfl | rfl
  · rfl
  · rfl

/-! ### Host accesses -/

theorem inv_recordError (hs : s.inv = true) (e : ErrorCode) : (s.recordError e).inv = true := by
  obtain ⟨hm, hstatus, hlatch, hc1end⟩ := inv_iff.1 hs
  exact inv_iff.2 ⟨hm, legal_of_recorded hstatus e rfl rfl, hlatch, hc1end⟩

/-- R450: only a word that decodes is latched. -/
theorem inv_issue (hs : s.inv = true) (w : Word) : (s.issue w).inv = true := by
  obtain ⟨hm, hstatus, -, hc1end⟩ := inv_iff.1 hs
  rcases issue_cases s w with ⟨e, hi⟩ | hi | ⟨i, -, -, hdec, hi⟩
  · rw [hi]
    exact inv_recordError hs e
  · rwa [hi]
  · rw [hi]
    exact inv_iff.2 ⟨hm, hstatus, latchLegal_of_decode rfl hdec, hc1end⟩

theorem inv_writeRegister (hs : s.inv = true) (n : Nat) (w : Word) : (s.writeRegister n w).inv = true := by
  obtain ⟨hm, hstatus, hlatch, hc1end⟩ := inv_iff.1 hs
  rcases writeRegister_cases s n w with ⟨-, hw⟩ | hw | hw | ⟨_, _, _, hw⟩
  · rw [hw]
    exact inv_issue hs w
  · rw [hw]
    exact inv_softReset hm
  · rw [hw]
    exact inv_iff.2 ⟨hm, legal_clear hstatus w, hlatch, hc1end⟩
  · rw [hw]
    exact inv_iff.2 ⟨hm, hstatus, hlatch, hc1end⟩

/-- R100: a located word lies in a row of the window's map. -/
theorem exists_mapRow_of_locate {off n : Nat} {place : Place} (h : locate off = some (place, n)) :
    ∃ r ∈ windowMap, r.place = place ∧ n < r.words := by
  obtain ⟨r, hr, heq⟩ := Option.map_eq_some_iff.1 h
  obtain ⟨hplace, rfl⟩ := Prod.mk.inj heq
  have hholds := List.find?_some hr
  simp only [MapRow.holds, Bool.and_eq_true, decide_eq_true_eq] at hholds
  exact ⟨r, List.mem_of_find?_eq_some hr, hplace, by omega⟩

/-- R100: a located word of a memory is one of its cells, or one of the 1024 words of BITBUF. -/
theorem lt_of_locate {off n : Nat} {place : Place} (h : locate off = some (place, n)) :
    place = .register ∨ (place = .bitbuf ∧ n < 1024) ∨ n < place.cells := by
  have hrows : ∀ r ∈ windowMap,
      r.place = .register ∨ (r.place = .bitbuf ∧ r.words = 1024) ∨ r.words = r.place.cells := by decide
  obtain ⟨r, hr, rfl, hn⟩ := exists_mapRow_of_locate h
  rcases hrows r hr with hreg | ⟨hbit, hwords⟩ | hwords
  · exact .inl hreg
  · exact .inr (.inl ⟨hbit, hwords ▸ hn⟩)
  · exact .inr (.inr (hwords ▸ hn))

theorem inv_writePlace (hs : s.inv = true) {off n : Nat} {place : Place} (hloc : locate off = some (place, n))
    (w : Word) : (s.writePlace place n w).inv = true := by
  obtain ⟨hm, -⟩ := inv_iff.1 hs
  by_cases hp : place = .register
  · subst hp
    exact inv_writeRegister hs n w
  refine inv_of_onlyMemories hs (onlyMemories_writePlace hp n w) ?_
  rcases (lt_of_locate hloc).resolve_left hp with ⟨rfl, hn⟩ | hn
  · exact memoryWf_writePlace_bitbuf hm hn w
  · exact memoryWf_writePlace hm hn w

/-- R105: a byte write that goes on lies in BITBUF. -/
theorem bitbuf_bounds_of_hostAccess {off : BitVec 16} (h : hostAccess (.write .w8 off w) s = .next t) :
    0x1000 ≤ off.toNat ∧ off.toNat < 0x2000 := by
  by_cases ha : accepts .w8 off.toNat = true
  · exact ((accepts_iff.1 ha).resolve_left fun h => nomatch h.1).2
  · rw [hostAccess_write_eq_busErr_iff.2 ha] at h
    cases h

theorem inv_hostAccess {op : HostOp} (hs : s.inv = true) (h : hostAccess op s = .next t) : t.inv = true := by
  rcases hostAccess_next h with ⟨_, _, _, -, rfl⟩ | ⟨off, w, rfl, hbyte⟩ | ⟨off, w, -, -, hword⟩
  · exact hs
  · have hoff := bitbuf_bounds_of_hostAccess h
    obtain ⟨-, rfl⟩ := writeByte_next hbyte
    obtain ⟨hbit, hrest⟩ := memoryWf_iff.1 (inv_iff.1 hs).1
    exact inv_of_onlyMemories hs rfl (memoryWf_iff.2 ⟨Store.wf_set hbit (by omega) _, hrest⟩)
  · rcases writeWord_next hword with ⟨-, rfl⟩ | ⟨place, n, hloc, -, rfl⟩
    · exact hs
    · exact inv_writePlace hs hloc w

/-! ### Commands -/

theorem length_spectrum {vs : List Int} (hlen : vs.length ≤ 576) (r : Reader) (m : BitVec 8) :
    (spectrum (progressOf vs r m)).length = 576 := by
  simp only [spectrum, progressOf, List.length_append, List.length_reverse, List.length_map, List.length_replicate]
  omega

theorem memoryWf_storeSpectrum (hs : s.memoryWf = true) {vs : List Int} (hlen : vs.length ≤ 576) (r : Reader)
    (m : BitVec 8) : (s.storeSpectrum (progressOf vs r m)).memoryWf = true := by
  obtain ⟨hbit, hsfl, hsfs, hisq, hrest⟩ := memoryWf_iff.1 hs
  exact memoryWf_iff.2 ⟨hbit, hsfl, hsfs, Store.wf_fill hisq (by rw [length_spectrum hlen]), hrest⟩

/-- R213, R217: the granule that HUFF decodes, whole or not, fits in IS. -/
theorem memoryWf_execHuff (hs : s.memoryWf = true) (h : execHuff s = .next t) : t.memoryWf = true := by
  obtain ⟨_, _, _, _, _, _, r, hdec, hend⟩ := execHuff_decoded h
  have hstored := memoryWf_storeSpectrum hs (hdec.length_values.trans_le hdec.fits) r
  rcases hend with ⟨-, _, _, rfl⟩ | ⟨-, _, rfl⟩
  · exact hstored _
  · exact hstored _

/-- R215, R216: C1END takes the first line of the zero region, 576 if there is none. -/
theorem c1end_execHuff (hs : s.c1end.toNat ≤ 576) (h : execHuff s = .next t) : t.c1end.toNat ≤ 576 := by
  obtain ⟨_, _, _, _, _, _, _, hdec, hend⟩ := execHuff_decoded h
  rcases hend with ⟨-, _, _, rfl⟩ | ⟨-, _, rfl⟩
  · exact (Nat.mod_le _ _).trans hdec.fits
  · exact hs

/-- R301: every boundary's sixteen cells lie in XR. -/
theorem wf_antialias {bs : List Nat} {slot : Nat} {xr xr' : Store N.bits} (h : antialias bs slot xr = some xr')
    (hx : Store.wf unspecified 576 xr = true) (hbs : ∀ b ∈ bs, b ≤ 31) : Store.wf unspecified 576 xr' = true := by
  induction bs generalizing slot xr with
  | nil =>
    obtain rfl : xr = xr' := Option.some.inj h
    exact hx
  | cons b bs ih =>
    obtain ⟨hb, hbs⟩ := List.forall_mem_cons.1 hbs
    rw [antialias] at h
    split at h
    · exact ih h (Store.wf_fill hx (by rw [length_butterflies]; omega)) hbs
    · cases h

@[simp] theorem length_sbsCells (p : Params) (slot : Nat) (xs os : List N.R) :
    (sbsCells p slot xs os).length = 576 := by
  simp [sbsCells, List.length_flatMap]

/-- R358: the PCM cells of the 18 time slots. -/
theorem pcmCell_lt_1152 {n : Nat} (hn : n < 576) : pcmCell p ch n < 1152 := by
  have hch := ch.isLt
  unfold pcmCell
  split <;> omega

/-- A step at one of the 18 time slots writes cells of PCM and of the channel's VR. -/
theorem memoryWf_synthStep {k : Nat} (hs : s.memoryWf = true) (hk : k ≤ 17) (h : synthStep ch p k s = some t) :
    t.memoryWf = true := by
  obtain ⟨hbit, hsfl, hsfs, hisq, hpcm, hchan⟩ := memoryWf_iff.1 hs
  obtain ⟨_, _, -, -, hkeeps, hbo, -⟩ := synthStep_some h
  obtain ⟨_, _, -, -, hvr, hcells, -⟩ := synthStep_writes h
  have honly := hkeeps.onlyChannel
  have hself := hkeeps.chan_eq hbo
  obtain ⟨-, -, -, -, -, -, hbit', hsfl', hsfs', hisq', -⟩ := hkeeps
  refine memoryWf_iff.2 ⟨hbit' ▸ hbit, hsfl' ▸ hsfl, hsfs' ▸ hsfs, hisq' ▸ hisq, ?_, fun c => ?_⟩
  · rw [hcells]
    refine Store.wf_writes hpcm (pairwise_pcmCells ..) fun e he => ?_
    obtain ⟨j, hj, rfl⟩ := List.mem_map.1 he
    have := List.mem_range.1 hj
    exact pcmCell_lt_1152 (by omega)
  by_cases hc : c = ch
  · subst hc
    obtain ⟨hxr, hovl, hsbs, hvrWf⟩ := channel_memoryWf_iff.1 (hchan c)
    rw [hself, hvr]
    refine channel_memoryWf_iff.2 ⟨hxr, hovl, hsbs, Store.wf_fill hvrWf ?_⟩
    have := ((s.chan c).bo - 1#4).isLt
    rw [length_settledAll]
    omega
  · rw [honly c hc]
    exact hchan c

theorem memoryWf_synthSteps {ks : List Nat} (hs : s.memoryWf = true) (hks : ∀ k ∈ ks, k ≤ 17)
    (h : synthSteps ch p ks s = some t) : t.memoryWf = true := by
  induction ks generalizing s with
  | nil =>
    obtain rfl : s = t := Option.some.inj h
    exact hs
  | cons k ks ih =>
    obtain ⟨hk, hks⟩ := List.forall_mem_cons.1 hks
    obtain ⟨u, hu, h⟩ := synthSteps_cons.1 h
    exact ih (memoryWf_synthStep hs hk hu) hks h

theorem memoryWf_synthesize {ks : List Nat} (hs : s.memoryWf = true) (hks : ∀ k ∈ ks, k ≤ 17)
    (h : synthesize ch ks s = .next t) : t.memoryWf = true := by
  rcases synthesize_next h with ⟨-, rfl⟩ | ⟨-, u, hu, rfl⟩
  · exact hs
  · exact memoryWf_synthSteps (t := u) hs hks hu

theorem synthesize_c1end {ks : List Nat} (h : synthesize ch ks s = .next t) : t.c1end = s.c1end := by
  rcases synthesize_next h with ⟨-, rfl⟩ | ⟨-, u, hu, rfl⟩
  · rfl
  · obtain ⟨-, -, -, -, hc1end, -⟩ := synthSteps_keeps hu
    exact hc1end

theorem memoryWf_execClrh {mask : BitVec 2} (hs : s.memoryWf = true) (h : execClrh mask s = .next t) :
    t.memoryWf = true := by
  obtain ⟨hbit, hsfl, hsfs, hisq, hpcm, hchan⟩ := memoryWf_iff.1 hs
  have hafter := execClrh_chan h
  obtain rfl := Host.Outcome.next.inj h
  refine memoryWf_iff.2 ⟨hbit, hsfl, hsfs, hisq, hpcm, fun c => ?_⟩
  rw [hafter c]
  split
  · exact channel_memoryWf_softReset (hchan c)
  · exact hchan c

/-- Every well-formed command keeps the memories in canonical form. -/
theorem memoryWf_exec {i : Instr} {s t : State} (hs : s.memoryWf = true) (hi : i.wellFormed = true)
    (h : exec i s = .next t) : t.memoryWf = true := by
  cases i with
  | nop => cases h; exact hs
  | huff => exact memoryWf_execHuff hs h
  | deq ch =>
    rcases execDeq_next h with ⟨-, rfl⟩ | ⟨-, _, _, -, -, rfl⟩
    · exact hs
    · exact memoryWf_setXr hs ch (Store.wf_fill (wf_xr hs ch) (by simp))
  | aa ch =>
    obtain ⟨xr, hxr, rfl⟩ := execAa_next h
    exact memoryWf_setXr hs ch (wf_antialias hxr (wf_xr hs ch) fun b hb => (mem_aaBoundaries.1 hb).2.1)
  | imdct ch =>
    obtain ⟨_, _, -, -, rfl⟩ := execImdct_next h
    obtain ⟨-, -, -, -, -, hchan⟩ := memoryWf_iff.1 hs
    obtain ⟨hxr, hovl, hsbs, hvr⟩ := channel_memoryWf_iff.1 (hchan ch)
    exact memoryWf_setChan hs (channel_memoryWf_iff.2
      ⟨hxr, Store.wf_fill hovl (by simp), Store.wf_fill hsbs (by simp), hvr⟩)
  | synth ch k =>
    have hk : k.toNat ≤ 17 := of_decide_eq_true hi
    exact memoryWf_synthesize hs (by simpa using hk) h
  | synthg ch => exact memoryWf_synthesize hs (fun k hk => Nat.le_of_lt_succ (List.mem_range.1 hk)) h
  | clrh mask => exact memoryWf_execClrh hs h

/-- R51: of the commands, HUFF alone writes C1END. -/
theorem c1end_exec {i : Instr} {s t : State} (h : exec i s = .next t) : i = .huff ∨ t.c1end = s.c1end := by
  cases i with
  | nop => cases h; exact .inr rfl
  | huff => exact .inl rfl
  | deq ch =>
    rcases execDeq_next h with ⟨-, rfl⟩ | ⟨-, _, _, -, -, rfl⟩
    · exact .inr rfl
    · exact .inr (s.setChan_c1end ch _)
  | aa ch =>
    obtain ⟨_, -, rfl⟩ := execAa_next h
    exact .inr (s.setChan_c1end ch _)
  | imdct ch =>
    obtain ⟨_, _, -, -, rfl⟩ := execImdct_next h
    exact .inr (s.setChan_c1end ch _)
  | synth ch k => exact .inr (synthesize_c1end h)
  | synthg ch => exact .inr (synthesize_c1end h)
  | clrh mask => cases h; exact .inr rfl

/-- R450: a command ends with an empty latch, and with the error record as it was or one error recorded. -/
theorem legal_exec {i : Instr} {s t : State} (hs : s.status.legal = true) (h : exec i s = .next t) :
    t.status.legal = true := by
  obtain ⟨-, ⟨-, herr, hcode⟩ | ⟨-, -, herr, hcode⟩ | ⟨-, rfl⟩⟩ := commandsEndDoneOrWithOneError i s t h
  · rwa [legal_iff, herr, hcode, ← legal_iff]
  · exact legal_of_recorded hs .underflow herr hcode
  · exact legal_of_recorded hs .badParam rfl rfl

theorem inv_exec {i : Instr} {s t : State} (hs : s.inv = true) (hi : i.wellFormed = true)
    (h : exec i s = .next t) : t.inv = true := by
  obtain ⟨hm, hstatus, -, hc1end⟩ := inv_iff.1 hs
  obtain ⟨hlatch, -⟩ := commandsEndDoneOrWithOneError i s t h
  refine inv_iff.2 ⟨memoryWf_exec hm hi h, legal_exec hstatus h, latchLegal_of_latch_none hlatch, ?_⟩
  rcases c1end_exec h with rfl | hsame
  · exact c1end_execHuff hc1end h
  · rwa [hsame]

/-! ### Steps -/

/-- Settles O26: each cause of a step keeps the invariant; a latched command is well-formed, since its word decodes. -/
theorem stepKeepsInvariant : Obligations.StepKeepsInvariant := by
  intro s t hs h
  rcases step_causes h with ⟨_, -, rfl⟩ | ⟨op, es, -, h⟩ | ⟨i, es, ⟨-, l, -, hdec⟩, h⟩ | ⟨_, _, rfl⟩
  · exact inv_powerOn _
  · exact inv_hostAccess (s := { s with pending := es }) hs h
  · exact inv_exec (s := { s with pending := es }) hs (acceptedWordsAreEncodings l.word i hdec).1 h
  · exact hs

end Sys2Proof.Machine
end

section
/-! PROOFS. The filter state OVL and VR (R45, R47, R318, R502): which step can change a channel's, by its cause. Settles
O28. -/

namespace Sys2Proof.Machine

variable {N : NumImpl} {s t : State N}

/-! ### A channel's OVL and VR -/

/-- OVL of channel `c` is as it was. -/
def SameOvl (c : BitVec 1) (s t : State N) : Prop := (t.chan c).ovl = (s.chan c).ovl

/-- VR of channel `c` is as it was. -/
def SameVr (c : BitVec 1) (s t : State N) : Prop := (t.chan c).vr = (s.chan c).vr

variable {c ch : BitVec 1} {x : Channel N}

theorem SameOvl.refl : SameOvl c s s := rfl

theorem SameVr.refl : SameVr c s s := rfl

theorem SameOvl.of_chan_eq (h : t.chan c = s.chan c) : SameOvl c s t := congrArg Channel.ovl h

theorem SameVr.of_chan_eq (h : t.chan c = s.chan c) : SameVr c s t := congrArg Channel.vr h

theorem eq_or_chan_setChan_eq (s : State N) (c ch : BitVec 1) (x : Channel N) :
    ch = c ∨ (s.setChan ch x).chan c = s.chan c :=
  or_iff_not_imp_left.2 fun hc => State.setChan_chan_ne s (Ne.symm hc) x

theorem sameOvl_setChan (h : x.ovl = (s.chan ch).ovl) : SameOvl c s (s.setChan ch x) := by
  rcases eq_or_chan_setChan_eq s c ch x with rfl | hsame
  · rw [SameOvl, State.setChan_chan_self, h]
  · exact .of_chan_eq hsame

theorem sameVr_setChan (h : x.vr = (s.chan ch).vr) : SameVr c s (s.setChan ch x) := by
  rcases eq_or_chan_setChan_eq s c ch x with rfl | hsame
  · rw [SameVr, State.setChan_chan_self, h]
  · exact .of_chan_eq hsame

/-! ### Host accesses -/

/-- R100: a located word's offset lies in a row of the window's map. -/
theorem mapRow_bounds_of_locate {off n : Nat} {place : Place} (h : locate off = some (place, n)) :
    ∃ r ∈ windowMap, r.place = place ∧ r.base ≤ off ∧ off < r.base + 4 * r.words := by
  obtain ⟨r, hr, heq⟩ := Option.map_eq_some_iff.1 h
  obtain ⟨hplace, -⟩ := Prod.mk.inj heq
  have hholds := List.find?_some hr
  simp only [MapRow.holds, Bool.and_eq_true, decide_eq_true_eq] at hholds
  exact ⟨r, List.mem_of_find?_eq_some hr, hplace, hholds⟩

/-- R100: where OVL of a channel lies. -/
theorem bounds_of_locate_ovl {off n : Nat} {c : BitVec 1} (h : locate off = some (.ovl c, n)) :
    0x6000 + 0x1000 * c.toNat ≤ off ∧ off < 0x6900 + 0x1000 * c.toNat := by
  have hrows : ∀ r ∈ windowMap, ∀ c, r.place = .ovl c → r.base = 0x6000 + 0x1000 * c.toNat ∧ r.words = 576 := by decide
  obtain ⟨r, hr, hplace, hlo, hhi⟩ := mapRow_bounds_of_locate h
  have := hrows r hr c hplace
  omega

/-- R100: where VR of a channel lies. -/
theorem bounds_of_locate_vr {off n : Nat} {c : BitVec 1} (h : locate off = some (.vr c, n)) :
    0xA000 + 0x1000 * c.toNat ≤ off ∧ off < 0xB000 + 0x1000 * c.toNat := by
  have hrows : ∀ r ∈ windowMap, ∀ c, r.place = .vr c → r.base = 0xA000 + 0x1000 * c.toNat ∧ r.words = 1024 := by decide
  obtain ⟨r, hr, hplace, hlo, hhi⟩ := mapRow_bounds_of_locate h
  have := hrows r hr c hplace
  omega

theorem chan_issue (s : State N) (w : Word) (c : BitVec 1) : (s.issue w).chan c = s.chan c := by
  rcases issue_cases s w with ⟨e, h⟩ | h | ⟨_, -, -, -, h⟩
  · rw [h]; rfl
  · rw [h]
  · rw [h]; rfl

/-- R33: of the register writes, a soft reset alone touches the channels. -/
theorem writeRegister_chan (s : State N) (n : Nat) (w : Word) :
    (n = 1 ∧ w.getLsbD 0 = true) ∨ ∀ c, (s.writeRegister n w).chan c = s.chan c := by
  unfold State.writeRegister
  split
  case h_1 =>
    unfold State.writeCtrl
    split
    next h => exact .inl ⟨rfl, h⟩
    next => exact .inr fun _ => rfl
  case h_3 => exact .inr (chan_issue s w)
  all_goals exact .inr fun _ => rfl

/-- A write to a memory leaves OVL and VR of a channel but for the one it is to. -/
theorem writePlace_filters {place : Place} (hp : place ≠ .register) (n : Nat) (w : Word) (c : BitVec 1) :
    (place = .ovl c ∨ SameOvl c s (s.writePlace place n w)) ∧
    (place = .vr c ∨ SameVr c s (s.writePlace place n w)) := by
  cases place with
  | register => exact absurd rfl hp
  | sfl => exact ⟨.inr .refl, .inr .refl⟩
  | sfs => exact ⟨.inr .refl, .inr .refl⟩
  | bitbuf => exact ⟨.inr .refl, .inr .refl⟩
  | isq => exact ⟨.inr .refl, .inr .refl⟩
  | pcm => exact ⟨.inr .refl, .inr .refl⟩
  | xr ch => exact ⟨.inr (sameOvl_setChan rfl), .inr (sameVr_setChan rfl)⟩
  | sbs ch => exact ⟨.inr (sameOvl_setChan rfl), .inr (sameVr_setChan rfl)⟩
  | ovl ch =>
    exact ⟨(eq_or_chan_setChan_eq s c ch _).imp (congrArg Place.ovl) .of_chan_eq, .inr (sameVr_setChan rfl)⟩
  | vr ch =>
    exact ⟨.inr (sameOvl_setChan rfl), (eq_or_chan_setChan_eq s c ch _).imp (congrArg Place.vr) .of_chan_eq⟩

/-- The access writes a word between two bounds. -/
def WritesBetween (op : HostOp) (lo hi : Nat) : Prop :=
  ∃ off w, op = .write .w32 off w ∧ lo ≤ off.toNat ∧ off.toNat < hi

theorem WritesBetween.next {s : State} {op : HostOp} {lo hi : Nat} (h : WritesBetween op lo hi) (hop : NextHost s op) :
    NextWriteBetween s lo hi := by
  obtain ⟨off, w, rfl, hoff⟩ := h
  exact ⟨off, w, hop, hoff⟩

/-- A host access is a soft reset, or leaves OVL and VR of a channel but for the one it writes to. -/
theorem hostAccess_filters {op : HostOp} (h : hostAccess op s = .next t) :
    (∃ w, op = .write .w32 0x0004#16 w ∧ w.getLsbD 0 = true) ∨
    ((WritesBetween op (0x6000 + 0x1000 * c.toNat) (0x6900 + 0x1000 * c.toNat) ∨ SameOvl c s t) ∧
      (WritesBetween op (0xA000 + 0x1000 * c.toNat) (0xB000 + 0x1000 * c.toNat) ∨ SameVr c s t)) := by
  rcases hostAccess_next h with ⟨_, _, _, -, rfl⟩ | ⟨_, _, -, h⟩ | ⟨off, w, hop, halign, h⟩
  · exact .inr ⟨.inr .refl, .inr .refl⟩
  · obtain ⟨-, rfl⟩ := writeByte_next h
    exact .inr ⟨.inr .refl, .inr .refl⟩
  rcases writeWord_next h with ⟨-, rfl⟩ | ⟨place, n, hloc, -, rfl⟩
  · exact .inr ⟨.inr .refl, .inr .refl⟩
  by_cases hp : place = .register
  · subst hp
    have hn := index_of_locate_register hloc
    rcases writeRegister_chan s n w with ⟨h1, hw⟩ | hsame
    · have hoff : off = 0x0004#16 := BitVec.eq_of_toNat_eq (show off.toNat = 4 by omega)
      exact .inl ⟨w, hoff ▸ hop, hw⟩
    · exact .inr ⟨.inr (SameOvl.of_chan_eq (hsame c)), .inr (SameVr.of_chan_eq (hsame c))⟩
  · obtain ⟨hovl, hvr⟩ := writePlace_filters (s := s) hp n w c
    refine .inr ⟨hovl.imp_left fun hplace => ?_, hvr.imp_left fun hplace => ?_⟩
    · exact ⟨off, w, hop, bounds_of_locate_ovl (hplace ▸ hloc)⟩
    · exact ⟨off, w, hop, bounds_of_locate_vr (hplace ▸ hloc)⟩

/-! ### Commands -/

theorem StepKeeps.sameOvl (h : StepKeeps s t ch) : SameOvl c s t := by
  by_cases hc : c = ch
  · obtain ⟨-, -, -, -, -, -, -, -, -, -, -, -, -, -, -, -, -, hovl, -⟩ := h
    rw [SameOvl, hc, hovl]
  · exact .of_chan_eq (h.onlyChannel c hc)

/-- SYNTH and SYNTHG leave OVL, and VR of the other channel. -/
theorem synthesize_filters {ks : List Nat} (h : synthesize ch ks s = .next t) :
    SameOvl c s t ∧ (c = ch ∨ SameVr c s t) := by
  rcases synthesize_next h with ⟨-, rfl⟩ | ⟨-, u, hu, rfl⟩
  · exact ⟨.refl, .inr .refl⟩
  · have hkeeps := synthSteps_keeps hu
    refine ⟨hkeeps.sameOvl, ?_⟩
    by_cases hc : c = ch
    · exact .inl hc
    · exact .inr (.of_chan_eq (hkeeps.onlyChannel c hc))

/-- R318, R502: a command leaves OVL of a channel but for IMDCT on it and CLRH of it, and VR but for SYNTH and SYNTHG on
it and CLRH of it. -/
theorem exec_filters {i : Instr} {s t : State} (h : exec i s = .next t) :
    (∃ m, i = .clrh m ∧ m.getLsbD c.toNat = true) ∨
    ((i = .imdct c ∨ SameOvl c s t) ∧
      ((∃ k, i = .synth c k) ∨ i = .synthg c ∨ SameVr c s t)) := by
  cases i with
  | nop => cases h; exact .inr ⟨.inr .refl, .inr (.inr .refl)⟩
  | huff =>
    obtain ⟨-, g, line, ⟨-, rfl⟩ | ⟨-, rfl⟩⟩ := execHuff_next h
    · exact .inr ⟨.inr .refl, .inr (.inr .refl)⟩
    · exact .inr ⟨.inr .refl, .inr (.inr .refl)⟩
  | deq ch =>
    rcases execDeq_next h with ⟨-, rfl⟩ | ⟨-, _, _, -, -, rfl⟩
    · exact .inr ⟨.inr .refl, .inr (.inr .refl)⟩
    · exact .inr ⟨.inr (sameOvl_setChan rfl), .inr (.inr (sameVr_setChan rfl))⟩
  | aa ch =>
    obtain ⟨_, -, rfl⟩ := execAa_next h
    exact .inr ⟨.inr (sameOvl_setChan rfl), .inr (.inr (sameVr_setChan rfl))⟩
  | imdct ch =>
    obtain ⟨_, _, -, -, rfl⟩ := execImdct_next h
    exact .inr ⟨(eq_or_chan_setChan_eq s c ch _).imp (congrArg Instr.imdct) .of_chan_eq,
      .inr (.inr (sameVr_setChan rfl))⟩
  | synth ch k =>
    obtain ⟨hovl, hc | hvr⟩ := synthesize_filters (ch := ch) h
    · exact .inr ⟨.inr hovl, .inl ⟨k, by rw [hc]⟩⟩
    · exact .inr ⟨.inr hovl, .inr (.inr hvr)⟩
  | synthg ch =>
    obtain ⟨hovl, hc | hvr⟩ := synthesize_filters (ch := ch) h
    · exact .inr ⟨.inr hovl, .inr (.inl (by rw [hc]))⟩
    · exact .inr ⟨.inr hovl, .inr (.inr hvr)⟩
  | clrh m =>
    have hafter := execClrh_chan h c
    by_cases hm : m.getLsbD c.toNat = true
    · exact .inl ⟨m, rfl, hm⟩
    · rw [if_neg hm] at hafter
      exact .inr ⟨.inr (SameOvl.of_chan_eq hafter), .inr (.inr (SameVr.of_chan_eq hafter))⟩

/-- Settles O28: the cause of the step is a reset, a host access or a command, each of which says what it leaves. -/
theorem filterStateChangesOnlyBy : Obligations.FilterStateChangesOnlyBy := by
  intro s t c h
  rcases step_causes h with ⟨es, hp, -⟩ | ⟨op, es, hop, h⟩ | ⟨i, es, hi, h⟩ | ⟨_, _, rfl⟩
  · exact ⟨fun _ => .inl (.inl ⟨es, hp⟩), fun _ => .inl (.inl ⟨es, hp⟩)⟩
  · rcases hostAccess_filters (c := c) h with ⟨w, rfl, hw⟩ | ⟨hovl, hvr⟩
    · exact ⟨fun _ => .inl (.inr ⟨w, hop, hw⟩), fun _ => .inl (.inr ⟨w, hop, hw⟩)⟩
    · exact ⟨fun hne => .inr (.inl ((hovl.resolve_right hne).next hop)),
        fun hne => .inr (.inl ((hvr.resolve_right hne).next hop))⟩
  · rcases exec_filters (c := c) h with ⟨m, rfl, hm⟩ | ⟨hovl, hvr⟩
    · exact ⟨fun _ => .inr (.inr (.inr ⟨m, hi, hm⟩)), fun _ => .inr (.inr (.inr (.inr ⟨m, hi, hm⟩)))⟩
    · refine ⟨fun hne => .inr (.inr (.inl (hovl.resolve_right hne ▸ hi))), fun hne => ?_⟩
      rcases hvr with ⟨k, rfl⟩ | rfl | hsame
      · exact .inr (.inr (.inl ⟨k, hi⟩))
      · exact .inr (.inr (.inr (.inl hi)))
      · exact absurd hsame hne
  · exact ⟨fun hne => absurd rfl hne, fun hne => absurd rfl hne⟩

end Sys2Proof.Machine
end

section
/-! PROOFS. The two resets (R500, R501): what each leaves of the registers and the memories, and the cells that a
discarded command would have written. Settles O18, O19 and O27. -/

namespace Sys2Proof.Machine

variable {N : NumImpl} {s t u : State N} {ch c : BitVec 1} {p : Params}

/-! ### The registers -/

/-- Everything but the memories, the offsets and the model's own record is as power-on reset leaves it. -/
def FieldsReset (t : State N) : Prop :=
  t = { State.initial N with
    bitbuf := t.bitbuf, sfl := t.sfl, sfs := t.sfs, isq := t.isq, pcm := t.pcm, ch0 := t.ch0, ch1 := t.ch1,
    pending := t.pending, rdata := t.rdata, free := t.free }

/-- R500: with every field and both offsets 0, every register but ID reads 0. -/
theorem registersReset_of_fields (h : FieldsReset t) (hbo : ∀ c, (t.chan c).bo = 0#4) : RegistersReset t := by
  have h0 : t.ch0.bo = 0#4 := hbo 0#1
  have h1 : t.ch1.bo = 0#4 := hbo 1#1
  rw [h]
  refine ⟨rfl, fun n hn => ?_, rfl, rfl⟩
  unfold State.readRegister
  split
  case h_1 => exact absurd rfl hn
  case h_19 =>
    rw [State.synboWord, h0, h1]
    decide
  case h_2 | h_3 | h_5 | h_9 | h_10 | h_11 | h_12 =>
    simp only [State.initial, Params.reset, State.statusWord, State.busy]
    decide
  all_goals rfl

theorem registersReset_powerOn (s : State N) : RegistersReset s.powerOn :=
  registersReset_of_fields rfl fun c => (countersZero_powerOn s).2 c

theorem registersReset_softReset (s : State N) : RegistersReset s.softReset :=
  registersReset_of_fields rfl fun c => (countersZero_softReset s).2 c

/-! ### Power-on reset -/

/-- R500: no memory lists a cell, so that each cell of OVL and VR is ZERO and every other cell holds no value. -/
theorem poweredOn_powerOn (s : State N) : PoweredOn s.powerOn := by
  refine ⟨registersReset_powerOn s, fun c => ?_, fun _ => rfl, fun _ => rfl, fun _ => rfl, fun _ => rfl, fun _ => rfl⟩
  have hchan : s.powerOn.chan c = Channel.reset := ite_self _
  rw [hchan]
  exact ⟨filterCleared_clear Channel.reset, fun _ => rfl, fun _ => rfl⟩

/-- Settles O18: the state after reset is what a power-on reset gives from it. -/
theorem powerOnResetState : Obligations.PowerOnResetState :=
  ⟨poweredOn_powerOn State.reset, fun _ _ hp => ⟨_, step_of_pending_cons hp, poweredOn_powerOn _, rfl, rfl, rfl⟩⟩

/-- Settles O27: the state after reset is what a power-on reset gives from it. -/
theorem resetHasInvariant : Obligations.ResetHasInvariant := inv_powerOn State.reset

/-! ### The cells of a discarded command -/

theorem discard_bitbuf_sfl_sfs (s : State N) (i : Instr) :
    (s.discard i).bitbuf = s.bitbuf ∧ (s.discard i).sfl = s.sfl ∧ (s.discard i).sfs = s.sfs := by
  cases i with
  | nop => exact ⟨rfl, rfl, rfl⟩
  | huff => exact ⟨rfl, rfl, rfl⟩
  | deq ch => simp [State.discard]
  | aa ch => simp [State.discard]
  | imdct ch => simp [State.discard]
  | synth ch k => exact ⟨rfl, rfl, rfl⟩
  | synthg ch => exact ⟨rfl, rfl, rfl⟩
  | clrh m => exact ⟨rfl, rfl, rfl⟩

/-- R501: all of IS for HUFF. -/
theorem get_discard_isq (s : State N) (i : Instr) (a : Nat) :
    Store.get unspecified (s.discard i).isq a = if i = .huff then none else Store.get unspecified s.isq a := by
  cases i with
  | huff => exact Store.get_forget s.isq (fun _ => true) a
  | nop => rfl
  | deq ch => simp [State.discard]
  | aa ch => simp [State.discard]
  | imdct ch => simp [State.discard]
  | synth ch k => rfl
  | synthg ch => rfl
  | clrh m => rfl

theorem chan_setChan (s : State N) (ch c : BitVec 1) (x : Channel N) :
    (s.setChan ch x).chan c = if ch = c then x else s.chan c := by
  by_cases hc : ch = c
  · rw [if_pos hc, hc, State.setChan_chan_self]
  · rw [if_neg hc, State.setChan_chan_ne s (Ne.symm hc)]

/-- R501: all of XR of the channel for DEQ and AA. -/
theorem get_discard_xr (s : State N) (i : Instr) (c : BitVec 1) (a : Nat) :
    Store.get unspecified ((s.discard i).chan c).xr a =
      if i = .deq c ∨ i = .aa c then none else Store.get unspecified (s.chan c).xr a := by
  cases i with
  | deq ch => by_cases hc : ch = c <;> simp [State.discard, chan_setChan, Store.get_forget, hc]
  | aa ch => by_cases hc : ch = c <;> simp [State.discard, chan_setChan, Store.get_forget, hc]
  | imdct ch => by_cases hc : ch = c <;> simp [State.discard, chan_setChan, hc]
  | nop => rfl
  | huff => rfl
  | synth ch k => rfl
  | synthg ch => rfl
  | clrh m => rfl

/-- R501: all of SBS of the channel for IMDCT. -/
theorem get_discard_sbs (s : State N) (i : Instr) (c : BitVec 1) (a : Nat) :
    Store.get unspecified ((s.discard i).chan c).sbs a =
      if i = .imdct c then none else Store.get unspecified (s.chan c).sbs a := by
  cases i with
  | imdct ch => by_cases hc : ch = c <;> simp [State.discard, chan_setChan, Store.get_forget, hc]
  | deq ch => by_cases hc : ch = c <;> simp [State.discard, chan_setChan, hc]
  | aa ch => by_cases hc : ch = c <;> simp [State.discard, chan_setChan, hc]
  | nop => rfl
  | huff => rfl
  | synth ch k => rfl
  | synthg ch => rfl
  | clrh m => rfl

/-! ### The PCM cells of a discarded synthesis -/

/-- The command synthesizes on channel `ch`. -/
abbrev SynthesizesOn (i : Instr) (ch : BitVec 1) : Prop := i = .synthg ch ∨ ∃ k, i = .synth ch k

theorem discard_pcm_of_synthesizes {i : Instr} (h : SynthesizesOn i ch) :
    (s.discard i).pcm = s.pcm.forget (pcmOfChannel s.snap.cfg.stereo ch) := by
  rcases h with rfl | ⟨k, rfl⟩
  · rfl
  · rfl

theorem discard_pcm_eq_or (s : State N) (i : Instr) :
    (s.discard i).pcm = s.pcm ∨ ∃ ch, SynthesizesOn i ch := by
  cases i with
  | synth ch k => exact .inr ⟨ch, .inr ⟨k, rfl⟩⟩
  | synthg ch => exact .inr ⟨ch, .inl rfl⟩
  | deq ch => exact .inl (s.setChan_pcm ch _)
  | aa ch => exact .inl (s.setChan_pcm ch _)
  | imdct ch => exact .inl (s.setChan_pcm ch _)
  | nop => exact .inl rfl
  | huff => exact .inl rfl
  | clrh m => exact .inl rfl

/-- R358: of the 1152 cells of PCM, those that the reset makes unspecified are those of the channel's 576 samples. -/
theorem pcmOfChannel_iff {a : Nat} (ha : a < 1152) :
    pcmOfChannel p.cfg.stereo ch a = true ↔ ∃ n, n < 576 ∧ SynthAccepts p ch ∧ a = pcmCell p ch n := by
  have hch := ch.isLt
  cases hstereo : p.cfg.stereo with
  | true =>
    simp only [pcmOfChannel, SynthAccepts, pcmCell, hstereo, if_true, decide_eq_true_eq, or_true, true_and]
    exact ⟨fun h => ⟨a / 2, by omega, by omega⟩, fun ⟨n, _, h⟩ => by omega⟩
  | false => simp [pcmOfChannel, SynthAccepts, pcmCell, hstereo, and_comm]

/-- A memory in canonical form holds no value past its last cell. -/
theorem Store.get_eq_none_of_le {v n a : Nat} {m : Store v} (hm : Store.wf unspecified n m = true) (ha : n ≤ a) :
    Store.get unspecified m a = none := by
  obtain ⟨-, hlt⟩ := Store.wf_iff.1 hm
  refine Store.get_of_not_mem fun e he => ?_
  have := (hlt e he).1
  omega

/-- R501: the cells that a command would have written, as log entry 8 reads the rule's list. -/
theorem discards_discard (hs : s.memoryWf = true) (i : Instr) : Discards i s.snap s (s.discard i) := by
  obtain ⟨-, -, -, -, hpcm, -⟩ := memoryWf_iff.1 hs
  obtain ⟨hbit, hsfl, hsfs⟩ := discard_bitbuf_sfl_sfs s i
  refine ⟨hbit, hsfl, hsfs, get_discard_isq s i, get_discard_xr s i, get_discard_sbs s i, fun a hkept => ?_,
    fun ch n hi haccepts hn => ?_⟩
  · rcases discard_pcm_eq_or s i with h | ⟨ch, hi⟩
    · rw [h]
    rw [discard_pcm_of_synthesizes hi, Store.get_forget]
    by_cases ha : a < 1152
    · rw [if_neg ((pcmOfChannel_iff ha).not.2 (hkept ch hi))]
    · rw [Store.get_eq_none_of_le hpcm (by omega), ite_self]
  · rw [discard_pcm_of_synthesizes hi, Store.get_forget,
      if_pos ((pcmOfChannel_iff (pcmCell_lt_1152 hn)).2 ⟨n, hn, haccepts, rfl⟩)]

/-! ### Soft reset -/

theorem sameKeptMemories_softReset (s : State N) : SameKeptMemories s.discardLatched s.softReset := by
  refine ⟨rfl, rfl, rfl, rfl, rfl, fun c => ?_⟩
  rcases channel_cases c with rfl | rfl
  · exact ⟨rfl, rfl⟩
  · exact ⟨rfl, rfl⟩

theorem filterCleared_softReset (s : State N) (c : BitVec 1) : FilterCleared (s.softReset.chan c) := by
  rcases channel_cases c with rfl | rfl
  · exact filterCleared_clear s.discardLatched.ch0
  · exact filterCleared_clear s.discardLatched.ch1

theorem discardLatched_of_latch {l : Latch} {i : Instr} (hl : s.latch = some l) (hi : decode l.word = .ok i) :
    s.discardLatched = s.discard i := by
  simp only [State.discardLatched, hl, hi]

theorem Discards.of_same {i : Instr} (h : Discards i p s t) (k : SameKeptMemories t u) : Discards i p s u := by
  obtain ⟨hbit, hsfl, hsfs, hisq, hpcm, hchan⟩ := k
  simp only [Discards, hbit, hsfl, hsfs, hisq, hpcm, (hchan _).1, (hchan _).2]
  exact h

/-- R33, R501: a CTRL write with bit 0 = 1, BUSY or not, is a soft reset. -/
theorem hostAccess_softReset {w : Word} (hw : w.getLsbD 0 = true) :
    hostAccess (.write .w32 0x0004#16 w) s = .next s.softReset := by
  rw [hostAccess_write_register (k := 1) rfl (by decide), State.writeRegister, State.writeCtrl, if_pos hw]

/-- Settles O19: the write is a soft reset, which first discards the latched command, if there is one, and then keeps
every memory but OVL and VR. -/
theorem softResetClearsAndDiscards : Obligations.SoftResetClearsAndDiscards := by
  intro s w hw
  refine ⟨fun hl => ?_, fun l i hinv hl hi => ?_⟩
  · have hsame := sameKeptMemories_softReset s
    rw [State.discardLatched, hl] at hsame
    exact ⟨_, hostAccess_softReset hw, registersReset_softReset s, filterCleared_softReset s, hsame⟩
  · obtain ⟨hm, -⟩ := inv_iff.1 hinv
    have hdiscards := discards_discard hm i
    rw [State.snap_of_latch s hl, ← discardLatched_of_latch hl hi] at hdiscards
    exact ⟨_, hostAccess_softReset hw, registersReset_softReset s, filterCleared_softReset s,
      hdiscards.of_same (sameKeptMemories_softReset s)⟩

end Sys2Proof.Machine
end

section
/-! PROOFS. The words of the registers (R31–R39, R50–R53) and the host's accesses while BUSY (R405, R511): a register
answers its fields in every state, and a memory races with the running command. Settles O21. -/

namespace Sys2Proof.Machine

variable {N : NumImpl} {s : State N} {off : BitVec 16} {w : Word}

/-! ### The words of the registers -/

/-- R31: a register reads as its fields at their places, and an unlisted one as 0. A word of several fields is compared
bit by bit, each bit being that of its field or 0; a word of one field is the field extended by zeros. -/
theorem readRegister_eq_layout (s : State N) (k : Nat) : s.readRegister k = (registerLayout s).getD k 0#32 := by
  unfold State.readRegister
  split
  case h_1 | h_4 | h_18 => rfl
  case h_20 =>
    have hlen : (registerLayout s).length ≤ k := by
      by_contra! hlt
      have hlt : k < 19 := hlt
      interval_cases k <;> contradiction
    rw [List.getD_eq_default _ _ hlen]
  case h_2 | h_3 | h_5 | h_9 | h_10 | h_11 | h_12 | h_19 =>
    refine BitVec.eq_of_getLsbD_eq fun i hi => ?_
    simp only [registerLayout, List.getD_cons_succ, List.getD_cons_zero, Ctrl.word, State.statusWord, State.busy,
      Cfg.word, Gain.word, Tsel.word, Region.word, Block.word, State.synboWord, bit, BitVec.getLsbD_or,
      getLsbD_flagAt _ i _ hi, getLsbD_atBit _ i _ hi, BitVec.getLsbD_append]
    grind
  all_goals exact BitVec.setWidth_eq_append (by decide)

/-- R405: a word read at a register's offset, BUSY or not, answers the register. -/
theorem hostAccess_read_register {k : Nat} (ho : off.toNat = 4 * k) (hk : k < 64) :
    hostAccess (.read .w32 off) s = .next { s with rdata := some (s.readRegister k) } := by
  simp [hostAccess, ho, accepts, State.readWord, locate_register hk, State.readPlace, State.answer]

/-! ### Memories while BUSY -/

/-- R100: a row of the map that holds an offset is the one that the offset is located in. -/
theorem locate_of_holds {r : MapRow} (hr : r ∈ windowMap) {a : Nat} (ha : r.holds a = true) :
    locate a = some (r.place, (a - r.base) / 4) := by
  rw [locate, find?_of_disjoint windowMap_disjoint hr ha, Option.map_some]

/-- R511: the word accesses to a memory while BUSY. -/
theorem hostAccess_word_races (hb : s.busy = true) (halign : off.toNat % 4 = 0) {place : Place} {n : Nat}
    (hloc : locate off.toNat = some (place, n)) (hp : place ≠ .register) (w : Word) :
    hostAccess (.read .w32 off) s = .fault .hostRace ∧ hostAccess (.write .w32 off w) s = .fault .hostRace := by
  simp [hostAccess, accepts, halign, State.readWord, State.writeWord, hloc, hp, hb]

/-- R511: the byte accesses to BITBUF while BUSY. -/
theorem hostAccess_byte_races (hb : s.busy = true) (hlo : 0x1000 ≤ off.toNat) (hhi : off.toNat < 0x2000) (w : Word) :
    hostAccess (.read .w8 off) s = .fault .hostRace ∧ hostAccess (.write .w8 off w) s = .fault .hostRace := by
  have haccepts : accepts .w8 off.toNat = true := accepts_iff.2 (.inr ⟨rfl, hlo, hhi⟩)
  simp [hostAccess, haccepts, State.readByte, State.writeByte, hb]

/-- Settles O21: each range listed is the row of a memory in the window's map. -/
theorem memoryAccessWhileBusyFaults : Obligations.MemoryAccessWhileBusyFaults := by
  intro s off w
  refine ⟨fun halign hpage => ⟨?_, readRegister_eq_layout s _, ?_⟩, ?_,
    fun hb hlo hhi => hostAccess_byte_races hb hlo hhi w⟩
  · exact hostAccess_read_register (by omega) (by omega)
  · exact ⟨_, hostAccess_write_register (k := off.toNat / 4) (by omega) (by omega) w⟩
  · rintro hb halign ⟨lo, hi, hmem, hlo, hhi⟩
    have hrows : ∀ g ∈ [(0x100, 0x154), (0x160, 0x1F0), (0x1000, 0x2000), (0x2000, 0x2900), (0x4000, 0x4900),
        (0x5000, 0x5900), (0x6000, 0x6900), (0x7000, 0x7900), (0x8000, 0x8900), (0x9000, 0x9900),
        (0xA000, 0xB000), (0xB000, 0xC000), (0xC000, 0xD200)],
        ∃ r ∈ windowMap, r.place ≠ .register ∧ r.base = g.1 ∧ r.base + 4 * r.words = g.2 := by decide
    obtain ⟨r, hr, hp, hbase, hend⟩ := hrows _ hmem
    have hholds : r.holds off.toNat = true := by
      simp only [MapRow.holds, Bool.and_eq_true, decide_eq_true_eq]
      omega
    exact hostAccess_word_races hb halign (locate_of_holds hr hholds) hp w

end Sys2Proof.Machine
end
